-- ==== Sys2Proof/Word.lean ====
section
/-! DEFINITION. Word.lean: the names of the machine's word types.

Numbers are as rules R7 and R8 write them: bit 0 of a register is its least significant bit, and integers of
the pseudocode are mathematical (`Nat`, `Int`) unless a rule narrows them. -/

namespace Sys2Proof

/-- One byte of the bitstream (rule R60). -/
abbrev Byte := BitVec 8

/-- One word written to the command port `CMD` (rule R81). -/
abbrev CommandWord := BitVec 32

/-- The host's data word: wide enough for the widest register of rule R46. -/
abbrev HostWord := BitVec 64

end Sys2Proof
end

