-- ==== Sys2Proof/Config.lean ====
section
/-! DEFINITION. Config.lean: the implementation parameters of rule R6, and the free values.

A parameter has the value rule R6 fixes. The parameters the spec marks OPEN (`92_eei_decisions.md`, last
section) are the definitions `syncCode`, `crc8Poly`, `crc16Poly`, `varintMaxExtra`, `sideExtraMs`,
`negShiftSupport`, `sampleW` and `strictReset`: the meanings mention each only by its name (log entry 14).

The free values are opaque: nothing can be proved about which value they are (log entries 3, 4 and 5). -/

namespace Sys2Proof.Config

/-- `RD_MAX`: the largest field width one RDU or RDS reads. -/
abbrev rdMax : Nat := 64
/-- `SAMPLE_W`: the width of one word of sample memory. OPEN, 4 to 40. -/
abbrev sampleW : Nat := 32
/-- `ACC_W`: the width of signed intermediate arithmetic. -/
abbrev accW : Nat := 64
/-- `MAX_BLOCK`: the largest block size, and the number of words in one plane of `SMP`. -/
abbrev maxBlock : Nat := 65536
/-- `MAX_CH`: the number of planes of `SMP`. -/
abbrev maxCh : Nat := 8
/-- `MAX_ORDER`: the largest predictor order, and the number of entries of `COEF`. -/
abbrev maxOrder : Nat := 32
/-- `MAX_PREC`: the largest coefficient precision. -/
abbrev maxPrec : Nat := 16
/-- `RAW_MAX`: the number of bytes one RDBYTES can deliver. -/
abbrev rawMax : Nat := 16
/-- `SYNC_CODE`: the 14-bit sync pattern. OPEN. -/
def syncCode : Nat := 0x3FFE
/-- `CRC8_POLY`: x^8 + x^2 + x + 1 without its top term. OPEN. -/
def crc8Poly : BitVec 8 := 0x07#8
/-- `CRC16_POLY`: x^16 + x^15 + x^2 + 1 without its top term. OPEN. -/
def crc16Poly : BitVec 16 := 0x8005#16
/-- `VARINT_MAX_EXTRA`: the largest number of continuation bytes VARINT accepts (C1 of `90_conflicts.md`). OPEN. -/
def varintMaxExtra : Nat := 6
/-- `NEG_SHIFT_SUPPORT`: whether a negative LPC shift is run as a left shift. OPEN. -/
def negShiftSupport : Bool := false
/-- `SIDE_EXTRA_MS`: whether the side channel of mid/side gets the extra bit (C3 of `90_conflicts.md`). OPEN. -/
def sideExtraMs : Bool := true
/-- `STRICT_RESET`: the reset value of `CTRL.STRICT`. OPEN. -/
def strictReset : Bool := true

/-- What a byte of source memory that the host has not written reads as (log entry 2, DESIGN CHOICE). -/
def unwrittenSource : Byte := 0#8

/-- Free value: the word of `SMP` at an address that no command has written since the reset numbered by the
first argument (rule R43, U2: any value). -/
opaque freeSample : Nat → Nat → BitVec sampleW

/-- Free value: the byte `RAW[j]`, `j` the second argument, after the event numbered by the first argument left
it unspecified (rules R27 and R203, U1: any value). -/
opaque freeRaw : Nat → Nat → Byte

/-- Free value: `COEF[j]`, `j` the second argument, after the RESET numbered by the first argument (rule R203,
U3: any value). -/
opaque freeCoef : Nat → Nat → BitVec 16

end Sys2Proof.Config
end

