-- ==== Sys2Proof/Syntax.lean ====
section
/-! DEFINITION. Syntax.lean: the instructions, one constructor per row of `spec/opcode_table.json`.

Rule R80 gives the block two levels. Level 1 is the 13 host commands, each a 32-bit word written to `CMD`.
Level 2 is the 16 stream kinds: three code fields inside the bitstream "select behaviour the way an opcode does".

A level-2 kind is encoded in a few bits of the stream, and what else it works on is a local of the command it
runs inside (rule R20: "the model keeps it as a local of the command's function"). Those locals are operands of
the constructor that its encoding does not carry: the plane `ch` of a subframe, and the `Part` of a partition
(log entry 7). -/

namespace Sys2Proof

/-- The place of one residual partition: the plane it writes, the sample its first residual belongs to, and how
many residuals it holds (`ch`, `i` and `n` of rule R170's pseudocode). -/
structure Part where
  ch    : BitVec 3
  first : Nat
  count : Nat
  deriving DecidableEq, Repr

/-- The instructions: host commands (rule R81) and stream kinds (rules R88, R93, R98). -/
inductive Instr where
  /-- RESET (rule R203). -/
  | reset
  /-- CRCRST m (rule R118). -/
  | crcrst (m : BitVec 2)
  /-- RDU n (rule R112). -/
  | rdu (n : BitVec 7)
  /-- RDS n (rule R113). -/
  | rds (n : BitVec 7)
  /-- RDUNARY t (rule R114), `t` the terminating bit. -/
  | rdunary (t : Bool)
  /-- ALIGN (rule R115). -/
  | align
  /-- RDBYTES n (rule R116). -/
  | rdbytes (n : BitVec 5)
  /-- VARINT (rule R130). -/
  | varint
  /-- FRAMEHDR (rule R134). -/
  | framehdr
  /-- SUBFRAME ch (rule R150). -/
  | subframe (ch : BitVec 3)
  /-- RESID ch, ord (rule R170). -/
  | resid (ch : BitVec 3) (ord : BitVec 6)
  /-- DECORR (rule R185). -/
  | decorr
  /-- FRAME (rule R195). -/
  | frame
  /-- CONSTANT (rule R153), `w` the wasted-bits flag of the subframe header. -/
  | constant (ch : BitVec 3) (w : Bool)
  /-- VERBATIM (rule R154). -/
  | verbatim (ch : BitVec 3) (w : Bool)
  /-- FIXED0 (rule R161). -/
  | fixed0 (ch : BitVec 3) (w : Bool)
  /-- FIXED1 (rule R162). -/
  | fixed1 (ch : BitVec 3) (w : Bool)
  /-- FIXED2 (rule R163). -/
  | fixed2 (ch : BitVec 3) (w : Bool)
  /-- FIXED3 (rule R164). -/
  | fixed3 (ch : BitVec 3) (w : Bool)
  /-- FIXED4 (rule R165). -/
  | fixed4 (ch : BitVec 3) (w : Bool)
  /-- LPC of order `o + 1` (rule R160). -/
  | lpc (ch : BitVec 3) (o : BitVec 5) (w : Bool)
  /-- RICE4 (rule R173), `k` the Rice parameter. -/
  | rice4 (p : Part) (k : BitVec 4)
  /-- ESC4 (rule R176), `w` the raw width. -/
  | esc4 (p : Part) (w : BitVec 5)
  /-- RICE5 (rule R174). -/
  | rice5 (p : Part) (k : BitVec 5)
  /-- ESC5 (rule R177). -/
  | esc5 (p : Part) (w : BitVec 5)
  /-- INDEP (rule R186): `c + 1` independent channels. -/
  | indep (c : BitVec 3)
  /-- LSIDE (rule R187). -/
  | lside
  /-- RSIDE (rule R188). -/
  | rside
  /-- MSIDE (rule R189). -/
  | mside
  deriving DecidableEq, Repr

/-- The subframe kinds a type selector names (rule R93). -/
inductive SubKind where
  | constant
  | verbatim
  | fixed0
  | fixed1
  | fixed2
  | fixed3
  | fixed4
  /-- LPC of order `o + 1`. -/
  | lpc (o : BitVec 5)
  deriving DecidableEq, Repr

/-- Where an encoded instruction stands: the field whose bits it is, with the locals its encoding does not carry. -/
inductive Slot where
  /-- The command port `CMD` (rule R81). -/
  | command
  /-- The first 8 bits of a subframe decoded into plane `ch` (rule R92). -/
  | header (ch : BitVec 3)
  /-- The parameter of a partition under coding method 0 (rule R98). -/
  | param0 (p : Part)
  /-- The parameter of a partition under coding method 1 (rule R98). -/
  | param1 (p : Part)
  /-- The channel-assignment code (rule R88). -/
  | channels
  deriving DecidableEq, Repr

/-- Why the decoder refuses a field. Who raises the fault the spec names for it: rules R83 and R101. -/
inductive DecodeError where
  /-- The number of bits is not that of an instruction of the slot. -/
  | length
  /-- No row of rule R81 matches the command word (`BadCommand`). -/
  | noCommand
  /-- An operand is outside its range (rule R82, `BadCommand`). -/
  | operandRange
  /-- The reserved bit of a subframe header is set (rule R92, `ReservedCodeUsed`). -/
  | reservedBit
  /-- The type selector is reserved (rule R93, `ReservedCodeUsed`). -/
  | reservedType
  /-- The bits are no parameter of that length (rule R98). -/
  | noParameter
  /-- The channel-assignment code is reserved (rule R88, `ReservedCodeUsed`). -/
  | reservedChannels
  deriving DecidableEq, Repr

end Sys2Proof
end

