-- ==== Sys2Proof/WellFormed.lean ====
section
/-! DEFINITION. WellFormed.lean: which instructions have an encoding.

Rule R82 bounds the operands of RDU, RDS, RDBYTES and RESID below what their fields can hold. Rule R98 keeps the
escape value out of a Rice parameter. A partition lies inside its plane (rule R43). -/

namespace Sys2Proof

/-- A partition lies inside one plane of sample memory. -/
def Part.wellFormed (p : Part) : Bool := decide (p.first + p.count ≤ Config.maxBlock)

/-- The checks of rules R82 and R98. -/
def Instr.wellFormed : Instr → Bool
  | .reset => true
  | .crcrst _ => true
  | .rdu n => decide (n.toNat ≤ Config.rdMax)
  | .rds n => decide (n.toNat ≤ Config.rdMax)
  | .rdunary _ => true
  | .align => true
  | .rdbytes n => decide (n.toNat ≤ Config.rawMax)
  | .varint => true
  | .framehdr => true
  | .subframe _ => true
  | .resid _ ord => decide (ord.toNat ≤ Config.maxOrder)
  | .decorr => true
  | .frame => true
  | .constant _ _ => true
  | .verbatim _ _ => true
  | .fixed0 _ _ => true
  | .fixed1 _ _ => true
  | .fixed2 _ _ => true
  | .fixed3 _ _ => true
  | .fixed4 _ _ => true
  | .lpc _ _ _ => true
  | .rice4 p k => p.wellFormed && decide (k ≠ 15#4)
  | .esc4 p _ => p.wellFormed
  | .rice5 p k => p.wellFormed && decide (k ≠ 31#5)
  | .esc5 p _ => p.wellFormed
  | .indep _ => true
  | .lside => true
  | .rside => true
  | .mside => true

end Sys2Proof
end

