-- ==== Sys2Proof/Decode.lean ====
section
/-! DEFINITION. Decode.lean: from bits to instructions and back.

`decode` is total on any number in any slot and refuses by name. A field's bits are one number with bit 0 the
last bit of the field, as `spec/opcode_table.json` numbers them (rule R7, rule R61: the first bit consumed is
the most significant). The meanings of the host commands read the stream with the same `SubKind.ofSelector`,
`paramWidth` and `escapeValue`. -/

namespace Sys2Proof

/-! ## Fields -/

/-- `v[hi:lo]` of rule R7. -/
def bitField (v hi lo : Nat) : Nat := (v / 2 ^ lo) % 2 ^ (hi - lo + 1)

/-! ## Host command words (rules R81 to R83) -/

/-- A word selects a row when `w & mask = match` (rule R81). -/
def selects (w mask value : CommandWord) : Bool := (w &&& mask) == value

/-- An instruction whose operands are in range, or the refusal of rule R82. -/
def inRange (i : Instr) : Except DecodeError Instr :=
  if i.wellFormed then .ok i else .error .operandRange

/-- The table of rule R81, row by row, with the ranges of rule R82. -/
def decodeCommand (w : CommandWord) : Except DecodeError Instr :=
  if selects w 0xFFFFFFFF#32 0x01000000#32 then .ok .reset
  else if selects w 0xFFFFFFFC#32 0x02000000#32 then .ok (.crcrst (w.extractLsb' 0 2))
  else if selects w 0xFFFFFF80#32 0x10000000#32 then inRange (.rdu (w.extractLsb' 0 7))
  else if selects w 0xFFFFFF80#32 0x11000000#32 then inRange (.rds (w.extractLsb' 0 7))
  else if selects w 0xFFFFFFFE#32 0x12000000#32 then .ok (.rdunary (w.getLsbD 0))
  else if selects w 0xFFFFFFFF#32 0x13000000#32 then .ok .align
  else if selects w 0xFFFFFFE0#32 0x14000000#32 then inRange (.rdbytes (w.extractLsb' 0 5))
  else if selects w 0xFFFFFFFF#32 0x15000000#32 then .ok .varint
  else if selects w 0xFFFFFFFF#32 0x20000000#32 then .ok .framehdr
  else if selects w 0xFFFFFFF8#32 0x21000000#32 then .ok (.subframe (w.extractLsb' 0 3))
  else if selects w 0xFFFFC0F8#32 0x22000000#32 then inRange (.resid (w.extractLsb' 0 3) (w.extractLsb' 8 6))
  else if selects w 0xFFFFFFFF#32 0x23000000#32 then .ok .decorr
  else if selects w 0xFFFFFFFF#32 0x24000000#32 then .ok .frame
  else .error .noCommand

/-! ## Subframe headers (rules R92, R93) -/

/-- The type selector of rule R93: 2 to 7 and 13 to 31 are reserved. -/
def SubKind.ofSelector (t : Nat) : Option SubKind :=
  match t with
  | 0 => some .constant
  | 1 => some .verbatim
  | 8 => some .fixed0
  | 9 => some .fixed1
  | 10 => some .fixed2
  | 11 => some .fixed3
  | 12 => some .fixed4
  | _ => if 32 ≤ t ∧ t ≤ 63 then some (.lpc (BitVec.ofNat 5 (t - 32))) else none

/-- The type selector of a kind. -/
def SubKind.selector : SubKind → Nat
  | .constant => 0
  | .verbatim => 1
  | .fixed0 => 8
  | .fixed1 => 9
  | .fixed2 => 10
  | .fixed3 => 11
  | .fixed4 => 12
  | .lpc o => 32 + o.toNat

/-- The instruction of a kind, decoded into plane `ch` with wasted-bits flag `w`. -/
def SubKind.instr (ch : BitVec 3) (w : Bool) : SubKind → Instr
  | .constant => .constant ch w
  | .verbatim => .verbatim ch w
  | .fixed0 => .fixed0 ch w
  | .fixed1 => .fixed1 ch w
  | .fixed2 => .fixed2 ch w
  | .fixed3 => .fixed3 ch w
  | .fixed4 => .fixed4 ch w
  | .lpc o => .lpc ch o w

/-- The 8 bits `0tttttt f` of rule R92. -/
def decodeHeader (ch : BitVec 3) (b : Nat) : Except DecodeError Instr :=
  if bitField b 7 7 = 1 then .error .reservedBit
  else
    match SubKind.ofSelector (bitField b 6 1) with
    | some k => .ok (k.instr ch (bitField b 0 0 == 1))
    | none => .error .reservedType

/-- The 8 bits of a subframe header. -/
def headerByte (k : SubKind) (w : Bool) : Nat := 2 * k.selector + w.toNat

/-! ## Partition parameters (rule R98) -/

/-- The width of the parameter field under coding method `m` (`pw` of rule R170). -/
def paramWidth (m : Nat) : Nat := if m = 0 then 4 else 5

/-- The escape value under coding method `m` (`esc` of rule R170). -/
def escapeValue (m : Nat) : Nat := if m = 0 then 15 else 31

/-- Method 0: 4 bits below 15, or `1111` and a 5-bit raw width. -/
def decodeParam0 (p : Part) (nbits v : Nat) : Except DecodeError Instr :=
  if nbits = 4 ∧ v < escapeValue 0 then .ok (.rice4 p (BitVec.ofNat 4 v))
  else if nbits = 9 ∧ v / 32 = escapeValue 0 then .ok (.esc4 p (BitVec.ofNat 5 (v % 32)))
  else .error .noParameter

/-- Method 1: 5 bits below 31, or `11111` and a 5-bit raw width. -/
def decodeParam1 (p : Part) (nbits v : Nat) : Except DecodeError Instr :=
  if nbits = 5 ∧ v < escapeValue 1 then .ok (.rice5 p (BitVec.ofNat 5 v))
  else if nbits = 10 ∧ v / 32 = escapeValue 1 then .ok (.esc5 p (BitVec.ofNat 5 (v % 32)))
  else .error .noParameter

/-! ## Channel-assignment codes (rule R88) -/

/-- Codes 11 to 15 are reserved. -/
def decodeChannels (a : Nat) : Except DecodeError Instr :=
  if a ≤ 7 then .ok (.indep (BitVec.ofNat 3 a))
  else if a = 8 then .ok .lside
  else if a = 9 then .ok .rside
  else if a = 10 then .ok .mside
  else .error .reservedChannels

/-! ## The decoder and the encoder -/

/-- The instruction that `nbits` bits with the value `w` are in a slot. -/
def decode : Slot → (nbits w : Nat) → Except DecodeError Instr
  | .command, nbits, w =>
    if nbits = 32 ∧ w < 2 ^ 32 then decodeCommand (BitVec.ofNat 32 w) else .error .length
  | .header ch, nbits, w => if nbits = 8 ∧ w < 2 ^ 8 then decodeHeader ch w else .error .length
  | .param0 p, nbits, w => decodeParam0 p nbits w
  | .param1 p, nbits, w => decodeParam1 p nbits w
  | .channels, nbits, w => if nbits = 4 ∧ w < 2 ^ 4 then decodeChannels w else .error .length

/-- The slot an instruction's bits stand in. -/
def Instr.slot : Instr → Slot
  | .reset => .command
  | .crcrst _ => .command
  | .rdu _ => .command
  | .rds _ => .command
  | .rdunary _ => .command
  | .align => .command
  | .rdbytes _ => .command
  | .varint => .command
  | .framehdr => .command
  | .subframe _ => .command
  | .resid _ _ => .command
  | .decorr => .command
  | .frame => .command
  | .constant ch _ => .header ch
  | .verbatim ch _ => .header ch
  | .fixed0 ch _ => .header ch
  | .fixed1 ch _ => .header ch
  | .fixed2 ch _ => .header ch
  | .fixed3 ch _ => .header ch
  | .fixed4 ch _ => .header ch
  | .lpc ch _ _ => .header ch
  | .rice4 p _ => .param0 p
  | .esc4 p _ => .param0 p
  | .rice5 p _ => .param1 p
  | .esc5 p _ => .param1 p
  | .indep _ => .channels
  | .lside => .channels
  | .rside => .channels
  | .mside => .channels

/-- The number of bits of an instruction (the `width` of its row of the opcode table). -/
def Instr.width : Instr → Nat
  | .reset => 32
  | .crcrst _ => 32
  | .rdu _ => 32
  | .rds _ => 32
  | .rdunary _ => 32
  | .align => 32
  | .rdbytes _ => 32
  | .varint => 32
  | .framehdr => 32
  | .subframe _ => 32
  | .resid _ _ => 32
  | .decorr => 32
  | .frame => 32
  | .constant _ _ => 8
  | .verbatim _ _ => 8
  | .fixed0 _ _ => 8
  | .fixed1 _ _ => 8
  | .fixed2 _ _ => 8
  | .fixed3 _ _ => 8
  | .fixed4 _ _ => 8
  | .lpc _ _ _ => 8
  | .rice4 _ _ => 4
  | .esc4 _ _ => 9
  | .rice5 _ _ => 5
  | .esc5 _ _ => 10
  | .indep _ => 4
  | .lside => 4
  | .rside => 4
  | .mside => 4

/-- A command word: the opcode in bits 31:24 and the operands below (rule R81). -/
def commandBits (op operands : Nat) : Nat := op * 2 ^ 24 + operands

/-- The bits of an instruction, from the encodings of rules R81, R88, R92, R93 and R98. -/
def encode : Instr → Nat
  | .reset => commandBits 0x01 0
  | .crcrst m => commandBits 0x02 m.toNat
  | .rdu n => commandBits 0x10 n.toNat
  | .rds n => commandBits 0x11 n.toNat
  | .rdunary t => commandBits 0x12 t.toNat
  | .align => commandBits 0x13 0
  | .rdbytes n => commandBits 0x14 n.toNat
  | .varint => commandBits 0x15 0
  | .framehdr => commandBits 0x20 0
  | .subframe ch => commandBits 0x21 ch.toNat
  | .resid ch ord => commandBits 0x22 (ord.toNat * 2 ^ 8 + ch.toNat)
  | .decorr => commandBits 0x23 0
  | .frame => commandBits 0x24 0
  | .constant _ w => headerByte .constant w
  | .verbatim _ w => headerByte .verbatim w
  | .fixed0 _ w => headerByte .fixed0 w
  | .fixed1 _ w => headerByte .fixed1 w
  | .fixed2 _ w => headerByte .fixed2 w
  | .fixed3 _ w => headerByte .fixed3 w
  | .fixed4 _ w => headerByte .fixed4 w
  | .lpc _ o w => headerByte (.lpc o) w
  | .rice4 _ k => k.toNat
  | .esc4 _ w => escapeValue 0 * 2 ^ 5 + w.toNat
  | .rice5 _ k => k.toNat
  | .esc5 _ w => escapeValue 1 * 2 ^ 5 + w.toNat
  | .indep c => c.toNat
  | .lside => 8
  | .rside => 9
  | .mside => 10

/-! ## The host's question about one word of the opcode table -/

/-- The locals the host's question does not give: plane 0, and the one-residual partition at sample 0. -/
def tablePart : Part := { ch := 0#3, first := 0, count := 1 }

/-- The slot a word of the opcode table stands in, told by its length alone (log entry 8). A length of whole
bytes is the length the table gives a row, rounded up: 16 bits hold a 9-bit or a 10-bit escape parameter. -/
def tableSlot (nbits w : Nat) : Slot × Nat :=
  match nbits with
  | 32 => (.command, 32)
  | 8 => (.header 0#3, 8)
  | 9 => (.param0 tablePart, 9)
  | 10 => (.param1 tablePart, 10)
  | 16 => if w / 32 = escapeValue 0 then (.param0 tablePart, 9) else (.param1 tablePart, 10)
  | 5 => (.param1 tablePart, 5)
  | n => (.channels, n)

/-- The instruction the decoder reads from a word of the opcode table. -/
def decodeTableWord (nbits w : Nat) : Option Instr :=
  (decode (tableSlot nbits w).1 (tableSlot nbits w).2 w).toOption

end Sys2Proof
end

