-- ==== Sys2Proof/Machine/State.lean ====
section
/-! DEFINITION. Machine/State.lean: the state of the block (rules R20 to R49), the reasons a step stops, and reset.

Every register has the width rules R22 to R42 give it. `host`, `reads`, `freeIndex` and `sampleSeed` are the model's
own fields (log entries 1, 3, 4 and 5). -/

namespace Sys2Proof.Machine

/-- One word of sample memory (rule R43). -/
abbrev Sample := BitVec Config.sampleW

/-- A memory: address and content pairs at strictly rising addresses. -/
abbrev Memory (w : Nat) := List (Nat × BitVec w)

/-- `STATUS.STATE` (rule R30). Encoding 3 never occurs (U17). -/
inductive BlockState where
  /-- The last command completed, or none has run since reset. -/
  | ready
  /-- The last command found the input exhausted at a frame boundary. -/
  | done
  /-- A command raised a fatal error. -/
  | fault
  deriving DecidableEq, Repr

/-- The causes of the block's own faults (rule R211). Raising one is no stop of the model: rule R215's sequence
gives the next state. -/
inductive Cause where
  | syncLost
  /-- No rule raises it (rule R212). -/
  | malformedMetadata
  | malformedVarint
  | invalidPartitionOrder
  | invalidShift
  | unexpectedEnd
  | truncatedStream
  | checksumMismatch
  | missingStreamInfo
  | reservedCodeUsed
  | badCommand
  deriving DecidableEq, Repr

/-- What the host does between commands (rule R21, rule R235, rule R241). -/
inductive HostAction where
  /-- Write a command word to `CMD`. -/
  | command (w : CommandWord)
  /-- Write a register by its number. -/
  | writeReg (num : Nat) (v : HostWord)
  /-- Read a register by its number. -/
  | readReg (num : Nat)
  /-- Read a word of `SMP` by its address `c * 65536 + i`. -/
  | readSample (a : BitVec 19)
  /-- Write a word of `SMP`, as rule R235 lets the host do by its own means (log entry 12). -/
  | writeSample (a : BitVec 19) (v : Sample)
  /-- Write at a sample address through the block's host interface, where `SMP` is not writable: it changes nothing
  (rules R21, R43 and R224; log entry 12). -/
  | portWriteSample (a : BitVec 19) (v : Sample)
  /-- Write a byte of the source, which is the host's memory. -/
  | writeSource (a : BitVec 61) (b : Byte)
  /-- The external reset input. -/
  | externalReset
  deriving DecidableEq, Repr

/-- Why the model stops where the spec gives no next state (log entry 16). -/
inductive Fault where
  /-- A bit at or beyond `8 * SRC_LEN` would be consumed: an address rule R60 says does not exist. Raised by ALIGN
  alone, in a state that breaks rule R22's invariant `POS <= 8 * SRC_LEN`, which no run reaches. Safe. -/
  | beyondSource
  /-- A partition would write past its plane: an address rule R43 says does not exist. Raised by RICE4, ESC4, RICE5
  and ESC5 when the operand that places the partition is not well formed, which no command makes it. Safe. -/
  | beyondPlane
  deriving DecidableEq, Repr

/-- Why the model refuses to run an instruction. -/
inductive Refusal where
  /-- The instruction has no meaning yet: raised by an arm of `exec` alone. No arm raises it. Safe. -/
  | notModelled (mnemonic : String)
  deriving DecidableEq, Repr

/-- The state of the block. -/
structure State where
  /-- Source memory `SRC` (rule R60): the bytes the host has written, in canonical form. -/
  src         : List Host.Cell
  /-- `SRC_LEN` (rule R22). -/
  srcLen      : BitVec 61
  /-- `POS`, the bit cursor (rule R23). -/
  pos         : BitVec 64
  /-- `CRC8` (rule R24). -/
  crc8        : BitVec 8
  /-- `CRC16` (rule R25). -/
  crc16       : BitVec 16
  /-- `RV` (rule R26). -/
  rv          : BitVec 64
  /-- `RAW` (rule R27). -/
  raw         : Vector Byte Config.rawMax
  /-- `RAW_LEN` (rule R27). -/
  rawLen      : BitVec 5
  /-- `CTRL.STRICT` (rule R28). -/
  strict      : Bool
  /-- `CTRL.SI_VALID` (rule R28). -/
  siValid     : Bool
  /-- `STATUS.STATE` (rule R30). -/
  st          : BlockState
  /-- `STATUS.HCRC_BAD` (rule R31). -/
  hcrcBad     : Bool
  /-- `STATUS.FCRC_BAD` (rule R31). -/
  fcrcBad     : Bool
  /-- `STATUS.OVF` (rule R33). -/
  ovf         : Bool
  /-- `STATUS.BLKV` (rule R32). -/
  blkv        : Bool
  /-- `ERR_CAUSE` (rule R34). -/
  errCause    : BitVec 8
  /-- `ERR_POS` (rule R35). -/
  errPos      : BitVec 64
  /-- `ERR_FRAME` (rule R36). -/
  errFrame    : BitVec 32
  /-- `FRAME_IDX` (rule R37). -/
  frameIdx    : BitVec 32
  /-- `SI_RATE` (rule R39). -/
  siRate      : BitVec 20
  /-- `SI_BPS` (rule R39). -/
  siBps       : BitVec 6
  /-- `FH_STRATEGY` (rule R40), and the other seven frame header registers below it. -/
  fhStrategy  : BitVec 1
  fhBlocksize : BitVec 17
  fhRate      : BitVec 20
  fhChassign  : BitVec 4
  fhNch       : BitVec 4
  fhBps       : BitVec 6
  fhNumber    : BitVec 36
  fhCrc       : BitVec 8
  /-- `SF_TYPE` (rule R41), and the other seven subframe registers below it. -/
  sfType      : BitVec 2
  sfOrder     : BitVec 6
  sfWasted    : BitVec 6
  sfWidth     : BitVec 6
  lpcPrec     : BitVec 5
  /-- `LPC_SHIFT` (rule R41), signed. -/
  lpcShift    : BitVec 5
  resMethod   : BitVec 1
  resPorder   : BitVec 4
  /-- `COEF` (rule R42), signed. -/
  coef        : Vector (BitVec 16) Config.maxOrder
  /-- Sample memory `SMP` (rule R43): the words written since reset, at the addresses of rule R66. -/
  smp         : Memory Config.sampleW
  /-- The model's own: what the host does next, the next action first (rule R249). -/
  host        : List HostAction
  /-- The model's own: the values the host has read, the newest first (rule R249). -/
  reads       : List HostWord
  /-- The model's own: the number of the next event that leaves a register unspecified. -/
  freeIndex   : Nat
  /-- The model's own: the number of the reset that left the words of `SMP` unspecified. -/
  sampleSeed  : Nat
  deriving DecidableEq, Repr

/-- How a part of a command ends: with a value and the state it leaves; at `raise K` of rule R215, with the state
as it is at the raise; or where the model stops. -/
inductive Res (α : Type) where
  | ok (a : α) (s : State)
  | raised (c : Cause) (s : State)
  | stopped (f : Fault)
  deriving DecidableEq, Repr

/-- The next part of a command runs only after the one before it ended well (rule R215: "no later step of its
pseudocode runs"). -/
def Res.bind {α β : Type} (r : Res α) (f : α → State → Res β) : Res β :=
  match r with
  | .ok a s => f a s
  | .raised c s => .raised c s
  | .stopped e => .stopped e

/-- The block right after reset, with an empty source (rules R49 and R240). `RAW` and `COEF`, which the spec leaves
unspecified, are zero here (log entry 6). -/
def State.reset : State where
  src := []
  srcLen := 0
  pos := 0
  crc8 := 0
  crc16 := 0
  rv := 0
  raw := Vector.replicate Config.rawMax 0
  rawLen := 0
  strict := Config.strictReset
  siValid := false
  st := .ready
  hcrcBad := false
  fcrcBad := false
  ovf := false
  blkv := false
  errCause := 0
  errPos := 0
  errFrame := 0
  frameIdx := 0
  siRate := 0
  siBps := 0
  fhStrategy := 0
  fhBlocksize := 0
  fhRate := 0
  fhChassign := 0
  fhNch := 0
  fhBps := 0
  fhNumber := 0
  fhCrc := 0
  sfType := 0
  sfOrder := 0
  sfWasted := 0
  sfWidth := 0
  lpcPrec := 0
  lpcShift := 0
  resMethod := 0
  resPorder := 0
  coef := Vector.replicate Config.maxOrder 0
  smp := []
  host := []
  reads := []
  freeIndex := 1
  sampleSeed := 0

end Sys2Proof.Machine
end

