-- ==== Sys2Proof/Machine/Flags.lean ====
section
/-! DEFINITION. Machine/Flags.lean: the checksum accumulators, narrowing and its overflow flag, the words of
`STATUS` and `CTRL`, and the cause codes. -/

namespace Sys2Proof.Machine

/-! ## Checksums (rule R111) -/

/-- One bit into the header checksum: shift left within 8 bits, and the polynomial when the bit shifted out differs
from the bit consumed (rule R111). -/
def crc8Step (c : BitVec 8) (b : Bool) : BitVec 8 :=
  if c.getLsbD 7 ^^ b then (c <<< 1) ^^^ Config.crc8Poly else c <<< 1

/-- One bit into the frame checksum (rule R111). -/
def crc16Step (c : BitVec 16) (b : Bool) : BitVec 16 :=
  if c.getLsbD 15 ^^ b then (c <<< 1) ^^^ Config.crc16Poly else c <<< 1

/-! ## Arithmetic (rules R9 and R230) -/

/-- `narrow(v)`: the low `SAMPLE_W` bits of `v` as a two's-complement word (rule R9). -/
def narrow (v : Int) : Sample := BitVec.ofInt Config.sampleW v

/-- Whether `narrow` changes `v`, which sets `OVF` (rules R9 and R33). -/
def narrowLoses (v : Int) : Bool := !decide ((narrow v).toInt = v)

/-- `wrap64(v)` (rule R9). -/
def wrap64 (v : Int) : Int := (BitVec.ofInt Config.accW v).toInt

/-! ## The status words (rules R28 and R29) -/

/-- The two bits of `STATUS.STATE` (rule R30). -/
def BlockState.code : BlockState → BitVec 2
  | .ready => 0
  | .done => 1
  | .fault => 2

/-- `STATUS`, bits 31:6 zero (rule R29). -/
def statusWord (s : State) : BitVec 32 :=
  (BitVec.ofBool s.blkv ++ BitVec.ofBool s.ovf ++ BitVec.ofBool s.fcrcBad ++ BitVec.ofBool s.hcrcBad
    ++ s.st.code).setWidth 32

/-- `CTRL`, bits 31:2 zero (rule R28). -/
def ctrlWord (s : State) : BitVec 32 := (BitVec.ofBool s.siValid ++ BitVec.ofBool s.strict).setWidth 32

/-- The frame flags are cleared at the start of every FRAMEHDR and FRAME (rules R31, R32 and R135). -/
def clearFrameFlags (s : State) : State := { s with hcrcBad := false, fcrcBad := false, blkv := false }

/-- Every SUBFRAME, RESID and DECORR the host issues makes the output view invalid (rule R32). -/
def invalidateBlock (s : State) : State := { s with blkv := false }

/-! ## Cause codes (rules R211 and R214) -/

/-- The value `ERR_CAUSE` takes (rule R211). -/
def Cause.code : Cause → BitVec 8
  | .syncLost => 1
  | .malformedMetadata => 2
  | .malformedVarint => 3
  | .invalidPartitionOrder => 4
  | .invalidShift => 5
  | .unexpectedEnd => 6
  | .truncatedStream => 7
  | .checksumMismatch => 8
  | .missingStreamInfo => 9
  | .reservedCodeUsed => 10
  | .badCommand => 11

/-- Inside a frame-level command the reader's `UnexpectedEnd` is reported as `TruncatedStream` (rule R214). -/
def Cause.atFrameLevel : Cause → Cause
  | .unexpectedEnd => .truncatedStream
  | c => c

end Sys2Proof.Machine
end

