-- ==== Sys2Proof/Machine/Ops.lean ====
section
/-! DEFINITION. Machine/Ops.lean: the named operations the meanings are written over: the two memories, consuming a
bit, taking a fault, reset (the only way back from a fault), and how a command runs. -/

namespace Sys2Proof.Machine

/-! ## Memories as lists at strictly rising addresses -/

/-- The content listed at an address. -/
def Memory.lookup {w : Nat} : Memory w → Nat → Option (BitVec w)
  | [], _ => none
  | c :: m, a => if c.1 = a then some c.2 else Memory.lookup m a

/-- The memory with the content at one address replaced. -/
def Memory.insert {w : Nat} : Memory w → Nat → BitVec w → Memory w
  | [], a, v => [(a, v)]
  | c :: m, a, v =>
    if a < c.1 then (a, v) :: c :: m
    else if a = c.1 then (a, v) :: m
    else c :: Memory.insert m a v

/-- The memory with nothing listed at one address. -/
def Memory.erase {w : Nat} : Memory w → Nat → Memory w
  | [], _ => []
  | c :: m, a => if c.1 = a then m else c :: Memory.erase m a

/-- The addresses rise strictly, from a bound on. -/
def Memory.risingFrom {w : Nat} : Nat → Memory w → Bool
  | _, [] => true
  | lo, c :: m => decide (lo ≤ c.1) && Memory.risingFrom (c.1 + 1) m

/-- The canonical form of source memory: addresses rise strictly and stay below `2^61` (rule R22), and no entry
equals what an unlisted address reads as. -/
def sourceWf (m : Memory 8) : Bool :=
  Memory.risingFrom 0 m && m.all fun c => decide (c.1 < 2 ^ 61) && decide (c.2 ≠ Config.unwrittenSource)

/-- The canonical form of sample memory: addresses rise strictly and stay below `8 * 65536` (rule R66). An unlisted
word has no value (rule R43), so no entry equals it. -/
def samplesWf (m : Memory Config.sampleW) : Bool :=
  Memory.risingFrom 0 m && m.all fun c => decide (c.1 < Config.maxCh * Config.maxBlock)

/-! ## Source memory (rules R60 and R61) -/

/-- `MemRead(a, 1)`: the byte `SRC[a]` (rule R9). -/
def sourceByte (a : Nat) (s : State) : Byte := (Memory.lookup s.src a).getD Config.unwrittenSource

/-- The host's write of one byte of its memory: a byte that an unlisted address reads as is not listed. -/
def writeSource (a : Nat) (b : Byte) (s : State) : State :=
  { s with
    src := if b = Config.unwrittenSource then Memory.erase s.src a else Memory.insert s.src a b }

/-- Bit `p` of the stream: bit `7 - (p mod 8)` of `SRC[p div 8]` (rules R23 and R61). -/
def streamBit (p : Nat) (s : State) : Bool := (sourceByte (p / 8) s).getLsbD (7 - p % 8)

/-- The first stream position that does not exist: `8 * SRC_LEN` (rule R22). -/
def sourceEnd (s : State) : Nat := 8 * s.srcLen.toNat

/-! ## Consuming bits (rule R111) -/

/-- The state after `getbit()`: both checksums absorb the bit and the cursor moves on (rule R111). -/
def consumeBit (s : State) : State :=
  let b := streamBit s.pos.toNat s
  { s with crc8 := crc8Step s.crc8 b, crc16 := crc16Step s.crc16 b, pos := s.pos + 1#64 }

/-- The state after `n` bits have been consumed. -/
def consumeBits : Nat → State → State
  | 0, s => s
  | n + 1, s => consumeBits n (consumeBit s)

/-- `repeat n times: v <- (v << 1) | getbit()` (rule R112). -/
def gatherBits : Nat → Nat → State → Nat × State
  | 0, v, s => (v, s)
  | n + 1, v, s => gatherBits n (2 * v + (streamBit s.pos.toNat s).toNat) (consumeBit s)

/-! ## Sample memory (rules R43 and R66) -/

/-- The word address of `SMP[c][i]` (rule R66). -/
def sampleAddress (c i : Nat) : Nat := c * Config.maxBlock + i

/-- The word at an address of sample memory. A word no command has written since reset has an unspecified value
(rule R43): a free value (log entry 3). -/
def sampleWord (a : Nat) (s : State) : Sample := (Memory.lookup s.smp a).getD (Config.freeSample s.sampleSeed a)

/-- `SMP[c][i]` as a signed number. -/
def readSample (c i : Nat) (s : State) : Int := (sampleWord (sampleAddress c i) s).toInt

/-- A word of sample memory replaced, with no narrowing. -/
def storeSample (a : Nat) (v : Sample) (s : State) : State := { s with smp := Memory.insert s.smp a v }

/-- `MemWrite(c, i, narrow(v))`: the only store, with `OVF` set when the value was cut (rules R9, R33 and R234). -/
def writeSample (c i : Nat) (v : Int) (s : State) : State :=
  { storeSample (sampleAddress c i) (narrow v) s with ovf := s.ovf || narrowLoses v }

/-! ## Taking a fault, and the way back (rules R215 and R218) -/

/-- `raise K` (rule R215): the cause, the cursor and the frame index are recorded, and the block enters FAULT. -/
def takeFault (c : Cause) (s : State) : State :=
  { s with errCause := c.code, errPos := s.pos, errFrame := s.frameIdx, st := .fault }

/-- Reset, the only exit from FAULT (rules R203, R218 and R240). `SRC` and what the host has done and will do are
not touched (rule R242). `SMP`, `RAW` and `COEF` become unspecified: free values of this reset (log entries 3 to 5). -/
def resetBlock (s : State) : State :=
  { State.reset with
    src := s.src
    raw := Vector.ofFn fun j => Config.freeRaw s.freeIndex j
    coef := Vector.ofFn fun j => Config.freeCoef s.freeIndex j
    host := s.host
    reads := s.reads
    freeIndex := s.freeIndex + 1
    sampleSeed := s.freeIndex }

/-! ## How a command runs (rules R30, R213 to R217) -/

/-- The outcome of a command whose body ended: what its end makes of `STATE` (rule R30), or the fault it raised. -/
def finish (r : Res BlockState) : Host.Outcome State Fault Refusal :=
  match r with
  | .ok st s => .next { s with st := st }
  | .raised c s => .next (takeFault c s)
  | .stopped f => .fault f

/-- A part of a frame-level command reports `UnexpectedEnd` as `TruncatedStream` (rule R214). -/
def atFrameLevel {α : Type} (r : Res α) : Res α :=
  match r with
  | .ok a s => .ok a s
  | .raised c s => .raised c.atFrameLevel s
  | .stopped f => .stopped f

/-- A primitive command: in FAULT it is ignored and changes nothing (rule R217), else its body runs. -/
def primitiveCommand (body : State → Res BlockState) (s : State) : Host.Outcome State Fault Refusal :=
  if s.st = .fault then .next s else finish (body s)

/-- A frame-level command (rules R214 and R217). -/
def frameCommand (body : State → Res BlockState) (s : State) : Host.Outcome State Fault Refusal :=
  if s.st = .fault then .next s else finish (atFrameLevel (body s))

/-- A stream kind, which runs inside a frame-level command: `STATE` is that command's to set at its end, so it keeps
its value unless the kind raises a fault. -/
def streamKind (body : State → Res Unit) (s : State) : Host.Outcome State Fault Refusal :=
  frameCommand (fun s => (body s).bind fun _ t => .ok s.st t) s

/-- A malformed command word: `BadCommand`, or nothing at all in FAULT (rules R83, R217 and R222). -/
def malformedCommand (s : State) : State := if s.st = .fault then s else takeFault .badCommand s

/-- The whole state transformer of a command that cannot fault: it ends READY (rule R30). -/
def endReady (s : State) : Res BlockState := .ok .ready s

end Sys2Proof.Machine
end

