-- ==== Sys2Proof/Machine/Operands.lean ====
section
/-! DEFINITION. Machine/Operands.lean: the fields of the stream, each read by one procedure named as the rules name
it: fixed-width fields, unary runs, the byte boundary, the variable-length number and the Rice symbol; and the
frame header registers as operands, with their legal ranges. -/

namespace Sys2Proof.Machine

/-! ## Fixed-width fields (rules R112 and R113) -/

/-- `readUnsigned(n)`: read whole or not at all (rule R112). -/
def readUnsigned (n : Nat) (s : State) : Res Nat :=
  if s.pos.toNat + n > sourceEnd s then .raised .unexpectedEnd s
  else .ok (gatherBits n 0 s).1 (gatherBits n 0 s).2

/-- `sext_n(v)` (rule R9): the low `n` bits of `v` as a two's-complement number, and 0 for `n = 0`. -/
def signExtend (n v : Nat) : Int :=
  if v % 2 ^ n < 2 ^ (n - 1) then (v % 2 ^ n : Nat) else ((v % 2 ^ n : Nat) : Int) - ((2 ^ n : Nat) : Int)

/-- `readSigned(n)` (rule R113). -/
def readSigned (n : Nat) (s : State) : Res Int :=
  (readUnsigned n s).bind fun v s => .ok (signExtend n v) s

/-! ## Unary runs (rule R114) -/

/-- How many of the bits from `p` on, among the `left` that exist, differ from `t` before the first that equals it;
nothing is consumed (the look-ahead of rule R114). -/
def scanUnary (t : Bool) : Nat → Nat → State → Option Nat
  | 0, _, _ => none
  | left + 1, p, s => if streamBit p s = t then some 0 else (scanUnary t left (p + 1) s).map (· + 1)

/-- `readUnary(t)`: the run and its terminator are consumed, or nothing is (rule R114). -/
def readUnary (t : Bool) (s : State) : Res Nat :=
  match scanUnary t (sourceEnd s - s.pos.toNat) s.pos.toNat s with
  | none => .raised .unexpectedEnd s
  | some c => .ok c (consumeBits (c + 1) s)

/-! ## The byte boundary (rules R64 and R115) -/

/-- The number of bits to the next byte boundary. -/
def paddingBits (s : State) : Nat := (8 - s.pos.toNat % 8) % 8

/-- `alignToByte()` (rule R115). Where rule R22's invariant holds it cannot stop. -/
def alignToByte (s : State) : Res Unit :=
  if s.pos.toNat + paddingBits s > sourceEnd s ∧ paddingBits s ≠ 0 then .stopped .beyondSource
  else .ok () (consumeBits (paddingBits s) s)

/-- `POS mod 8 = 0` (rule R64). -/
def byteAligned (s : State) : Bool := s.pos.toNat % 8 == 0

/-! ## The variable-length number (rules R130 to R132) -/

/-- `lead(b0)` (rule R131): the number of continuation bytes and the top payload bits. -/
def lead (b : Nat) : Option (Nat × Nat) :=
  if b < 0x80 then some (0, b)
  else if b < 0xC0 then none
  else if b < 0xE0 then some (1, b % 2 ^ 5)
  else if b < 0xF0 then some (2, b % 2 ^ 4)
  else if b < 0xF8 then some (3, b % 2 ^ 3)
  else if b < 0xFC then some (4, b % 2 ^ 2)
  else if b < 0xFE then some (5, b % 2)
  else if b = 0xFE then some (6, 0)
  else none

/-- `MINVAL[n]` (rule R132); 0 for a number of one byte, which is always canonical. -/
def leastValue (n : Nat) : Nat :=
  match n with
  | 1 => 0x80
  | 2 => 0x800
  | 3 => 0x10000
  | 4 => 0x200000
  | 5 => 0x4000000
  | 6 => 0x80000000
  | _ => 0

/-- `n` continuation bytes after the payload `v` (rule R130). -/
def readContinuation : Nat → Nat → State → Res Nat
  | 0, v, s => .ok v s
  | n + 1, v, s => (readUnsigned 8 s).bind fun c s =>
    if bitField c 7 6 ≠ 2 then .raised .malformedVarint s
    else readContinuation n (v * 2 ^ 6 + bitField c 5 0) s

/-- `readVarint()` (rule R130). -/
def readVarint (s : State) : Res Nat :=
  (readUnsigned 8 s).bind fun b s =>
    match lead b with
    | none => .raised .malformedVarint s
    | some (n, v) =>
      if n > Config.varintMaxExtra then .raised .malformedVarint s
      else (readContinuation n v s).bind fun v s =>
        if v < leastValue n then .raised .malformedVarint s else .ok v s

/-! ## The Rice symbol (rules R99 and R175) -/

/-- Zig-zag unfolding, `(u >> 1) xor -(u & 1)`: `u / 2` for even `u`, `-(u + 1) / 2` for odd `u` (rule R99). -/
def unfoldZigzag (u : Nat) : Int := if u % 2 = 0 then ((u / 2 : Nat) : Int) else -(((u + 1) / 2 : Nat) : Int)

/-- `riceSymbol(k)`: two fields, the quotient and the remainder (rule R175). -/
def riceSymbol (k : Nat) (s : State) : Res Int :=
  (readUnary true s).bind fun q s => (readUnsigned k s).bind fun r s => .ok (unfoldZigzag (q * 2 ^ k + r)) s

/-! ## Registers as operands (rules R40, R150, R170 and R185) -/

/-- `1 <= FH_BLOCKSIZE <= 65536`. -/
def blocksizeLegal (s : State) : Bool := 1 ≤ s.fhBlocksize.toNat && s.fhBlocksize.toNat ≤ Config.maxBlock

/-- `4 <= FH_BPS <= 32`. -/
def bpsLegal (s : State) : Bool := 4 ≤ s.fhBps.toNat && s.fhBps.toNat ≤ 32

/-- `FH_CHASSIGN <= 10`. -/
def chassignLegal (s : State) : Bool := s.fhChassign.toNat ≤ 10

/-- The coefficient `COEF[j]` as a signed number (rule R42). -/
def coefficient (j : Nat) (s : State) : Int := (s.coef.toList.getD j 0#16).toInt

/-! ## Many samples -/

/-- `repeat n times: MemWrite(ch, i, narrow(v)); i <- i + 1`, each `v` a field of the stream. -/
def readSamples (field : State → Res Int) (ch : Nat) : Nat → Nat → State → Res Unit
  | 0, _, s => .ok () s
  | n + 1, i, s => (field s).bind fun v s => readSamples field ch n (i + 1) (writeSample ch i v s)

/-- `for i in i0 .. i0 + n - 1`, in increasing order. -/
def forSamples (step : Nat → State → State) : Nat → Nat → State → State
  | 0, _, s => s
  | n + 1, i, s => forSamples step n (i + 1) (step i s)

end Sys2Proof.Machine
end

