-- ==== Sys2Proof/Machine/BitReader.lean ====
section
/-! DEFINITION. Machine/BitReader.lean: RDU, RDS, RDUNARY, ALIGN, RDBYTES and CRCRST (rules R110 to R118).

Each ends READY (rule R110). An operand outside its range is a malformed command (rules R82 and R222). -/

namespace Sys2Proof.Machine

/-- CRCRST m (rule R118). -/
def resetChecksums (m : BitVec 2) (s : State) : State :=
  { s with
    crc8 := if m.getLsbD 0 then 0 else s.crc8
    crc16 := if m.getLsbD 1 then 0 else s.crc16 }

/-- CRCRST m: `if m[0] = 1 then CRC8 <- 0; if m[1] = 1 then CRC16 <- 0` (rule R118). -/
def execCrcrst (m : BitVec 2) (s : State) : Host.Outcome State Fault Refusal :=
  primitiveCommand (fun s => endReady (resetChecksums m s)) s

/-- RDU n: `RV <- readUnsigned(n)` (rule R112). -/
def execRdu (n : BitVec 7) (s : State) : Host.Outcome State Fault Refusal :=
  primitiveCommand (fun s =>
    if n.toNat > Config.rdMax then .raised .badCommand s
    else (readUnsigned n.toNat s).bind fun v s => endReady { s with rv := BitVec.ofNat 64 v }) s

/-- RDS n: `RV <- zext_64(readSigned(n))` (rule R113). -/
def execRds (n : BitVec 7) (s : State) : Host.Outcome State Fault Refusal :=
  primitiveCommand (fun s =>
    if n.toNat > Config.rdMax then .raised .badCommand s
    else (readSigned n.toNat s).bind fun v s => endReady { s with rv := BitVec.ofInt 64 v }) s

/-- RDUNARY t: `RV <- readUnary(t)` (rule R114). -/
def execRdunary (t : Bool) (s : State) : Host.Outcome State Fault Refusal :=
  primitiveCommand (fun s => (readUnary t s).bind fun c s => endReady { s with rv := BitVec.ofNat 64 c }) s

/-- ALIGN (rule R115). -/
def execAlign (s : State) : Host.Outcome State Fault Refusal :=
  primitiveCommand (fun s => (alignToByte s).bind fun _ s => endReady s) s

/-- `n` bytes of the stream, the first first, and the state after them. -/
def gatherBytes : Nat → State → List Byte × State
  | 0, s => ([], s)
  | n + 1, s =>
    let r := gatherBits 8 0 s
    let q := gatherBytes n r.2
    (BitVec.ofNat 8 r.1 :: q.1, q.2)

/-- `RAW[0 .. n-1]` and `RAW_LEN` written. `RAW[j]` for `j >= RAW_LEN` is unspecified (rule R27): a free value of
this command (log entry 4). -/
def deliverBytes (bytes : List Byte) (s : State) : State :=
  { s with
    raw := Vector.ofFn fun j => bytes.getD j (Config.freeRaw s.freeIndex j)
    rawLen := BitVec.ofNat 5 bytes.length
    freeIndex := s.freeIndex + 1 }

/-- RDBYTES n (rule R116): byte-aligned, all `n` bytes or none. -/
def execRdbytes (n : BitVec 5) (s : State) : Host.Outcome State Fault Refusal :=
  primitiveCommand (fun s =>
    if n.toNat > Config.rawMax then .raised .badCommand s
    else if !byteAligned s then .raised .badCommand s
    else if s.pos.toNat + 8 * n.toNat > sourceEnd s then .raised .unexpectedEnd s
    else endReady (deliverBytes (gatherBytes n.toNat s).1 (gatherBytes n.toNat s).2)) s

end Sys2Proof.Machine
end

