-- ==== Sys2Proof/Machine/Channels.lean ====
section
/-! DEFINITION. Machine/Channels.lean: DECORR and the channel kinds INDEP, LSIDE, RSIDE and MSIDE (rules R185 to R192). -/

namespace Sys2Proof.Machine

/-! ## The steps (rules R187 to R189) -/

/-- LSIDE step (rule R187): `right = left - side`. -/
def lsideStep (i : Nat) (s : State) : State := writeSample 1 i (readSample 0 i s - readSample 1 i s) s

/-- RSIDE step (rule R188): `left = right + side`. -/
def rsideStep (i : Nat) (s : State) : State := writeSample 0 i (readSample 1 i s + readSample 0 i s) s

/-- `((2 * mid | side & 1) + side) >>a 1` (rule R189). `2 * mid` is even, so the `|` is a sum. -/
def midSideLeft (mid side : Int) : Int := (2 * mid + side % 2 + side) / 2

/-- MSIDE step (rule R189): both reads happen before either write. -/
def msideStep (i : Nat) (s : State) : State :=
  let left := midSideLeft (readSample 0 i s) (readSample 1 i s)
  writeSample 1 i (left - readSample 1 i s) (writeSample 0 i left s)

/-! ## The kinds (rules R185 to R189) -/

/-- INDEP: no word of `SMP` is read or written (rule R186). -/
def indepChannels (s : State) : State := s

/-- LSIDE over the block (rule R187). -/
def lsideChannels (s : State) : State := forSamples lsideStep s.fhBlocksize.toNat 0 s

/-- RSIDE over the block (rule R188). -/
def rsideChannels (s : State) : State := forSamples rsideStep s.fhBlocksize.toNat 0 s

/-- MSIDE over the block (rule R189). -/
def msideChannels (s : State) : State := forSamples msideStep s.fhBlocksize.toNat 0 s

/-- A channel kind run alone: its command's check of the block size first (rule R185). -/
def channelKind (body : State → State) (s : State) : Host.Outcome State Fault Refusal :=
  streamKind (fun s => if blocksizeLegal s then .ok () (body s) else .raised .badCommand s) s

/-- INDEP (rule R186): the operand is the channel count less one, which no step uses. -/
def execIndep (_c : BitVec 3) (s : State) : Host.Outcome State Fault Refusal := channelKind indepChannels s

/-- LSIDE (rule R187). -/
def execLside (s : State) : Host.Outcome State Fault Refusal := channelKind lsideChannels s

/-- RSIDE (rule R188). -/
def execRside (s : State) : Host.Outcome State Fault Refusal := channelKind rsideChannels s

/-- MSIDE (rule R189). -/
def execMside (s : State) : Host.Outcome State Fault Refusal := channelKind msideChannels s

/-! ## The command (rule R185) -/

/-- `reconstructChannels()` (rule R185), `FH_CHASSIGN` at most 10. -/
def reconstructChannels (s : State) : State :=
  match s.fhChassign.toNat with
  | 8 => lsideChannels s
  | 9 => rsideChannels s
  | 10 => msideChannels s
  | _ => indepChannels s

/-- DECORR (rule R185). -/
def execDecorr (s : State) : Host.Outcome State Fault Refusal :=
  frameCommand (fun s =>
    if blocksizeLegal s && chassignLegal s then endReady (reconstructChannels (invalidateBlock s))
    else .raised .badCommand s) s

end Sys2Proof.Machine
end

