-- ==== Sys2Proof/Machine/FrameHeader.lean ====
section
/-! DEFINITION. Machine/FrameHeader.lean: VARINT and FRAMEHDR (rules R130 to R144). -/

namespace Sys2Proof.Machine

/-- VARINT: `RV <- readVarint()` (rule R130). -/
def execVarint (s : State) : Host.Outcome State Fault Refusal :=
  primitiveCommand (fun s => (readVarint s).bind fun v s => endReady { s with rv := BitVec.ofNat 64 v }) s

/-! ## The header word (rules R85 and R137) -/

/-- The first defect of the header word `w` in the order of rule R137, if it has one. -/
def headerDefect (w : Nat) : Option Cause :=
  if bitField w 31 18 ≠ Config.syncCode then some .syncLost
  else if bitField w 17 17 = 1 then some .reservedCodeUsed
  else if bitField w 15 12 = 0 then some .reservedCodeUsed
  else if bitField w 11 8 = 15 then some .reservedCodeUsed
  else if bitField w 7 4 ≥ 11 then some .reservedCodeUsed
  else if bitField w 3 1 = 3 ∨ bitField w 3 1 = 7 then some .reservedCodeUsed
  else if bitField w 0 0 = 1 then some .reservedCodeUsed
  else none

/-- `blocksize(b)` (rule R139): the 16-bit value of code 7 is read low byte first. -/
def readBlocksize (b : Nat) (s : State) : Res Nat :=
  if b = 1 then .ok 192 s
  else if b ≤ 5 then .ok (576 * 2 ^ (b - 2)) s
  else if b = 6 then (readUnsigned 8 s).bind fun x s => .ok (x + 1) s
  else if b = 7 then
    (readUnsigned 8 s).bind fun lo s => (readUnsigned 8 s).bind fun hi s => .ok (hi * 256 + lo + 1) s
  else .ok (256 * 2 ^ (b - 8)) s

/-- The sample rates of codes 1 to 11, in Hz (rule R140). -/
def rateTable : List Nat := [88200, 176400, 192000, 8000, 16000, 22050, 24000, 32000, 44100, 48000, 96000]

/-- `samplerate(r)` (rule R140). -/
def readSampleRate (r : Nat) (s : State) : Res Nat :=
  if r = 0 then .ok s.siRate.toNat s
  else if r ≤ 11 then .ok (rateTable.getD (r - 1) 0) s
  else if r = 12 then readUnsigned 8 s
  else if r = 13 then readUnsigned 16 s
  else (readUnsigned 16 s).bind fun x s => .ok (10 * x) s

/-- The sample size of code `z` (rule R141): code 0 inherits `SI_BPS`, codes 3 and 7 never come here. -/
def sampleSize (z : Nat) (s : State) : BitVec 6 :=
  match z with
  | 0 => s.siBps
  | 1 => 8
  | 2 => 12
  | 4 => 16
  | 5 => 20
  | _ => 24

/-- The channel count of code `a` (rule R141). -/
def channelCount (a : Nat) : Nat := if a ≤ 7 then a + 1 else 2

/-- The eight `FH_*` registers are written together (rule R142). -/
def writeHeader (w num bs rate crc : Nat) (s : State) : State :=
  { s with
    fhStrategy := BitVec.ofNat 1 (bitField w 16 16)
    fhBlocksize := BitVec.ofNat 17 bs
    fhRate := BitVec.ofNat 20 rate
    fhChassign := BitVec.ofNat 4 (bitField w 7 4)
    fhNch := BitVec.ofNat 4 (channelCount (bitField w 7 4))
    fhBps := sampleSize (bitField w 3 1) s
    fhNumber := BitVec.ofNat 36 num
    fhCrc := BitVec.ofNat 8 crc }

/-- The checksum byte against the snapshot taken before it, under the policy (rule R143). -/
def checkHeaderChecksum (expect : BitVec 8) (c : Nat) (s : State) : Res Unit :=
  if c = expect.toNat then .ok () s
  else if s.strict then .raised .checksumMismatch s
  else .ok () { s with hcrcBad := true }

/-- Both accumulators are zeroed before the first header bit (rule R136). -/
def zeroChecksums (s : State) : State := { s with crc8 := 0, crc16 := 0 }

/-- The header from its first bit on (rule R134, after the end-of-input test). -/
def readHeader (s : State) : Res Unit :=
  (readUnsigned 32 (zeroChecksums s)).bind fun w s =>
    match headerDefect w with
    | some c => .raised c s
    | none =>
      (readVarint s).bind fun num s =>
      (readBlocksize (bitField w 15 12) s).bind fun bs s =>
      (readSampleRate (bitField w 11 8) s).bind fun rate s =>
      (readUnsigned 8 s).bind fun c t =>
      (checkHeaderChecksum s.crc8 c t).bind fun _ t =>
      .ok () (writeHeader w num bs rate c t)

/-- `decodeHeader()` (rule R134): DONE when the input ends here (rule R144), else READY after a whole header. -/
def decodeFrameHeader (s : State) : Res BlockState :=
  if !byteAligned s then .raised .badCommand s
  else if !s.siValid then .raised .missingStreamInfo s
  else if s.pos.toNat = sourceEnd s then .ok .done (clearFrameFlags s)
  else (readHeader (clearFrameFlags s)).bind fun _ s => endReady s

/-- FRAMEHDR (rule R134). -/
def execFramehdr (s : State) : Host.Outcome State Fault Refusal := frameCommand decodeFrameHeader s

end Sys2Proof.Machine
end

