-- ==== Sys2Proof/Machine/Residual.lean ====
section
/-! DEFINITION. Machine/Residual.lean: RESID and the partition kinds RICE4, ESC4, RICE5 and ESC5 (rules R170 to R179). -/

namespace Sys2Proof.Machine

/-! ## Partitions (rules R172 to R177) -/

/-- A Rice partition: each of its residuals is `riceSymbol(k)` (rules R173 and R174). -/
def ricePartition (p : Part) (k : Nat) (s : State) : Res Unit :=
  readSamples (riceSymbol k) p.ch.toNat p.count p.first s

/-- An escaped partition: each of its residuals is `readSigned(w)` (rules R176 and R177). -/
def escapePartition (p : Part) (w : Nat) (s : State) : Res Unit :=
  readSamples (readSigned w) p.ch.toNat p.count p.first s

/-- A partition under coding method `m`: its parameter, then its residuals (rule R170). -/
def decodePartition (m : Nat) (p : Part) (s : State) : Res Unit :=
  (readUnsigned (paramWidth m) s).bind fun k s =>
    if k = escapeValue m then (readUnsigned 5 s).bind fun w s => escapePartition p w s
    else ricePartition p k s

/-- A partition placed outside its plane names words that do not exist (rule R43). -/
def inPlane (p : Part) (body : State → Res Unit) (s : State) : Res Unit :=
  if p.wellFormed then body s else .stopped .beyondPlane

/-- RICE4 (rule R173), with the cursor after the parameter. -/
def execRice4 (p : Part) (k : BitVec 4) (s : State) : Host.Outcome State Fault Refusal :=
  streamKind (inPlane p (ricePartition p k.toNat)) s

/-- ESC4 (rule R176), with the cursor after the raw width. -/
def execEsc4 (p : Part) (w : BitVec 5) (s : State) : Host.Outcome State Fault Refusal :=
  streamKind (inPlane p (escapePartition p w.toNat)) s

/-- RICE5 (rule R174), with the cursor after the parameter. -/
def execRice5 (p : Part) (k : BitVec 5) (s : State) : Host.Outcome State Fault Refusal :=
  streamKind (inPlane p (ricePartition p k.toNat)) s

/-- ESC5 (rule R177), with the cursor after the raw width. -/
def execEsc5 (p : Part) (w : BitVec 5) (s : State) : Host.Outcome State Fault Refusal :=
  streamKind (inPlane p (escapePartition p w.toNat)) s

/-! ## The residual section (rules R170 and R171) -/

/-- `left` partitions from sample `i` on: the next has `n` residuals and every later one `len` (rule R172). -/
def decodePartitions (m : Nat) (ch : BitVec 3) (len : Nat) : Nat → Nat → Nat → State → Res Unit
  | 0, _, _, s => .ok () s
  | left + 1, i, n, s =>
    (decodePartition m { ch := ch, first := i, count := n } s).bind fun _ s =>
      decodePartitions m ch len left (i + n) len s

/-- `decodeResidual(ch, o)` (rule R170). -/
def decodeResidual (ch : BitVec 3) (o : Nat) (s : State) : Res Unit :=
  (readUnsigned 1 s).bind fun m s =>
  (readUnsigned 4 { s with resMethod := BitVec.ofNat 1 m }).bind fun p s =>
    let t := { s with resPorder := BitVec.ofNat 4 p }
    let n := s.fhBlocksize.toNat
    if n % 2 ^ p ≠ 0 ∨ n / 2 ^ p < o then .raised .invalidPartitionOrder t
    else decodePartitions m ch (n / 2 ^ p) (2 ^ p) o (n / 2 ^ p - o) t

/-- RESID ch, ord (rule R170). -/
def execResid (ch : BitVec 3) (ord : BitVec 6) (s : State) : Host.Outcome State Fault Refusal :=
  frameCommand (fun s =>
    if ord.toNat > Config.maxOrder then .raised .badCommand s
    else if !blocksizeLegal s then .raised .badCommand s
    else (decodeResidual ch ord.toNat (invalidateBlock s)).bind fun _ s => endReady s) s

end Sys2Proof.Machine
end

