-- ==== Sys2Proof/Machine/Subframe.lean ====
section
/-! DEFINITION. Machine/Subframe.lean: SUBFRAME and the subframe kinds CONSTANT, VERBATIM, FIXED0 to FIXED4 and LPC
(rules R150 to R166). -/

namespace Sys2Proof.Machine

/-! ## The predictors (rules R156 and R159) -/

/-- `predict_0` (rule R156): "sample = residual". -/
def predictFixed0 (_ch _i : Nat) (_s : State) : Int := 0

/-- `predict_1` (rule R156): `s[i-1]`. -/
def predictFixed1 (ch i : Nat) (s : State) : Int := readSample ch (i - 1) s

/-- `predict_2` (rule R156): `2*s[i-1] - s[i-2]`. -/
def predictFixed2 (ch i : Nat) (s : State) : Int := 2 * readSample ch (i - 1) s - readSample ch (i - 2) s

/-- `predict_3` (rule R156): `3*s[i-1] - 3*s[i-2] + s[i-3]`. -/
def predictFixed3 (ch i : Nat) (s : State) : Int :=
  3 * readSample ch (i - 1) s - 3 * readSample ch (i - 2) s + readSample ch (i - 3) s

/-- `predict_4` (rule R156): `4*s[i-1] - 6*s[i-2] + 4*s[i-3] - s[i-4]`. -/
def predictFixed4 (ch i : Nat) (s : State) : Int :=
  4 * readSample ch (i - 1) s - 6 * readSample ch (i - 2) s + 4 * readSample ch (i - 3) s - readSample ch (i - 4) s

/-- `COEF[0]*SMP[ch][i-1] + ... + COEF[o-1]*SMP[ch][i-o]` (rule R159). -/
def coefficientSum (ch i : Nat) : Nat → State → Int
  | 0, _ => 0
  | o + 1, s => coefficientSum ch i o s + coefficient o s * readSample ch (i - 1 - o) s

/-- The quantization shift (rule R159): arithmetic right for `Q >= 0`, left only with `NEG_SHIFT_SUPPORT`. -/
def shiftSum (sum q : Int) : Int :=
  if 0 ≤ q then sum / ((2 ^ q.toNat : Nat) : Int) else wrap64 (sum * ((2 ^ (-q).toNat : Nat) : Int))

/-- `lpcPredict(ch, i, o)` (rule R159). -/
def predictLpc (o : Nat) (ch i : Nat) (s : State) : Int :=
  shiftSum (wrap64 (coefficientSum ch i o s)) s.lpcShift.toInt

/-! ## The bodies (rules R153 to R160) -/

/-- Reconstruction in place: `MemWrite(ch, i, narrow(wrap64(p + SMP[ch][i])))` for `o <= i < N`, in increasing `i`
(rules R155 and R160). -/
def reconstruct (predict : Nat → Nat → State → Int) (ch o n : Nat) (s : State) : State :=
  forSamples (fun i s => writeSample ch i (wrap64 (predict ch i s + readSample ch i s)) s) (n - o) o s

/-- CONSTANT: one sample, which every sample of the block equals (rule R153). -/
def constantBody (ch : BitVec 3) (width n : Nat) (s : State) : Res Unit :=
  (readSigned width s).bind fun v s => .ok () (forSamples (fun i s => writeSample ch.toNat i v s) n 0 s)

/-- VERBATIM: `n` samples in stream order (rule R154). -/
def verbatimBody (ch : BitVec 3) (width n : Nat) (s : State) : Res Unit :=
  readSamples (readSigned width) ch.toNat n 0 s

/-- FIXED of order `o`: warm-up, residuals, reconstruction (rule R155). -/
def fixedBody (predict : Nat → Nat → State → Int) (o : Nat) (ch : BitVec 3) (width n : Nat) (s : State) : Res Unit :=
  (readSamples (readSigned width) ch.toNat o 0 s).bind fun _ s =>
  (decodeResidual ch o s).bind fun _ s =>
  .ok () (reconstruct predict ch.toNat o n s)

/-- `COEF[j]` written. -/
def writeCoefficient (j : Nat) (v : Int) (s : State) : State :=
  { s with coef := s.coef.setIfInBounds j (BitVec.ofInt 16 v) }

/-- `for j ..: COEF[j] <- readSigned(P)` for `left` coefficients from `j` on (rule R158). -/
def readCoefficients (prec : Nat) : Nat → Nat → State → Res Unit
  | 0, _, s => .ok () s
  | left + 1, j, s =>
    (readSigned prec s).bind fun v s => readCoefficients prec left (j + 1) (writeCoefficient j v s)

/-- `readLpcParams(o)` (rule R158): a negative shift raises before any coefficient is read. -/
def readLpcParams (o : Nat) (s : State) : Res Unit :=
  (readUnsigned 4 s).bind fun p s =>
  (readSigned 5 { s with lpcPrec := BitVec.ofNat 5 (p + 1) }).bind fun q s =>
    let t := { s with lpcShift := BitVec.ofInt 5 q }
    if q < 0 ∧ Config.negShiftSupport = false then .raised .invalidShift t
    else readCoefficients (p + 1) o 0 t

/-- LPC of order `o` (rule R160). -/
def lpcBody (o : Nat) (ch : BitVec 3) (width n : Nat) (s : State) : Res Unit :=
  (readSamples (readSigned width) ch.toNat o 0 s).bind fun _ s =>
  (readLpcParams o s).bind fun _ s =>
  (decodeResidual ch o s).bind fun _ s =>
  .ok () (reconstruct (predictLpc o) ch.toNat o n s)

/-! ## The kinds (rules R150 to R152 and R157) -/

/-- `SF_TYPE` of a kind (rule R151). -/
def typeCode : SubKind → BitVec 2
  | .constant => 0
  | .verbatim => 1
  | .fixed0 => 2
  | .fixed1 => 2
  | .fixed2 => 2
  | .fixed3 => 2
  | .fixed4 => 2
  | .lpc _ => 3

/-- The predictor order of a kind (rules R93 and R151). -/
def predictorOrder : SubKind → Nat
  | .constant => 0
  | .verbatim => 0
  | .fixed0 => 0
  | .fixed1 => 1
  | .fixed2 => 2
  | .fixed3 => 3
  | .fixed4 => 4
  | .lpc o => o.toNat + 1

/-- The body of a kind (`case kind of` in rule R150). -/
def kindBody : SubKind → BitVec 3 → Nat → Nat → State → Res Unit
  | .constant => constantBody
  | .verbatim => verbatimBody
  | .fixed0 => fixedBody predictFixed0 0
  | .fixed1 => fixedBody predictFixed1 1
  | .fixed2 => fixedBody predictFixed2 2
  | .fixed3 => fixedBody predictFixed3 3
  | .fixed4 => fixedBody predictFixed4 4
  | .lpc o => lpcBody (o.toNat + 1)

/-- Whether the subframe of plane `ch` is the side channel (rules R150 and R152). -/
def isSide (ch : BitVec 3) (s : State) : Bool :=
  (s.fhChassign == 8 && ch == 1) || (s.fhChassign == 9 && ch == 0)
    || (Config.sideExtraMs && s.fhChassign == 10 && ch == 1)

/-- `B + (1 if side else 0)`: the sample width before wasted bits are taken off (rule R152). -/
def fullWidth (ch : BitVec 3) (s : State) : Nat := s.fhBps.toNat + (isSide ch s).toNat

/-- The four `SF_*` registers, written once the width has passed its check (rule R152). -/
def writeSubframe (k : SubKind) (wasted width : Nat) (s : State) : State :=
  { s with
    sfType := typeCode k
    sfOrder := BitVec.ofNat 6 (predictorOrder k)
    sfWasted := BitVec.ofNat 6 wasted
    sfWidth := BitVec.ofNat 6 width }

/-- The wasted-bits count: none, or one more than the unary run (rules R94 and R151). -/
def readWasted (flag : Bool) (s : State) : Res Nat :=
  if flag then (readUnary true s).bind fun k s => .ok (k + 1) s else .ok 0 s

/-- `narrow(SMP[ch][i] << wasted)` for every sample of the block (rule R157). -/
def restoreWasted (ch wasted n : Nat) (s : State) : State :=
  if wasted > 0 then
    forSamples (fun i s => writeSample ch i (readSample ch i s * ((2 ^ wasted : Nat) : Int)) s) n 0 s
  else s

/-- A subframe of kind `k` after its wasted-bits flag: the count, the width, the body, the shift (rules R150 to R157). -/
def decodeKind (ch : BitVec 3) (k : SubKind) (flag : Bool) (s : State) : Res Unit :=
  (readWasted flag s).bind fun wasted s =>
    if fullWidth ch s < wasted + 1 then .raised .reservedCodeUsed s
    else
      (kindBody k ch (fullWidth ch s - wasted) s.fhBlocksize.toNat
        (writeSubframe k wasted (fullWidth ch s - wasted) s)).bind fun _ s =>
      .ok () (restoreWasted ch.toNat wasted s.fhBlocksize.toNat s)

/-- The registers a subframe reads are legal (rule R150). -/
def subframeLegal (s : State) : Bool := blocksizeLegal s && bpsLegal s && chassignLegal s

/-- A subframe kind run alone: its command's register check first (rule R150). -/
def subframeKind (ch : BitVec 3) (k : SubKind) (w : Bool) (s : State) : Host.Outcome State Fault Refusal :=
  streamKind (fun s => if subframeLegal s then decodeKind ch k w s else .raised .badCommand s) s

/-- CONSTANT (rule R153), with the cursor after the 8 header bits. -/
def execConstant (ch : BitVec 3) (w : Bool) (s : State) : Host.Outcome State Fault Refusal :=
  subframeKind ch .constant w s

/-- VERBATIM (rule R154). -/
def execVerbatim (ch : BitVec 3) (w : Bool) (s : State) : Host.Outcome State Fault Refusal :=
  subframeKind ch .verbatim w s

/-- FIXED0 (rule R161). -/
def execFixed0 (ch : BitVec 3) (w : Bool) (s : State) : Host.Outcome State Fault Refusal :=
  subframeKind ch .fixed0 w s

/-- FIXED1 (rule R162). -/
def execFixed1 (ch : BitVec 3) (w : Bool) (s : State) : Host.Outcome State Fault Refusal :=
  subframeKind ch .fixed1 w s

/-- FIXED2 (rule R163). -/
def execFixed2 (ch : BitVec 3) (w : Bool) (s : State) : Host.Outcome State Fault Refusal :=
  subframeKind ch .fixed2 w s

/-- FIXED3 (rule R164). -/
def execFixed3 (ch : BitVec 3) (w : Bool) (s : State) : Host.Outcome State Fault Refusal :=
  subframeKind ch .fixed3 w s

/-- FIXED4 (rule R165). -/
def execFixed4 (ch : BitVec 3) (w : Bool) (s : State) : Host.Outcome State Fault Refusal :=
  subframeKind ch .fixed4 w s

/-- LPC of order `o + 1` (rule R160). -/
def execLpc (ch : BitVec 3) (o : BitVec 5) (w : Bool) (s : State) : Host.Outcome State Fault Refusal :=
  subframeKind ch (.lpc o) w s

/-! ## The command (rules R150 and R151) -/

/-- `decodeSubframe(ch)` (rules R150 and R151): each field is checked as soon as it has been read. -/
def decodeSubframe (ch : BitVec 3) (s : State) : Res Unit :=
  (readUnsigned 1 s).bind fun r s =>
    if r = 1 then .raised .reservedCodeUsed s
    else (readUnsigned 6 s).bind fun t s =>
      match SubKind.ofSelector t with
      | none => .raised .reservedCodeUsed s
      | some k => (readUnsigned 1 s).bind fun f s => decodeKind ch k (f == 1) s

/-- SUBFRAME ch (rule R150). -/
def execSubframe (ch : BitVec 3) (s : State) : Host.Outcome State Fault Refusal :=
  frameCommand (fun s =>
    if subframeLegal s then (decodeSubframe ch (invalidateBlock s)).bind fun _ s => endReady s
    else .raised .badCommand s) s

end Sys2Proof.Machine
end

