-- ==== Sys2Proof/Machine/Frame.lean ====
section
/-! DEFINITION. Machine/Frame.lean: FRAME and RESET (rules R195 to R203), and the output view (rule R44). -/

namespace Sys2Proof.Machine

/-! ## FRAME -/

/-- `left` subframes from channel `c` on, in channel order (rule R196). -/
def decodeSubframes : Nat → Nat → State → Res Unit
  | 0, _, s => .ok () s
  | left + 1, c, s => (decodeSubframe (BitVec.ofNat 3 c) s).bind fun _ s => decodeSubframes left (c + 1) s

/-- The footer against the snapshot taken before it, under the policy (rule R199). -/
def checkFooter (expect : BitVec 16) (f : Nat) (s : State) : Res Unit :=
  if f = expect.toNat then .ok () s
  else if s.strict then .raised .checksumMismatch s
  else .ok () { s with fcrcBad := true }

/-- Padding, footer and its check (rules R198 and R199). -/
def readFooter (s : State) : Res Unit :=
  (alignToByte s).bind fun _ s => (readUnsigned 16 s).bind fun f t => checkFooter s.crc16 f t

/-- Yield (rule R200). -/
def yieldBlock (s : State) : State := { s with frameIdx := s.frameIdx + 1#32, blkv := true }

/-- What follows a frame's header (rules R195 and R196). -/
def decodeFrameBody (s : State) : Res BlockState :=
  if !bpsLegal s then .raised .badCommand s
  else
    (decodeSubframes s.fhNch.toNat 0 s).bind fun _ s =>
    (readFooter (reconstructChannels s)).bind fun _ s =>
    endReady (yieldBlock s)

/-- FRAME's body (rule R195): at the end of the input it stops with DONE (rule R201). -/
def decodeFrame (s : State) : Res BlockState :=
  (decodeFrameHeader s).bind fun st s =>
    match st with
    | .ready => decodeFrameBody s
    | .done => .ok .done s
    | .fault => .ok .fault s

/-- FRAME (rule R195). -/
def execFrame (s : State) : Host.Outcome State Fault Refusal := frameCommand decodeFrame s

/-! ## RESET -/

/-- RESET: accepted in every state, FAULT among them (rule R203). -/
def execReset (s : State) : Host.Outcome State Fault Refusal := .next (resetBlock s)

/-! ## The output view -/

/-- `OUT[k]` (rule R44): while `BLKV = 1`, sample `k / FH_NCH` of channel `k mod FH_NCH`. Where the host has since
written an `FH_NCH` or `FH_BLOCKSIZE` that reaches beyond the words of `SMP`, the spec says nothing: the view has no
sample there (log entry 22, DESIGN CHOICE). -/
def outputSample (k : Nat) (s : State) : Option Sample :=
  if s.blkv && decide (k < s.fhBlocksize.toNat * s.fhNch.toNat) && decide (k % s.fhNch.toNat < Config.maxCh)
      && decide (k / s.fhNch.toNat < Config.maxBlock) then
    some (sampleWord (sampleAddress (k % s.fhNch.toNat) (k / s.fhNch.toNat)) s)
  else none

end Sys2Proof.Machine
end

