-- ==== Sys2Proof/Machine/Dispatch.lean ====
section
/-! DEFINITION. Machine/Dispatch.lean: the meaning of every instruction, one arm per constructor. -/

namespace Sys2Proof.Machine

def exec (i : Instr) (s : State) : Host.Outcome State Fault Refusal :=
  match i with
  | .reset => Sys2Proof.Machine.execReset s
  | .crcrst m => Sys2Proof.Machine.execCrcrst m s
  | .rdu n => Sys2Proof.Machine.execRdu n s
  | .rds n => Sys2Proof.Machine.execRds n s
  | .rdunary t => Sys2Proof.Machine.execRdunary t s
  | .align => Sys2Proof.Machine.execAlign s
  | .rdbytes n => Sys2Proof.Machine.execRdbytes n s
  | .varint => Sys2Proof.Machine.execVarint s
  | .framehdr => Sys2Proof.Machine.execFramehdr s
  | .subframe ch => Sys2Proof.Machine.execSubframe ch s
  | .resid ch ord => Sys2Proof.Machine.execResid ch ord s
  | .decorr => Sys2Proof.Machine.execDecorr s
  | .frame => Sys2Proof.Machine.execFrame s
  | .constant ch w => Sys2Proof.Machine.execConstant ch w s
  | .verbatim ch w => Sys2Proof.Machine.execVerbatim ch w s
  | .fixed0 ch w => Sys2Proof.Machine.execFixed0 ch w s
  | .fixed1 ch w => Sys2Proof.Machine.execFixed1 ch w s
  | .fixed2 ch w => Sys2Proof.Machine.execFixed2 ch w s
  | .fixed3 ch w => Sys2Proof.Machine.execFixed3 ch w s
  | .fixed4 ch w => Sys2Proof.Machine.execFixed4 ch w s
  | .lpc ch o w => Sys2Proof.Machine.execLpc ch o w s
  | .rice4 p k => Sys2Proof.Machine.execRice4 p k s
  | .esc4 p w => Sys2Proof.Machine.execEsc4 p w s
  | .rice5 p k => Sys2Proof.Machine.execRice5 p k s
  | .esc5 p w => Sys2Proof.Machine.execEsc5 p w s
  | .indep c => Sys2Proof.Machine.execIndep c s
  | .lside => Sys2Proof.Machine.execLside s
  | .rside => Sys2Proof.Machine.execRside s
  | .mside => Sys2Proof.Machine.execMside s

end Sys2Proof.Machine
end

