-- ==== Sys2Proof/Machine/HostPort.lean ====
section
/-! DEFINITION. Machine/HostPort.lean: what the host does between commands (rules R21, R46 and R47), and where an
instruction is placed for the next step to fetch. -/

namespace Sys2Proof.Machine

/-! ## Register numbers (rule R46) -/

/-- The number of `CMD` (rule R46). -/
def commandPort : Nat := 0x0F

/-- `COEF[j]` and `RAW[j]` by number, `COEF` sign-extended; zero for an unassigned number (rule R46). -/
def readFileRegister (num : Nat) (s : State) : HostWord :=
  if 0x40 ≤ num ∧ num < 0x60 then (s.coef.toList.getD (num - 0x40) 0).signExtend 64
  else if 0x60 ≤ num ∧ num < 0x70 then (s.raw.toList.getD (num - 0x60) 0).setWidth 64
  else 0

/-- What a read of a register number delivers (rule R46): zero-extended, `LPC_SHIFT` and `COEF` sign-extended. -/
def readRegister (num : Nat) (s : State) : HostWord :=
  match num with
  | 0x00 => (statusWord s).setWidth 64
  | 0x01 => s.errCause.setWidth 64
  | 0x02 => s.errPos
  | 0x03 => s.errFrame.setWidth 64
  | 0x04 => (ctrlWord s).setWidth 64
  | 0x05 => s.srcLen.setWidth 64
  | 0x06 => s.pos
  | 0x07 => s.crc8.setWidth 64
  | 0x08 => s.crc16.setWidth 64
  | 0x09 => s.rv
  | 0x0A => s.rawLen.setWidth 64
  | 0x0B => s.frameIdx.setWidth 64
  | 0x10 => s.siRate.setWidth 64
  | 0x11 => s.siBps.setWidth 64
  | 0x18 => s.fhStrategy.setWidth 64
  | 0x19 => s.fhBlocksize.setWidth 64
  | 0x1A => s.fhRate.setWidth 64
  | 0x1B => s.fhChassign.setWidth 64
  | 0x1C => s.fhNch.setWidth 64
  | 0x1D => s.fhBps.setWidth 64
  | 0x1E => s.fhNumber.setWidth 64
  | 0x1F => s.fhCrc.setWidth 64
  | 0x20 => s.sfType.setWidth 64
  | 0x21 => s.sfOrder.setWidth 64
  | 0x22 => s.sfWasted.setWidth 64
  | 0x23 => s.sfWidth.setWidth 64
  | 0x24 => s.lpcPrec.setWidth 64
  | 0x25 => s.lpcShift.signExtend 64
  | 0x26 => s.resMethod.setWidth 64
  | 0x27 => s.resPorder.setWidth 64
  | n => readFileRegister n s

/-- A host read of a register changes nothing but what the host has seen (rule R47). `CMD` is write-only: the access
is ignored (rule R224, log entry 11). -/
def hostReadRegister (num : Nat) (s : State) : State :=
  if num = commandPort then s else { s with reads := readRegister num s :: s.reads }

/-- A host read of a word of `SMP` (rule R43), sign-extended to the host's data word (log entry 18). -/
def hostReadSample (a : Nat) (s : State) : State :=
  { s with reads := (sampleWord a s).signExtend 64 :: s.reads }

/-- `SRC_LEN` (rules R22 and R47): a value that would break `POS <= 8 * SRC_LEN` or needs more than 61 bits is
refused with `BadCommand`. -/
def writeSourceLength (v : HostWord) (s : State) : State :=
  if 8 * v.toNat < s.pos.toNat ∨ v.toNat ≥ 2 ^ 61 then takeFault .badCommand s
  else { s with srcLen := v.setWidth 61 }

/-- A write to a register number outside FAULT (rule R47): the low bits that fit are stored, and a read-only or
unassigned number is ignored. -/
def writeRegister (num : Nat) (v : HostWord) (s : State) : State :=
  match num with
  | 0x04 => { s with strict := v.getLsbD 0, siValid := v.getLsbD 1 }
  | 0x05 => writeSourceLength v s
  | 0x10 => { s with siRate := v.setWidth 20 }
  | 0x11 => { s with siBps := v.setWidth 6 }
  | 0x18 => { s with fhStrategy := v.setWidth 1 }
  | 0x19 => { s with fhBlocksize := v.setWidth 17 }
  | 0x1A => { s with fhRate := v.setWidth 20 }
  | 0x1B => { s with fhChassign := v.setWidth 4 }
  | 0x1C => { s with fhNch := v.setWidth 4 }
  | 0x1D => { s with fhBps := v.setWidth 6 }
  | 0x1E => { s with fhNumber := v.setWidth 36 }
  | 0x1F => { s with fhCrc := v.setWidth 8 }
  | _ => s

/-- A host write of a register other than `CMD`: ignored in FAULT (rules R47 and R217). -/
def hostWriteRegister (num : Nat) (v : HostWord) (s : State) : State :=
  if s.st = .fault then s else writeRegister num v s

/-- A host write of a word of `SMP` between commands, by its own means (rule R235): the word is stored. In FAULT every
host write is ignored (rule R47; log entry 12). -/
def hostWriteSample (a : Nat) (v : Sample) (s : State) : State :=
  if s.st = .fault then s else storeSample a v s

/-- A write at a sample address through the host interface of rule R21 changes nothing: its list holds no such access,
`SMP` is "not host-writable" there (rule R43), and an access the spec forbids is ignored (rule R224; log entry 12). -/
def portWriteSample (_a : Nat) (_v : Sample) (s : State) : State := s

/-! ## Placing an instruction where the next step fetches it (log entry 9) -/

/-- The block out of FAULT, so that the next command is accepted. -/
def acceptCommands (s : State) : State :=
  if s.st = .fault then { s with st := .ready, errCause := 0, errPos := 0, errFrame := 0 } else s

/-- A command word as the host's next action. -/
def stageCommand (w : Nat) (s : State) : State :=
  let t := acceptCommands s
  { t with host := .command (BitVec.ofNat 32 w) :: t.host }

/-- `count` bytes of the number `v`, the most significant first, at address `a` and up. -/
def placeBytes : Nat → Nat → Nat → State → State
  | 0, _, _, s => s
  | count + 1, a, v, s =>
    placeBytes count (a + 1) v (writeSource a (BitVec.ofNat 8 (v / 2 ^ (8 * count))) s)

/-- The stream from the cursor on: the `n` bits of `v`, then zero bits to the end of the source, 256 bytes later.
The bits before the cursor stay as they are. -/
def placeStream (n v : Nat) (s : State) : State :=
  let a := s.pos.toNat / 8
  let used := s.pos.toNat % 8
  let count := (used + n + 7) / 8
  let before := (sourceByte a s).toNat / 2 ^ (8 - used)
  let t := { s with src := s.src.filter fun c => decide (c.1 < a), srcLen := BitVec.ofNat 61 (a + count + 256) }
  placeBytes count a ((before * 2 ^ n + v) * 2 ^ (8 * count - used - n)) t

/-- A subframe header at the cursor and SUBFRAME 0 as the next command. Illegal `FH_*` registers are made legal: the
smallest block that holds the warm-up, 8 bits, one channel. -/
def stageHeader (w : Nat) (s : State) : State :=
  let t := placeStream 8 w s
  let order := match decodeHeader 0 w with
    | .ok (.fixed2 _ _) => 2
    | .ok (.fixed3 _ _) => 3
    | .ok (.fixed4 _ _) => 4
    | .ok (.lpc _ o _) => o.toNat + 1
    | _ => 1
  stageCommand 0x21000000
    { t with
      fhBlocksize := if 1 ≤ t.fhBlocksize.toNat ∧ t.fhBlocksize.toNat ≤ Config.maxBlock then t.fhBlocksize
        else BitVec.ofNat 17 order
      fhBps := if 4 ≤ t.fhBps.toNat ∧ t.fhBps.toNat ≤ 32 then t.fhBps else 8
      fhChassign := if t.fhChassign.toNat ≤ 10 then t.fhChassign else 0 }

/-- A residual section of one partition under method `m` whose parameter is the `n` bits of `v`, and RESID 0, 0 as
the next command, over a block of one sample. -/
def stageParameter (m n v : Nat) (s : State) : State :=
  stageCommand 0x22000000 { placeStream (5 + n) (m * 2 ^ (4 + n) + v) s with fhBlocksize := 1 }

/-- A channel-assignment code in `FH_CHASSIGN` and DECORR as the next command. An illegal block size is made 1. -/
def stageChannels (a : Nat) (s : State) : State :=
  stageCommand 0x23000000
    { s with
      fhChassign := BitVec.ofNat 4 a
      fhBlocksize := if 1 ≤ s.fhBlocksize.toNat ∧ s.fhBlocksize.toNat ≤ Config.maxBlock then s.fhBlocksize else 1 }

/-- The next instruction, in its slot. -/
def stage (slot : Slot) (nbits w : Nat) (s : State) : State :=
  match slot with
  | .command => stageCommand w s
  | .header _ => stageHeader w s
  | .param0 _ => stageParameter 0 nbits w s
  | .param1 _ => stageParameter 1 nbits w s
  | .channels => stageChannels w s

end Sys2Proof.Machine
end

