-- ==== Sys2Proof/Machine/Step.lean ====
section
/-! DEFINITION. Machine/Step.lean: one step is the host's next action (log entry 1).

A command is a single step (rule R248). With no action left the block waits, unchanged: "between commands the block
is idle" (rule R236). -/

namespace Sys2Proof.Machine

/-- A command word written to `CMD` (rules R81, R83 and R217). -/
def runCommand (w : CommandWord) (s : State) : Host.Outcome State Fault Refusal :=
  match decode .command 32 w.toNat with
  | .ok i => exec i s
  | .error _ => .next (malformedCommand s)

/-- One action of the host (rules R21, R235 and R241). A register write to the number of `CMD` is a command word (rule
R46, log entry 10). -/
def act (a : HostAction) (s : State) : Host.Outcome State Fault Refusal :=
  match a with
  | .command w => runCommand w s
  | .writeReg num v => if num = commandPort then runCommand (v.setWidth 32) s else .next (hostWriteRegister num v s)
  | .readReg num => .next (hostReadRegister num s)
  | .readSample a => .next (hostReadSample a.toNat s)
  | .writeSample a v => .next (hostWriteSample a.toNat v s)
  | .portWriteSample a v => .next (portWriteSample a.toNat v s)
  | .writeSource a b => .next (writeSource a.toNat b s)
  | .externalReset => .next (resetBlock s)

/-- One step: the next action of the host leaves the queue and takes effect. -/
def step (s : State) : Host.Outcome State Fault Refusal :=
  match s.host with
  | [] => .next s
  | a :: rest => act a { s with host := rest }

/-- The state whose next step fetches and runs the instruction with these bits (log entry 9): a command word as the
host's next action; a stream field at the cursor, or a channel code in its register, with the command that
dispatches on it as the host's next action. -/
def State.withFetchWord (s : State) (nbits w : Nat) : State :=
  stage (tableSlot nbits w).1 (tableSlot nbits w).2 w s

end Sys2Proof.Machine
end

