-- ==== Sys2Proof/Safety.lean ====
section
/-! DEFINITION. Safety.lean: the terms claims are written in: the stream notation of rule R104, what a state's source
holds, what a run keeps, and what a store leaves.

The notation is an encoder of the stream syntax of rules R84 to R100. No meaning uses it. -/

namespace Sys2Proof.Machine

/-! ## Stream notation (rule R104) -/

/-- `u(n)=v`: an unsigned field of `n` bits, most significant first (rule R61). -/
def uBits : Nat → Nat → List Bool
  | 0, _ => []
  | n + 1, v => v.testBit n :: uBits n v

/-- `s(n)=v`: a signed field of `n` bits. -/
def sBits (n : Nat) (v : Int) : List Bool := uBits n (v % ((2 ^ n : Nat) : Int)).toNat

/-- The numbers a signed field of `n` bits can hold (rule R113); a field of no bits holds 0. -/
def fitsSigned (n : Nat) (v : Int) : Prop :=
  if n = 0 then v = 0 else -((2 ^ (n - 1) : Nat) : Int) ≤ v ∧ v < ((2 ^ (n - 1) : Nat) : Int)

/-- `unary(k)`, for the terminator `t`: `k` bits unlike `t`, then `t`. -/
def unaryBits (t : Bool) (k : Nat) : List Bool := List.replicate k (!t) ++ [t]

/-- The folded value of a residual (rule R175, the inverse). -/
def foldZigzag (v : Int) : Nat := if 0 ≤ v then (2 * v).toNat else (-2 * v - 1).toNat

/-- `rice(k)=v` (rule R99). -/
def riceBits (k : Nat) (v : Int) : List Bool :=
  unaryBits true (foldZigzag v / 2 ^ k) ++ uBits k (foldZigzag v % 2 ^ k)

/-- The number of continuation bytes of the canonical encoding of a number (rule R90). -/
def extraBytes (v : Nat) : Nat :=
  if v < 0x80 then 0
  else if v < 0x800 then 1
  else if v < 0x10000 then 2
  else if v < 0x200000 then 3
  else if v < 0x4000000 then 4
  else if v < 0x80000000 then 5
  else 6

/-- `n` continuation bytes `10xxxxxx` with the low `6 * n` bits of a number, most significant group first. -/
def continuationBits : Nat → Nat → List Bool
  | 0, _ => []
  | n + 1, v => uBits 2 2 ++ uBits 6 (v / 2 ^ (6 * n)) ++ continuationBits n v

/-- A number with `n` continuation bytes: its lead byte, then them (rule R90). It is canonical for
`n = extraBytes v`, and overlong for a greater `n`. -/
def numberBits (n v : Nat) : List Bool :=
  if n = 0 then uBits 1 0 ++ uBits 7 v
  else List.replicate (n + 1) true ++ [false] ++ uBits (6 - n) (v / 2 ^ (6 * n)) ++ continuationBits n v

/-- `vint=v`: the canonical encoding. -/
def vintBits (v : Nat) : List Bool := numberBits (extraBytes v) v

/-! ## Frame headers (rules R84 to R91) -/

/-- The fields of a frame header: the codes of the header word, the number, and the values of the two extensions
(which only some codes read). -/
structure HeaderFields where
  strategy : Nat
  block    : Nat
  rate     : Nat
  channels : Nat
  size     : Nat
  number   : Nat
  blockExt : Nat
  rateExt  : Nat
  deriving DecidableEq, Repr

/-- No code is reserved, and every value fits its field (rules R85 to R90). -/
def HeaderFields.legal (h : HeaderFields) : Prop :=
  h.strategy < 2 ∧ 1 ≤ h.block ∧ h.block < 16 ∧ h.rate < 15 ∧ h.channels < 11 ∧ h.size < 7 ∧ h.size ≠ 3
    ∧ h.number < 2 ^ 36 ∧ h.blockExt < (if h.block = 6 then 2 ^ 8 else 2 ^ 16)
    ∧ h.rateExt < (if h.rate = 12 then 2 ^ 8 else 2 ^ 16)

/-- The block-size extension: low byte first under code 7 (rule R86). -/
def blockExtensionBits (b x : Nat) : List Bool :=
  if b = 6 then uBits 8 x else if b = 7 then uBits 8 (x % 256) ++ uBits 8 (x / 256) else []

/-- The block size (rule R86). -/
def blockSizeOf (b x : Nat) : Nat :=
  if b = 1 then 192 else if b ≤ 5 then 576 * 2 ^ (b - 2) else if b ≤ 7 then x + 1 else 256 * 2 ^ (b - 8)

/-- The sample-rate extension (rule R87). -/
def rateExtensionBits (r y : Nat) : List Bool :=
  if r = 12 then uBits 8 y else if r = 13 ∨ r = 14 then uBits 16 y else []

/-- The sample rate in Hz (rule R87). -/
def sampleRateOf (r y inherited : Nat) : Nat :=
  match r with
  | 0 => inherited
  | 1 => 88200
  | 2 => 176400
  | 3 => 192000
  | 4 => 8000
  | 5 => 16000
  | 6 => 22050
  | 7 => 24000
  | 8 => 32000
  | 9 => 44100
  | 10 => 48000
  | 11 => 96000
  | 14 => 10 * y
  | _ => y

/-- The sample size in bits (rule R89). -/
def sampleSizeOf (z inherited : Nat) : Nat :=
  match z with
  | 0 => inherited
  | 1 => 8
  | 2 => 12
  | 4 => 16
  | 5 => 20
  | _ => 24

/-- The 32 bits of the header word (rule R85). -/
def headerWordBits (h : HeaderFields) : List Bool :=
  uBits 14 Config.syncCode ++ uBits 1 0 ++ uBits 1 h.strategy ++ uBits 4 h.block ++ uBits 4 h.rate
    ++ uBits 4 h.channels ++ uBits 3 h.size ++ uBits 1 0

/-- The header without its checksum byte. -/
def headerBits (h : HeaderFields) : List Bool :=
  headerWordBits h ++ vintBits h.number ++ blockExtensionBits h.block h.blockExt ++ rateExtensionBits h.rate h.rateExt

/-- The header registers that a header with these fields and this checksum byte leaves (rule R142). -/
def HeaderFields.registers (h : HeaderFields) (c : BitVec 8) (s : State) : State :=
  { s with
    fhStrategy := BitVec.ofNat 1 h.strategy
    fhBlocksize := BitVec.ofNat 17 (blockSizeOf h.block h.blockExt)
    fhRate := BitVec.ofNat 20 (sampleRateOf h.rate h.rateExt s.siRate.toNat)
    fhChassign := BitVec.ofNat 4 h.channels
    fhNch := BitVec.ofNat 4 (if h.channels < 8 then h.channels + 1 else 2)
    fhBps := BitVec.ofNat 6 (sampleSizeOf h.size s.siBps.toNat)
    fhNumber := BitVec.ofNat 36 h.number
    fhCrc := c }

/-! ## Residual sections and subframes (rules R92 to R99) -/

/-- A partition as an encoder writes it: its parameter and its residuals. -/
inductive PartitionCode where
  | rice (k : Nat) (vs : List Int)
  | escape (w : Nat) (vs : List Int)
  deriving DecidableEq, Repr

/-- The residuals of a partition. -/
def PartitionCode.values : PartitionCode → List Int
  | .rice _ vs => vs
  | .escape _ vs => vs

/-- The bits of a partition under coding method `m` (rule R98). -/
def PartitionCode.bits (m : Nat) : PartitionCode → List Bool
  | .rice k vs => uBits (paramWidth m) k ++ vs.flatMap (riceBits k)
  | .escape w vs => uBits (paramWidth m) (escapeValue m) ++ uBits 5 w ++ vs.flatMap (sBits w)

/-- A Rice parameter is below the escape value; an escaped residual fits the raw width (rule R98). -/
def PartitionCode.legal (m : Nat) : PartitionCode → Prop
  | .rice k _ => k < escapeValue m
  | .escape w vs => w < 32 ∧ ∀ v ∈ vs, fitsSigned w v

/-- The section's partition lengths and parameters are those of rules R171 and R172 for a block of `n` samples and
an order `o`. -/
def sectionLegal (m p n o : Nat) (parts : List PartitionCode) : Prop :=
  m < 2 ∧ p < 16 ∧ n % 2 ^ p = 0 ∧ o ≤ n / 2 ^ p
    ∧ parts.map (fun c => c.values.length) = (n / 2 ^ p - o) :: List.replicate (2 ^ p - 1) (n / 2 ^ p)
    ∧ ∀ c ∈ parts, c.legal m

/-- The residual section (rule R97). -/
def sectionBits (m p : Nat) (parts : List PartitionCode) : List Bool :=
  uBits 1 m ++ uBits 4 p ++ parts.flatMap (PartitionCode.bits m)

/-- The residuals of a section, in sample order. -/
def sectionValues (parts : List PartitionCode) : List Int := parts.flatMap PartitionCode.values

/-- The wasted-bits count after the flag: `unary(wasted - 1)` when there are any (rule R94). -/
def wastedBits (wasted : Nat) : List Bool := if wasted = 0 then [] else unaryBits true (wasted - 1)

/-- A subframe header (rules R92 and R94): the reserved bit, the type selector, the flag and the count. -/
def subframeHeaderBits (k : SubKind) (wasted : Nat) : List Bool :=
  uBits 1 0 ++ uBits 6 k.selector ++ uBits 1 (if wasted = 0 then 0 else 1) ++ wastedBits wasted

/-! ## What a source holds at the cursor -/

/-- The bits at the cursor are these, and they all exist (rules R22, R23 and R61). -/
def Holds (bits : List Bool) (s : State) : Prop :=
  s.pos.toNat + bits.length ≤ sourceEnd s
    ∧ ∀ j (h : j < bits.length), streamBit (s.pos.toNat + j) s = bits[j]

/-- The state after exactly these bits have been consumed: the cursor has moved past them and both checksums have
absorbed them, the first first (rule R111). -/
def advance (bits : List Bool) (s : State) : State :=
  { s with
    pos := s.pos + BitVec.ofNat 64 bits.length
    crc8 := bits.foldl crc8Step s.crc8
    crc16 := bits.foldl crc16Step s.crc16 }

/-- The state after the fault with this cause code is taken: only the fault record and `STATE` change (rule R215). -/
def faulted (code : BitVec 8) (s : State) : State :=
  { s with errCause := code, errPos := s.pos, errFrame := s.frameIdx, st := .fault }

/-! ## A source that ends inside an encoding (rules R65, R112, R114, R214 and R215) -/

/-- A field of the stream, which is read whole or not at all: its bits, whether it is a unary run, and what the block
writes once it has been read. A field of no bits carries its effect alone: no source ends inside it. -/
structure Field where
  bits   : List Bool
  unary  : Bool := false
  effect : State → State := id

/-- The state after a field has been read. -/
def Field.run (f : Field) (s : State) : State := f.effect (advance f.bits s)

/-- The state after these fields have been read, one after another. -/
def runFields (fs : List Field) (s : State) : State := fs.foldl (fun s f => f.run s) s

/-- The bits of these fields, one after another. -/
def fieldBits (fs : List Field) : List Bool := fs.flatMap Field.bits

/-- The source does not hold the field whole at the cursor: it ends before the field does, or, for a unary run, before
a terminator. What bits of the field it does hold makes no difference. -/
def Field.lacking (f : Field) (s : State) : Prop :=
  if f.unary then ∀ p, s.pos.toNat ≤ p → p < sourceEnd s → streamBit p s = false
  else sourceEnd s < s.pos.toNat + f.bits.length

/-- Wherever the source ends inside these fields, the outcome is `TruncatedStream` at the first bit of the field that is
not whole, and of the fields before it everything is done (rules R214 to R216). -/
def EndsInside (fs : List Field) (s : State) (o : Host.Outcome State Fault Refusal) : Prop :=
  ∀ (k : Nat) (f : Field), fs[k]? = some f → Holds (fieldBits (fs.take k)) s → f.lacking (runFields (fs.take k) s) →
    o = .next (faulted 7 (runFields (fs.take k) s))

/-- Signed fields of `w` bits, stored in plane `c` from sample `i` on as they are read (rules R154, R155 and R176). -/
def signedFields (w c : Nat) : Nat → List Int → List Field
  | _, [] => []
  | i, v :: vs => { bits := sBits w v, effect := writeSample c i v } :: signedFields w c (i + 1) vs

/-- Rice symbols, two fields each, stored in plane `c` from sample `i` on as they are read (rule R175). -/
def riceFields (k c : Nat) : Nat → List Int → List Field
  | _, [] => []
  | i, v :: vs =>
    { bits := unaryBits true (foldZigzag v / 2 ^ k), unary := true }
      :: { bits := uBits k (foldZigzag v % 2 ^ k), effect := writeSample c i v } :: riceFields k c (i + 1) vs

/-- A partition under coding method `m`: its parameter, the raw width of an escape, its residuals (rule R170). -/
def PartitionCode.fields (m c i : Nat) : PartitionCode → List Field
  | .rice k vs => { bits := uBits (paramWidth m) k } :: riceFields k c i vs
  | .escape w vs => { bits := uBits (paramWidth m) (escapeValue m) } :: { bits := uBits 5 w } :: signedFields w c i vs

/-- Partitions one after another, from sample `i` on (rule R172). -/
def partitionFields (m c : Nat) : Nat → List PartitionCode → List Field
  | _, [] => []
  | i, p :: ps => p.fields m c i ++ partitionFields m c (i + p.values.length) ps

/-- A residual section: its method, its partition order, its partitions (rule R170). -/
def sectionFields (m p c o : Nat) (parts : List PartitionCode) : List Field :=
  { bits := uBits 1 m, effect := fun s => { s with resMethod := BitVec.ofNat 1 m } }
    :: { bits := uBits 4 p, effect := fun s => { s with resPorder := BitVec.ofNat 4 p } } :: partitionFields m c o parts

/-- The `SF_*` registers, written before a subframe's body is read (rule R152). -/
def subframeField (type order wasted width : Nat) : Field where
  bits := []
  effect := fun s => { s with
    sfType := BitVec.ofNat 2 type
    sfOrder := BitVec.ofNat 6 order
    sfWasted := BitVec.ofNat 6 wasted
    sfWidth := BitVec.ofNat 6 width }

/-- The wasted-bits run, where there is one (rule R94). -/
def wastedRun (wasted : Nat) : List Field := if wasted = 0 then [] else [{ bits := wastedBits wasted, unary := true }]

/-- What stands between a subframe's flag and its body. -/
def wastedFields (type order wasted width : Nat) : List Field :=
  wastedRun wasted ++ [subframeField type order wasted width]

/-- Coefficients of `prec` bits, into `COEF` from entry `j` on (rule R158). -/
def coefficientFields (prec : Nat) : Nat → List Int → List Field
  | _, [] => []
  | j, v :: vs =>
    { bits := sBits prec v, effect := fun s => { s with coef := s.coef.setIfInBounds j (BitVec.ofInt 16 v) } }
      :: coefficientFields prec (j + 1) vs

/-- The parameters of a linear predictor: precision, shift, coefficients (rule R158). -/
def lpcFields (prec shift : Nat) (coefs : List Int) : List Field :=
  { bits := uBits 4 (prec - 1), effect := fun s => { s with lpcPrec := BitVec.ofNat 5 prec } }
    :: { bits := sBits 5 shift, effect := fun s => { s with lpcShift := BitVec.ofNat 5 shift } }
    :: coefficientFields prec 0 coefs

/-- A subframe header (rules R92 and R94). -/
def subframeHeaderFields (k : SubKind) (wasted : Nat) : List Field :=
  { bits := uBits 1 0 } :: { bits := uBits 6 k.selector } :: { bits := uBits 1 (if wasted = 0 then 0 else 1) }
    :: wastedRun wasted

/-- The bytes of a number with `n` continuation bytes (rule R130). -/
def numberFields (n v : Nat) : List Field :=
  (List.range (n + 1)).map fun j => { bits := ((numberBits n v).drop (8 * j)).take 8 }

/-- A frame header after its word: the bytes of the number, the extensions, the checksum byte. The block size of code 7
is two fields of 8 bits (rule R139), the sample rates of codes 13 and 14 one field of 16 (rule R140). -/
def headerTailFields (h : HeaderFields) (c : BitVec 8) : List Field :=
  numberFields (extraBytes h.number) h.number
    ++ (if h.block = 6 then [{ bits := uBits 8 h.blockExt }]
      else if h.block = 7 then [{ bits := uBits 8 (h.blockExt % 256) }, { bits := uBits 8 (h.blockExt / 256) }]
      else [])
    ++ (if h.rate = 12 then [{ bits := uBits 8 h.rateExt }]
      else if h.rate = 13 ∨ h.rate = 14 then [{ bits := uBits 16 h.rateExt }] else [])
    ++ [{ bits := uBits 8 c.toNat }]

/-- Bits that VARINT rejects at the last of these bytes: no lead, an overlong number, a byte that is no continuation
(rules R130 to R133). -/
def MalformedNumber (bits : List Bool) : Prop :=
  (∃ b, (0x80 ≤ b ∧ b ≤ 0xBF ∨ b = 0xFF) ∧ bits = uBits 8 b)
    ∨ (∃ n v, n ≤ 6 ∧ extraBytes v < n ∧ bits = numberBits n v)
    ∨ (∃ n v j c, n ≤ 6 ∧ 1 ≤ j ∧ j ≤ n ∧ c < 256 ∧ c / 64 ≠ 2 ∧ bits = (numberBits n v).take (8 * j) ++ uBits 8 c)

/-! ## Operands of a subframe (rules R40, R150 and R152) -/

/-- The registers SUBFRAME reads hold legal values (rule R150). -/
def SubframeRegisters (s : State) : Prop :=
  1 ≤ s.fhBlocksize.toNat ∧ s.fhBlocksize.toNat ≤ 65536 ∧ 4 ≤ s.fhBps.toNat ∧ s.fhBps.toNat ≤ 32
    ∧ s.fhChassign.toNat ≤ 10

/-- The width of an unshifted sample of plane `ch` before wasted bits are taken off: `FH_BPS`, and one bit more for
the side channel of a stereo pair (rule R152). -/
def codedWidth (ch : Nat) (s : State) : Nat :=
  s.fhBps.toNat + if (s.fhChassign.toNat, ch) ∈ [(8, 1), (9, 0), (10, 1)] then 1 else 0

/-! ## Reconstruction on lists (rules R155 to R160) -/

/-- The fixed prediction of order `o` from the samples before, the newest first (rule R156). -/
def fixedPrediction (o : Nat) (past : List Int) : Int :=
  match o with
  | 0 => 0
  | 1 => past.getD 0 0
  | 2 => 2 * past.getD 0 0 - past.getD 1 0
  | 3 => 3 * past.getD 0 0 - 3 * past.getD 1 0 + past.getD 2 0
  | _ => 4 * past.getD 0 0 - 6 * past.getD 1 0 + 4 * past.getD 2 0 - past.getD 3 0

/-- The linear prediction: the sum of coefficients times the samples before, the first coefficient on the newest
sample, shifted right toward minus infinity (rule R159). -/
def linearPrediction (coefs : List Int) (shift : Nat) (past : List Int) : Int :=
  (List.zipWith (· * ·) coefs past).sum / ((2 ^ shift : Nat) : Int)

/-- A value as a word of sample memory holds it (rule R9). -/
def held (v : Int) : Int := (narrow v).toInt

/-- What reconstruction writes after the samples `past`, the newest first, for these residuals: each value is
prediction plus residual, and the next prediction sees it as its word holds it (rules R155 and R160). -/
def rebuild (predict : List Int → Int) : List Int → List Int → List Int
  | _, [] => []
  | past, r :: rs => (predict past + r) :: rebuild predict (held (predict past + r) :: past) rs

/-- The residuals an encoder forms: each sample less its prediction from the samples before it. -/
def differences (predict : List Int → Int) : List Int → List Int → List Int
  | _, [] => []
  | past, x :: xs => (x - predict past) :: differences predict (x :: past) xs

/-- Every sample shifted left by the wasted-bits count (rule R157). -/
def scaled (wasted : Nat) (xs : List Int) : List Int := xs.map fun x => held x * ((2 ^ wasted : Nat) : Int)

/-- The coefficient registers after these coefficients have been read: entries beyond them keep their values (rules
R42 and R158). -/
def loadCoefficients (coefs : List Int) (old : Vector (BitVec 16) Config.maxOrder) : Vector (BitVec 16) Config.maxOrder :=
  Vector.ofFn fun j => (coefs[j.val]?.map (BitVec.ofInt 16)).getD old[j]

/-! ## What a store leaves -/

/-- From `s` to `t`, the words of plane `c` from sample `first` on hold these values narrowed (rule R9), and every
other word of sample memory reads as before. -/
def Stored (c first : Nat) (vs : List Int) (s t : State) : Prop :=
  (∀ j (h : j < vs.length), sampleWord (sampleAddress c (first + j)) t = narrow vs[j])
    ∧ ∀ a, ¬ (sampleAddress c first ≤ a ∧ a < sampleAddress c first + vs.length) → sampleWord a t = sampleWord a s

/-! ## A sequence of commands (rule R196) -/

/-- The host issues these commands one after another and stops at the first that does not end READY. -/
def runAll : List Instr → State → Host.Outcome State Fault Refusal
  | [], s => .next s
  | i :: rest, s =>
    match exec i s with
    | .next t => if t.st = .ready then runAll rest t else .next t
    | .fault e => .fault e
    | .refused r => .refused r

/-- The end of a command that ran one stream kind: `STATE` becomes READY unless the kind raised a fault (rule R30). -/
def readyUnlessFault (o : Host.Outcome State Fault Refusal) : Host.Outcome State Fault Refusal :=
  match o with
  | .next t => .next (if t.st = .fault then t else { t with st := .ready })
  | .fault e => .fault e
  | .refused r => .refused r

/-! ## What a command may raise (rule R213) -/

/-- The causes a row of rule R213 allows an instruction whose operands the decoder has accepted. A stream kind may
raise what the command it runs inside may raise for it. -/
def allowedCauses : Instr → List Cause
  | .reset => []
  | .crcrst _ => []
  | .align => []
  | .rdu _ => [.unexpectedEnd]
  | .rds _ => [.unexpectedEnd]
  | .rdunary _ => [.unexpectedEnd]
  | .rdbytes _ => [.badCommand, .unexpectedEnd]
  | .varint => [.unexpectedEnd, .malformedVarint]
  | .framehdr => [.badCommand, .missingStreamInfo, .truncatedStream, .syncLost, .reservedCodeUsed, .malformedVarint,
      .checksumMismatch]
  | .subframe _ => [.badCommand, .truncatedStream, .reservedCodeUsed, .invalidShift, .invalidPartitionOrder]
  | .resid _ _ => [.badCommand, .truncatedStream, .invalidPartitionOrder]
  | .decorr => [.badCommand]
  | .frame => [.badCommand, .missingStreamInfo, .truncatedStream, .syncLost, .reservedCodeUsed, .malformedVarint,
      .checksumMismatch, .invalidShift, .invalidPartitionOrder]
  | .constant _ _ => [.badCommand, .truncatedStream, .reservedCodeUsed]
  | .verbatim _ _ => [.badCommand, .truncatedStream, .reservedCodeUsed]
  | .fixed0 _ _ => [.badCommand, .truncatedStream, .reservedCodeUsed, .invalidPartitionOrder]
  | .fixed1 _ _ => [.badCommand, .truncatedStream, .reservedCodeUsed, .invalidPartitionOrder]
  | .fixed2 _ _ => [.badCommand, .truncatedStream, .reservedCodeUsed, .invalidPartitionOrder]
  | .fixed3 _ _ => [.badCommand, .truncatedStream, .reservedCodeUsed, .invalidPartitionOrder]
  | .fixed4 _ _ => [.badCommand, .truncatedStream, .reservedCodeUsed, .invalidPartitionOrder]
  | .lpc _ _ _ => [.badCommand, .truncatedStream, .reservedCodeUsed, .invalidShift, .invalidPartitionOrder]
  | .rice4 _ _ => [.truncatedStream]
  | .esc4 _ _ => [.truncatedStream]
  | .rice5 _ _ => [.truncatedStream]
  | .esc5 _ _ => [.truncatedStream]
  | .indep _ => [.badCommand]
  | .lside => [.badCommand]
  | .rside => [.badCommand]
  | .mside => [.badCommand]

/-! ## What every run keeps -/

/-- The invariant of the block. -/
structure State.Inv (s : State) : Prop where
  /-- Source memory is in canonical form. -/
  source : sourceWf s.src = true
  /-- Sample memory is in canonical form. -/
  samples : samplesWf s.smp = true
  /-- `POS <= 8 * SRC_LEN` (rule R22). -/
  cursor : s.pos.toNat ≤ sourceEnd s
  /-- `RAW_LEN` is at most `RAW_MAX` (rule R27). -/
  rawLen : s.rawLen.toNat ≤ Config.rawMax
  /-- The fault record is zero outside FAULT (rules R34 to R36). -/
  noFault : s.st ≠ .fault → s.errCause = 0 ∧ s.errPos = 0 ∧ s.errFrame = 0
  /-- In FAULT it is a cause that some rule raises, the cursor and the frame index at the raise (rules R211, R212
  and R215), which nothing has moved since (rule R217). -/
  fault : s.st = .fault →
    (∃ c : Cause, c ≠ .malformedMetadata ∧ s.errCause = c.code) ∧ s.errPos = s.pos ∧ s.errFrame = s.frameIdx
  /-- The ranges of rule R41. -/
  order : s.sfOrder.toNat ≤ Config.maxOrder
  wasted : s.sfWasted.toNat ≤ 32
  width : s.sfWidth.toNat ≤ 33
  precision : s.lpcPrec.toNat ≤ Config.maxPrec

end Sys2Proof.Machine
end

