-- ==== Sys2Proof/Certificates/Slice0/Obligations.lean ====
section
/-! DEFINITION. Certificates/Slice0/Obligations.lean: the statements.

The stream notation (`uBits`, `sBits`, `headerBits`, …), `Holds`, `advance`, `faulted` and `Stored` are those of
Safety.lean. `faulted 11 s` is the state after `raise BadCommand` in `s` (rule R215), and so for the other codes of
rule R211. A bound variable `wasted` is the number of wasted bits, and the flag of the subframe header is
`decide (0 < wasted)` (rule R94). `EndsInside fields z o` says of the outcome `o` that wherever the source ends inside
these fields, a field is read whole or not at all, the fault is `TruncatedStream` at the first bit of the field that is
not whole, and what the fields before it do to `z` is done, sample words stored among it (rules R214 to R216). -/

open Sys2Proof Sys2Proof.Machine

/-! ## Encodings -/

/-- Decoding what the encoder writes gives the instruction back, for every well-formed instruction of every family
(rules R81, R88, R92, R93 and R98). -/
def Obligations.DecodeInvertsEncode : Prop :=
  ∀ i : Instr, i.wellFormed = true → decode i.slot i.width (encode i) = .ok i

/-- The other direction: whatever the decoder accepts is the encoding of what it gives, so no word has two meanings
and no bit is ignored. The result is well formed when the partition of the slot lies in its plane. -/
def Obligations.EncodeInvertsDecode : Prop :=
  ∀ (slot : Slot) (nbits w : Nat) (i : Instr), decode slot nbits w = .ok i →
    i.slot = slot ∧ i.width = nbits ∧ encode i = w
      ∧ ((∀ p, slot = .param0 p ∨ slot = .param1 p → p.wellFormed = true) → i.wellFormed = true)

/-- One word of every family, written out from the encodings of rules R81, R88, R92, R93 and R98. -/
def Obligations.WrittenOutWordsDecode : Prop :=
  decode .command 32 0x01000000 = .ok .reset
    ∧ decode .command 32 0x02000003 = .ok (.crcrst 3#2)
    ∧ decode .command 32 0x10000040 = .ok (.rdu 64#7)
    ∧ decode .command 32 0x10000041 = .error .operandRange
    ∧ decode .command 32 0x22002007 = .ok (.resid 7#3 32#6)
    ∧ decode .command 32 0x22002107 = .error .operandRange
    ∧ decode .command 32 0x23000001 = .error .noCommand
    ∧ decode (.header 5#3) 8 0b00000010 = .ok (.verbatim 5#3 false)
    ∧ decode (.header 5#3) 8 0b00011001 = .ok (.fixed4 5#3 true)
    ∧ decode (.header 5#3) 8 0b01111110 = .ok (.lpc 5#3 31#5 false)
    ∧ decode (.header 5#3) 8 0b00000100 = .error .reservedType
    ∧ decode (.header 5#3) 8 0b10000000 = .error .reservedBit
    ∧ decode (.param0 ⟨1#3, 2, 3⟩) 4 0b1110 = .ok (.rice4 ⟨1#3, 2, 3⟩ 14#4)
    ∧ decode (.param0 ⟨1#3, 2, 3⟩) 9 0b111110111 = .ok (.esc4 ⟨1#3, 2, 3⟩ 23#5)
    ∧ decode (.param1 ⟨1#3, 2, 3⟩) 5 0b01111 = .ok (.rice5 ⟨1#3, 2, 3⟩ 15#5)
    ∧ decode (.param1 ⟨1#3, 2, 3⟩) 10 0b1111100000 = .ok (.esc5 ⟨1#3, 2, 3⟩ 0#5)
    ∧ decode .channels 4 7 = .ok (.indep 7#3)
    ∧ decode .channels 4 10 = .ok .mside
    ∧ decode .channels 4 11 = .error .reservedChannels

/-- The command table: a word selects a row when `w & mask = match`, and its operands are the fields of that row,
within the ranges of rule R82. -/
def Obligations.CommandWordsFollowTheTable : Prop :=
  ∀ w : CommandWord,
    (w &&& 0xFFFFFFFF#32 = 0x01000000#32 → decode .command 32 w.toNat = .ok .reset)
      ∧ (w &&& 0xFFFFFFFC#32 = 0x02000000#32 → decode .command 32 w.toNat = .ok (.crcrst (w.extractLsb' 0 2)))
      ∧ (w &&& 0xFFFFFF80#32 = 0x10000000#32 → decode .command 32 w.toNat =
          if (w.extractLsb' 0 7).toNat ≤ 64 then .ok (.rdu (w.extractLsb' 0 7)) else .error .operandRange)
      ∧ (w &&& 0xFFFFFF80#32 = 0x11000000#32 → decode .command 32 w.toNat =
          if (w.extractLsb' 0 7).toNat ≤ 64 then .ok (.rds (w.extractLsb' 0 7)) else .error .operandRange)
      ∧ (w &&& 0xFFFFFFFE#32 = 0x12000000#32 → decode .command 32 w.toNat = .ok (.rdunary (w.getLsbD 0)))
      ∧ (w &&& 0xFFFFFFFF#32 = 0x13000000#32 → decode .command 32 w.toNat = .ok .align)
      ∧ (w &&& 0xFFFFFFE0#32 = 0x14000000#32 → decode .command 32 w.toNat =
          if (w.extractLsb' 0 5).toNat ≤ 16 then .ok (.rdbytes (w.extractLsb' 0 5)) else .error .operandRange)
      ∧ (w &&& 0xFFFFFFFF#32 = 0x15000000#32 → decode .command 32 w.toNat = .ok .varint)
      ∧ (w &&& 0xFFFFFFFF#32 = 0x20000000#32 → decode .command 32 w.toNat = .ok .framehdr)
      ∧ (w &&& 0xFFFFFFF8#32 = 0x21000000#32 → decode .command 32 w.toNat = .ok (.subframe (w.extractLsb' 0 3)))
      ∧ (w &&& 0xFFFFC0F8#32 = 0x22000000#32 → decode .command 32 w.toNat =
          if (w.extractLsb' 8 6).toNat ≤ 32 then .ok (.resid (w.extractLsb' 0 3) (w.extractLsb' 8 6))
          else .error .operandRange)
      ∧ (w &&& 0xFFFFFFFF#32 = 0x23000000#32 → decode .command 32 w.toNat = .ok .decorr)
      ∧ (w &&& 0xFFFFFFFF#32 = 0x24000000#32 → decode .command 32 w.toNat = .ok .frame)

/-- Every word that encodes no well-formed command raises `BadCommand` and does nothing else (rules R83 and R222). -/
def Obligations.OtherWordsRaiseBadCommand : Prop :=
  ∀ (w : CommandWord) (s : State), s.st ≠ .fault →
    (∀ i : Instr, i.slot = .command → i.wellFormed = true → encode i ≠ w.toNat) →
    runCommand w s = .next (faulted 11 s)

/-- The subframe header: reserved bit, type selector and wasted-bits flag (rules R92 and R93). -/
def Obligations.SubframeSelectorTable : Prop :=
  ∀ (ch : BitVec 3) (t : Nat) (f : Bool), t < 64 →
    (∀ b, decode (.header ch) 8 (128 + b) = .error (if b < 128 then .reservedBit else .length))
      ∧ (t = 0 → decode (.header ch) 8 (2 * t + f.toNat) = .ok (.constant ch f))
      ∧ (t = 1 → decode (.header ch) 8 (2 * t + f.toNat) = .ok (.verbatim ch f))
      ∧ (t = 8 → decode (.header ch) 8 (2 * t + f.toNat) = .ok (.fixed0 ch f))
      ∧ (t = 9 → decode (.header ch) 8 (2 * t + f.toNat) = .ok (.fixed1 ch f))
      ∧ (t = 10 → decode (.header ch) 8 (2 * t + f.toNat) = .ok (.fixed2 ch f))
      ∧ (t = 11 → decode (.header ch) 8 (2 * t + f.toNat) = .ok (.fixed3 ch f))
      ∧ (t = 12 → decode (.header ch) 8 (2 * t + f.toNat) = .ok (.fixed4 ch f))
      ∧ (32 ≤ t → decode (.header ch) 8 (2 * t + f.toNat) = .ok (.lpc ch (BitVec.ofNat 5 (t - 32)) f))
      ∧ (2 ≤ t ∧ t ≤ 7 ∨ 13 ≤ t ∧ t ≤ 31 → decode (.header ch) 8 (2 * t + f.toNat) = .error .reservedType)

/-! ## How an instruction comes to run -/

/-- One step is the host's next action. A command word that decodes runs its instruction, whether it is written
through the command port or by the port's register number 0x0F; with no action left the block waits. How the host's
actions are held is the model's choice (log entry 1), and so is that a data word wider than 32 bits, written to 0x0F,
counts by its low 32 bits (log entry 10, DESIGN CHOICE). -/
def Obligations.StepRunsTheDecodedCommand : Prop :=
  ∀ (s : State) (rest : List HostAction) (i : Instr),
    (∀ w, s.host = .command w :: rest → decode .command 32 w.toNat = .ok i → step s = exec i { s with host := rest })
      ∧ (∀ v, s.host = .writeReg 0x0F v :: rest → decode .command 32 (v.toNat % 2 ^ 32) = .ok i →
          step s = exec i { s with host := rest })
      ∧ (s.host = [] → step s = .next s)

/-- SUBFRAME runs the kind its 8 header bits decode to, with the cursor after them. -/
def Obligations.SubframeRunsTheDecodedKind : Prop :=
  ∀ (ch : BitVec 3) (b : Nat) (i : Instr) (s : State), s.st ≠ .fault → SubframeRegisters s →
    decode (.header ch) 8 b = .ok i → Holds (uBits 8 b) s →
    exec (.subframe ch) s = readyUnlessFault (exec i (advance (uBits 8 b) { s with blkv := false }))

/-- RESID over a section of one partition runs the kind its parameter decodes to, with the cursor after it; DECORR
runs the kind `FH_CHASSIGN` decodes to, and raises `BadCommand` on a reserved code or an illegal block size (rules R170
and R185). -/
def Obligations.ResidAndDecorrRunTheDecodedKinds : Prop :=
  ∀ s : State, s.st ≠ .fault →
    (∀ (ch : BitVec 3) (ord : BitVec 6) (m nbits v : Nat) (p : Part) (i : Instr),
      1 ≤ s.fhBlocksize.toNat → s.fhBlocksize.toNat ≤ 65536 → ord.toNat ≤ 32 → ord.toNat ≤ s.fhBlocksize.toNat →
      m < 2 → p = { ch := ch, first := ord.toNat, count := s.fhBlocksize.toNat - ord.toNat } →
      decode (if m = 0 then .param0 p else .param1 p) nbits v = .ok i →
      Holds (uBits 1 m ++ uBits 4 0 ++ uBits nbits v) s →
      exec (.resid ch ord) s = readyUnlessFault (exec i (advance (uBits 1 m ++ uBits 4 0 ++ uBits nbits v)
        { s with blkv := false, resMethod := BitVec.ofNat 1 m, resPorder := 0 })))
    ∧ (∀ i, 1 ≤ s.fhBlocksize.toNat → s.fhBlocksize.toNat ≤ 65536 → decode .channels 4 s.fhChassign.toNat = .ok i →
      exec .decorr s = readyUnlessFault (exec i { s with blkv := false }))
    ∧ (¬ (1 ≤ s.fhBlocksize.toNat ∧ s.fhBlocksize.toNat ≤ 65536 ∧ s.fhChassign.toNat ≤ 10) →
      exec .decorr s = .next (faulted 11 s))

/-! ## Reset -/

/-- RESET, from any state, FAULT among them, and the external reset input, which does the same (rules R240, R241 and
R203). `RAW`, `COEF` and `SMP` are unspecified afterwards, so nothing is said of their contents. -/
def Obligations.ResetRestoresEveryRegister : Prop :=
  ∀ s : State, ∃ t : State, exec .reset s = .next t ∧ act .externalReset s = .next t
    ∧ t.st = .ready ∧ t.hcrcBad = false ∧ t.fcrcBad = false ∧ t.ovf = false ∧ t.blkv = false
    ∧ t.errCause = 0 ∧ t.errPos = 0 ∧ t.errFrame = 0 ∧ t.strict = true ∧ t.siValid = false
    ∧ t.srcLen = 0 ∧ t.pos = 0 ∧ t.crc8 = 0 ∧ t.crc16 = 0 ∧ t.rv = 0 ∧ t.rawLen = 0 ∧ t.frameIdx = 0
    ∧ t.siRate = 0 ∧ t.siBps = 0 ∧ t.fhStrategy = 0 ∧ t.fhBlocksize = 0 ∧ t.fhRate = 0 ∧ t.fhChassign = 0
    ∧ t.fhNch = 0 ∧ t.fhBps = 0 ∧ t.fhNumber = 0 ∧ t.fhCrc = 0 ∧ t.sfType = 0 ∧ t.sfOrder = 0 ∧ t.sfWasted = 0
    ∧ t.sfWidth = 0 ∧ t.lpcPrec = 0 ∧ t.lpcShift = 0 ∧ t.resMethod = 0 ∧ t.resPorder = 0
    ∧ t.src = s.src

/-! ## The bit reader (rules R110 to R118) -/

/-- CRCRST m clears the accumulators its mask names and does nothing else (rule R118). -/
def Obligations.CrcrstClearsTheMaskedChecksums : Prop :=
  ∀ (m : BitVec 2) (s : State), s.st ≠ .fault →
    exec (.crcrst m) s = .next { s with
      crc8 := if m.getLsbD 0 then 0 else s.crc8
      crc16 := if m.getLsbD 1 then 0 else s.crc16
      st := .ready }

/-- RDU n: the field of `n` bits is delivered whole, or `UnexpectedEnd` is raised and nothing is consumed; a width
above 64 is a malformed command (rule R112). -/
def Obligations.RduReadsOneWholeField : Prop :=
  ∀ (n : BitVec 7) (s : State), s.st ≠ .fault →
    (n.toNat ≤ 64 → s.pos.toNat + n.toNat ≤ sourceEnd s →
      ∃ v, v < 2 ^ n.toNat ∧ Holds (uBits n.toNat v) s
        ∧ exec (.rdu n) s = .next { advance (uBits n.toNat v) s with rv := BitVec.ofNat 64 v, st := .ready })
    ∧ (n.toNat ≤ 64 → sourceEnd s < s.pos.toNat + n.toNat → exec (.rdu n) s = .next (faulted 6 s))
    ∧ (64 < n.toNat → exec (.rdu n) s = .next (faulted 11 s))

/-- RDS n: the same field as a two's-complement number, delivered as its 64-bit pattern (rule R113). -/
def Obligations.RdsReadsOneWholeSignedField : Prop :=
  ∀ (n : BitVec 7) (s : State), s.st ≠ .fault →
    (n.toNat ≤ 64 → s.pos.toNat + n.toNat ≤ sourceEnd s →
      ∃ v, fitsSigned n.toNat v ∧ Holds (sBits n.toNat v) s
        ∧ exec (.rds n) s = .next { advance (sBits n.toNat v) s with rv := BitVec.ofInt 64 v, st := .ready })
    ∧ (n.toNat ≤ 64 → sourceEnd s < s.pos.toNat + n.toNat → exec (.rds n) s = .next (faulted 6 s))
    ∧ (64 < n.toNat → exec (.rds n) s = .next (faulted 11 s))

/-- RDUNARY t: the bits unlike `t` are counted and consumed with their terminator, or, where the source has no
terminator, nothing is consumed (rule R114). -/
def Obligations.RdunaryCountsToTheTerminator : Prop :=
  ∀ (t : Bool) (s : State), s.st ≠ .fault →
    ((∃ p, s.pos.toNat ≤ p ∧ p < sourceEnd s ∧ streamBit p s = t) →
      ∃ k, Holds (unaryBits t k) s
        ∧ exec (.rdunary t) s = .next { advance (unaryBits t k) s with rv := BitVec.ofNat 64 k, st := .ready })
    ∧ ((∀ p, s.pos.toNat ≤ p → p < sourceEnd s → streamBit p s ≠ t) → exec (.rdunary t) s = .next (faulted 6 s))

/-- ALIGN consumes the bits up to the next byte boundary, whatever they are, and cannot fault (rule R115). Its
hypothesis is the invariant of rule R22, which `StepKeepsTheInvariant` states. -/
def Obligations.AlignConsumesToTheByteBoundary : Prop :=
  ∀ s : State, s.st ≠ .fault → s.pos.toNat ≤ sourceEnd s →
    ∃ bits : List Bool, bits.length = (8 - s.pos.toNat % 8) % 8 ∧ Holds bits s
      ∧ exec .align s = .next { advance bits s with st := .ready }
      ∧ (advance bits s).pos.toNat % 8 = 0

/-- RDBYTES n: `n` whole bytes at a byte boundary, or nothing (rule R116). `RAW[j]` for `j >= n` is unspecified
(rule R27), so nothing is said of it. `freeIndex` is the model's own field (log entry 4). -/
def Obligations.RdbytesDeliversBytesOrNothing : Prop :=
  ∀ (n : BitVec 5) (s : State), s.st ≠ .fault →
    (n.toNat ≤ 16 → s.pos.toNat % 8 = 0 → s.pos.toNat + 8 * n.toNat ≤ sourceEnd s →
      ∃ (bits : List Bool) (t : State), bits.length = 8 * n.toNat ∧ Holds bits s ∧ exec (.rdbytes n) s = .next t
        ∧ (∀ j, j < n.toNat → t.raw.toList[j]? = some (sourceByte (s.pos.toNat / 8 + j) s))
        ∧ t = { advance bits s with
            raw := t.raw, rawLen := n, freeIndex := t.freeIndex, st := .ready })
    ∧ (n.toNat ≤ 16 → s.pos.toNat % 8 = 0 → sourceEnd s < s.pos.toNat + 8 * n.toNat →
      exec (.rdbytes n) s = .next (faulted 6 s))
    ∧ (16 < n.toNat ∨ s.pos.toNat % 8 ≠ 0 → exec (.rdbytes n) s = .next (faulted 11 s))

/-- The checksums: the update by one bit, with the polynomials of rule R6, which are general knowledge (log entry 14);
the checksums of the message "123456789" (`95_test_vectors.md`, section 3); zero bits leave a zero accumulator zero; and
an accumulator is zero after a field of its own width exactly when the field was its own value (rule R117, and rule
R143's "`CRC8` is 0 afterwards exactly when the byte matched"). -/
def Obligations.ChecksumOfItselfIsZero : Prop :=
  (∀ (c : BitVec 8) (b : Bool), crc8Step c b = if c.getLsbD 7 ≠ b then (c <<< 1) ^^^ 0x07#8 else c <<< 1)
    ∧ (∀ (c : BitVec 16) (b : Bool), crc16Step c b = if c.getLsbD 15 ≠ b then (c <<< 1) ^^^ 0x8005#16 else c <<< 1)
    ∧ ((uBits 72 0x313233343536373839).foldl crc8Step 0 = 0xF4#8
      ∧ (uBits 72 0x313233343536373839).foldl crc16Step 0 = 0xFEE8#16)
    ∧ (∀ n, (List.replicate n false).foldl crc8Step 0 = 0 ∧ (List.replicate n false).foldl crc16Step 0 = 0)
    ∧ (∀ c v : BitVec 8, (uBits 8 v.toNat).foldl crc8Step c = 0 ↔ v = c)
    ∧ (∀ c v : BitVec 16, (uBits 16 v.toNat).foldl crc16Step c = 0 ↔ v = c)

/-! ## VARINT (rules R130 to R133) -/

/-- VARINT delivers every number below 2^36 from its canonical encoding. -/
def Obligations.VarintReadsCanonicalNumbers : Prop :=
  ∀ (v : Nat) (s : State), s.st ≠ .fault → v < 2 ^ 36 → Holds (vintBits v) s →
    exec .varint s = .next { advance (vintBits v) s with rv := BitVec.ofNat 64 v, st := .ready }

/-- Where VARINT stops on a malformed number, and that the bytes before the offending one, and that one, stay
consumed: a byte that is no lead; an overlong encoding; continuation byte number `j` of a bad form; the source ending
before byte number `j` (rules R132 and R133). -/
def Obligations.VarintStopsAtTheOffendingByte : Prop :=
  ∀ s : State, s.st ≠ .fault →
    (∀ b, 0x80 ≤ b ∧ b ≤ 0xBF ∨ b = 0xFF → Holds (uBits 8 b) s →
      exec .varint s = .next (faulted 3 (advance (uBits 8 b) s)))
    ∧ (∀ n v, n ≤ 6 → extraBytes v < n → Holds (numberBits n v) s →
      exec .varint s = .next (faulted 3 (advance (numberBits n v) s)))
    ∧ (∀ n v j c, n ≤ 6 → 1 ≤ j → j ≤ n → c < 256 → c / 64 ≠ 2 →
      Holds ((numberBits n v).take (8 * j) ++ uBits 8 c) s →
      exec .varint s = .next (faulted 3 (advance ((numberBits n v).take (8 * j) ++ uBits 8 c) s)))
    ∧ (∀ n v j, n ≤ 6 → j ≤ n → Holds ((numberBits n v).take (8 * j)) s →
      sourceEnd s < s.pos.toNat + 8 * j + 8 →
      exec .varint s = .next (faulted 6 (advance ((numberBits n v).take (8 * j)) s)))

/-! ## FRAMEHDR (rules R134 to R144) -/

/-- The tests before the first header bit, in their order, for FRAMEHDR and for FRAME (rules R135, R144 and R201). -/
def Obligations.HeaderPreconditions : Prop :=
  ∀ (i : Instr) (s : State), i = .framehdr ∨ i = .frame → s.st ≠ .fault →
    (s.pos.toNat % 8 ≠ 0 → exec i s = .next (faulted 11 s))
    ∧ (s.pos.toNat % 8 = 0 → s.siValid = false → exec i s = .next (faulted 9 s))
    ∧ (s.pos.toNat % 8 = 0 → s.siValid = true → s.pos.toNat = sourceEnd s →
      exec i s = .next { s with hcrcBad := false, fcrcBad := false, blkv := false, st := .done })

/-- FRAMEHDR decodes every legal header, with any checksum byte that the policy lets pass, into the eight `FH_*`
registers, and marks a checksum byte that differs from the CRC-8 of the header before it. -/
def Obligations.FramehdrDecodesEveryLegalHeader : Prop :=
  ∀ (h : HeaderFields) (c : BitVec 8) (s : State), s.st ≠ .fault → s.pos.toNat % 8 = 0 → s.siValid = true → h.legal →
    Holds (headerBits h ++ uBits 8 c.toNat) s →
    (c = (headerBits h).foldl crc8Step 0 ∨ s.strict = false) →
    exec .framehdr s = .next { h.registers c (advance (headerBits h ++ uBits 8 c.toNat)
        { s with
          crc8 := 0
          crc16 := 0
          hcrcBad := decide (c ≠ (headerBits h).foldl crc8Step 0)
          fcrcBad := false
          blkv := false }) with st := .ready }

/-- What stops a header, in FRAMEHDR and in FRAME, once it has begun: a source that ends inside the header word; the
checks of the header word, all after the same read, the sync pattern first, then every reserved code (rule R137); a
malformed number, just after the offending byte (rule R133); a source that ends inside the number, canonical or not, an
extension or the checksum byte; and, under the strict policy, a checksum byte that differs, just after it. No `FH_*`
register is written (rules R142 and R143). -/
def Obligations.HeaderFaults : Prop :=
  ∀ (i : Instr) (s z : State), i = .framehdr ∨ i = .frame → s.st ≠ .fault → s.pos.toNat % 8 = 0 → s.siValid = true →
    z = { s with crc8 := 0, crc16 := 0, hcrcBad := false, fcrcBad := false, blkv := false } →
    (s.pos.toNat < sourceEnd s → sourceEnd s < s.pos.toNat + 32 → exec i s = .next (faulted 7 z))
    ∧ (∀ w, w < 2 ^ 32 → Holds (uBits 32 w) s → w / 2 ^ 18 ≠ Config.syncCode →
      exec i s = .next (faulted 1 (advance (uBits 32 w) z)))
    ∧ (∀ w, w < 2 ^ 32 → Holds (uBits 32 w) s → w / 2 ^ 18 = Config.syncCode →
      w / 2 ^ 17 % 2 = 1 ∨ w / 2 ^ 12 % 16 = 0 ∨ w / 2 ^ 8 % 16 = 15 ∨ 11 ≤ w / 2 ^ 4 % 16
        ∨ w / 2 % 8 = 3 ∨ w / 2 % 8 = 7 ∨ w % 2 = 1 →
      exec i s = .next (faulted 10 (advance (uBits 32 w) z)))
    ∧ (∀ (h : HeaderFields) (c : BitVec 8), h.legal → Holds (headerBits h ++ uBits 8 c.toNat) s →
      c ≠ (headerBits h).foldl crc8Step 0 → s.strict = true →
      exec i s = .next (faulted 8 (advance (headerBits h ++ uBits 8 c.toNat) z)))
    ∧ (∀ (h : HeaderFields) (bits : List Bool), h.legal → MalformedNumber bits → Holds (headerWordBits h ++ bits) s →
      exec i s = .next (faulted 3 (advance (headerWordBits h ++ bits) z)))
    ∧ (∀ (h : HeaderFields) (n v : Nat), h.legal → n ≤ 6 → Holds (headerWordBits h) s →
      EndsInside (numberFields n v) (advance (headerWordBits h) z) (exec i s))
    ∧ (∀ (h : HeaderFields) (c : BitVec 8), h.legal → Holds (headerWordBits h) s →
      EndsInside (headerTailFields h c) (advance (headerWordBits h) z) (exec i s))

/-! ## Subframe kinds (rules R150 to R166) -/

/-- CONSTANT: one sample, which every sample of the block equals, shifted left by the wasted bits (rules R153 and
R157); or a source that ends inside the wasted-bits run or the sample. -/
def Obligations.ConstantFillsTheBlock : Prop :=
  ∀ (ch : BitVec 3) (wasted : Nat) (v : Int) (s : State), s.st ≠ .fault → SubframeRegisters s →
    wasted < codedWidth ch.toNat s → fitsSigned (codedWidth ch.toNat s - wasted) v →
    (Holds (wastedBits wasted ++ sBits (codedWidth ch.toNat s - wasted) v) s →
      ∃ t, exec (.constant ch (decide (0 < wasted))) s = .next t
        ∧ Stored ch.toNat 0 (scaled wasted (List.replicate s.fhBlocksize.toNat v)) s t
        ∧ t = { advance (wastedBits wasted ++ sBits (codedWidth ch.toNat s - wasted) v) s with
            sfType := 0
            sfOrder := 0
            sfWasted := BitVec.ofNat 6 wasted
            sfWidth := BitVec.ofNat 6 (codedWidth ch.toNat s - wasted)
            smp := t.smp
            ovf := s.ovf || narrowLoses v || narrowLoses (held v * ((2 ^ wasted : Nat) : Int)) })
    ∧ EndsInside (wastedFields 0 0 wasted (codedWidth ch.toNat s - wasted)
        ++ [{ bits := sBits (codedWidth ch.toNat s - wasted) v }]) s (exec (.constant ch (decide (0 < wasted))) s)

/-- VERBATIM: the samples in stream order, shifted left by the wasted bits (rules R154 and R157). A source that ends
inside a sample leaves the samples before it stored, unshifted, and the fault is `TruncatedStream` at the sample's
first bit; one that ends inside the wasted-bits run leaves nothing done. -/
def Obligations.VerbatimStoresEverySample : Prop :=
  ∀ (ch : BitVec 3) (wasted width : Nat) (vs : List Int) (s : State), s.st ≠ .fault → SubframeRegisters s →
    wasted < codedWidth ch.toNat s → width = codedWidth ch.toNat s - wasted → (∀ v ∈ vs, fitsSigned width v) →
    (Holds (wastedBits wasted ++ vs.flatMap (sBits width)) s → vs.length = s.fhBlocksize.toNat →
      ∃ t, exec (.verbatim ch (decide (0 < wasted))) s = .next t
        ∧ Stored ch.toNat 0 (scaled wasted vs) s t
        ∧ t = { advance (wastedBits wasted ++ vs.flatMap (sBits width)) s with
            sfType := 1
            sfOrder := 0
            sfWasted := BitVec.ofNat 6 wasted
            sfWidth := BitVec.ofNat 6 width
            smp := t.smp
            ovf := s.ovf || (vs ++ scaled wasted vs).any narrowLoses })
    ∧ (Holds (wastedBits wasted ++ vs.flatMap (sBits width)) s → vs.length < s.fhBlocksize.toNat →
      sourceEnd s < s.pos.toNat + (wastedBits wasted ++ vs.flatMap (sBits width)).length + width →
      ∃ t, exec (.verbatim ch (decide (0 < wasted))) s = .next t
        ∧ Stored ch.toNat 0 vs s t
        ∧ t = faulted 7 { advance (wastedBits wasted ++ vs.flatMap (sBits width)) s with
            sfType := 1
            sfOrder := 0
            sfWasted := BitVec.ofNat 6 wasted
            sfWidth := BitVec.ofNat 6 width
            smp := t.smp
            ovf := s.ovf || vs.any narrowLoses })
    ∧ (vs.length = s.fhBlocksize.toNat →
      EndsInside (wastedFields 1 0 wasted width ++ signedFields width ch.toNat 0 vs) s
        (exec (.verbatim ch (decide (0 < wasted))) s))

/-- FIXED of every order: warm-up, residual section, and each later sample prediction plus residual (rules R155, R156
and R161 to R165), then the wasted-bits shift over the whole block (rule R157). Every value stored is narrowed, and
`OVF` collects every one that did not fit (rule R33). Or a source that ends inside any field, from the wasted-bits run to
the last residual: the warm-up and the residuals before it are stored. With no partition given, that is said of the
fields up to the partition order, for every block size, the order above it among them. -/
def Obligations.FixedReconstructsTheBlock : Prop :=
  ∀ (ch : BitVec 3) (o wasted width m p : Nat) (i : Instr) (warm : List Int) (parts : List PartitionCode) (s : State),
    s.st ≠ .fault → SubframeRegisters s → wasted < codedWidth ch.toNat s → width = codedWidth ch.toNat s - wasted →
    (i, o) ∈ [(Instr.fixed0 ch (decide (0 < wasted)), 0), (.fixed1 ch (decide (0 < wasted)), 1),
      (.fixed2 ch (decide (0 < wasted)), 2), (.fixed3 ch (decide (0 < wasted)), 3),
      (.fixed4 ch (decide (0 < wasted)), 4)] →
    warm.length = o → (∀ v ∈ warm, fitsSigned width v) →
    (sectionLegal m p s.fhBlocksize.toNat o parts →
      Holds (wastedBits wasted ++ (warm.flatMap (sBits width) ++ sectionBits m p parts)) s →
      ∃ t, exec i s = .next t
        ∧ Stored ch.toNat 0 (scaled wasted (warm
            ++ rebuild (fixedPrediction o) (warm.map held).reverse ((sectionValues parts).map held))) s t
        ∧ t = { advance (wastedBits wasted ++ (warm.flatMap (sBits width) ++ sectionBits m p parts)) s with
            sfType := 2
            sfOrder := BitVec.ofNat 6 o
            sfWasted := BitVec.ofNat 6 wasted
            sfWidth := BitVec.ofNat 6 width
            resMethod := BitVec.ofNat 1 m
            resPorder := BitVec.ofNat 4 p
            smp := t.smp
            ovf := s.ovf || (warm ++ sectionValues parts
              ++ rebuild (fixedPrediction o) (warm.map held).reverse ((sectionValues parts).map held)
              ++ scaled wasted (warm
                ++ rebuild (fixedPrediction o) (warm.map held).reverse
                  ((sectionValues parts).map held))).any narrowLoses })
    ∧ (m < 2 → p < 16 → parts = [] ∨ sectionLegal m p s.fhBlocksize.toNat o parts →
      EndsInside (wastedFields 2 o wasted width ++ signedFields width ch.toNat 0 warm
        ++ sectionFields m p ch.toNat o parts) s (exec i s))

/-- LPC of every order from 1 to 32: warm-up, precision, shift, coefficients, residual section, and each later sample
prediction plus residual (rules R158 to R160), then the wasted-bits shift. Coefficient registers beyond the order keep
their values (rule R42). Or a source that ends inside any field, from the wasted-bits run to the last residual: the
warm-up, the `LPC_*` and `COEF` registers and the residuals before it are written. With no partition given, that is said
of the fields up to the partition order, for every block size, the order above it among them. -/
def Obligations.LpcReconstructsTheBlock : Prop :=
  ∀ (ch : BitVec 3) (o : BitVec 5) (wasted width m p prec shift : Nat) (warm coefs : List Int)
    (parts : List PartitionCode) (s : State),
    s.st ≠ .fault → SubframeRegisters s → wasted < codedWidth ch.toNat s → width = codedWidth ch.toNat s - wasted →
    warm.length = o.toNat + 1 → (∀ v ∈ warm, fitsSigned width v) →
    1 ≤ prec → prec ≤ 16 → shift < 16 → coefs.length = o.toNat + 1 → (∀ v ∈ coefs, fitsSigned prec v) →
    (sectionLegal m p s.fhBlocksize.toNat (o.toNat + 1) parts →
      Holds (wastedBits wasted ++ (warm.flatMap (sBits width)
        ++ (uBits 4 (prec - 1) ++ sBits 5 shift ++ coefs.flatMap (sBits prec)) ++ sectionBits m p parts)) s →
      ∃ t, exec (.lpc ch o (decide (0 < wasted))) s = .next t
        ∧ Stored ch.toNat 0 (scaled wasted (warm
            ++ rebuild (linearPrediction coefs shift) (warm.map held).reverse ((sectionValues parts).map held))) s t
        ∧ t = { advance (wastedBits wasted ++ (warm.flatMap (sBits width)
              ++ (uBits 4 (prec - 1) ++ sBits 5 shift ++ coefs.flatMap (sBits prec)) ++ sectionBits m p parts)) s with
            sfType := 3
            sfOrder := BitVec.ofNat 6 (o.toNat + 1)
            sfWasted := BitVec.ofNat 6 wasted
            sfWidth := BitVec.ofNat 6 width
            lpcPrec := BitVec.ofNat 5 prec
            lpcShift := BitVec.ofNat 5 shift
            coef := loadCoefficients coefs s.coef
            resMethod := BitVec.ofNat 1 m
            resPorder := BitVec.ofNat 4 p
            smp := t.smp
            ovf := s.ovf || (warm ++ sectionValues parts
              ++ rebuild (linearPrediction coefs shift) (warm.map held).reverse ((sectionValues parts).map held)
              ++ scaled wasted (warm
                ++ rebuild (linearPrediction coefs shift) (warm.map held).reverse
                  ((sectionValues parts).map held))).any narrowLoses })
    ∧ (m < 2 → p < 16 → parts = [] ∨ sectionLegal m p s.fhBlocksize.toNat (o.toNat + 1) parts →
      EndsInside (wastedFields 3 (o.toNat + 1) wasted width ++ signedFields width ch.toNat 0 warm
        ++ lpcFields prec shift coefs ++ sectionFields m p ch.toNat (o.toNat + 1) parts) s
        (exec (.lpc ch o (decide (0 < wasted))) s))

/-- A negative LPC shift faults just after the shift field, before any coefficient; the warm-up is stored and
`LPC_PREC` and `LPC_SHIFT` hold this subframe's values (rule R158, with `NEG_SHIFT_SUPPORT` false as rule R6 has it). -/
def Obligations.LpcNegativeShiftFaults : Prop :=
  ∀ (ch : BitVec 3) (o : BitVec 5) (wasted prec : Nat) (shift : Int) (warm : List Int) (s : State),
    s.st ≠ .fault → SubframeRegisters s → wasted < codedWidth ch.toNat s →
    warm.length = o.toNat + 1 → (∀ v ∈ warm, fitsSigned (codedWidth ch.toNat s - wasted) v) →
    1 ≤ prec → prec ≤ 16 → -16 ≤ shift → shift < 0 →
    Holds (wastedBits wasted ++ (warm.flatMap (sBits (codedWidth ch.toNat s - wasted))
      ++ (uBits 4 (prec - 1) ++ sBits 5 shift))) s →
    ∃ t, exec (.lpc ch o (decide (0 < wasted))) s = .next t
      ∧ Stored ch.toNat 0 warm s t
      ∧ t = faulted 5 { advance (wastedBits wasted ++ (warm.flatMap (sBits (codedWidth ch.toNat s - wasted))
            ++ (uBits 4 (prec - 1) ++ sBits 5 shift))) s with
          sfType := 3
          sfOrder := BitVec.ofNat 6 (o.toNat + 1)
          sfWasted := BitVec.ofNat 6 wasted
          sfWidth := BitVec.ofNat 6 (codedWidth ch.toNat s - wasted)
          lpcPrec := BitVec.ofNat 5 prec
          lpcShift := BitVec.ofInt 5 shift
          smp := t.smp
          ovf := s.ovf || warm.any narrowLoses }

/-- The decoder inverts the encoder: a FIXED or an LPC subframe whose residuals are the differences of some samples
from their predictions decodes to those samples, for every order, precision and non-negative shift, and whatever the
coding of the residuals. -/
def Obligations.PredictedSubframesAreLossless : Prop :=
  ∀ (ch : BitVec 3) (wasted width m p : Nat) (xs : List Int) (parts : List PartitionCode) (s : State),
    s.st ≠ .fault → SubframeRegisters s → wasted < codedWidth ch.toNat s → width = codedWidth ch.toNat s - wasted →
    width ≤ 32 → xs.length = s.fhBlocksize.toNat → (∀ x ∈ xs, fitsSigned width x) →
    (∀ (o : Nat) (i : Instr),
      (i, o) ∈ [(Instr.fixed0 ch (decide (0 < wasted)), 0), (.fixed1 ch (decide (0 < wasted)), 1),
        (.fixed2 ch (decide (0 < wasted)), 2), (.fixed3 ch (decide (0 < wasted)), 3),
        (.fixed4 ch (decide (0 < wasted)), 4)] →
      o ≤ xs.length → sectionLegal m p s.fhBlocksize.toNat o parts →
      sectionValues parts = differences (fixedPrediction o) (xs.take o).reverse (xs.drop o) →
      Holds (wastedBits wasted ++ ((xs.take o).flatMap (sBits width) ++ sectionBits m p parts)) s →
      ∃ t, exec i s = .next t ∧ t.st = s.st
        ∧ Stored ch.toNat 0 (xs.map fun x => x * ((2 ^ wasted : Nat) : Int)) s t)
    ∧ (∀ (o : BitVec 5) (prec shift : Nat) (coefs : List Int), o.toNat + 1 ≤ xs.length →
      1 ≤ prec → prec ≤ 16 → shift < 16 → coefs.length = o.toNat + 1 → (∀ v ∈ coefs, fitsSigned prec v) →
      sectionLegal m p s.fhBlocksize.toNat (o.toNat + 1) parts →
      sectionValues parts
        = differences (linearPrediction coefs shift) (xs.take (o.toNat + 1)).reverse (xs.drop (o.toNat + 1)) →
      Holds (wastedBits wasted ++ ((xs.take (o.toNat + 1)).flatMap (sBits width)
        ++ (uBits 4 (prec - 1) ++ sBits 5 shift ++ coefs.flatMap (sBits prec)) ++ sectionBits m p parts)) s →
      ∃ t, exec (.lpc ch o (decide (0 < wasted))) s = .next t ∧ t.st = s.st
        ∧ Stored ch.toNat 0 (xs.map fun x => x * ((2 ^ wasted : Nat) : Int)) s t)

/-- SUBFRAME over a CONSTANT or a VERBATIM subframe, header and all: it completes and ends READY (rules R150 to R154).
The other kinds run through SUBFRAME by `SubframeRunsTheDecodedKind`. -/
def Obligations.SubframeDecodesPlainSamples : Prop :=
  ∀ (ch : BitVec 3) (wasted : Nat) (k : SubKind) (ws vs : List Int) (s : State), s.st ≠ .fault → SubframeRegisters s →
    wasted < codedWidth ch.toNat s → (∀ v ∈ ws, fitsSigned (codedWidth ch.toNat s - wasted) v) →
    vs.length = s.fhBlocksize.toNat →
    (k = .constant ∧ (∃ v, ws = [v] ∧ ∀ x ∈ vs, x = v) ∨ k = .verbatim ∧ ws = vs) →
    Holds (subframeHeaderBits k wasted ++ ws.flatMap (sBits (codedWidth ch.toNat s - wasted))) s →
    ∃ t, exec (.subframe ch) s = .next t
      ∧ Stored ch.toNat 0 (scaled wasted vs) s t
      ∧ t = { advance (subframeHeaderBits k wasted ++ ws.flatMap (sBits (codedWidth ch.toNat s - wasted))) s with
          blkv := false
          sfType := if k = .constant then 0 else 1
          sfOrder := 0
          sfWasted := BitVec.ofNat 6 wasted
          sfWidth := BitVec.ofNat 6 (codedWidth ch.toNat s - wasted)
          smp := t.smp
          ovf := s.ovf || (vs ++ scaled wasted vs).any narrowLoses
          st := .ready }

/-- What stops SUBFRAME before a body: illegal registers; the reserved bit, one bit in; a reserved type selector, seven
bits in; a wasted-bits count that leaves no width, just after the run (rules R150 to R152 and R215); a source that ends
inside the reserved bit, the selector, the flag or the wasted-bits run. -/
def Obligations.SubframeHeaderFaults : Prop :=
  ∀ (ch : BitVec 3) (s : State), s.st ≠ .fault →
    (¬ SubframeRegisters s → exec (.subframe ch) s = .next (faulted 11 s))
    ∧ (SubframeRegisters s → Holds [true] s →
      exec (.subframe ch) s = .next (faulted 10 (advance [true] { s with blkv := false })))
    ∧ (∀ t, SubframeRegisters s → 2 ≤ t ∧ t ≤ 7 ∨ 13 ≤ t ∧ t ≤ 31 → Holds (uBits 1 0 ++ uBits 6 t) s →
      exec (.subframe ch) s = .next (faulted 10 (advance (uBits 1 0 ++ uBits 6 t) { s with blkv := false })))
    ∧ (∀ k wasted, SubframeRegisters s → codedWidth ch.toNat s ≤ wasted → Holds (subframeHeaderBits k wasted) s →
      exec (.subframe ch) s = .next (faulted 10 (advance (subframeHeaderBits k wasted) { s with blkv := false })))
    ∧ (∀ k wasted, SubframeRegisters s →
      EndsInside (subframeHeaderFields k wasted) { s with blkv := false } (exec (.subframe ch) s))

/-! ## Residuals (rules R170 to R179) -/

/-- RICE4 and RICE5: each residual of the partition is one Rice symbol (rules R173, R174 and R175); or a source that
ends inside a quotient or a remainder, with the residuals before it stored. -/
def Obligations.RicePartitionsStoreTheirSymbols : Prop :=
  ∀ (i : Instr) (p : Part) (k : Nat) (vs : List Int) (s : State), s.st ≠ .fault → i.wellFormed = true →
    (∃ k4 : BitVec 4, i = .rice4 p k4 ∧ k = k4.toNat) ∨ (∃ k5 : BitVec 5, i = .rice5 p k5 ∧ k = k5.toNat) →
    vs.length = p.count →
    (Holds (vs.flatMap (riceBits k)) s →
      ∃ t, exec i s = .next t
        ∧ Stored p.ch.toNat p.first vs s t
        ∧ t = { advance (vs.flatMap (riceBits k)) s with smp := t.smp, ovf := s.ovf || vs.any narrowLoses })
    ∧ EndsInside (riceFields k p.ch.toNat p.first vs) s (exec i s)

/-- ESC4 and ESC5: each residual of the partition is one signed field of the raw width; width 0 reads no bits and
stores zeros (rules R176 and R177); or a source that ends inside a residual, with those before it stored. -/
def Obligations.EscapedPartitionsStoreTheirFields : Prop :=
  ∀ (i : Instr) (p : Part) (w : BitVec 5) (vs : List Int) (s : State), s.st ≠ .fault → i.wellFormed = true →
    i = .esc4 p w ∨ i = .esc5 p w →
    vs.length = p.count → (∀ v ∈ vs, fitsSigned w.toNat v) →
    (Holds (vs.flatMap (sBits w.toNat)) s →
      ∃ t, exec i s = .next t
        ∧ Stored p.ch.toNat p.first vs s t
        ∧ t = { advance (vs.flatMap (sBits w.toNat)) s with smp := t.smp })
    ∧ EndsInside (signedFields w.toNat p.ch.toNat p.first vs) s (exec i s)

/-- RESID decodes every legal residual section: method, partition order, and every partition, Rice or escaped, mixed
freely (rules R170 to R172 and R178). -/
def Obligations.ResidDecodesEverySection : Prop :=
  ∀ (ch : BitVec 3) (ord : BitVec 6) (m p : Nat) (parts : List PartitionCode) (s : State), s.st ≠ .fault →
    ord.toNat ≤ 32 → 1 ≤ s.fhBlocksize.toNat → s.fhBlocksize.toNat ≤ 65536 →
    sectionLegal m p s.fhBlocksize.toNat ord.toNat parts → Holds (sectionBits m p parts) s →
    ∃ t, exec (.resid ch ord) s = .next t
      ∧ Stored ch.toNat ord.toNat (sectionValues parts) s t
      ∧ t = { advance (sectionBits m p parts) s with
          blkv := false
          resMethod := BitVec.ofNat 1 m
          resPorder := BitVec.ofNat 4 p
          smp := t.smp
          ovf := s.ovf || (sectionValues parts).any narrowLoses
          st := .ready }

/-- What stops RESID: an illegal block size or order operand; a partition order that does not divide the block or
leaves the first partition negative, five bits in, before any parameter (rule R171); a source that ends inside any field
of the section, the method and the partition order among them. And the same partition-order fault in FIXED and LPC, the
order above the block size among its cases: the warm-up is stored and the registers are written (rule R155). -/
def Obligations.ResidHeaderFaults : Prop :=
  ∀ (ch : BitVec 3) (ord : BitVec 6) (s : State), s.st ≠ .fault →
    (s.fhBlocksize.toNat = 0 ∨ 65536 < s.fhBlocksize.toNat ∨ 32 < ord.toNat →
      exec (.resid ch ord) s = .next (faulted 11 s))
    ∧ (∀ m p, 1 ≤ s.fhBlocksize.toNat → s.fhBlocksize.toNat ≤ 65536 → ord.toNat ≤ 32 → m < 2 → p < 16 →
      s.fhBlocksize.toNat % 2 ^ p ≠ 0 ∨ s.fhBlocksize.toNat / 2 ^ p < ord.toNat → Holds (uBits 1 m ++ uBits 4 p) s →
      exec (.resid ch ord) s = .next (faulted 4 (advance (uBits 1 m ++ uBits 4 p)
        { s with blkv := false, resMethod := BitVec.ofNat 1 m, resPorder := BitVec.ofNat 4 p })))
    ∧ (∀ m p parts, 1 ≤ s.fhBlocksize.toNat → s.fhBlocksize.toNat ≤ 65536 → ord.toNat ≤ 32 → m < 2 → p < 16 →
      parts = [] ∨ sectionLegal m p s.fhBlocksize.toNat ord.toNat parts →
      EndsInside (sectionFields m p ch.toNat ord.toNat parts) { s with blkv := false } (exec (.resid ch ord) s))
    ∧ (∀ (wasted width m p : Nat) (warm : List Int), SubframeRegisters s → wasted < codedWidth ch.toNat s →
      width = codedWidth ch.toNat s - wasted → (∀ v ∈ warm, fitsSigned width v) → m < 2 → p < 16 →
      s.fhBlocksize.toNat % 2 ^ p ≠ 0 ∨ s.fhBlocksize.toNat / 2 ^ p < warm.length →
      (∀ (o : Nat) (i : Instr) (fs : List Field),
        (i, o) ∈ [(Instr.fixed0 ch (decide (0 < wasted)), 0), (.fixed1 ch (decide (0 < wasted)), 1),
          (.fixed2 ch (decide (0 < wasted)), 2), (.fixed3 ch (decide (0 < wasted)), 3),
          (.fixed4 ch (decide (0 < wasted)), 4)] → warm.length = o →
        fs = wastedFields 2 o wasted width ++ signedFields width ch.toNat 0 warm ++ sectionFields m p ch.toNat o [] →
        Holds (fieldBits fs) s → exec i s = .next (faulted 4 (runFields fs s)))
      ∧ (∀ (o : BitVec 5) (prec shift : Nat) (coefs : List Int) (fs : List Field), warm.length = o.toNat + 1 →
        1 ≤ prec → prec ≤ 16 → shift < 16 → coefs.length = o.toNat + 1 → (∀ v ∈ coefs, fitsSigned prec v) →
        fs = wastedFields 3 (o.toNat + 1) wasted width ++ signedFields width ch.toNat 0 warm ++ lpcFields prec shift coefs
          ++ sectionFields m p ch.toNat (o.toNat + 1) [] →
        Holds (fieldBits fs) s → exec (.lpc ch o (decide (0 < wasted))) s = .next (faulted 4 (runFields fs s))))

/-! ## Channels (rules R185 to R192) -/

/-- INDEP: "no word of `SMP` is read or written" (rule R186). -/
def Obligations.IndepChangesNothing : Prop :=
  ∀ (c : BitVec 3) (s : State), s.st ≠ .fault → 1 ≤ s.fhBlocksize.toNat → s.fhBlocksize.toNat ≤ 65536 →
    exec (.indep c) s = .next s

/-- LSIDE: plane 1 becomes left minus side, plane 0 is unchanged (rule R187). -/
def Obligations.LsideRecoversTheRightChannel : Prop :=
  ∀ s : State, s.st ≠ .fault → 1 ≤ s.fhBlocksize.toNat → s.fhBlocksize.toNat ≤ 65536 →
    ∃ t, exec .lside s = .next t
      ∧ Stored 1 0 ((List.range s.fhBlocksize.toNat).map fun i => readSample 0 i s - readSample 1 i s) s t
      ∧ t = { s with
          smp := t.smp
          ovf := s.ovf || ((List.range s.fhBlocksize.toNat).map fun i =>
            readSample 0 i s - readSample 1 i s).any narrowLoses }

/-- RSIDE: plane 0 becomes right plus side, plane 1 is unchanged (rule R188). -/
def Obligations.RsideRecoversTheLeftChannel : Prop :=
  ∀ s : State, s.st ≠ .fault → 1 ≤ s.fhBlocksize.toNat → s.fhBlocksize.toNat ≤ 65536 →
    ∃ t, exec .rside s = .next t
      ∧ Stored 0 0 ((List.range s.fhBlocksize.toNat).map fun i => readSample 1 i s + readSample 0 i s) s t
      ∧ t = { s with
          smp := t.smp
          ovf := s.ovf || ((List.range s.fhBlocksize.toNat).map fun i =>
            readSample 1 i s + readSample 0 i s).any narrowLoses }

/-- MSIDE: with mid in plane 0 and side in plane 1, left is `(2 * mid + (side & 1) + side) / 2` and right is left minus
side; both reads happen before either write (rule R189). -/
def Obligations.MsideRecoversBothChannels : Prop :=
  ∀ s : State, s.st ≠ .fault → 1 ≤ s.fhBlocksize.toNat → s.fhBlocksize.toNat ≤ 65536 →
    ∃ t, exec .mside s = .next t
      ∧ (∀ i, i < s.fhBlocksize.toNat →
        sampleWord (sampleAddress 0 i) t
            = narrow ((2 * readSample 0 i s + readSample 1 i s % 2 + readSample 1 i s) / 2)
          ∧ sampleWord (sampleAddress 1 i) t
            = narrow ((2 * readSample 0 i s + readSample 1 i s % 2 + readSample 1 i s) / 2 - readSample 1 i s))
      ∧ (∀ a, (∀ i, i < s.fhBlocksize.toNat → a ≠ sampleAddress 0 i ∧ a ≠ sampleAddress 1 i) →
        sampleWord a t = sampleWord a s)
      ∧ t = { s with
          smp := t.smp
          ovf := s.ovf || (List.range s.fhBlocksize.toNat).any fun i =>
            narrowLoses ((2 * readSample 0 i s + readSample 1 i s % 2 + readSample 1 i s) / 2)
              || narrowLoses ((2 * readSample 0 i s + readSample 1 i s % 2 + readSample 1 i s) / 2
                - readSample 1 i s) }

/-- DECORR inverts the forward transforms of rule R192 for channels of up to 31 bits, exactly and without `OVF`,
odd sums and negative sides among them (rule R190). -/
def Obligations.DecorrInvertsTheForwardTransform : Prop :=
  ∀ (left right : Nat → Int) (bits : Nat) (s : State), s.st ≠ .fault → 1 ≤ s.fhBlocksize.toNat →
    s.fhBlocksize.toNat ≤ 65536 → bits ≤ 31 →
    (∀ i, i < s.fhBlocksize.toNat → fitsSigned bits (left i) ∧ fitsSigned bits (right i)) →
    (s.fhChassign = 8 ∧ (∀ i, i < s.fhBlocksize.toNat →
        readSample 0 i s = left i ∧ readSample 1 i s = left i - right i)
      ∨ s.fhChassign = 9 ∧ (∀ i, i < s.fhBlocksize.toNat →
        readSample 0 i s = left i - right i ∧ readSample 1 i s = right i)
      ∨ s.fhChassign = 10 ∧ (∀ i, i < s.fhBlocksize.toNat →
        readSample 0 i s = (left i + right i) / 2 ∧ readSample 1 i s = left i - right i)) →
    ∃ t, exec .decorr s = .next t ∧ t.st = .ready ∧ t.ovf = s.ovf
      ∧ ∀ i, i < s.fhBlocksize.toNat → readSample 0 i t = left i ∧ readSample 1 i t = right i

/-! ## FRAME (rules R195 to R202) -/

/-- FRAME over a whole frame of independent VERBATIM channels: a legal header with its checksum, one subframe per
channel, padding of any value, and the footer. It yields the block: every sample in its interleaved place, the flags,
the frame index and the cursor as rules R200 and R44 say, and `CRC16` zero after the matching footer (rule R199). -/
def Obligations.FrameYieldsItsBlock : Prop :=
  ∀ (h : HeaderFields) (planes : List (List Int)) (pad : List Bool) (s : State), s.st ≠ .fault →
    s.pos.toNat % 8 = 0 → s.siValid = true → h.legal → h.channels ≤ 7 → planes.length = h.channels + 1 →
    4 ≤ sampleSizeOf h.size s.siBps.toNat → sampleSizeOf h.size s.siBps.toNat ≤ 32 →
    (∀ xs ∈ planes, xs.length = blockSizeOf h.block h.blockExt
      ∧ ∀ x ∈ xs, fitsSigned (sampleSizeOf h.size s.siBps.toNat) x) →
    let header := headerBits h ++ uBits 8 ((headerBits h).foldl crc8Step 0).toNat
    let body := header ++ planes.flatMap (fun xs => subframeHeaderBits .verbatim 0
      ++ xs.flatMap (sBits (sampleSizeOf h.size s.siBps.toNat))) ++ pad
    pad.length < 8 → body.length % 8 = 0 → Holds (body ++ uBits 16 (body.foldl crc16Step 0).toNat) s →
    ∃ t, exec .frame s = .next t
      ∧ t.st = .ready ∧ t.blkv = true ∧ t.hcrcBad = false ∧ t.fcrcBad = false ∧ t.ovf = s.ovf
      ∧ t.frameIdx = s.frameIdx + 1 ∧ t.pos.toNat = s.pos.toNat + body.length + 16 ∧ t.crc16 = 0
      ∧ t.fhBlocksize.toNat = blockSizeOf h.block h.blockExt ∧ t.fhNch.toNat = h.channels + 1
      ∧ t.fhBps.toNat = sampleSizeOf h.size s.siBps.toNat ∧ t.fhNumber.toNat = h.number
      ∧ ∀ (c i : Nat) (hc : c < planes.length) (hi : i < planes[c].length),
        outputSample (i * (h.channels + 1) + c) t = some (narrow planes[c][i])

/-- FRAME is the sequence FRAMEHDR; SUBFRAME 0 to `FH_NCH - 1`; DECORR; ALIGN; and the footer comparison over RDU 16
(rule R196). A part that does not end READY ends FRAME the same way; an inherited illegal sample size is caught before
the first subframe; the footer read leaves `RV` alone, reports a short source as `TruncatedStream`, and under the
lenient policy marks a mismatch. -/
def Obligations.FrameIsItsParts : Prop :=
  ∀ s h : State, s.st ≠ .fault → exec .framehdr s = .next h →
    (h.st ≠ .ready → exec .frame s = .next h)
    ∧ (h.st = .ready → (h.fhBps.toNat < 4 ∨ 32 < h.fhBps.toNat) → exec .frame s = .next (faulted 11 h))
    ∧ (∀ a, h.st = .ready → 4 ≤ h.fhBps.toNat → h.fhBps.toNat ≤ 32 →
      runAll ((List.range h.fhNch.toNat).map (fun c => .subframe (BitVec.ofNat 3 c)) ++ [.decorr, .align]) h = .next a →
      (a.st ≠ .ready → exec .frame s = .next a)
      ∧ (a.st = .ready → sourceEnd a < a.pos.toNat + 16 → exec .frame s = .next (faulted 7 a))
      ∧ (∀ r, a.st = .ready → exec (.rdu 16) a = .next r → r.st = .ready →
        exec .frame s = .next (
          if r.rv = a.crc16.setWidth 64 ∨ s.strict = false then
            { r with
              rv := s.rv
              fcrcBad := decide (r.rv ≠ a.crc16.setWidth 64)
              frameIdx := s.frameIdx + 1
              blkv := true }
          else faulted 8 { r with rv := s.rv })))

/-! ## Faults and outcomes (rules R30, R210 to R222) -/

/-- In FAULT every command word other than RESET, every instruction other than RESET, and every write of the host to a
register or a sample word is ignored: nothing changes, not even the fault record. Host reads work as always (rule
R217). Rule R217 speaks of command words, register writes and reads; that a stream kind changes nothing is log entry 17,
that a `CMD` write counts by its low 32 bits log entry 10, that a sample read is sign-extended log entry 18, that the
host's two ways to a sample word both change nothing in FAULT log entry 12. -/
def Obligations.FaultIsSticky : Prop :=
  ∀ s : State, s.st = .fault →
    (∀ w, decode .command 32 w.toNat ≠ .ok .reset → act (.command w) s = .next s)
    ∧ (∀ i, i ≠ .reset → exec i s = .next s)
    ∧ (∀ num v, num ≠ 0x0F → act (.writeReg num v) s = .next s)
    ∧ (∀ v, decode .command 32 (v.toNat % 2 ^ 32) ≠ .ok .reset → act (.writeReg 0x0F v) s = .next s)
    ∧ (∀ a v, act (.writeSample a v) s = .next s ∧ act (.portWriteSample a v) s = .next s)
    ∧ (∀ num, num ≠ 0x0F → act (.readReg num) s = .next { s with reads := readRegister num s :: s.reads })
    ∧ (∀ a, act (.readSample a) s = .next { s with reads := (sampleWord a.toNat s).signExtend 64 :: s.reads })

/-- A command that raises records the cursor where it stands, the frame index, and a cause of its row of rule R213;
nothing moves the cursor after the raise (rules R213 and R215). -/
def Obligations.RaiseRecordsAnAllowedCause : Prop :=
  ∀ (i : Instr) (s t : State), i.wellFormed = true → s.st ≠ .fault → exec i s = .next t → t.st = .fault →
    (∃ c ∈ allowedCauses i, t.errCause = c.code) ∧ t.errPos = t.pos ∧ t.errFrame = t.frameIdx
      ∧ t.frameIdx = s.frameIdx

/-- Commands end READY, but for FRAMEHDR and FRAME, which may end DONE, and the fault record stays as it is unless a
fault is raised; a stream kind leaves `STATE` to the command it runs inside. DONE is no lock: a host command in DONE
does what it does in READY (rule R30). -/
def Obligations.CommandsEndReadyDoneOrFault : Prop :=
  (∀ (i : Instr) (s t : State), s.st ≠ .fault → exec i s = .next t → t.st ≠ .fault →
    (i.slot = .command → t.st = .ready ∨ (t.st = .done ∧ (i = .framehdr ∨ i = .frame)))
    ∧ (i.slot ≠ .command → t.st = s.st)
    ∧ (i ≠ .reset → t.errCause = s.errCause ∧ t.errPos = s.errPos ∧ t.errFrame = s.errFrame))
  ∧ (∀ (i : Instr) (s : State), i.slot = .command → s.st = .done → exec i s = exec i { s with st := .ready })

/-! ## Frames -/

/-- The cursor only moves forward and stays inside the source (rules R22 and R23), and no instruction other than RESET
writes the source, its length, `CTRL`, the stream description registers, or what the host has done and will do. -/
def Obligations.CursorMovesForwardWithinTheSource : Prop :=
  ∀ (i : Instr) (s t : State), i ≠ .reset → exec i s = .next t →
    (s.pos.toNat ≤ sourceEnd s → s.pos.toNat ≤ t.pos.toNat ∧ t.pos.toNat ≤ sourceEnd s)
    ∧ t.src = s.src ∧ t.srcLen = s.srcLen ∧ t.strict = s.strict ∧ t.siValid = s.siValid ∧ t.siRate = s.siRate
    ∧ t.siBps = s.siBps ∧ t.host = s.host ∧ t.reads = s.reads

/-- The frame of the reader commands: no register but the cursor, the checksums, their result registers and the fault
record, and no word of memory (rule R110). -/
def Obligations.ReaderCommandsFrame : Prop :=
  ∀ (i : Instr) (s t : State), exec i s = .next t →
    ((∃ n, i = .rdu n ∨ i = .rds n) ∨ (∃ b, i = .rdunary b) ∨ i = .varint →
      t = { s with pos := t.pos, crc8 := t.crc8, crc16 := t.crc16, rv := t.rv, st := t.st, errCause := t.errCause,
                   errPos := t.errPos, errFrame := t.errFrame })
    ∧ (i = .align ∨ (∃ m, i = .crcrst m) →
      t = { s with pos := t.pos, crc8 := t.crc8, crc16 := t.crc16, st := t.st })
    ∧ ((∃ n, i = .rdbytes n) →
      t = { s with pos := t.pos, crc8 := t.crc8, crc16 := t.crc16, raw := t.raw, rawLen := t.rawLen, st := t.st,
                   errCause := t.errCause, errPos := t.errPos, errFrame := t.errFrame, freeIndex := t.freeIndex })
    ∧ ((∃ n, i = .rdu n ∨ i = .rds n) ∨ (∃ n, i = .rdbytes n) ∨ (∃ b, i = .rdunary b) → t.st = .fault →
      t.pos = s.pos ∧ t.crc8 = s.crc8 ∧ t.crc16 = s.crc16 ∧ t.rv = s.rv ∧ t.raw = s.raw ∧ t.rawLen = s.rawLen)

/-- The frame of FRAMEHDR: beside the cursor, the checksums, the per-frame flags, `STATE` and the fault record only the
`FH_*` registers, and those only when a header was accepted (rule R142). -/
def Obligations.FramehdrFrame : Prop :=
  ∀ s t : State, exec .framehdr s = .next t →
    t = { s with pos := t.pos, crc8 := t.crc8, crc16 := t.crc16, hcrcBad := t.hcrcBad, fcrcBad := t.fcrcBad,
                 blkv := t.blkv, st := t.st, errCause := t.errCause, errPos := t.errPos, errFrame := t.errFrame,
                 fhStrategy := t.fhStrategy, fhBlocksize := t.fhBlocksize, fhRate := t.fhRate,
                 fhChassign := t.fhChassign, fhNch := t.fhNch, fhBps := t.fhBps, fhNumber := t.fhNumber,
                 fhCrc := t.fhCrc }
    ∧ (t.st ≠ .ready →
      t = { s with pos := t.pos, crc8 := t.crc8, crc16 := t.crc16, hcrcBad := t.hcrcBad, fcrcBad := t.fcrcBad,
                   blkv := t.blkv, st := t.st, errCause := t.errCause, errPos := t.errPos, errFrame := t.errFrame })

/-- The frame of SUBFRAME and of the subframe kinds: the registers they may write, and in sample memory only the plane
of the operand, below the block size or the warm-up (rules R41, R150 and R234). The block-valid flag is SUBFRAME's
alone, and only LPC writes the predictor registers. -/
def Obligations.SubframeFrame : Prop :=
  ∀ (i : Instr) (ch : BitVec 3) (s t : State), i = .subframe ch ∨ i.slot = .header ch → exec i s = .next t →
    t = { s with pos := t.pos, crc8 := t.crc8, crc16 := t.crc16, smp := t.smp, ovf := t.ovf, blkv := t.blkv,
                 st := t.st, errCause := t.errCause, errPos := t.errPos, errFrame := t.errFrame, sfType := t.sfType,
                 sfOrder := t.sfOrder, sfWasted := t.sfWasted, sfWidth := t.sfWidth, lpcPrec := t.lpcPrec,
                 lpcShift := t.lpcShift, resMethod := t.resMethod, resPorder := t.resPorder, coef := t.coef }
    ∧ (i ≠ .subframe ch → t.blkv = s.blkv)
    ∧ ((∀ o w, i ≠ .lpc ch o w) → i ≠ .subframe ch →
      t.lpcPrec = s.lpcPrec ∧ t.lpcShift = s.lpcShift ∧ t.coef = s.coef)
    ∧ ((∃ w, i = .constant ch w ∨ i = .verbatim ch w) → t.resMethod = s.resMethod ∧ t.resPorder = s.resPorder)
    ∧ ∀ a, (∀ j, j < max s.fhBlocksize.toNat 32 → a ≠ sampleAddress ch.toNat j) → sampleWord a t = sampleWord a s

/-- The frame of RESID and of the partition kinds: in sample memory only the words of the residuals (rule R170). -/
def Obligations.ResidFrame : Prop :=
  ∀ (i : Instr) (s t : State), exec i s = .next t →
    (∀ ch ord, i = .resid ch ord →
      t = { s with pos := t.pos, crc8 := t.crc8, crc16 := t.crc16, smp := t.smp, ovf := t.ovf, blkv := t.blkv,
                   st := t.st, errCause := t.errCause, errPos := t.errPos, errFrame := t.errFrame,
                   resMethod := t.resMethod, resPorder := t.resPorder }
      ∧ ∀ a, (∀ j, ord.toNat ≤ j → j < s.fhBlocksize.toNat → a ≠ sampleAddress ch.toNat j) →
        sampleWord a t = sampleWord a s)
    ∧ (∀ p, i.slot = .param0 p ∨ i.slot = .param1 p →
      t = { s with pos := t.pos, crc8 := t.crc8, crc16 := t.crc16, smp := t.smp, ovf := t.ovf, st := t.st,
                   errCause := t.errCause, errPos := t.errPos, errFrame := t.errFrame }
      ∧ ∀ a, (∀ j, p.first ≤ j → j < p.first + p.count → a ≠ sampleAddress p.ch.toNat j) →
        sampleWord a t = sampleWord a s)

/-- The frame of DECORR and of the channel kinds: planes 0 and 1 below the block size, and of those only the planes the
assignment writes (rules R185 to R189 and R234). No stream bit is consumed. -/
def Obligations.DecorrFrame : Prop :=
  ∀ (i : Instr) (s t : State), i = .decorr ∨ i.slot = .channels → exec i s = .next t →
    t = { s with smp := t.smp, ovf := t.ovf, blkv := t.blkv, st := t.st, errCause := t.errCause, errPos := t.errPos,
                 errFrame := t.errFrame }
    ∧ (i ≠ .decorr → t.blkv = s.blkv)
    ∧ ∀ a, (∀ j, j < s.fhBlocksize.toNat →
        (i = .rside ∨ i = .mside ∨ (i = .decorr ∧ (s.fhChassign = 9 ∨ s.fhChassign = 10)) → a ≠ sampleAddress 0 j)
        ∧ (i = .lside ∨ i = .mside ∨ (i = .decorr ∧ (s.fhChassign = 8 ∨ s.fhChassign = 10)) → a ≠ sampleAddress 1 j)) →
      sampleWord a t = sampleWord a s

/-- The frame of FRAME: the result registers, the host's registers and the source stay as they are; sample words of
planes that are no channel of the frame, or beyond its block and any warm-up, read as before (rules R200, R202 and
R216). That `RV` keeps its value also where FRAME succeeds follows rule R26, which rule R196 seems to contradict: log
entry 13 (DEDUCED, unsafe). -/
def Obligations.FrameCommandFrame : Prop :=
  ∀ s t : State, exec .frame s = .next t →
    t.src = s.src ∧ t.srcLen = s.srcLen ∧ t.rv = s.rv ∧ t.raw = s.raw ∧ t.rawLen = s.rawLen ∧ t.strict = s.strict
    ∧ t.siValid = s.siValid ∧ t.siRate = s.siRate ∧ t.siBps = s.siBps ∧ t.host = s.host ∧ t.reads = s.reads
    ∧ t.freeIndex = s.freeIndex ∧ t.sampleSeed = s.sampleSeed
    ∧ (t.frameIdx = s.frameIdx ∨ t.frameIdx = s.frameIdx + 1 ∧ t.st = .ready ∧ t.blkv = true)
    ∧ (s.st ≠ .fault → t.st ≠ .ready → t.frameIdx = s.frameIdx)
    ∧ ∀ c j, j < 65536 → t.fhNch.toNat ≤ c ∨ max t.fhBlocksize.toNat 32 ≤ j →
      sampleWord (sampleAddress c j) t = sampleWord (sampleAddress c j) s

/-- `OVF` is sticky: only reset clears it (rule R33). -/
def Obligations.OverflowIsSticky : Prop :=
  ∀ (i : Instr) (s t : State), i ≠ .reset → exec i s = .next t → s.ovf = true → t.ovf = true

/-! ## The host port (rules R46, R47 and R235) -/

/-- A host read of a register changes nothing but the model's record of what the host has read (log entry 1), and
delivers the register's value, for every number of rule R46: `STATUS` and `CTRL` bit by bit, `LPC_SHIFT` and `COEF[j]`
sign-extended, every other zero-extended, and zero for an unassigned number (rules R28, R29, R46 and R47). A read of the
write-only `CMD` is ignored (rule R224; log entry 11). -/
def Obligations.HostReadsDeliverRegisters : Prop :=
  ∀ s : State,
    (∀ num, num ≠ 0x0F → act (.readReg num) s = .next { s with reads := readRegister num s :: s.reads })
    ∧ act (.readReg 0x0F) s = .next s
    ∧ (readRegister 0x00 s).toNat = (match s.st with | .ready => 0 | .done => 1 | .fault => 2)
        + 4 * s.hcrcBad.toNat + 8 * s.fcrcBad.toNat + 16 * s.ovf.toNat + 32 * s.blkv.toNat
    ∧ (readRegister 0x01 s).toNat = s.errCause.toNat ∧ readRegister 0x02 s = s.errPos
    ∧ (readRegister 0x03 s).toNat = s.errFrame.toNat
    ∧ (readRegister 0x04 s).toNat = s.strict.toNat + 2 * s.siValid.toNat
    ∧ (readRegister 0x05 s).toNat = s.srcLen.toNat ∧ readRegister 0x06 s = s.pos
    ∧ (readRegister 0x07 s).toNat = s.crc8.toNat ∧ (readRegister 0x08 s).toNat = s.crc16.toNat
    ∧ readRegister 0x09 s = s.rv ∧ (readRegister 0x0A s).toNat = s.rawLen.toNat
    ∧ (readRegister 0x0B s).toNat = s.frameIdx.toNat
    ∧ (readRegister 0x10 s).toNat = s.siRate.toNat ∧ (readRegister 0x11 s).toNat = s.siBps.toNat
    ∧ (readRegister 0x18 s).toNat = s.fhStrategy.toNat ∧ (readRegister 0x19 s).toNat = s.fhBlocksize.toNat
    ∧ (readRegister 0x1A s).toNat = s.fhRate.toNat ∧ (readRegister 0x1B s).toNat = s.fhChassign.toNat
    ∧ (readRegister 0x1C s).toNat = s.fhNch.toNat ∧ (readRegister 0x1D s).toNat = s.fhBps.toNat
    ∧ (readRegister 0x1E s).toNat = s.fhNumber.toNat ∧ (readRegister 0x1F s).toNat = s.fhCrc.toNat
    ∧ (readRegister 0x20 s).toNat = s.sfType.toNat ∧ (readRegister 0x21 s).toNat = s.sfOrder.toNat
    ∧ (readRegister 0x22 s).toNat = s.sfWasted.toNat ∧ (readRegister 0x23 s).toNat = s.sfWidth.toNat
    ∧ (readRegister 0x24 s).toNat = s.lpcPrec.toNat ∧ (readRegister 0x25 s).toInt = s.lpcShift.toInt
    ∧ (readRegister 0x26 s).toNat = s.resMethod.toNat ∧ (readRegister 0x27 s).toNat = s.resPorder.toNat
    ∧ (∀ j, (h : j < 32) → (readRegister (0x40 + j) s).toInt = s.coef[j].toInt)
    ∧ (∀ j, (h : j < 16) → (readRegister (0x60 + j) s).toNat = s.raw[j].toNat)
    ∧ (∀ num, 0x70 ≤ num ∨ 0x28 ≤ num ∧ num < 0x40 ∨ 0x0C ≤ num ∧ num < 0x0F ∨ 0x12 ≤ num ∧ num < 0x18 →
      readRegister num s = 0)

/-- A host write outside FAULT stores the low bits that fit a writable register, with no check of legality, and is
ignored for every other number (rule R47). `SRC_LEN` has its own statement. -/
def Obligations.HostWritesStoreTheLowBits : Prop :=
  ∀ (v : HostWord) (s : State), s.st ≠ .fault →
    act (.writeReg 0x04 v) s = .next { s with strict := v.getLsbD 0, siValid := v.getLsbD 1 }
    ∧ act (.writeReg 0x10 v) s = .next { s with siRate := v.setWidth 20 }
    ∧ act (.writeReg 0x11 v) s = .next { s with siBps := v.setWidth 6 }
    ∧ act (.writeReg 0x18 v) s = .next { s with fhStrategy := v.setWidth 1 }
    ∧ act (.writeReg 0x19 v) s = .next { s with fhBlocksize := v.setWidth 17 }
    ∧ act (.writeReg 0x1A v) s = .next { s with fhRate := v.setWidth 20 }
    ∧ act (.writeReg 0x1B v) s = .next { s with fhChassign := v.setWidth 4 }
    ∧ act (.writeReg 0x1C v) s = .next { s with fhNch := v.setWidth 4 }
    ∧ act (.writeReg 0x1D v) s = .next { s with fhBps := v.setWidth 6 }
    ∧ act (.writeReg 0x1E v) s = .next { s with fhNumber := v.setWidth 36 }
    ∧ act (.writeReg 0x1F v) s = .next { s with fhCrc := v.setWidth 8 }
    ∧ ∀ num, num ∉ [0x04, 0x05, 0x0F, 0x10, 0x11, 0x18, 0x19, 0x1A, 0x1B, 0x1C, 0x1D, 0x1E, 0x1F] →
      act (.writeReg num v) s = .next s

/-- A write to `SRC_LEN` that would leave the cursor beyond the source, or needs more than 61 bits, is refused with
`BadCommand`; any other is stored (rules R22 and R47). -/
def Obligations.SourceLengthWriteIsGuarded : Prop :=
  ∀ (v : HostWord) (s : State), s.st ≠ .fault →
    (8 * v.toNat < s.pos.toNat ∨ 2 ^ 61 ≤ v.toNat → act (.writeReg 0x05 v) s = .next (faulted 11 s))
    ∧ (s.pos.toNat ≤ 8 * v.toNat → v.toNat < 2 ^ 61 →
      ∃ t, act (.writeReg 0x05 v) s = .next t ∧ t.srcLen.toNat = v.toNat ∧ t = { s with srcLen := t.srcLen })

/-- The two memories read back what was written, and every other place as before: the host's bytes of `SRC` (rule
R60), also in FAULT (log entry 21), and the words of `SMP` that commands store (rules R66 and R234). So does the
host's write of a word of `SMP` by its own means (rule R235), but in FAULT, where it changes nothing (rule R47); its write
at a sample address through the host interface changes nothing in any state (rule R43; both log entry 12). The host's
read of a word delivers it sign-extended (log entry 18). -/
def Obligations.MemoriesReadBackWrites : Prop :=
  ∀ s : State,
    (sourceWf s.src = true → ∀ (a : BitVec 61) (b : Byte), ∃ t, act (.writeSource a b) s = .next t
      ∧ (∀ x, sourceByte x t = if x = a.toNat then b else sourceByte x s) ∧ t = { s with src := t.src })
    ∧ (∀ (c i : Nat) (v : Int), c < 8 → i < 65536 →
      (∀ x, sampleWord x (writeSample c i v s) = if x = c * 65536 + i then narrow v else sampleWord x s)
        ∧ writeSample c i v s
          = { s with smp := (writeSample c i v s).smp, ovf := s.ovf || decide ((narrow v).toInt ≠ v) })
    ∧ (∀ (a : BitVec 19) (v : Sample),
      (∃ t, act (.writeSample a v) s = .next t
        ∧ (∀ x, sampleWord x t = if s.st ≠ .fault ∧ x = a.toNat then v else sampleWord x s)
        ∧ t = { s with smp := t.smp } ∧ (s.st = .fault → t = s))
      ∧ act (.portWriteSample a v) s = .next s)
    ∧ (∀ a : BitVec 19, act (.readSample a) s
      = .next { s with reads := (sampleWord a.toNat s).signExtend 64 :: s.reads })

/-! ## Every run -/

/-- Every step keeps the invariant of the block: both memories canonical, the cursor inside the source, the fault
record zero outside FAULT and the first fault's inside it, and the observation registers in their ranges. -/
def Obligations.StepKeepsTheInvariant : Prop :=
  ∀ s t : State, s.Inv → step s = .next t → t.Inv

/-- The block right after reset meets the invariant. -/
def Obligations.ResetMeetsTheInvariant : Prop := State.reset.Inv

/-- From a state that meets the invariant every well-formed instruction, and every step, answers a next state: whatever
the host does and whatever the source holds, the block neither stops nor refuses. -/
def Obligations.EveryStepAnswers : Prop :=
  ∀ s : State, s.Inv → (∀ i : Instr, i.wellFormed = true → ∃ t, exec i s = .next t) ∧ ∃ t, step s = .next t
end

