-- ==== Sys2Proof/Laws/State.lean ====
section
/-! SUPPORT. Laws/State.lean: what each named update of the state does to each field, one lemma a field. -/

namespace Sys2Proof.Machine

section Fields

variable (s : State)

/-! ### Consuming one bit (rule R111) -/

@[simp] theorem consumeBit_src : (consumeBit s).src = s.src := rfl
@[simp] theorem consumeBit_srcLen : (consumeBit s).srcLen = s.srcLen := rfl
@[simp] theorem consumeBit_pos : (consumeBit s).pos = s.pos + 1#64 := rfl
@[simp] theorem consumeBit_crc8 : (consumeBit s).crc8 = crc8Step s.crc8 (streamBit s.pos.toNat s) := rfl
@[simp] theorem consumeBit_crc16 : (consumeBit s).crc16 = crc16Step s.crc16 (streamBit s.pos.toNat s) := rfl
@[simp] theorem consumeBit_rv : (consumeBit s).rv = s.rv := rfl
@[simp] theorem consumeBit_raw : (consumeBit s).raw = s.raw := rfl
@[simp] theorem consumeBit_rawLen : (consumeBit s).rawLen = s.rawLen := rfl
@[simp] theorem consumeBit_strict : (consumeBit s).strict = s.strict := rfl
@[simp] theorem consumeBit_siValid : (consumeBit s).siValid = s.siValid := rfl
@[simp] theorem consumeBit_st : (consumeBit s).st = s.st := rfl
@[simp] theorem consumeBit_hcrcBad : (consumeBit s).hcrcBad = s.hcrcBad := rfl
@[simp] theorem consumeBit_fcrcBad : (consumeBit s).fcrcBad = s.fcrcBad := rfl
@[simp] theorem consumeBit_ovf : (consumeBit s).ovf = s.ovf := rfl
@[simp] theorem consumeBit_blkv : (consumeBit s).blkv = s.blkv := rfl
@[simp] theorem consumeBit_errCause : (consumeBit s).errCause = s.errCause := rfl
@[simp] theorem consumeBit_errPos : (consumeBit s).errPos = s.errPos := rfl
@[simp] theorem consumeBit_errFrame : (consumeBit s).errFrame = s.errFrame := rfl
@[simp] theorem consumeBit_frameIdx : (consumeBit s).frameIdx = s.frameIdx := rfl
@[simp] theorem consumeBit_siRate : (consumeBit s).siRate = s.siRate := rfl
@[simp] theorem consumeBit_siBps : (consumeBit s).siBps = s.siBps := rfl
@[simp] theorem consumeBit_fhStrategy : (consumeBit s).fhStrategy = s.fhStrategy := rfl
@[simp] theorem consumeBit_fhBlocksize : (consumeBit s).fhBlocksize = s.fhBlocksize := rfl
@[simp] theorem consumeBit_fhRate : (consumeBit s).fhRate = s.fhRate := rfl
@[simp] theorem consumeBit_fhChassign : (consumeBit s).fhChassign = s.fhChassign := rfl
@[simp] theorem consumeBit_fhNch : (consumeBit s).fhNch = s.fhNch := rfl
@[simp] theorem consumeBit_fhBps : (consumeBit s).fhBps = s.fhBps := rfl
@[simp] theorem consumeBit_fhNumber : (consumeBit s).fhNumber = s.fhNumber := rfl
@[simp] theorem consumeBit_fhCrc : (consumeBit s).fhCrc = s.fhCrc := rfl
@[simp] theorem consumeBit_sfType : (consumeBit s).sfType = s.sfType := rfl
@[simp] theorem consumeBit_sfOrder : (consumeBit s).sfOrder = s.sfOrder := rfl
@[simp] theorem consumeBit_sfWasted : (consumeBit s).sfWasted = s.sfWasted := rfl
@[simp] theorem consumeBit_sfWidth : (consumeBit s).sfWidth = s.sfWidth := rfl
@[simp] theorem consumeBit_lpcPrec : (consumeBit s).lpcPrec = s.lpcPrec := rfl
@[simp] theorem consumeBit_lpcShift : (consumeBit s).lpcShift = s.lpcShift := rfl
@[simp] theorem consumeBit_resMethod : (consumeBit s).resMethod = s.resMethod := rfl
@[simp] theorem consumeBit_resPorder : (consumeBit s).resPorder = s.resPorder := rfl
@[simp] theorem consumeBit_coef : (consumeBit s).coef = s.coef := rfl
@[simp] theorem consumeBit_smp : (consumeBit s).smp = s.smp := rfl
@[simp] theorem consumeBit_host : (consumeBit s).host = s.host := rfl
@[simp] theorem consumeBit_reads : (consumeBit s).reads = s.reads := rfl
@[simp] theorem consumeBit_freeIndex : (consumeBit s).freeIndex = s.freeIndex := rfl
@[simp] theorem consumeBit_sampleSeed : (consumeBit s).sampleSeed = s.sampleSeed := rfl

/-! ### Consuming a run of bits (rule R111) -/

@[simp] theorem advance_src (bs : List Bool) : (advance bs s).src = s.src := rfl
@[simp] theorem advance_srcLen (bs : List Bool) : (advance bs s).srcLen = s.srcLen := rfl
@[simp] theorem advance_pos (bs : List Bool) : (advance bs s).pos = s.pos + BitVec.ofNat 64 bs.length := rfl
@[simp] theorem advance_crc8 (bs : List Bool) : (advance bs s).crc8 = bs.foldl crc8Step s.crc8 := rfl
@[simp] theorem advance_crc16 (bs : List Bool) : (advance bs s).crc16 = bs.foldl crc16Step s.crc16 := rfl
@[simp] theorem advance_rv (bs : List Bool) : (advance bs s).rv = s.rv := rfl
@[simp] theorem advance_raw (bs : List Bool) : (advance bs s).raw = s.raw := rfl
@[simp] theorem advance_rawLen (bs : List Bool) : (advance bs s).rawLen = s.rawLen := rfl
@[simp] theorem advance_strict (bs : List Bool) : (advance bs s).strict = s.strict := rfl
@[simp] theorem advance_siValid (bs : List Bool) : (advance bs s).siValid = s.siValid := rfl
@[simp] theorem advance_st (bs : List Bool) : (advance bs s).st = s.st := rfl
@[simp] theorem advance_hcrcBad (bs : List Bool) : (advance bs s).hcrcBad = s.hcrcBad := rfl
@[simp] theorem advance_fcrcBad (bs : List Bool) : (advance bs s).fcrcBad = s.fcrcBad := rfl
@[simp] theorem advance_ovf (bs : List Bool) : (advance bs s).ovf = s.ovf := rfl
@[simp] theorem advance_blkv (bs : List Bool) : (advance bs s).blkv = s.blkv := rfl
@[simp] theorem advance_errCause (bs : List Bool) : (advance bs s).errCause = s.errCause := rfl
@[simp] theorem advance_errPos (bs : List Bool) : (advance bs s).errPos = s.errPos := rfl
@[simp] theorem advance_errFrame (bs : List Bool) : (advance bs s).errFrame = s.errFrame := rfl
@[simp] theorem advance_frameIdx (bs : List Bool) : (advance bs s).frameIdx = s.frameIdx := rfl
@[simp] theorem advance_siRate (bs : List Bool) : (advance bs s).siRate = s.siRate := rfl
@[simp] theorem advance_siBps (bs : List Bool) : (advance bs s).siBps = s.siBps := rfl
@[simp] theorem advance_fhStrategy (bs : List Bool) : (advance bs s).fhStrategy = s.fhStrategy := rfl
@[simp] theorem advance_fhBlocksize (bs : List Bool) : (advance bs s).fhBlocksize = s.fhBlocksize := rfl
@[simp] theorem advance_fhRate (bs : List Bool) : (advance bs s).fhRate = s.fhRate := rfl
@[simp] theorem advance_fhChassign (bs : List Bool) : (advance bs s).fhChassign = s.fhChassign := rfl
@[simp] theorem advance_fhNch (bs : List Bool) : (advance bs s).fhNch = s.fhNch := rfl
@[simp] theorem advance_fhBps (bs : List Bool) : (advance bs s).fhBps = s.fhBps := rfl
@[simp] theorem advance_fhNumber (bs : List Bool) : (advance bs s).fhNumber = s.fhNumber := rfl
@[simp] theorem advance_fhCrc (bs : List Bool) : (advance bs s).fhCrc = s.fhCrc := rfl
@[simp] theorem advance_sfType (bs : List Bool) : (advance bs s).sfType = s.sfType := rfl
@[simp] theorem advance_sfOrder (bs : List Bool) : (advance bs s).sfOrder = s.sfOrder := rfl
@[simp] theorem advance_sfWasted (bs : List Bool) : (advance bs s).sfWasted = s.sfWasted := rfl
@[simp] theorem advance_sfWidth (bs : List Bool) : (advance bs s).sfWidth = s.sfWidth := rfl
@[simp] theorem advance_lpcPrec (bs : List Bool) : (advance bs s).lpcPrec = s.lpcPrec := rfl
@[simp] theorem advance_lpcShift (bs : List Bool) : (advance bs s).lpcShift = s.lpcShift := rfl
@[simp] theorem advance_resMethod (bs : List Bool) : (advance bs s).resMethod = s.resMethod := rfl
@[simp] theorem advance_resPorder (bs : List Bool) : (advance bs s).resPorder = s.resPorder := rfl
@[simp] theorem advance_coef (bs : List Bool) : (advance bs s).coef = s.coef := rfl
@[simp] theorem advance_smp (bs : List Bool) : (advance bs s).smp = s.smp := rfl
@[simp] theorem advance_host (bs : List Bool) : (advance bs s).host = s.host := rfl
@[simp] theorem advance_reads (bs : List Bool) : (advance bs s).reads = s.reads := rfl
@[simp] theorem advance_freeIndex (bs : List Bool) : (advance bs s).freeIndex = s.freeIndex := rfl
@[simp] theorem advance_sampleSeed (bs : List Bool) : (advance bs s).sampleSeed = s.sampleSeed := rfl

/-! ### The host's write to the source -/

@[simp] theorem writeSource_src (a : Nat) (b : Byte) : (writeSource a b s).src = if b = Config.unwrittenSource then Memory.erase s.src a else Memory.insert s.src a b := rfl
@[simp] theorem writeSource_srcLen (a : Nat) (b : Byte) : (writeSource a b s).srcLen = s.srcLen := rfl
@[simp] theorem writeSource_pos (a : Nat) (b : Byte) : (writeSource a b s).pos = s.pos := rfl
@[simp] theorem writeSource_crc8 (a : Nat) (b : Byte) : (writeSource a b s).crc8 = s.crc8 := rfl
@[simp] theorem writeSource_crc16 (a : Nat) (b : Byte) : (writeSource a b s).crc16 = s.crc16 := rfl
@[simp] theorem writeSource_rv (a : Nat) (b : Byte) : (writeSource a b s).rv = s.rv := rfl
@[simp] theorem writeSource_raw (a : Nat) (b : Byte) : (writeSource a b s).raw = s.raw := rfl
@[simp] theorem writeSource_rawLen (a : Nat) (b : Byte) : (writeSource a b s).rawLen = s.rawLen := rfl
@[simp] theorem writeSource_strict (a : Nat) (b : Byte) : (writeSource a b s).strict = s.strict := rfl
@[simp] theorem writeSource_siValid (a : Nat) (b : Byte) : (writeSource a b s).siValid = s.siValid := rfl
@[simp] theorem writeSource_st (a : Nat) (b : Byte) : (writeSource a b s).st = s.st := rfl
@[simp] theorem writeSource_hcrcBad (a : Nat) (b : Byte) : (writeSource a b s).hcrcBad = s.hcrcBad := rfl
@[simp] theorem writeSource_fcrcBad (a : Nat) (b : Byte) : (writeSource a b s).fcrcBad = s.fcrcBad := rfl
@[simp] theorem writeSource_ovf (a : Nat) (b : Byte) : (writeSource a b s).ovf = s.ovf := rfl
@[simp] theorem writeSource_blkv (a : Nat) (b : Byte) : (writeSource a b s).blkv = s.blkv := rfl
@[simp] theorem writeSource_errCause (a : Nat) (b : Byte) : (writeSource a b s).errCause = s.errCause := rfl
@[simp] theorem writeSource_errPos (a : Nat) (b : Byte) : (writeSource a b s).errPos = s.errPos := rfl
@[simp] theorem writeSource_errFrame (a : Nat) (b : Byte) : (writeSource a b s).errFrame = s.errFrame := rfl
@[simp] theorem writeSource_frameIdx (a : Nat) (b : Byte) : (writeSource a b s).frameIdx = s.frameIdx := rfl
@[simp] theorem writeSource_siRate (a : Nat) (b : Byte) : (writeSource a b s).siRate = s.siRate := rfl
@[simp] theorem writeSource_siBps (a : Nat) (b : Byte) : (writeSource a b s).siBps = s.siBps := rfl
@[simp] theorem writeSource_fhStrategy (a : Nat) (b : Byte) : (writeSource a b s).fhStrategy = s.fhStrategy := rfl
@[simp] theorem writeSource_fhBlocksize (a : Nat) (b : Byte) : (writeSource a b s).fhBlocksize = s.fhBlocksize := rfl
@[simp] theorem writeSource_fhRate (a : Nat) (b : Byte) : (writeSource a b s).fhRate = s.fhRate := rfl
@[simp] theorem writeSource_fhChassign (a : Nat) (b : Byte) : (writeSource a b s).fhChassign = s.fhChassign := rfl
@[simp] theorem writeSource_fhNch (a : Nat) (b : Byte) : (writeSource a b s).fhNch = s.fhNch := rfl
@[simp] theorem writeSource_fhBps (a : Nat) (b : Byte) : (writeSource a b s).fhBps = s.fhBps := rfl
@[simp] theorem writeSource_fhNumber (a : Nat) (b : Byte) : (writeSource a b s).fhNumber = s.fhNumber := rfl
@[simp] theorem writeSource_fhCrc (a : Nat) (b : Byte) : (writeSource a b s).fhCrc = s.fhCrc := rfl
@[simp] theorem writeSource_sfType (a : Nat) (b : Byte) : (writeSource a b s).sfType = s.sfType := rfl
@[simp] theorem writeSource_sfOrder (a : Nat) (b : Byte) : (writeSource a b s).sfOrder = s.sfOrder := rfl
@[simp] theorem writeSource_sfWasted (a : Nat) (b : Byte) : (writeSource a b s).sfWasted = s.sfWasted := rfl
@[simp] theorem writeSource_sfWidth (a : Nat) (b : Byte) : (writeSource a b s).sfWidth = s.sfWidth := rfl
@[simp] theorem writeSource_lpcPrec (a : Nat) (b : Byte) : (writeSource a b s).lpcPrec = s.lpcPrec := rfl
@[simp] theorem writeSource_lpcShift (a : Nat) (b : Byte) : (writeSource a b s).lpcShift = s.lpcShift := rfl
@[simp] theorem writeSource_resMethod (a : Nat) (b : Byte) : (writeSource a b s).resMethod = s.resMethod := rfl
@[simp] theorem writeSource_resPorder (a : Nat) (b : Byte) : (writeSource a b s).resPorder = s.resPorder := rfl
@[simp] theorem writeSource_coef (a : Nat) (b : Byte) : (writeSource a b s).coef = s.coef := rfl
@[simp] theorem writeSource_smp (a : Nat) (b : Byte) : (writeSource a b s).smp = s.smp := rfl
@[simp] theorem writeSource_host (a : Nat) (b : Byte) : (writeSource a b s).host = s.host := rfl
@[simp] theorem writeSource_reads (a : Nat) (b : Byte) : (writeSource a b s).reads = s.reads := rfl
@[simp] theorem writeSource_freeIndex (a : Nat) (b : Byte) : (writeSource a b s).freeIndex = s.freeIndex := rfl
@[simp] theorem writeSource_sampleSeed (a : Nat) (b : Byte) : (writeSource a b s).sampleSeed = s.sampleSeed := rfl

/-! ### A word of sample memory replaced -/

@[simp] theorem storeSample_src (a : Nat) (v : Sample) : (storeSample a v s).src = s.src := rfl
@[simp] theorem storeSample_srcLen (a : Nat) (v : Sample) : (storeSample a v s).srcLen = s.srcLen := rfl
@[simp] theorem storeSample_pos (a : Nat) (v : Sample) : (storeSample a v s).pos = s.pos := rfl
@[simp] theorem storeSample_crc8 (a : Nat) (v : Sample) : (storeSample a v s).crc8 = s.crc8 := rfl
@[simp] theorem storeSample_crc16 (a : Nat) (v : Sample) : (storeSample a v s).crc16 = s.crc16 := rfl
@[simp] theorem storeSample_rv (a : Nat) (v : Sample) : (storeSample a v s).rv = s.rv := rfl
@[simp] theorem storeSample_raw (a : Nat) (v : Sample) : (storeSample a v s).raw = s.raw := rfl
@[simp] theorem storeSample_rawLen (a : Nat) (v : Sample) : (storeSample a v s).rawLen = s.rawLen := rfl
@[simp] theorem storeSample_strict (a : Nat) (v : Sample) : (storeSample a v s).strict = s.strict := rfl
@[simp] theorem storeSample_siValid (a : Nat) (v : Sample) : (storeSample a v s).siValid = s.siValid := rfl
@[simp] theorem storeSample_st (a : Nat) (v : Sample) : (storeSample a v s).st = s.st := rfl
@[simp] theorem storeSample_hcrcBad (a : Nat) (v : Sample) : (storeSample a v s).hcrcBad = s.hcrcBad := rfl
@[simp] theorem storeSample_fcrcBad (a : Nat) (v : Sample) : (storeSample a v s).fcrcBad = s.fcrcBad := rfl
@[simp] theorem storeSample_ovf (a : Nat) (v : Sample) : (storeSample a v s).ovf = s.ovf := rfl
@[simp] theorem storeSample_blkv (a : Nat) (v : Sample) : (storeSample a v s).blkv = s.blkv := rfl
@[simp] theorem storeSample_errCause (a : Nat) (v : Sample) : (storeSample a v s).errCause = s.errCause := rfl
@[simp] theorem storeSample_errPos (a : Nat) (v : Sample) : (storeSample a v s).errPos = s.errPos := rfl
@[simp] theorem storeSample_errFrame (a : Nat) (v : Sample) : (storeSample a v s).errFrame = s.errFrame := rfl
@[simp] theorem storeSample_frameIdx (a : Nat) (v : Sample) : (storeSample a v s).frameIdx = s.frameIdx := rfl
@[simp] theorem storeSample_siRate (a : Nat) (v : Sample) : (storeSample a v s).siRate = s.siRate := rfl
@[simp] theorem storeSample_siBps (a : Nat) (v : Sample) : (storeSample a v s).siBps = s.siBps := rfl
@[simp] theorem storeSample_fhStrategy (a : Nat) (v : Sample) : (storeSample a v s).fhStrategy = s.fhStrategy := rfl
@[simp] theorem storeSample_fhBlocksize (a : Nat) (v : Sample) : (storeSample a v s).fhBlocksize = s.fhBlocksize := rfl
@[simp] theorem storeSample_fhRate (a : Nat) (v : Sample) : (storeSample a v s).fhRate = s.fhRate := rfl
@[simp] theorem storeSample_fhChassign (a : Nat) (v : Sample) : (storeSample a v s).fhChassign = s.fhChassign := rfl
@[simp] theorem storeSample_fhNch (a : Nat) (v : Sample) : (storeSample a v s).fhNch = s.fhNch := rfl
@[simp] theorem storeSample_fhBps (a : Nat) (v : Sample) : (storeSample a v s).fhBps = s.fhBps := rfl
@[simp] theorem storeSample_fhNumber (a : Nat) (v : Sample) : (storeSample a v s).fhNumber = s.fhNumber := rfl
@[simp] theorem storeSample_fhCrc (a : Nat) (v : Sample) : (storeSample a v s).fhCrc = s.fhCrc := rfl
@[simp] theorem storeSample_sfType (a : Nat) (v : Sample) : (storeSample a v s).sfType = s.sfType := rfl
@[simp] theorem storeSample_sfOrder (a : Nat) (v : Sample) : (storeSample a v s).sfOrder = s.sfOrder := rfl
@[simp] theorem storeSample_sfWasted (a : Nat) (v : Sample) : (storeSample a v s).sfWasted = s.sfWasted := rfl
@[simp] theorem storeSample_sfWidth (a : Nat) (v : Sample) : (storeSample a v s).sfWidth = s.sfWidth := rfl
@[simp] theorem storeSample_lpcPrec (a : Nat) (v : Sample) : (storeSample a v s).lpcPrec = s.lpcPrec := rfl
@[simp] theorem storeSample_lpcShift (a : Nat) (v : Sample) : (storeSample a v s).lpcShift = s.lpcShift := rfl
@[simp] theorem storeSample_resMethod (a : Nat) (v : Sample) : (storeSample a v s).resMethod = s.resMethod := rfl
@[simp] theorem storeSample_resPorder (a : Nat) (v : Sample) : (storeSample a v s).resPorder = s.resPorder := rfl
@[simp] theorem storeSample_coef (a : Nat) (v : Sample) : (storeSample a v s).coef = s.coef := rfl
@[simp] theorem storeSample_smp (a : Nat) (v : Sample) : (storeSample a v s).smp = Memory.insert s.smp a v := rfl
@[simp] theorem storeSample_host (a : Nat) (v : Sample) : (storeSample a v s).host = s.host := rfl
@[simp] theorem storeSample_reads (a : Nat) (v : Sample) : (storeSample a v s).reads = s.reads := rfl
@[simp] theorem storeSample_freeIndex (a : Nat) (v : Sample) : (storeSample a v s).freeIndex = s.freeIndex := rfl
@[simp] theorem storeSample_sampleSeed (a : Nat) (v : Sample) : (storeSample a v s).sampleSeed = s.sampleSeed := rfl

/-! ### The block's store (rule R234) -/

@[simp] theorem writeSample_src (c i : Nat) (v : Int) : (writeSample c i v s).src = s.src := rfl
@[simp] theorem writeSample_srcLen (c i : Nat) (v : Int) : (writeSample c i v s).srcLen = s.srcLen := rfl
@[simp] theorem writeSample_pos (c i : Nat) (v : Int) : (writeSample c i v s).pos = s.pos := rfl
@[simp] theorem writeSample_crc8 (c i : Nat) (v : Int) : (writeSample c i v s).crc8 = s.crc8 := rfl
@[simp] theorem writeSample_crc16 (c i : Nat) (v : Int) : (writeSample c i v s).crc16 = s.crc16 := rfl
@[simp] theorem writeSample_rv (c i : Nat) (v : Int) : (writeSample c i v s).rv = s.rv := rfl
@[simp] theorem writeSample_raw (c i : Nat) (v : Int) : (writeSample c i v s).raw = s.raw := rfl
@[simp] theorem writeSample_rawLen (c i : Nat) (v : Int) : (writeSample c i v s).rawLen = s.rawLen := rfl
@[simp] theorem writeSample_strict (c i : Nat) (v : Int) : (writeSample c i v s).strict = s.strict := rfl
@[simp] theorem writeSample_siValid (c i : Nat) (v : Int) : (writeSample c i v s).siValid = s.siValid := rfl
@[simp] theorem writeSample_st (c i : Nat) (v : Int) : (writeSample c i v s).st = s.st := rfl
@[simp] theorem writeSample_hcrcBad (c i : Nat) (v : Int) : (writeSample c i v s).hcrcBad = s.hcrcBad := rfl
@[simp] theorem writeSample_fcrcBad (c i : Nat) (v : Int) : (writeSample c i v s).fcrcBad = s.fcrcBad := rfl
@[simp] theorem writeSample_ovf (c i : Nat) (v : Int) : (writeSample c i v s).ovf = (s.ovf || narrowLoses v) := rfl
@[simp] theorem writeSample_blkv (c i : Nat) (v : Int) : (writeSample c i v s).blkv = s.blkv := rfl
@[simp] theorem writeSample_errCause (c i : Nat) (v : Int) : (writeSample c i v s).errCause = s.errCause := rfl
@[simp] theorem writeSample_errPos (c i : Nat) (v : Int) : (writeSample c i v s).errPos = s.errPos := rfl
@[simp] theorem writeSample_errFrame (c i : Nat) (v : Int) : (writeSample c i v s).errFrame = s.errFrame := rfl
@[simp] theorem writeSample_frameIdx (c i : Nat) (v : Int) : (writeSample c i v s).frameIdx = s.frameIdx := rfl
@[simp] theorem writeSample_siRate (c i : Nat) (v : Int) : (writeSample c i v s).siRate = s.siRate := rfl
@[simp] theorem writeSample_siBps (c i : Nat) (v : Int) : (writeSample c i v s).siBps = s.siBps := rfl
@[simp] theorem writeSample_fhStrategy (c i : Nat) (v : Int) : (writeSample c i v s).fhStrategy = s.fhStrategy := rfl
@[simp] theorem writeSample_fhBlocksize (c i : Nat) (v : Int) : (writeSample c i v s).fhBlocksize = s.fhBlocksize := rfl
@[simp] theorem writeSample_fhRate (c i : Nat) (v : Int) : (writeSample c i v s).fhRate = s.fhRate := rfl
@[simp] theorem writeSample_fhChassign (c i : Nat) (v : Int) : (writeSample c i v s).fhChassign = s.fhChassign := rfl
@[simp] theorem writeSample_fhNch (c i : Nat) (v : Int) : (writeSample c i v s).fhNch = s.fhNch := rfl
@[simp] theorem writeSample_fhBps (c i : Nat) (v : Int) : (writeSample c i v s).fhBps = s.fhBps := rfl
@[simp] theorem writeSample_fhNumber (c i : Nat) (v : Int) : (writeSample c i v s).fhNumber = s.fhNumber := rfl
@[simp] theorem writeSample_fhCrc (c i : Nat) (v : Int) : (writeSample c i v s).fhCrc = s.fhCrc := rfl
@[simp] theorem writeSample_sfType (c i : Nat) (v : Int) : (writeSample c i v s).sfType = s.sfType := rfl
@[simp] theorem writeSample_sfOrder (c i : Nat) (v : Int) : (writeSample c i v s).sfOrder = s.sfOrder := rfl
@[simp] theorem writeSample_sfWasted (c i : Nat) (v : Int) : (writeSample c i v s).sfWasted = s.sfWasted := rfl
@[simp] theorem writeSample_sfWidth (c i : Nat) (v : Int) : (writeSample c i v s).sfWidth = s.sfWidth := rfl
@[simp] theorem writeSample_lpcPrec (c i : Nat) (v : Int) : (writeSample c i v s).lpcPrec = s.lpcPrec := rfl
@[simp] theorem writeSample_lpcShift (c i : Nat) (v : Int) : (writeSample c i v s).lpcShift = s.lpcShift := rfl
@[simp] theorem writeSample_resMethod (c i : Nat) (v : Int) : (writeSample c i v s).resMethod = s.resMethod := rfl
@[simp] theorem writeSample_resPorder (c i : Nat) (v : Int) : (writeSample c i v s).resPorder = s.resPorder := rfl
@[simp] theorem writeSample_coef (c i : Nat) (v : Int) : (writeSample c i v s).coef = s.coef := rfl
@[simp] theorem writeSample_smp (c i : Nat) (v : Int) : (writeSample c i v s).smp = Memory.insert s.smp (sampleAddress c i) (narrow v) := rfl
@[simp] theorem writeSample_host (c i : Nat) (v : Int) : (writeSample c i v s).host = s.host := rfl
@[simp] theorem writeSample_reads (c i : Nat) (v : Int) : (writeSample c i v s).reads = s.reads := rfl
@[simp] theorem writeSample_freeIndex (c i : Nat) (v : Int) : (writeSample c i v s).freeIndex = s.freeIndex := rfl
@[simp] theorem writeSample_sampleSeed (c i : Nat) (v : Int) : (writeSample c i v s).sampleSeed = s.sampleSeed := rfl

/-! ### Taking a fault (rule R215) -/

@[simp] theorem takeFault_src (c : Cause) : (takeFault c s).src = s.src := rfl
@[simp] theorem takeFault_srcLen (c : Cause) : (takeFault c s).srcLen = s.srcLen := rfl
@[simp] theorem takeFault_pos (c : Cause) : (takeFault c s).pos = s.pos := rfl
@[simp] theorem takeFault_crc8 (c : Cause) : (takeFault c s).crc8 = s.crc8 := rfl
@[simp] theorem takeFault_crc16 (c : Cause) : (takeFault c s).crc16 = s.crc16 := rfl
@[simp] theorem takeFault_rv (c : Cause) : (takeFault c s).rv = s.rv := rfl
@[simp] theorem takeFault_raw (c : Cause) : (takeFault c s).raw = s.raw := rfl
@[simp] theorem takeFault_rawLen (c : Cause) : (takeFault c s).rawLen = s.rawLen := rfl
@[simp] theorem takeFault_strict (c : Cause) : (takeFault c s).strict = s.strict := rfl
@[simp] theorem takeFault_siValid (c : Cause) : (takeFault c s).siValid = s.siValid := rfl
@[simp] theorem takeFault_st (c : Cause) : (takeFault c s).st = .fault := rfl
@[simp] theorem takeFault_hcrcBad (c : Cause) : (takeFault c s).hcrcBad = s.hcrcBad := rfl
@[simp] theorem takeFault_fcrcBad (c : Cause) : (takeFault c s).fcrcBad = s.fcrcBad := rfl
@[simp] theorem takeFault_ovf (c : Cause) : (takeFault c s).ovf = s.ovf := rfl
@[simp] theorem takeFault_blkv (c : Cause) : (takeFault c s).blkv = s.blkv := rfl
@[simp] theorem takeFault_errCause (c : Cause) : (takeFault c s).errCause = c.code := rfl
@[simp] theorem takeFault_errPos (c : Cause) : (takeFault c s).errPos = s.pos := rfl
@[simp] theorem takeFault_errFrame (c : Cause) : (takeFault c s).errFrame = s.frameIdx := rfl
@[simp] theorem takeFault_frameIdx (c : Cause) : (takeFault c s).frameIdx = s.frameIdx := rfl
@[simp] theorem takeFault_siRate (c : Cause) : (takeFault c s).siRate = s.siRate := rfl
@[simp] theorem takeFault_siBps (c : Cause) : (takeFault c s).siBps = s.siBps := rfl
@[simp] theorem takeFault_fhStrategy (c : Cause) : (takeFault c s).fhStrategy = s.fhStrategy := rfl
@[simp] theorem takeFault_fhBlocksize (c : Cause) : (takeFault c s).fhBlocksize = s.fhBlocksize := rfl
@[simp] theorem takeFault_fhRate (c : Cause) : (takeFault c s).fhRate = s.fhRate := rfl
@[simp] theorem takeFault_fhChassign (c : Cause) : (takeFault c s).fhChassign = s.fhChassign := rfl
@[simp] theorem takeFault_fhNch (c : Cause) : (takeFault c s).fhNch = s.fhNch := rfl
@[simp] theorem takeFault_fhBps (c : Cause) : (takeFault c s).fhBps = s.fhBps := rfl
@[simp] theorem takeFault_fhNumber (c : Cause) : (takeFault c s).fhNumber = s.fhNumber := rfl
@[simp] theorem takeFault_fhCrc (c : Cause) : (takeFault c s).fhCrc = s.fhCrc := rfl
@[simp] theorem takeFault_sfType (c : Cause) : (takeFault c s).sfType = s.sfType := rfl
@[simp] theorem takeFault_sfOrder (c : Cause) : (takeFault c s).sfOrder = s.sfOrder := rfl
@[simp] theorem takeFault_sfWasted (c : Cause) : (takeFault c s).sfWasted = s.sfWasted := rfl
@[simp] theorem takeFault_sfWidth (c : Cause) : (takeFault c s).sfWidth = s.sfWidth := rfl
@[simp] theorem takeFault_lpcPrec (c : Cause) : (takeFault c s).lpcPrec = s.lpcPrec := rfl
@[simp] theorem takeFault_lpcShift (c : Cause) : (takeFault c s).lpcShift = s.lpcShift := rfl
@[simp] theorem takeFault_resMethod (c : Cause) : (takeFault c s).resMethod = s.resMethod := rfl
@[simp] theorem takeFault_resPorder (c : Cause) : (takeFault c s).resPorder = s.resPorder := rfl
@[simp] theorem takeFault_coef (c : Cause) : (takeFault c s).coef = s.coef := rfl
@[simp] theorem takeFault_smp (c : Cause) : (takeFault c s).smp = s.smp := rfl
@[simp] theorem takeFault_host (c : Cause) : (takeFault c s).host = s.host := rfl
@[simp] theorem takeFault_reads (c : Cause) : (takeFault c s).reads = s.reads := rfl
@[simp] theorem takeFault_freeIndex (c : Cause) : (takeFault c s).freeIndex = s.freeIndex := rfl
@[simp] theorem takeFault_sampleSeed (c : Cause) : (takeFault c s).sampleSeed = s.sampleSeed := rfl

/-! ### The state after a fault -/

@[simp] theorem faulted_src (c : BitVec 8) : (faulted c s).src = s.src := rfl
@[simp] theorem faulted_srcLen (c : BitVec 8) : (faulted c s).srcLen = s.srcLen := rfl
@[simp] theorem faulted_pos (c : BitVec 8) : (faulted c s).pos = s.pos := rfl
@[simp] theorem faulted_crc8 (c : BitVec 8) : (faulted c s).crc8 = s.crc8 := rfl
@[simp] theorem faulted_crc16 (c : BitVec 8) : (faulted c s).crc16 = s.crc16 := rfl
@[simp] theorem faulted_rv (c : BitVec 8) : (faulted c s).rv = s.rv := rfl
@[simp] theorem faulted_raw (c : BitVec 8) : (faulted c s).raw = s.raw := rfl
@[simp] theorem faulted_rawLen (c : BitVec 8) : (faulted c s).rawLen = s.rawLen := rfl
@[simp] theorem faulted_strict (c : BitVec 8) : (faulted c s).strict = s.strict := rfl
@[simp] theorem faulted_siValid (c : BitVec 8) : (faulted c s).siValid = s.siValid := rfl
@[simp] theorem faulted_st (c : BitVec 8) : (faulted c s).st = .fault := rfl
@[simp] theorem faulted_hcrcBad (c : BitVec 8) : (faulted c s).hcrcBad = s.hcrcBad := rfl
@[simp] theorem faulted_fcrcBad (c : BitVec 8) : (faulted c s).fcrcBad = s.fcrcBad := rfl
@[simp] theorem faulted_ovf (c : BitVec 8) : (faulted c s).ovf = s.ovf := rfl
@[simp] theorem faulted_blkv (c : BitVec 8) : (faulted c s).blkv = s.blkv := rfl
@[simp] theorem faulted_errCause (c : BitVec 8) : (faulted c s).errCause = c := rfl
@[simp] theorem faulted_errPos (c : BitVec 8) : (faulted c s).errPos = s.pos := rfl
@[simp] theorem faulted_errFrame (c : BitVec 8) : (faulted c s).errFrame = s.frameIdx := rfl
@[simp] theorem faulted_frameIdx (c : BitVec 8) : (faulted c s).frameIdx = s.frameIdx := rfl
@[simp] theorem faulted_siRate (c : BitVec 8) : (faulted c s).siRate = s.siRate := rfl
@[simp] theorem faulted_siBps (c : BitVec 8) : (faulted c s).siBps = s.siBps := rfl
@[simp] theorem faulted_fhStrategy (c : BitVec 8) : (faulted c s).fhStrategy = s.fhStrategy := rfl
@[simp] theorem faulted_fhBlocksize (c : BitVec 8) : (faulted c s).fhBlocksize = s.fhBlocksize := rfl
@[simp] theorem faulted_fhRate (c : BitVec 8) : (faulted c s).fhRate = s.fhRate := rfl
@[simp] theorem faulted_fhChassign (c : BitVec 8) : (faulted c s).fhChassign = s.fhChassign := rfl
@[simp] theorem faulted_fhNch (c : BitVec 8) : (faulted c s).fhNch = s.fhNch := rfl
@[simp] theorem faulted_fhBps (c : BitVec 8) : (faulted c s).fhBps = s.fhBps := rfl
@[simp] theorem faulted_fhNumber (c : BitVec 8) : (faulted c s).fhNumber = s.fhNumber := rfl
@[simp] theorem faulted_fhCrc (c : BitVec 8) : (faulted c s).fhCrc = s.fhCrc := rfl
@[simp] theorem faulted_sfType (c : BitVec 8) : (faulted c s).sfType = s.sfType := rfl
@[simp] theorem faulted_sfOrder (c : BitVec 8) : (faulted c s).sfOrder = s.sfOrder := rfl
@[simp] theorem faulted_sfWasted (c : BitVec 8) : (faulted c s).sfWasted = s.sfWasted := rfl
@[simp] theorem faulted_sfWidth (c : BitVec 8) : (faulted c s).sfWidth = s.sfWidth := rfl
@[simp] theorem faulted_lpcPrec (c : BitVec 8) : (faulted c s).lpcPrec = s.lpcPrec := rfl
@[simp] theorem faulted_lpcShift (c : BitVec 8) : (faulted c s).lpcShift = s.lpcShift := rfl
@[simp] theorem faulted_resMethod (c : BitVec 8) : (faulted c s).resMethod = s.resMethod := rfl
@[simp] theorem faulted_resPorder (c : BitVec 8) : (faulted c s).resPorder = s.resPorder := rfl
@[simp] theorem faulted_coef (c : BitVec 8) : (faulted c s).coef = s.coef := rfl
@[simp] theorem faulted_smp (c : BitVec 8) : (faulted c s).smp = s.smp := rfl
@[simp] theorem faulted_host (c : BitVec 8) : (faulted c s).host = s.host := rfl
@[simp] theorem faulted_reads (c : BitVec 8) : (faulted c s).reads = s.reads := rfl
@[simp] theorem faulted_freeIndex (c : BitVec 8) : (faulted c s).freeIndex = s.freeIndex := rfl
@[simp] theorem faulted_sampleSeed (c : BitVec 8) : (faulted c s).sampleSeed = s.sampleSeed := rfl

/-! ### Clearing the frame flags (rule R135) -/

@[simp] theorem clearFrameFlags_src : (clearFrameFlags s).src = s.src := rfl
@[simp] theorem clearFrameFlags_srcLen : (clearFrameFlags s).srcLen = s.srcLen := rfl
@[simp] theorem clearFrameFlags_pos : (clearFrameFlags s).pos = s.pos := rfl
@[simp] theorem clearFrameFlags_crc8 : (clearFrameFlags s).crc8 = s.crc8 := rfl
@[simp] theorem clearFrameFlags_crc16 : (clearFrameFlags s).crc16 = s.crc16 := rfl
@[simp] theorem clearFrameFlags_rv : (clearFrameFlags s).rv = s.rv := rfl
@[simp] theorem clearFrameFlags_raw : (clearFrameFlags s).raw = s.raw := rfl
@[simp] theorem clearFrameFlags_rawLen : (clearFrameFlags s).rawLen = s.rawLen := rfl
@[simp] theorem clearFrameFlags_strict : (clearFrameFlags s).strict = s.strict := rfl
@[simp] theorem clearFrameFlags_siValid : (clearFrameFlags s).siValid = s.siValid := rfl
@[simp] theorem clearFrameFlags_st : (clearFrameFlags s).st = s.st := rfl
@[simp] theorem clearFrameFlags_hcrcBad : (clearFrameFlags s).hcrcBad = false := rfl
@[simp] theorem clearFrameFlags_fcrcBad : (clearFrameFlags s).fcrcBad = false := rfl
@[simp] theorem clearFrameFlags_ovf : (clearFrameFlags s).ovf = s.ovf := rfl
@[simp] theorem clearFrameFlags_blkv : (clearFrameFlags s).blkv = false := rfl
@[simp] theorem clearFrameFlags_errCause : (clearFrameFlags s).errCause = s.errCause := rfl
@[simp] theorem clearFrameFlags_errPos : (clearFrameFlags s).errPos = s.errPos := rfl
@[simp] theorem clearFrameFlags_errFrame : (clearFrameFlags s).errFrame = s.errFrame := rfl
@[simp] theorem clearFrameFlags_frameIdx : (clearFrameFlags s).frameIdx = s.frameIdx := rfl
@[simp] theorem clearFrameFlags_siRate : (clearFrameFlags s).siRate = s.siRate := rfl
@[simp] theorem clearFrameFlags_siBps : (clearFrameFlags s).siBps = s.siBps := rfl
@[simp] theorem clearFrameFlags_fhStrategy : (clearFrameFlags s).fhStrategy = s.fhStrategy := rfl
@[simp] theorem clearFrameFlags_fhBlocksize : (clearFrameFlags s).fhBlocksize = s.fhBlocksize := rfl
@[simp] theorem clearFrameFlags_fhRate : (clearFrameFlags s).fhRate = s.fhRate := rfl
@[simp] theorem clearFrameFlags_fhChassign : (clearFrameFlags s).fhChassign = s.fhChassign := rfl
@[simp] theorem clearFrameFlags_fhNch : (clearFrameFlags s).fhNch = s.fhNch := rfl
@[simp] theorem clearFrameFlags_fhBps : (clearFrameFlags s).fhBps = s.fhBps := rfl
@[simp] theorem clearFrameFlags_fhNumber : (clearFrameFlags s).fhNumber = s.fhNumber := rfl
@[simp] theorem clearFrameFlags_fhCrc : (clearFrameFlags s).fhCrc = s.fhCrc := rfl
@[simp] theorem clearFrameFlags_sfType : (clearFrameFlags s).sfType = s.sfType := rfl
@[simp] theorem clearFrameFlags_sfOrder : (clearFrameFlags s).sfOrder = s.sfOrder := rfl
@[simp] theorem clearFrameFlags_sfWasted : (clearFrameFlags s).sfWasted = s.sfWasted := rfl
@[simp] theorem clearFrameFlags_sfWidth : (clearFrameFlags s).sfWidth = s.sfWidth := rfl
@[simp] theorem clearFrameFlags_lpcPrec : (clearFrameFlags s).lpcPrec = s.lpcPrec := rfl
@[simp] theorem clearFrameFlags_lpcShift : (clearFrameFlags s).lpcShift = s.lpcShift := rfl
@[simp] theorem clearFrameFlags_resMethod : (clearFrameFlags s).resMethod = s.resMethod := rfl
@[simp] theorem clearFrameFlags_resPorder : (clearFrameFlags s).resPorder = s.resPorder := rfl
@[simp] theorem clearFrameFlags_coef : (clearFrameFlags s).coef = s.coef := rfl
@[simp] theorem clearFrameFlags_smp : (clearFrameFlags s).smp = s.smp := rfl
@[simp] theorem clearFrameFlags_host : (clearFrameFlags s).host = s.host := rfl
@[simp] theorem clearFrameFlags_reads : (clearFrameFlags s).reads = s.reads := rfl
@[simp] theorem clearFrameFlags_freeIndex : (clearFrameFlags s).freeIndex = s.freeIndex := rfl
@[simp] theorem clearFrameFlags_sampleSeed : (clearFrameFlags s).sampleSeed = s.sampleSeed := rfl

/-! ### Invalidating the output view (rule R32) -/

@[simp] theorem invalidateBlock_src : (invalidateBlock s).src = s.src := rfl
@[simp] theorem invalidateBlock_srcLen : (invalidateBlock s).srcLen = s.srcLen := rfl
@[simp] theorem invalidateBlock_pos : (invalidateBlock s).pos = s.pos := rfl
@[simp] theorem invalidateBlock_crc8 : (invalidateBlock s).crc8 = s.crc8 := rfl
@[simp] theorem invalidateBlock_crc16 : (invalidateBlock s).crc16 = s.crc16 := rfl
@[simp] theorem invalidateBlock_rv : (invalidateBlock s).rv = s.rv := rfl
@[simp] theorem invalidateBlock_raw : (invalidateBlock s).raw = s.raw := rfl
@[simp] theorem invalidateBlock_rawLen : (invalidateBlock s).rawLen = s.rawLen := rfl
@[simp] theorem invalidateBlock_strict : (invalidateBlock s).strict = s.strict := rfl
@[simp] theorem invalidateBlock_siValid : (invalidateBlock s).siValid = s.siValid := rfl
@[simp] theorem invalidateBlock_st : (invalidateBlock s).st = s.st := rfl
@[simp] theorem invalidateBlock_hcrcBad : (invalidateBlock s).hcrcBad = s.hcrcBad := rfl
@[simp] theorem invalidateBlock_fcrcBad : (invalidateBlock s).fcrcBad = s.fcrcBad := rfl
@[simp] theorem invalidateBlock_ovf : (invalidateBlock s).ovf = s.ovf := rfl
@[simp] theorem invalidateBlock_blkv : (invalidateBlock s).blkv = false := rfl
@[simp] theorem invalidateBlock_errCause : (invalidateBlock s).errCause = s.errCause := rfl
@[simp] theorem invalidateBlock_errPos : (invalidateBlock s).errPos = s.errPos := rfl
@[simp] theorem invalidateBlock_errFrame : (invalidateBlock s).errFrame = s.errFrame := rfl
@[simp] theorem invalidateBlock_frameIdx : (invalidateBlock s).frameIdx = s.frameIdx := rfl
@[simp] theorem invalidateBlock_siRate : (invalidateBlock s).siRate = s.siRate := rfl
@[simp] theorem invalidateBlock_siBps : (invalidateBlock s).siBps = s.siBps := rfl
@[simp] theorem invalidateBlock_fhStrategy : (invalidateBlock s).fhStrategy = s.fhStrategy := rfl
@[simp] theorem invalidateBlock_fhBlocksize : (invalidateBlock s).fhBlocksize = s.fhBlocksize := rfl
@[simp] theorem invalidateBlock_fhRate : (invalidateBlock s).fhRate = s.fhRate := rfl
@[simp] theorem invalidateBlock_fhChassign : (invalidateBlock s).fhChassign = s.fhChassign := rfl
@[simp] theorem invalidateBlock_fhNch : (invalidateBlock s).fhNch = s.fhNch := rfl
@[simp] theorem invalidateBlock_fhBps : (invalidateBlock s).fhBps = s.fhBps := rfl
@[simp] theorem invalidateBlock_fhNumber : (invalidateBlock s).fhNumber = s.fhNumber := rfl
@[simp] theorem invalidateBlock_fhCrc : (invalidateBlock s).fhCrc = s.fhCrc := rfl
@[simp] theorem invalidateBlock_sfType : (invalidateBlock s).sfType = s.sfType := rfl
@[simp] theorem invalidateBlock_sfOrder : (invalidateBlock s).sfOrder = s.sfOrder := rfl
@[simp] theorem invalidateBlock_sfWasted : (invalidateBlock s).sfWasted = s.sfWasted := rfl
@[simp] theorem invalidateBlock_sfWidth : (invalidateBlock s).sfWidth = s.sfWidth := rfl
@[simp] theorem invalidateBlock_lpcPrec : (invalidateBlock s).lpcPrec = s.lpcPrec := rfl
@[simp] theorem invalidateBlock_lpcShift : (invalidateBlock s).lpcShift = s.lpcShift := rfl
@[simp] theorem invalidateBlock_resMethod : (invalidateBlock s).resMethod = s.resMethod := rfl
@[simp] theorem invalidateBlock_resPorder : (invalidateBlock s).resPorder = s.resPorder := rfl
@[simp] theorem invalidateBlock_coef : (invalidateBlock s).coef = s.coef := rfl
@[simp] theorem invalidateBlock_smp : (invalidateBlock s).smp = s.smp := rfl
@[simp] theorem invalidateBlock_host : (invalidateBlock s).host = s.host := rfl
@[simp] theorem invalidateBlock_reads : (invalidateBlock s).reads = s.reads := rfl
@[simp] theorem invalidateBlock_freeIndex : (invalidateBlock s).freeIndex = s.freeIndex := rfl
@[simp] theorem invalidateBlock_sampleSeed : (invalidateBlock s).sampleSeed = s.sampleSeed := rfl

/-! ### Zeroing both checksums (rule R136) -/

@[simp] theorem zeroChecksums_src : (zeroChecksums s).src = s.src := rfl
@[simp] theorem zeroChecksums_srcLen : (zeroChecksums s).srcLen = s.srcLen := rfl
@[simp] theorem zeroChecksums_pos : (zeroChecksums s).pos = s.pos := rfl
@[simp] theorem zeroChecksums_crc8 : (zeroChecksums s).crc8 = 0 := rfl
@[simp] theorem zeroChecksums_crc16 : (zeroChecksums s).crc16 = 0 := rfl
@[simp] theorem zeroChecksums_rv : (zeroChecksums s).rv = s.rv := rfl
@[simp] theorem zeroChecksums_raw : (zeroChecksums s).raw = s.raw := rfl
@[simp] theorem zeroChecksums_rawLen : (zeroChecksums s).rawLen = s.rawLen := rfl
@[simp] theorem zeroChecksums_strict : (zeroChecksums s).strict = s.strict := rfl
@[simp] theorem zeroChecksums_siValid : (zeroChecksums s).siValid = s.siValid := rfl
@[simp] theorem zeroChecksums_st : (zeroChecksums s).st = s.st := rfl
@[simp] theorem zeroChecksums_hcrcBad : (zeroChecksums s).hcrcBad = s.hcrcBad := rfl
@[simp] theorem zeroChecksums_fcrcBad : (zeroChecksums s).fcrcBad = s.fcrcBad := rfl
@[simp] theorem zeroChecksums_ovf : (zeroChecksums s).ovf = s.ovf := rfl
@[simp] theorem zeroChecksums_blkv : (zeroChecksums s).blkv = s.blkv := rfl
@[simp] theorem zeroChecksums_errCause : (zeroChecksums s).errCause = s.errCause := rfl
@[simp] theorem zeroChecksums_errPos : (zeroChecksums s).errPos = s.errPos := rfl
@[simp] theorem zeroChecksums_errFrame : (zeroChecksums s).errFrame = s.errFrame := rfl
@[simp] theorem zeroChecksums_frameIdx : (zeroChecksums s).frameIdx = s.frameIdx := rfl
@[simp] theorem zeroChecksums_siRate : (zeroChecksums s).siRate = s.siRate := rfl
@[simp] theorem zeroChecksums_siBps : (zeroChecksums s).siBps = s.siBps := rfl
@[simp] theorem zeroChecksums_fhStrategy : (zeroChecksums s).fhStrategy = s.fhStrategy := rfl
@[simp] theorem zeroChecksums_fhBlocksize : (zeroChecksums s).fhBlocksize = s.fhBlocksize := rfl
@[simp] theorem zeroChecksums_fhRate : (zeroChecksums s).fhRate = s.fhRate := rfl
@[simp] theorem zeroChecksums_fhChassign : (zeroChecksums s).fhChassign = s.fhChassign := rfl
@[simp] theorem zeroChecksums_fhNch : (zeroChecksums s).fhNch = s.fhNch := rfl
@[simp] theorem zeroChecksums_fhBps : (zeroChecksums s).fhBps = s.fhBps := rfl
@[simp] theorem zeroChecksums_fhNumber : (zeroChecksums s).fhNumber = s.fhNumber := rfl
@[simp] theorem zeroChecksums_fhCrc : (zeroChecksums s).fhCrc = s.fhCrc := rfl
@[simp] theorem zeroChecksums_sfType : (zeroChecksums s).sfType = s.sfType := rfl
@[simp] theorem zeroChecksums_sfOrder : (zeroChecksums s).sfOrder = s.sfOrder := rfl
@[simp] theorem zeroChecksums_sfWasted : (zeroChecksums s).sfWasted = s.sfWasted := rfl
@[simp] theorem zeroChecksums_sfWidth : (zeroChecksums s).sfWidth = s.sfWidth := rfl
@[simp] theorem zeroChecksums_lpcPrec : (zeroChecksums s).lpcPrec = s.lpcPrec := rfl
@[simp] theorem zeroChecksums_lpcShift : (zeroChecksums s).lpcShift = s.lpcShift := rfl
@[simp] theorem zeroChecksums_resMethod : (zeroChecksums s).resMethod = s.resMethod := rfl
@[simp] theorem zeroChecksums_resPorder : (zeroChecksums s).resPorder = s.resPorder := rfl
@[simp] theorem zeroChecksums_coef : (zeroChecksums s).coef = s.coef := rfl
@[simp] theorem zeroChecksums_smp : (zeroChecksums s).smp = s.smp := rfl
@[simp] theorem zeroChecksums_host : (zeroChecksums s).host = s.host := rfl
@[simp] theorem zeroChecksums_reads : (zeroChecksums s).reads = s.reads := rfl
@[simp] theorem zeroChecksums_freeIndex : (zeroChecksums s).freeIndex = s.freeIndex := rfl
@[simp] theorem zeroChecksums_sampleSeed : (zeroChecksums s).sampleSeed = s.sampleSeed := rfl

/-! ### CRCRST (rule R118) -/

@[simp] theorem resetChecksums_src (m : BitVec 2) : (resetChecksums m s).src = s.src := rfl
@[simp] theorem resetChecksums_srcLen (m : BitVec 2) : (resetChecksums m s).srcLen = s.srcLen := rfl
@[simp] theorem resetChecksums_pos (m : BitVec 2) : (resetChecksums m s).pos = s.pos := rfl
@[simp] theorem resetChecksums_crc8 (m : BitVec 2) : (resetChecksums m s).crc8 = if m.getLsbD 0 then 0 else s.crc8 := rfl
@[simp] theorem resetChecksums_crc16 (m : BitVec 2) : (resetChecksums m s).crc16 = if m.getLsbD 1 then 0 else s.crc16 := rfl
@[simp] theorem resetChecksums_rv (m : BitVec 2) : (resetChecksums m s).rv = s.rv := rfl
@[simp] theorem resetChecksums_raw (m : BitVec 2) : (resetChecksums m s).raw = s.raw := rfl
@[simp] theorem resetChecksums_rawLen (m : BitVec 2) : (resetChecksums m s).rawLen = s.rawLen := rfl
@[simp] theorem resetChecksums_strict (m : BitVec 2) : (resetChecksums m s).strict = s.strict := rfl
@[simp] theorem resetChecksums_siValid (m : BitVec 2) : (resetChecksums m s).siValid = s.siValid := rfl
@[simp] theorem resetChecksums_st (m : BitVec 2) : (resetChecksums m s).st = s.st := rfl
@[simp] theorem resetChecksums_hcrcBad (m : BitVec 2) : (resetChecksums m s).hcrcBad = s.hcrcBad := rfl
@[simp] theorem resetChecksums_fcrcBad (m : BitVec 2) : (resetChecksums m s).fcrcBad = s.fcrcBad := rfl
@[simp] theorem resetChecksums_ovf (m : BitVec 2) : (resetChecksums m s).ovf = s.ovf := rfl
@[simp] theorem resetChecksums_blkv (m : BitVec 2) : (resetChecksums m s).blkv = s.blkv := rfl
@[simp] theorem resetChecksums_errCause (m : BitVec 2) : (resetChecksums m s).errCause = s.errCause := rfl
@[simp] theorem resetChecksums_errPos (m : BitVec 2) : (resetChecksums m s).errPos = s.errPos := rfl
@[simp] theorem resetChecksums_errFrame (m : BitVec 2) : (resetChecksums m s).errFrame = s.errFrame := rfl
@[simp] theorem resetChecksums_frameIdx (m : BitVec 2) : (resetChecksums m s).frameIdx = s.frameIdx := rfl
@[simp] theorem resetChecksums_siRate (m : BitVec 2) : (resetChecksums m s).siRate = s.siRate := rfl
@[simp] theorem resetChecksums_siBps (m : BitVec 2) : (resetChecksums m s).siBps = s.siBps := rfl
@[simp] theorem resetChecksums_fhStrategy (m : BitVec 2) : (resetChecksums m s).fhStrategy = s.fhStrategy := rfl
@[simp] theorem resetChecksums_fhBlocksize (m : BitVec 2) : (resetChecksums m s).fhBlocksize = s.fhBlocksize := rfl
@[simp] theorem resetChecksums_fhRate (m : BitVec 2) : (resetChecksums m s).fhRate = s.fhRate := rfl
@[simp] theorem resetChecksums_fhChassign (m : BitVec 2) : (resetChecksums m s).fhChassign = s.fhChassign := rfl
@[simp] theorem resetChecksums_fhNch (m : BitVec 2) : (resetChecksums m s).fhNch = s.fhNch := rfl
@[simp] theorem resetChecksums_fhBps (m : BitVec 2) : (resetChecksums m s).fhBps = s.fhBps := rfl
@[simp] theorem resetChecksums_fhNumber (m : BitVec 2) : (resetChecksums m s).fhNumber = s.fhNumber := rfl
@[simp] theorem resetChecksums_fhCrc (m : BitVec 2) : (resetChecksums m s).fhCrc = s.fhCrc := rfl
@[simp] theorem resetChecksums_sfType (m : BitVec 2) : (resetChecksums m s).sfType = s.sfType := rfl
@[simp] theorem resetChecksums_sfOrder (m : BitVec 2) : (resetChecksums m s).sfOrder = s.sfOrder := rfl
@[simp] theorem resetChecksums_sfWasted (m : BitVec 2) : (resetChecksums m s).sfWasted = s.sfWasted := rfl
@[simp] theorem resetChecksums_sfWidth (m : BitVec 2) : (resetChecksums m s).sfWidth = s.sfWidth := rfl
@[simp] theorem resetChecksums_lpcPrec (m : BitVec 2) : (resetChecksums m s).lpcPrec = s.lpcPrec := rfl
@[simp] theorem resetChecksums_lpcShift (m : BitVec 2) : (resetChecksums m s).lpcShift = s.lpcShift := rfl
@[simp] theorem resetChecksums_resMethod (m : BitVec 2) : (resetChecksums m s).resMethod = s.resMethod := rfl
@[simp] theorem resetChecksums_resPorder (m : BitVec 2) : (resetChecksums m s).resPorder = s.resPorder := rfl
@[simp] theorem resetChecksums_coef (m : BitVec 2) : (resetChecksums m s).coef = s.coef := rfl
@[simp] theorem resetChecksums_smp (m : BitVec 2) : (resetChecksums m s).smp = s.smp := rfl
@[simp] theorem resetChecksums_host (m : BitVec 2) : (resetChecksums m s).host = s.host := rfl
@[simp] theorem resetChecksums_reads (m : BitVec 2) : (resetChecksums m s).reads = s.reads := rfl
@[simp] theorem resetChecksums_freeIndex (m : BitVec 2) : (resetChecksums m s).freeIndex = s.freeIndex := rfl
@[simp] theorem resetChecksums_sampleSeed (m : BitVec 2) : (resetChecksums m s).sampleSeed = s.sampleSeed := rfl

/-! ### RDBYTES's registers (rule R116) -/

@[simp] theorem deliverBytes_src (bytes : List Byte) : (deliverBytes bytes s).src = s.src := by simp only [deliverBytes]
@[simp] theorem deliverBytes_srcLen (bytes : List Byte) : (deliverBytes bytes s).srcLen = s.srcLen := by simp only [deliverBytes]
@[simp] theorem deliverBytes_pos (bytes : List Byte) : (deliverBytes bytes s).pos = s.pos := by simp only [deliverBytes]
@[simp] theorem deliverBytes_crc8 (bytes : List Byte) : (deliverBytes bytes s).crc8 = s.crc8 := by simp only [deliverBytes]
@[simp] theorem deliverBytes_crc16 (bytes : List Byte) : (deliverBytes bytes s).crc16 = s.crc16 := by simp only [deliverBytes]
@[simp] theorem deliverBytes_rv (bytes : List Byte) : (deliverBytes bytes s).rv = s.rv := by simp only [deliverBytes]
@[simp] theorem deliverBytes_raw (bytes : List Byte) : (deliverBytes bytes s).raw = Vector.ofFn fun j => bytes.getD j (Config.freeRaw s.freeIndex j) := by simp only [deliverBytes]
@[simp] theorem deliverBytes_rawLen (bytes : List Byte) : (deliverBytes bytes s).rawLen = BitVec.ofNat 5 bytes.length := by simp only [deliverBytes]
@[simp] theorem deliverBytes_strict (bytes : List Byte) : (deliverBytes bytes s).strict = s.strict := by simp only [deliverBytes]
@[simp] theorem deliverBytes_siValid (bytes : List Byte) : (deliverBytes bytes s).siValid = s.siValid := by simp only [deliverBytes]
@[simp] theorem deliverBytes_st (bytes : List Byte) : (deliverBytes bytes s).st = s.st := by simp only [deliverBytes]
@[simp] theorem deliverBytes_hcrcBad (bytes : List Byte) : (deliverBytes bytes s).hcrcBad = s.hcrcBad := by simp only [deliverBytes]
@[simp] theorem deliverBytes_fcrcBad (bytes : List Byte) : (deliverBytes bytes s).fcrcBad = s.fcrcBad := by simp only [deliverBytes]
@[simp] theorem deliverBytes_ovf (bytes : List Byte) : (deliverBytes bytes s).ovf = s.ovf := by simp only [deliverBytes]
@[simp] theorem deliverBytes_blkv (bytes : List Byte) : (deliverBytes bytes s).blkv = s.blkv := by simp only [deliverBytes]
@[simp] theorem deliverBytes_errCause (bytes : List Byte) : (deliverBytes bytes s).errCause = s.errCause := by simp only [deliverBytes]
@[simp] theorem deliverBytes_errPos (bytes : List Byte) : (deliverBytes bytes s).errPos = s.errPos := by simp only [deliverBytes]
@[simp] theorem deliverBytes_errFrame (bytes : List Byte) : (deliverBytes bytes s).errFrame = s.errFrame := by simp only [deliverBytes]
@[simp] theorem deliverBytes_frameIdx (bytes : List Byte) : (deliverBytes bytes s).frameIdx = s.frameIdx := by simp only [deliverBytes]
@[simp] theorem deliverBytes_siRate (bytes : List Byte) : (deliverBytes bytes s).siRate = s.siRate := by simp only [deliverBytes]
@[simp] theorem deliverBytes_siBps (bytes : List Byte) : (deliverBytes bytes s).siBps = s.siBps := by simp only [deliverBytes]
@[simp] theorem deliverBytes_fhStrategy (bytes : List Byte) : (deliverBytes bytes s).fhStrategy = s.fhStrategy := by simp only [deliverBytes]
@[simp] theorem deliverBytes_fhBlocksize (bytes : List Byte) : (deliverBytes bytes s).fhBlocksize = s.fhBlocksize := by simp only [deliverBytes]
@[simp] theorem deliverBytes_fhRate (bytes : List Byte) : (deliverBytes bytes s).fhRate = s.fhRate := by simp only [deliverBytes]
@[simp] theorem deliverBytes_fhChassign (bytes : List Byte) : (deliverBytes bytes s).fhChassign = s.fhChassign := by simp only [deliverBytes]
@[simp] theorem deliverBytes_fhNch (bytes : List Byte) : (deliverBytes bytes s).fhNch = s.fhNch := by simp only [deliverBytes]
@[simp] theorem deliverBytes_fhBps (bytes : List Byte) : (deliverBytes bytes s).fhBps = s.fhBps := by simp only [deliverBytes]
@[simp] theorem deliverBytes_fhNumber (bytes : List Byte) : (deliverBytes bytes s).fhNumber = s.fhNumber := by simp only [deliverBytes]
@[simp] theorem deliverBytes_fhCrc (bytes : List Byte) : (deliverBytes bytes s).fhCrc = s.fhCrc := by simp only [deliverBytes]
@[simp] theorem deliverBytes_sfType (bytes : List Byte) : (deliverBytes bytes s).sfType = s.sfType := by simp only [deliverBytes]
@[simp] theorem deliverBytes_sfOrder (bytes : List Byte) : (deliverBytes bytes s).sfOrder = s.sfOrder := by simp only [deliverBytes]
@[simp] theorem deliverBytes_sfWasted (bytes : List Byte) : (deliverBytes bytes s).sfWasted = s.sfWasted := by simp only [deliverBytes]
@[simp] theorem deliverBytes_sfWidth (bytes : List Byte) : (deliverBytes bytes s).sfWidth = s.sfWidth := by simp only [deliverBytes]
@[simp] theorem deliverBytes_lpcPrec (bytes : List Byte) : (deliverBytes bytes s).lpcPrec = s.lpcPrec := by simp only [deliverBytes]
@[simp] theorem deliverBytes_lpcShift (bytes : List Byte) : (deliverBytes bytes s).lpcShift = s.lpcShift := by simp only [deliverBytes]
@[simp] theorem deliverBytes_resMethod (bytes : List Byte) : (deliverBytes bytes s).resMethod = s.resMethod := by simp only [deliverBytes]
@[simp] theorem deliverBytes_resPorder (bytes : List Byte) : (deliverBytes bytes s).resPorder = s.resPorder := by simp only [deliverBytes]
@[simp] theorem deliverBytes_coef (bytes : List Byte) : (deliverBytes bytes s).coef = s.coef := by simp only [deliverBytes]
@[simp] theorem deliverBytes_smp (bytes : List Byte) : (deliverBytes bytes s).smp = s.smp := by simp only [deliverBytes]
@[simp] theorem deliverBytes_host (bytes : List Byte) : (deliverBytes bytes s).host = s.host := by simp only [deliverBytes]
@[simp] theorem deliverBytes_reads (bytes : List Byte) : (deliverBytes bytes s).reads = s.reads := by simp only [deliverBytes]
@[simp] theorem deliverBytes_freeIndex (bytes : List Byte) : (deliverBytes bytes s).freeIndex = s.freeIndex + 1 := by simp only [deliverBytes]
@[simp] theorem deliverBytes_sampleSeed (bytes : List Byte) : (deliverBytes bytes s).sampleSeed = s.sampleSeed := by simp only [deliverBytes]

/-! ### The frame header registers (rule R142) -/

@[simp] theorem writeHeader_src (w num bs rate crc : Nat) : (writeHeader w num bs rate crc s).src = s.src := rfl
@[simp] theorem writeHeader_srcLen (w num bs rate crc : Nat) : (writeHeader w num bs rate crc s).srcLen = s.srcLen := rfl
@[simp] theorem writeHeader_pos (w num bs rate crc : Nat) : (writeHeader w num bs rate crc s).pos = s.pos := rfl
@[simp] theorem writeHeader_crc8 (w num bs rate crc : Nat) : (writeHeader w num bs rate crc s).crc8 = s.crc8 := rfl
@[simp] theorem writeHeader_crc16 (w num bs rate crc : Nat) : (writeHeader w num bs rate crc s).crc16 = s.crc16 := rfl
@[simp] theorem writeHeader_rv (w num bs rate crc : Nat) : (writeHeader w num bs rate crc s).rv = s.rv := rfl
@[simp] theorem writeHeader_raw (w num bs rate crc : Nat) : (writeHeader w num bs rate crc s).raw = s.raw := rfl
@[simp] theorem writeHeader_rawLen (w num bs rate crc : Nat) : (writeHeader w num bs rate crc s).rawLen = s.rawLen := rfl
@[simp] theorem writeHeader_strict (w num bs rate crc : Nat) : (writeHeader w num bs rate crc s).strict = s.strict := rfl
@[simp] theorem writeHeader_siValid (w num bs rate crc : Nat) : (writeHeader w num bs rate crc s).siValid = s.siValid := rfl
@[simp] theorem writeHeader_st (w num bs rate crc : Nat) : (writeHeader w num bs rate crc s).st = s.st := rfl
@[simp] theorem writeHeader_hcrcBad (w num bs rate crc : Nat) : (writeHeader w num bs rate crc s).hcrcBad = s.hcrcBad := rfl
@[simp] theorem writeHeader_fcrcBad (w num bs rate crc : Nat) : (writeHeader w num bs rate crc s).fcrcBad = s.fcrcBad := rfl
@[simp] theorem writeHeader_ovf (w num bs rate crc : Nat) : (writeHeader w num bs rate crc s).ovf = s.ovf := rfl
@[simp] theorem writeHeader_blkv (w num bs rate crc : Nat) : (writeHeader w num bs rate crc s).blkv = s.blkv := rfl
@[simp] theorem writeHeader_errCause (w num bs rate crc : Nat) : (writeHeader w num bs rate crc s).errCause = s.errCause := rfl
@[simp] theorem writeHeader_errPos (w num bs rate crc : Nat) : (writeHeader w num bs rate crc s).errPos = s.errPos := rfl
@[simp] theorem writeHeader_errFrame (w num bs rate crc : Nat) : (writeHeader w num bs rate crc s).errFrame = s.errFrame := rfl
@[simp] theorem writeHeader_frameIdx (w num bs rate crc : Nat) : (writeHeader w num bs rate crc s).frameIdx = s.frameIdx := rfl
@[simp] theorem writeHeader_siRate (w num bs rate crc : Nat) : (writeHeader w num bs rate crc s).siRate = s.siRate := rfl
@[simp] theorem writeHeader_siBps (w num bs rate crc : Nat) : (writeHeader w num bs rate crc s).siBps = s.siBps := rfl
@[simp] theorem writeHeader_fhStrategy (w num bs rate crc : Nat) : (writeHeader w num bs rate crc s).fhStrategy = BitVec.ofNat 1 (bitField w 16 16) := rfl
@[simp] theorem writeHeader_fhBlocksize (w num bs rate crc : Nat) : (writeHeader w num bs rate crc s).fhBlocksize = BitVec.ofNat 17 bs := rfl
@[simp] theorem writeHeader_fhRate (w num bs rate crc : Nat) : (writeHeader w num bs rate crc s).fhRate = BitVec.ofNat 20 rate := rfl
@[simp] theorem writeHeader_fhChassign (w num bs rate crc : Nat) : (writeHeader w num bs rate crc s).fhChassign = BitVec.ofNat 4 (bitField w 7 4) := rfl
@[simp] theorem writeHeader_fhNch (w num bs rate crc : Nat) : (writeHeader w num bs rate crc s).fhNch = BitVec.ofNat 4 (channelCount (bitField w 7 4)) := rfl
@[simp] theorem writeHeader_fhBps (w num bs rate crc : Nat) : (writeHeader w num bs rate crc s).fhBps = sampleSize (bitField w 3 1) s := rfl
@[simp] theorem writeHeader_fhNumber (w num bs rate crc : Nat) : (writeHeader w num bs rate crc s).fhNumber = BitVec.ofNat 36 num := rfl
@[simp] theorem writeHeader_fhCrc (w num bs rate crc : Nat) : (writeHeader w num bs rate crc s).fhCrc = BitVec.ofNat 8 crc := rfl
@[simp] theorem writeHeader_sfType (w num bs rate crc : Nat) : (writeHeader w num bs rate crc s).sfType = s.sfType := rfl
@[simp] theorem writeHeader_sfOrder (w num bs rate crc : Nat) : (writeHeader w num bs rate crc s).sfOrder = s.sfOrder := rfl
@[simp] theorem writeHeader_sfWasted (w num bs rate crc : Nat) : (writeHeader w num bs rate crc s).sfWasted = s.sfWasted := rfl
@[simp] theorem writeHeader_sfWidth (w num bs rate crc : Nat) : (writeHeader w num bs rate crc s).sfWidth = s.sfWidth := rfl
@[simp] theorem writeHeader_lpcPrec (w num bs rate crc : Nat) : (writeHeader w num bs rate crc s).lpcPrec = s.lpcPrec := rfl
@[simp] theorem writeHeader_lpcShift (w num bs rate crc : Nat) : (writeHeader w num bs rate crc s).lpcShift = s.lpcShift := rfl
@[simp] theorem writeHeader_resMethod (w num bs rate crc : Nat) : (writeHeader w num bs rate crc s).resMethod = s.resMethod := rfl
@[simp] theorem writeHeader_resPorder (w num bs rate crc : Nat) : (writeHeader w num bs rate crc s).resPorder = s.resPorder := rfl
@[simp] theorem writeHeader_coef (w num bs rate crc : Nat) : (writeHeader w num bs rate crc s).coef = s.coef := rfl
@[simp] theorem writeHeader_smp (w num bs rate crc : Nat) : (writeHeader w num bs rate crc s).smp = s.smp := rfl
@[simp] theorem writeHeader_host (w num bs rate crc : Nat) : (writeHeader w num bs rate crc s).host = s.host := rfl
@[simp] theorem writeHeader_reads (w num bs rate crc : Nat) : (writeHeader w num bs rate crc s).reads = s.reads := rfl
@[simp] theorem writeHeader_freeIndex (w num bs rate crc : Nat) : (writeHeader w num bs rate crc s).freeIndex = s.freeIndex := rfl
@[simp] theorem writeHeader_sampleSeed (w num bs rate crc : Nat) : (writeHeader w num bs rate crc s).sampleSeed = s.sampleSeed := rfl

/-! ### The subframe registers (rule R152) -/

@[simp] theorem writeSubframe_src (k : SubKind) (wasted width : Nat) : (writeSubframe k wasted width s).src = s.src := rfl
@[simp] theorem writeSubframe_srcLen (k : SubKind) (wasted width : Nat) : (writeSubframe k wasted width s).srcLen = s.srcLen := rfl
@[simp] theorem writeSubframe_pos (k : SubKind) (wasted width : Nat) : (writeSubframe k wasted width s).pos = s.pos := rfl
@[simp] theorem writeSubframe_crc8 (k : SubKind) (wasted width : Nat) : (writeSubframe k wasted width s).crc8 = s.crc8 := rfl
@[simp] theorem writeSubframe_crc16 (k : SubKind) (wasted width : Nat) : (writeSubframe k wasted width s).crc16 = s.crc16 := rfl
@[simp] theorem writeSubframe_rv (k : SubKind) (wasted width : Nat) : (writeSubframe k wasted width s).rv = s.rv := rfl
@[simp] theorem writeSubframe_raw (k : SubKind) (wasted width : Nat) : (writeSubframe k wasted width s).raw = s.raw := rfl
@[simp] theorem writeSubframe_rawLen (k : SubKind) (wasted width : Nat) : (writeSubframe k wasted width s).rawLen = s.rawLen := rfl
@[simp] theorem writeSubframe_strict (k : SubKind) (wasted width : Nat) : (writeSubframe k wasted width s).strict = s.strict := rfl
@[simp] theorem writeSubframe_siValid (k : SubKind) (wasted width : Nat) : (writeSubframe k wasted width s).siValid = s.siValid := rfl
@[simp] theorem writeSubframe_st (k : SubKind) (wasted width : Nat) : (writeSubframe k wasted width s).st = s.st := rfl
@[simp] theorem writeSubframe_hcrcBad (k : SubKind) (wasted width : Nat) : (writeSubframe k wasted width s).hcrcBad = s.hcrcBad := rfl
@[simp] theorem writeSubframe_fcrcBad (k : SubKind) (wasted width : Nat) : (writeSubframe k wasted width s).fcrcBad = s.fcrcBad := rfl
@[simp] theorem writeSubframe_ovf (k : SubKind) (wasted width : Nat) : (writeSubframe k wasted width s).ovf = s.ovf := rfl
@[simp] theorem writeSubframe_blkv (k : SubKind) (wasted width : Nat) : (writeSubframe k wasted width s).blkv = s.blkv := rfl
@[simp] theorem writeSubframe_errCause (k : SubKind) (wasted width : Nat) : (writeSubframe k wasted width s).errCause = s.errCause := rfl
@[simp] theorem writeSubframe_errPos (k : SubKind) (wasted width : Nat) : (writeSubframe k wasted width s).errPos = s.errPos := rfl
@[simp] theorem writeSubframe_errFrame (k : SubKind) (wasted width : Nat) : (writeSubframe k wasted width s).errFrame = s.errFrame := rfl
@[simp] theorem writeSubframe_frameIdx (k : SubKind) (wasted width : Nat) : (writeSubframe k wasted width s).frameIdx = s.frameIdx := rfl
@[simp] theorem writeSubframe_siRate (k : SubKind) (wasted width : Nat) : (writeSubframe k wasted width s).siRate = s.siRate := rfl
@[simp] theorem writeSubframe_siBps (k : SubKind) (wasted width : Nat) : (writeSubframe k wasted width s).siBps = s.siBps := rfl
@[simp] theorem writeSubframe_fhStrategy (k : SubKind) (wasted width : Nat) : (writeSubframe k wasted width s).fhStrategy = s.fhStrategy := rfl
@[simp] theorem writeSubframe_fhBlocksize (k : SubKind) (wasted width : Nat) : (writeSubframe k wasted width s).fhBlocksize = s.fhBlocksize := rfl
@[simp] theorem writeSubframe_fhRate (k : SubKind) (wasted width : Nat) : (writeSubframe k wasted width s).fhRate = s.fhRate := rfl
@[simp] theorem writeSubframe_fhChassign (k : SubKind) (wasted width : Nat) : (writeSubframe k wasted width s).fhChassign = s.fhChassign := rfl
@[simp] theorem writeSubframe_fhNch (k : SubKind) (wasted width : Nat) : (writeSubframe k wasted width s).fhNch = s.fhNch := rfl
@[simp] theorem writeSubframe_fhBps (k : SubKind) (wasted width : Nat) : (writeSubframe k wasted width s).fhBps = s.fhBps := rfl
@[simp] theorem writeSubframe_fhNumber (k : SubKind) (wasted width : Nat) : (writeSubframe k wasted width s).fhNumber = s.fhNumber := rfl
@[simp] theorem writeSubframe_fhCrc (k : SubKind) (wasted width : Nat) : (writeSubframe k wasted width s).fhCrc = s.fhCrc := rfl
@[simp] theorem writeSubframe_sfType (k : SubKind) (wasted width : Nat) : (writeSubframe k wasted width s).sfType = typeCode k := rfl
@[simp] theorem writeSubframe_sfOrder (k : SubKind) (wasted width : Nat) : (writeSubframe k wasted width s).sfOrder = BitVec.ofNat 6 (predictorOrder k) := rfl
@[simp] theorem writeSubframe_sfWasted (k : SubKind) (wasted width : Nat) : (writeSubframe k wasted width s).sfWasted = BitVec.ofNat 6 wasted := rfl
@[simp] theorem writeSubframe_sfWidth (k : SubKind) (wasted width : Nat) : (writeSubframe k wasted width s).sfWidth = BitVec.ofNat 6 width := rfl
@[simp] theorem writeSubframe_lpcPrec (k : SubKind) (wasted width : Nat) : (writeSubframe k wasted width s).lpcPrec = s.lpcPrec := rfl
@[simp] theorem writeSubframe_lpcShift (k : SubKind) (wasted width : Nat) : (writeSubframe k wasted width s).lpcShift = s.lpcShift := rfl
@[simp] theorem writeSubframe_resMethod (k : SubKind) (wasted width : Nat) : (writeSubframe k wasted width s).resMethod = s.resMethod := rfl
@[simp] theorem writeSubframe_resPorder (k : SubKind) (wasted width : Nat) : (writeSubframe k wasted width s).resPorder = s.resPorder := rfl
@[simp] theorem writeSubframe_coef (k : SubKind) (wasted width : Nat) : (writeSubframe k wasted width s).coef = s.coef := rfl
@[simp] theorem writeSubframe_smp (k : SubKind) (wasted width : Nat) : (writeSubframe k wasted width s).smp = s.smp := rfl
@[simp] theorem writeSubframe_host (k : SubKind) (wasted width : Nat) : (writeSubframe k wasted width s).host = s.host := rfl
@[simp] theorem writeSubframe_reads (k : SubKind) (wasted width : Nat) : (writeSubframe k wasted width s).reads = s.reads := rfl
@[simp] theorem writeSubframe_freeIndex (k : SubKind) (wasted width : Nat) : (writeSubframe k wasted width s).freeIndex = s.freeIndex := rfl
@[simp] theorem writeSubframe_sampleSeed (k : SubKind) (wasted width : Nat) : (writeSubframe k wasted width s).sampleSeed = s.sampleSeed := rfl

/-! ### One coefficient (rule R158) -/

@[simp] theorem writeCoefficient_src (j : Nat) (v : Int) : (writeCoefficient j v s).src = s.src := rfl
@[simp] theorem writeCoefficient_srcLen (j : Nat) (v : Int) : (writeCoefficient j v s).srcLen = s.srcLen := rfl
@[simp] theorem writeCoefficient_pos (j : Nat) (v : Int) : (writeCoefficient j v s).pos = s.pos := rfl
@[simp] theorem writeCoefficient_crc8 (j : Nat) (v : Int) : (writeCoefficient j v s).crc8 = s.crc8 := rfl
@[simp] theorem writeCoefficient_crc16 (j : Nat) (v : Int) : (writeCoefficient j v s).crc16 = s.crc16 := rfl
@[simp] theorem writeCoefficient_rv (j : Nat) (v : Int) : (writeCoefficient j v s).rv = s.rv := rfl
@[simp] theorem writeCoefficient_raw (j : Nat) (v : Int) : (writeCoefficient j v s).raw = s.raw := rfl
@[simp] theorem writeCoefficient_rawLen (j : Nat) (v : Int) : (writeCoefficient j v s).rawLen = s.rawLen := rfl
@[simp] theorem writeCoefficient_strict (j : Nat) (v : Int) : (writeCoefficient j v s).strict = s.strict := rfl
@[simp] theorem writeCoefficient_siValid (j : Nat) (v : Int) : (writeCoefficient j v s).siValid = s.siValid := rfl
@[simp] theorem writeCoefficient_st (j : Nat) (v : Int) : (writeCoefficient j v s).st = s.st := rfl
@[simp] theorem writeCoefficient_hcrcBad (j : Nat) (v : Int) : (writeCoefficient j v s).hcrcBad = s.hcrcBad := rfl
@[simp] theorem writeCoefficient_fcrcBad (j : Nat) (v : Int) : (writeCoefficient j v s).fcrcBad = s.fcrcBad := rfl
@[simp] theorem writeCoefficient_ovf (j : Nat) (v : Int) : (writeCoefficient j v s).ovf = s.ovf := rfl
@[simp] theorem writeCoefficient_blkv (j : Nat) (v : Int) : (writeCoefficient j v s).blkv = s.blkv := rfl
@[simp] theorem writeCoefficient_errCause (j : Nat) (v : Int) : (writeCoefficient j v s).errCause = s.errCause := rfl
@[simp] theorem writeCoefficient_errPos (j : Nat) (v : Int) : (writeCoefficient j v s).errPos = s.errPos := rfl
@[simp] theorem writeCoefficient_errFrame (j : Nat) (v : Int) : (writeCoefficient j v s).errFrame = s.errFrame := rfl
@[simp] theorem writeCoefficient_frameIdx (j : Nat) (v : Int) : (writeCoefficient j v s).frameIdx = s.frameIdx := rfl
@[simp] theorem writeCoefficient_siRate (j : Nat) (v : Int) : (writeCoefficient j v s).siRate = s.siRate := rfl
@[simp] theorem writeCoefficient_siBps (j : Nat) (v : Int) : (writeCoefficient j v s).siBps = s.siBps := rfl
@[simp] theorem writeCoefficient_fhStrategy (j : Nat) (v : Int) : (writeCoefficient j v s).fhStrategy = s.fhStrategy := rfl
@[simp] theorem writeCoefficient_fhBlocksize (j : Nat) (v : Int) : (writeCoefficient j v s).fhBlocksize = s.fhBlocksize := rfl
@[simp] theorem writeCoefficient_fhRate (j : Nat) (v : Int) : (writeCoefficient j v s).fhRate = s.fhRate := rfl
@[simp] theorem writeCoefficient_fhChassign (j : Nat) (v : Int) : (writeCoefficient j v s).fhChassign = s.fhChassign := rfl
@[simp] theorem writeCoefficient_fhNch (j : Nat) (v : Int) : (writeCoefficient j v s).fhNch = s.fhNch := rfl
@[simp] theorem writeCoefficient_fhBps (j : Nat) (v : Int) : (writeCoefficient j v s).fhBps = s.fhBps := rfl
@[simp] theorem writeCoefficient_fhNumber (j : Nat) (v : Int) : (writeCoefficient j v s).fhNumber = s.fhNumber := rfl
@[simp] theorem writeCoefficient_fhCrc (j : Nat) (v : Int) : (writeCoefficient j v s).fhCrc = s.fhCrc := rfl
@[simp] theorem writeCoefficient_sfType (j : Nat) (v : Int) : (writeCoefficient j v s).sfType = s.sfType := rfl
@[simp] theorem writeCoefficient_sfOrder (j : Nat) (v : Int) : (writeCoefficient j v s).sfOrder = s.sfOrder := rfl
@[simp] theorem writeCoefficient_sfWasted (j : Nat) (v : Int) : (writeCoefficient j v s).sfWasted = s.sfWasted := rfl
@[simp] theorem writeCoefficient_sfWidth (j : Nat) (v : Int) : (writeCoefficient j v s).sfWidth = s.sfWidth := rfl
@[simp] theorem writeCoefficient_lpcPrec (j : Nat) (v : Int) : (writeCoefficient j v s).lpcPrec = s.lpcPrec := rfl
@[simp] theorem writeCoefficient_lpcShift (j : Nat) (v : Int) : (writeCoefficient j v s).lpcShift = s.lpcShift := rfl
@[simp] theorem writeCoefficient_resMethod (j : Nat) (v : Int) : (writeCoefficient j v s).resMethod = s.resMethod := rfl
@[simp] theorem writeCoefficient_resPorder (j : Nat) (v : Int) : (writeCoefficient j v s).resPorder = s.resPorder := rfl
@[simp] theorem writeCoefficient_coef (j : Nat) (v : Int) : (writeCoefficient j v s).coef = s.coef.setIfInBounds j (BitVec.ofInt 16 v) := rfl
@[simp] theorem writeCoefficient_smp (j : Nat) (v : Int) : (writeCoefficient j v s).smp = s.smp := rfl
@[simp] theorem writeCoefficient_host (j : Nat) (v : Int) : (writeCoefficient j v s).host = s.host := rfl
@[simp] theorem writeCoefficient_reads (j : Nat) (v : Int) : (writeCoefficient j v s).reads = s.reads := rfl
@[simp] theorem writeCoefficient_freeIndex (j : Nat) (v : Int) : (writeCoefficient j v s).freeIndex = s.freeIndex := rfl
@[simp] theorem writeCoefficient_sampleSeed (j : Nat) (v : Int) : (writeCoefficient j v s).sampleSeed = s.sampleSeed := rfl

/-! ### The yield of a block (rule R200) -/

@[simp] theorem yieldBlock_src : (yieldBlock s).src = s.src := rfl
@[simp] theorem yieldBlock_srcLen : (yieldBlock s).srcLen = s.srcLen := rfl
@[simp] theorem yieldBlock_pos : (yieldBlock s).pos = s.pos := rfl
@[simp] theorem yieldBlock_crc8 : (yieldBlock s).crc8 = s.crc8 := rfl
@[simp] theorem yieldBlock_crc16 : (yieldBlock s).crc16 = s.crc16 := rfl
@[simp] theorem yieldBlock_rv : (yieldBlock s).rv = s.rv := rfl
@[simp] theorem yieldBlock_raw : (yieldBlock s).raw = s.raw := rfl
@[simp] theorem yieldBlock_rawLen : (yieldBlock s).rawLen = s.rawLen := rfl
@[simp] theorem yieldBlock_strict : (yieldBlock s).strict = s.strict := rfl
@[simp] theorem yieldBlock_siValid : (yieldBlock s).siValid = s.siValid := rfl
@[simp] theorem yieldBlock_st : (yieldBlock s).st = s.st := rfl
@[simp] theorem yieldBlock_hcrcBad : (yieldBlock s).hcrcBad = s.hcrcBad := rfl
@[simp] theorem yieldBlock_fcrcBad : (yieldBlock s).fcrcBad = s.fcrcBad := rfl
@[simp] theorem yieldBlock_ovf : (yieldBlock s).ovf = s.ovf := rfl
@[simp] theorem yieldBlock_blkv : (yieldBlock s).blkv = true := rfl
@[simp] theorem yieldBlock_errCause : (yieldBlock s).errCause = s.errCause := rfl
@[simp] theorem yieldBlock_errPos : (yieldBlock s).errPos = s.errPos := rfl
@[simp] theorem yieldBlock_errFrame : (yieldBlock s).errFrame = s.errFrame := rfl
@[simp] theorem yieldBlock_frameIdx : (yieldBlock s).frameIdx = s.frameIdx + 1#32 := rfl
@[simp] theorem yieldBlock_siRate : (yieldBlock s).siRate = s.siRate := rfl
@[simp] theorem yieldBlock_siBps : (yieldBlock s).siBps = s.siBps := rfl
@[simp] theorem yieldBlock_fhStrategy : (yieldBlock s).fhStrategy = s.fhStrategy := rfl
@[simp] theorem yieldBlock_fhBlocksize : (yieldBlock s).fhBlocksize = s.fhBlocksize := rfl
@[simp] theorem yieldBlock_fhRate : (yieldBlock s).fhRate = s.fhRate := rfl
@[simp] theorem yieldBlock_fhChassign : (yieldBlock s).fhChassign = s.fhChassign := rfl
@[simp] theorem yieldBlock_fhNch : (yieldBlock s).fhNch = s.fhNch := rfl
@[simp] theorem yieldBlock_fhBps : (yieldBlock s).fhBps = s.fhBps := rfl
@[simp] theorem yieldBlock_fhNumber : (yieldBlock s).fhNumber = s.fhNumber := rfl
@[simp] theorem yieldBlock_fhCrc : (yieldBlock s).fhCrc = s.fhCrc := rfl
@[simp] theorem yieldBlock_sfType : (yieldBlock s).sfType = s.sfType := rfl
@[simp] theorem yieldBlock_sfOrder : (yieldBlock s).sfOrder = s.sfOrder := rfl
@[simp] theorem yieldBlock_sfWasted : (yieldBlock s).sfWasted = s.sfWasted := rfl
@[simp] theorem yieldBlock_sfWidth : (yieldBlock s).sfWidth = s.sfWidth := rfl
@[simp] theorem yieldBlock_lpcPrec : (yieldBlock s).lpcPrec = s.lpcPrec := rfl
@[simp] theorem yieldBlock_lpcShift : (yieldBlock s).lpcShift = s.lpcShift := rfl
@[simp] theorem yieldBlock_resMethod : (yieldBlock s).resMethod = s.resMethod := rfl
@[simp] theorem yieldBlock_resPorder : (yieldBlock s).resPorder = s.resPorder := rfl
@[simp] theorem yieldBlock_coef : (yieldBlock s).coef = s.coef := rfl
@[simp] theorem yieldBlock_smp : (yieldBlock s).smp = s.smp := rfl
@[simp] theorem yieldBlock_host : (yieldBlock s).host = s.host := rfl
@[simp] theorem yieldBlock_reads : (yieldBlock s).reads = s.reads := rfl
@[simp] theorem yieldBlock_freeIndex : (yieldBlock s).freeIndex = s.freeIndex := rfl
@[simp] theorem yieldBlock_sampleSeed : (yieldBlock s).sampleSeed = s.sampleSeed := rfl

end Fields

end Sys2Proof.Machine
end

