-- ==== Sys2Proof/Laws/Memory.lean ====
section
/-! SUPPORT. Laws/Memory.lean: reads after writes, and that every memory operation keeps the canonical form. -/

namespace Sys2Proof.Machine

/-! ## Lists at rising addresses -/

section Lists

variable {w : Nat}

theorem lookup_insert (m : Memory w) (a b : Nat) (v : BitVec w) :
    Memory.lookup (Memory.insert m a v) b = if a = b then some v else Memory.lookup m b := by
  induction m with
  | nil => simp [Memory.insert, Memory.lookup]
  | cons c m ih =>
    simp only [Memory.insert]
    split
    · simp [Memory.lookup]
    · split
      · subst_vars
        by_cases h : c.1 = b <;> simp [Memory.lookup, h]
      · simp only [Memory.lookup, ih]
        by_cases h : c.1 = b
        · subst h; simp_all
        · simp [h]

theorem risingFrom_mono {lo lo' : Nat} (h : lo' ≤ lo) {m : Memory w} (hm : Memory.risingFrom lo m = true) :
    Memory.risingFrom lo' m = true := by
  cases m with
  | nil => rfl
  | cons c m => simp_all [Memory.risingFrom]; omega

theorem risingFrom_insert {m : Memory w} {lo a : Nat} (v : BitVec w) (hlo : lo ≤ a)
    (hm : Memory.risingFrom lo m = true) : Memory.risingFrom lo (Memory.insert m a v) = true := by
  induction m generalizing lo with
  | nil => simpa [Memory.insert, Memory.risingFrom] using hlo
  | cons c m ih =>
    simp only [Memory.risingFrom, Bool.and_eq_true, decide_eq_true_eq] at hm
    simp only [Memory.insert]
    split
    · simp only [Memory.risingFrom, Bool.and_eq_true, decide_eq_true_eq]
      exact ⟨hlo, by omega, hm.2⟩
    · split
      · subst_vars; simpa [Memory.risingFrom] using hm
      · simp only [Memory.risingFrom, Bool.and_eq_true, decide_eq_true_eq]
        exact ⟨hm.1, ih (by omega) hm.2⟩

theorem risingFrom_erase {m : Memory w} {lo : Nat} (a : Nat) (hm : Memory.risingFrom lo m = true) :
    Memory.risingFrom lo (Memory.erase m a) = true := by
  induction m generalizing lo with
  | nil => rfl
  | cons c m ih =>
    simp only [Memory.risingFrom, Bool.and_eq_true, decide_eq_true_eq] at hm
    simp only [Memory.erase]
    split
    · exact risingFrom_mono (by omega) hm.2
    · simp only [Memory.risingFrom, Bool.and_eq_true, decide_eq_true_eq]
      exact ⟨hm.1, ih hm.2⟩

theorem lookup_below {m : Memory w} {lo a : Nat} (hm : Memory.risingFrom lo m = true) (ha : a < lo) :
    Memory.lookup m a = none := by
  induction m generalizing lo with
  | nil => rfl
  | cons c m ih =>
    simp only [Memory.risingFrom, Bool.and_eq_true, decide_eq_true_eq] at hm
    have : c.1 ≠ a := by omega
    simp [Memory.lookup, this, ih hm.2 (by omega)]

theorem lookup_erase {m : Memory w} {lo : Nat} (hm : Memory.risingFrom lo m = true) (a b : Nat) :
    Memory.lookup (Memory.erase m a) b = if a = b then none else Memory.lookup m b := by
  induction m generalizing lo with
  | nil => simp [Memory.erase, Memory.lookup]
  | cons c m ih =>
    simp only [Memory.risingFrom, Bool.and_eq_true, decide_eq_true_eq] at hm
    simp only [Memory.erase]
    split
    · rename_i hc
      by_cases hb : a = b
      · subst hb; subst hc
        simp [lookup_below hm.2 (Nat.lt_succ_self c.1)]
      · simp [Memory.lookup, hb, hc]
    · rename_i hc
      simp only [Memory.lookup, ih hm.2]
      by_cases hb : a = b
      · subst hb; simp [hc]
      · simp [hb]

theorem all_insert {m : Memory w} {a : Nat} {v : BitVec w} {p : Nat × BitVec w → Bool} (hv : p (a, v) = true)
    (hm : m.all p = true) : (Memory.insert m a v).all p = true := by
  induction m with
  | nil => simpa [Memory.insert] using hv
  | cons c m ih =>
    simp only [List.all_cons, Bool.and_eq_true] at hm
    simp only [Memory.insert]
    split
    · simp [hv, hm.1, hm.2]
    · split <;> simp [hv, hm.1, hm.2, ih hm.2]

theorem all_erase {m : Memory w} {a : Nat} {p : Nat × BitVec w → Bool} (hm : m.all p = true) :
    (Memory.erase m a).all p = true := by
  induction m with
  | nil => rfl
  | cons c m ih =>
    simp only [List.all_cons, Bool.and_eq_true] at hm
    simp only [Memory.erase]
    split <;> simp [hm.1, hm.2, ih hm.2]

end Lists

/-! ## Source memory -/

/-- The host's write keeps the canonical form. -/
theorem sourceWf_writeSource {s : State} {a : Nat} {b : Byte} (ha : a < 2 ^ 61) (h : sourceWf s.src = true) :
    sourceWf (writeSource a b s).src = true := by
  simp only [sourceWf, Bool.and_eq_true] at h ⊢
  rw [writeSource_src]
  split
  · exact ⟨risingFrom_erase a h.1, all_erase h.2⟩
  · exact ⟨risingFrom_insert b (Nat.zero_le a) h.1, all_insert (by simp_all) h.2⟩

/-- A byte the host has written reads as written, and every other byte as before. -/
theorem sourceByte_writeSource {s : State} (h : sourceWf s.src = true) (a b : Nat) (v : Byte) :
    sourceByte b (writeSource a v s) = if a = b then v else sourceByte b s := by
  simp only [sourceWf, Bool.and_eq_true] at h
  simp only [sourceByte, writeSource_src]
  split
  · rename_i hv
    rw [lookup_erase h.1]
    split <;> simp [hv]
  · rw [lookup_insert]
    split <;> simp

/-! ## Sample memory -/

/-- A store keeps the canonical form. -/
theorem samplesWf_storeSample {s : State} {a : Nat} {v : Sample} (ha : a < Config.maxCh * Config.maxBlock)
    (h : samplesWf s.smp = true) : samplesWf (storeSample a v s).smp = true := by
  simp only [samplesWf, Bool.and_eq_true] at h ⊢
  exact ⟨risingFrom_insert v (Nat.zero_le a) h.1, all_insert (by simpa using ha) h.2⟩

/-- A store keeps the canonical form (the block's own store). -/
theorem samplesWf_writeSample {s : State} {c i : Nat} {v : Int} (hc : c < Config.maxCh) (hi : i < Config.maxBlock)
    (h : samplesWf s.smp = true) : samplesWf (writeSample c i v s).smp = true :=
  samplesWf_storeSample (a := sampleAddress c i) (v := narrow v) (by
    simp only [sampleAddress, Config.maxCh, Config.maxBlock] at *; omega) h

/-- The word stored reads as stored, and every other word as before. -/
theorem sampleWord_storeSample (s : State) (a b : Nat) (v : Sample) :
    sampleWord b (storeSample a v s) = if a = b then v else sampleWord b s := by
  simp only [sampleWord, storeSample_smp, storeSample_sampleSeed, lookup_insert]
  split <;> simp

/-- The same of the block's own store. -/
theorem sampleWord_writeSample (s : State) (c i b : Nat) (v : Int) :
    sampleWord b (writeSample c i v s) = if sampleAddress c i = b then narrow v else sampleWord b s := by
  have : sampleWord b (writeSample c i v s) = sampleWord b (storeSample (sampleAddress c i) (narrow v) s) := rfl
  rw [this, sampleWord_storeSample]

/-- Everything a host write of a word of `SMP` can do: outside FAULT one word reads as written and every other as before,
in FAULT nothing changes, and no other field ever does. -/
theorem hostWriteSample_spec (s : State) (a : Nat) (v : Sample) :
    (∀ b, sampleWord b (hostWriteSample a v s) = if s.st ≠ .fault ∧ b = a then v else sampleWord b s)
      ∧ hostWriteSample a v s = { s with smp := (hostWriteSample a v s).smp }
      ∧ (s.st = .fault → hostWriteSample a v s = s) := by
  unfold hostWriteSample
  by_cases h : s.st = .fault
  · rw [if_pos h]
    exact ⟨fun b => (if_neg fun hb => hb.1 h).symm, rfl, fun _ => rfl⟩
  · rw [if_neg h]
    refine ⟨fun b => ?_, rfl, fun hf => absurd hf h⟩
    rw [sampleWord_storeSample]
    simp only [h, ne_eq, not_false_eq_true, true_and, eq_comm]

theorem samplesWf_hostWriteSample {s : State} {a : Nat} {v : Sample} (ha : a < Config.maxCh * Config.maxBlock)
    (h : samplesWf s.smp = true) : samplesWf (hostWriteSample a v s).smp = true := by
  unfold hostWriteSample
  split
  · exact h
  · exact samplesWf_storeSample ha h

/-- Addresses name planes and indexes uniquely (rule R66). -/
theorem sampleAddress_inj {c d i j : Nat} (hi : i < Config.maxBlock) (hj : j < Config.maxBlock) :
    sampleAddress c i = sampleAddress d j ↔ c = d ∧ i = j := by
  simp only [sampleAddress, Config.maxBlock] at *
  constructor
  · intro h; constructor <;> omega
  · rintro ⟨rfl, rfl⟩; rfl

end Sys2Proof.Machine
end

