-- ==== Sys2Proof/Laws/Result.lean ====
section
/-! SUPPORT. Laws/Result.lean: how the parts of a command compose, what holds of every state a part ends in, and what
the outcome of a command can be. -/

namespace Sys2Proof.Machine

/-! ## Composition -/

section Bind

variable {α β γ : Type}

@[simp] theorem Res.bind_ok (a : α) (s : State) (f : α → State → Res β) : (Res.ok a s).bind f = f a s := rfl
@[simp] theorem Res.bind_raised (c : Cause) (s : State) (f : α → State → Res β) :
    (Res.raised c s : Res α).bind f = .raised c s := rfl
@[simp] theorem Res.bind_stopped (e : Fault) (f : α → State → Res β) : (Res.stopped e : Res α).bind f = .stopped e := rfl

theorem Res.bind_assoc (r : Res α) (f : α → State → Res β) (g : β → State → Res γ) :
    (r.bind f).bind g = r.bind fun a s => (f a s).bind g := by cases r <;> rfl

@[simp] theorem atFrameLevel_ok (a : α) (s : State) : atFrameLevel (.ok a s) = .ok a s := rfl
@[simp] theorem atFrameLevel_raised (c : Cause) (s : State) :
    atFrameLevel (.raised c s : Res α) = .raised c.atFrameLevel s := rfl
@[simp] theorem atFrameLevel_stopped (e : Fault) : atFrameLevel (.stopped e : Res α) = .stopped e := rfl

theorem atFrameLevel_bind (r : Res α) (f : α → State → Res β) :
    atFrameLevel (r.bind f) = (atFrameLevel r).bind fun a s => atFrameLevel (f a s) := by cases r <;> rfl

/-- A part that ended well after another had both end well. -/
theorem Res.bind_eq_ok {r : Res α} {f : α → State → Res β} {b : β} {t : State} :
    r.bind f = .ok b t ↔ ∃ a s, r = .ok a s ∧ f a s = .ok b t := by
  cases r <;> simp [Res.bind]

/-- A composite raises where its first part raises or its second does. -/
theorem Res.bind_eq_raised {r : Res α} {f : α → State → Res β} {c : Cause} {t : State} :
    r.bind f = .raised c t ↔ r = .raised c t ∨ ∃ a s, r = .ok a s ∧ f a s = .raised c t := by
  cases r <;> simp [Res.bind]

theorem Res.bind_eq_stopped {r : Res α} {f : α → State → Res β} {e : Fault} :
    r.bind f = .stopped e ↔ r = .stopped e ∨ ∃ a s, r = .ok a s ∧ f a s = .stopped e := by
  cases r <;> simp [Res.bind]

end Bind

/-! ## What holds of every state a part ends in -/

/-- `Q` holds of the value and state of a good end, `R` of the cause and state of a raise, `S` of a stop. -/
def Res.All {α : Type} (Q : α → State → Prop) (R : Cause → State → Prop) (S : Fault → Prop) : Res α → Prop
  | .ok a s => Q a s
  | .raised c s => R c s
  | .stopped e => S e

section All

variable {α β : Type} {Q Q' : α → State → Prop} {P : β → State → Prop} {R R' : Cause → State → Prop} {S S' : Fault → Prop}

@[simp] theorem Res.all_ok (a : α) (s : State) : (Res.ok a s).All Q R S ↔ Q a s := Iff.rfl
@[simp] theorem Res.all_raised (c : Cause) (s : State) : (Res.raised c s : Res α).All Q R S ↔ R c s := Iff.rfl
@[simp] theorem Res.all_stopped (e : Fault) : (Res.stopped e : Res α).All Q R S ↔ S e := Iff.rfl

/-- The rule of composition. -/
theorem Res.All.bind {r : Res α} {f : α → State → Res β} (hr : r.All Q R S)
    (hf : ∀ a s, Q a s → (f a s).All P R S) : (r.bind f).All P R S := by
  cases r with
  | ok a s => exact hf a s hr
  | raised c s => exact hr
  | stopped e => exact hr

theorem Res.All.mono {r : Res α} (hr : r.All Q R S) (hQ : ∀ a s, Q a s → Q' a s) (hR : ∀ c s, R c s → R' c s)
    (hS : ∀ e, S e → S' e) : r.All Q' R' S' := by
  cases r with
  | ok a s => exact hQ a s hr
  | raised c s => exact hR c s hr
  | stopped e => exact hS e hr

theorem Res.All.and {r : Res α} (h : r.All Q R S) (h' : r.All Q' R' S') :
    r.All (fun a s => Q a s ∧ Q' a s) (fun c s => R c s ∧ R' c s) (fun e => S e ∧ S' e) := by
  cases r <;> exact ⟨h, h'⟩

theorem Res.All.atFrameLevel {r : Res α} (h : r.All Q R S) (hR : ∀ c s, R c s → R' c.atFrameLevel s) :
    (atFrameLevel r).All Q R' S := by
  cases r with
  | ok a s => exact h
  | raised c s => exact hR c s h
  | stopped e => exact h

end All

/-! ## Outcomes -/

/-- `Q` holds of a next state, `S` of a fault of the model; no command is refused. -/
def OutcomeAll (Q : State → Prop) (S : Fault → Prop) : Host.Outcome State Fault Refusal → Prop
  | .next t => Q t
  | .fault e => S e
  | .refused _ => False

section Outcomes

variable {Q : State → Prop} {S : Fault → Prop}

@[simp] theorem outcomeAll_next (t : State) : OutcomeAll Q S (.next t) ↔ Q t := Iff.rfl
@[simp] theorem outcomeAll_fault (e : Fault) : OutcomeAll Q S (.fault e) ↔ S e := Iff.rfl
@[simp] theorem outcomeAll_refused (r : Refusal) : OutcomeAll Q S (.refused r) ↔ False := Iff.rfl

@[simp] theorem finish_ok (st : BlockState) (s : State) : finish (.ok st s) = .next { s with st := st } := rfl
@[simp] theorem finish_raised (c : Cause) (s : State) : finish (.raised c s) = .next (takeFault c s) := rfl
@[simp] theorem finish_stopped (e : Fault) : finish (.stopped e) = .fault e := rfl

theorem outcomeAll_finish {r : Res BlockState} :
    OutcomeAll Q S (finish r) ↔ r.All (fun st s => Q { s with st := st }) (fun c s => Q (takeFault c s)) S := by
  cases r <;> rfl

theorem primitiveCommand_of_ready {body : State → Res BlockState} {s : State} (h : s.st ≠ .fault) :
    primitiveCommand body s = finish (body s) := by simp [primitiveCommand, h]

theorem frameCommand_of_ready {body : State → Res BlockState} {s : State} (h : s.st ≠ .fault) :
    frameCommand body s = finish (atFrameLevel (body s)) := by simp [frameCommand, h]

theorem streamKind_of_ready {body : State → Res Unit} {s : State} (h : s.st ≠ .fault) :
    streamKind body s = finish (atFrameLevel ((body s).bind fun _ t => .ok s.st t)) := by
  simp [streamKind, frameCommand_of_ready h]

theorem primitiveCommand_of_fault {body : State → Res BlockState} {s : State} (h : s.st = .fault) :
    primitiveCommand body s = .next s := by simp [primitiveCommand, h]

theorem frameCommand_of_fault {body : State → Res BlockState} {s : State} (h : s.st = .fault) :
    frameCommand body s = .next s := by simp [frameCommand, h]

theorem streamKind_of_fault {body : State → Res Unit} {s : State} (h : s.st = .fault) :
    streamKind body s = .next s := frameCommand_of_fault h

end Outcomes

/-- The explicit record of `raise K` (rule R215). -/
theorem takeFault_eq (c : Cause) (s : State) : takeFault c s = faulted c.code s := rfl

end Sys2Proof.Machine
end

