-- ==== Sys2Proof/Laws/Reader.lean ====
section
/-! SUPPORT. Laws/Reader.lean: what each field read does on a source that holds given bits, in the stream notation of
rule R104, and what it does when the source ends first. Later proofs cite these instead of unfolding the reader. -/

namespace Sys2Proof.Machine

/-! ## What the source holds -/

theorem sourceEnd_lt (s : State) : sourceEnd s < 2 ^ 64 := by
  have := s.srcLen.isLt; simp only [sourceEnd]; omega

/-- `streamBit` reads source memory alone. -/
theorem streamBit_congr {s t : State} (h : t.src = s.src) (p : Nat) : streamBit p t = streamBit p s := by
  simp only [streamBit, sourceByte, h]

/-- What a source holds depends on source memory, its length and the cursor. -/
theorem holds_congr {s t : State} (hs : t.src = s.src) (hl : t.srcLen = s.srcLen) (hp : t.pos = s.pos)
    (bs : List Bool) : Holds bs t ↔ Holds bs s := by
  simp only [Holds, sourceEnd, hl, hp, streamBit_congr hs]

theorem Holds.pos_advance {bs : List Bool} {s : State} (h : Holds bs s) :
    (advance bs s).pos.toNat = s.pos.toNat + bs.length := by
  have h1 := h.1; have := sourceEnd_lt s
  simp only [advance_pos, BitVec.toNat_add, BitVec.toNat_ofNat]; omega

@[simp] theorem sourceEnd_advance (bs : List Bool) (s : State) : sourceEnd (advance bs s) = sourceEnd s := rfl

@[simp] theorem streamBit_advance (bs : List Bool) (s : State) (p : Nat) :
    streamBit p (advance bs s) = streamBit p s := rfl

@[simp] theorem advance_nil (s : State) : advance [] s = s := by simp [advance]

theorem advance_append (as bs : List Bool) (s : State) : advance (as ++ bs) s = advance bs (advance as s) := by
  simp [advance, BitVec.add_assoc, BitVec.ofNat_add]

theorem holds_nil {s : State} : Holds [] s ↔ s.pos.toNat ≤ sourceEnd s := by simp [Holds]

theorem holds_append {as bs : List Bool} {s : State} :
    Holds (as ++ bs) s ↔ Holds as s ∧ Holds bs (advance as s) := by
  constructor
  · rintro ⟨hl, hb⟩
    simp only [List.length_append] at hl hb
    have ha : Holds as s := ⟨by omega, fun j hj => by
      have := hb j (by omega); simpa [List.getElem_append_left hj] using this⟩
    refine ⟨ha, ?_, fun j hj => ?_⟩
    · rw [ha.pos_advance, sourceEnd_advance]; omega
    · have := hb (as.length + j) (by omega)
      rw [ha.pos_advance, streamBit_advance, Nat.add_assoc, this]
      simp
  · rintro ⟨ha, hl, hb⟩
    rw [ha.pos_advance, sourceEnd_advance] at hl
    refine ⟨by simp only [List.length_append]; omega, fun j hj => ?_⟩
    by_cases hj' : j < as.length
    · rw [List.getElem_append_left hj']; exact ha.2 j hj'
    · simp only [List.length_append] at hj
      have := hb (j - as.length) (by omega)
      rw [ha.pos_advance, streamBit_advance] at this
      rw [List.getElem_append_right (by omega), ← this]
      congr 1; omega

theorem holds_cons {b : Bool} {bs : List Bool} {s : State} :
    Holds (b :: bs) s ↔ Holds [b] s ∧ Holds bs (advance [b] s) := holds_append (as := [b])

theorem Holds.left {as bs : List Bool} {s : State} (h : Holds (as ++ bs) s) : Holds as s := (holds_append.1 h).1
theorem Holds.right {as bs : List Bool} {s : State} (h : Holds (as ++ bs) s) : Holds bs (advance as s) :=
  (holds_append.1 h).2

/-! ## Consuming bits -/

theorem consumeBit_of_holds {b : Bool} {s : State} (h : Holds [b] s) : consumeBit s = advance [b] s := by
  have hb : streamBit s.pos.toNat s = b := by simpa using h.2 0 (by simp)
  simp [consumeBit, advance, hb]

theorem consumeBits_of_holds {bs : List Bool} {s : State} (h : Holds bs s) :
    consumeBits bs.length s = advance bs s := by
  induction bs generalizing s with
  | nil => simp [consumeBits]
  | cons b bs ih =>
    have h' := holds_cons.1 h
    rw [List.length_cons, consumeBits, consumeBit_of_holds h'.1, ih h'.2, ← advance_append]
    rfl

/-- The value of a field, the first bit most significant. -/
def bitsValue (v : Nat) (bs : List Bool) : Nat := bs.foldl (fun v b => 2 * v + b.toNat) v

theorem gatherBits_of_holds {bs : List Bool} {s : State} (h : Holds bs s) (v : Nat) :
    gatherBits bs.length v s = (bitsValue v bs, advance bs s) := by
  induction bs generalizing s v with
  | nil => simp [gatherBits, bitsValue]
  | cons b bs ih =>
    have h' := holds_cons.1 h
    have hb : streamBit s.pos.toNat s = b := by simpa using h'.1.2 0 (by simp)
    rw [List.length_cons, gatherBits, hb, consumeBit_of_holds h'.1, ih h'.2, ← advance_append]
    rfl

/-! ## Unsigned fields (rule R112) -/

@[simp] theorem length_uBits (n v : Nat) : (uBits n v).length = n := by
  induction n with
  | zero => rfl
  | succ n ih => simp [uBits, ih]

theorem bitsValue_uBits (n v a : Nat) : bitsValue a (uBits n v) = a * 2 ^ n + v % 2 ^ n := by
  induction n generalizing a with
  | zero => simp [uBits, bitsValue, Nat.mod_one]
  | succ n ih =>
    have : bitsValue a (uBits (n + 1) v) = bitsValue (2 * a + (v.testBit n).toNat) (uBits n v) := rfl
    rw [this, ih, Nat.testBit_eq_decide_div_mod_eq]
    have hm : v % 2 ^ (n + 1) = v % 2 ^ n + 2 ^ n * (v / 2 ^ n % 2) := Nat.mod_pow_succ
    rw [hm, Nat.pow_succ]
    rcases Nat.mod_two_eq_zero_or_one (v / 2 ^ n) with h | h <;> simp [h] <;> ring

/-- A field that the source holds is read whole. -/
theorem readUnsigned_of_holds {n v : Nat} {s : State} (hv : v < 2 ^ n) (h : Holds (uBits n v) s) :
    readUnsigned n s = .ok v (advance (uBits n v) s) := by
  have h1 := h.1
  have hg := gatherBits_of_holds h 0
  rw [length_uBits] at h1 hg
  rw [readUnsigned, if_neg (by omega), hg, bitsValue_uBits]
  simp [Nat.mod_eq_of_lt hv]

/-- A field the source ends inside consumes nothing (rules R65 and R112). -/
theorem readUnsigned_of_short {n : Nat} {s : State} (h : s.pos.toNat + n > sourceEnd s) :
    readUnsigned n s = .raised .unexpectedEnd s := if_pos h

/-- The next `n` bits of the stream. -/
def nextBits (n : Nat) (s : State) : List Bool := (List.range n).map fun j => streamBit (s.pos.toNat + j) s

@[simp] theorem length_nextBits (n : Nat) (s : State) : (nextBits n s).length = n := by simp [nextBits]

theorem holds_nextBits {n : Nat} {s : State} (h : s.pos.toNat + n ≤ sourceEnd s) : Holds (nextBits n s) s :=
  ⟨by simpa using h, fun j hj => by simp [nextBits]⟩

theorem bitsValue_lt (bs : List Bool) : bitsValue 0 bs < 2 ^ bs.length := by
  have h : ∀ (bs : List Bool) (v : Nat), bitsValue v bs < (v + 1) * 2 ^ bs.length := by
    intro bs
    induction bs with
    | nil => intro v; simp [bitsValue]
    | cons b bs ih =>
      intro v
      have := ih (2 * v + b.toNat)
      have hb : bitsValue v (b :: bs) = bitsValue (2 * v + b.toNat) bs := rfl
      rw [hb, List.length_cons, Nat.pow_succ]
      refine lt_of_lt_of_le this ?_
      have : 2 * v + b.toNat + 1 ≤ (v + 1) * 2 := by cases b <;> simp <;> omega
      calc (2 * v + b.toNat + 1) * 2 ^ bs.length ≤ ((v + 1) * 2) * 2 ^ bs.length := Nat.mul_le_mul_right _ this
        _ = (v + 1) * (2 ^ bs.length * 2) := by ring
  simpa using h bs 0

/-- Every run of bits is an unsigned field with some value. -/
theorem uBits_bitsValue (bs : List Bool) : uBits bs.length (bitsValue 0 bs) = bs := by
  have h : ∀ (bs : List Bool) (v : Nat), uBits bs.length (bitsValue v bs) = bs := by
    intro bs
    induction bs with
    | nil => intro v; rfl
    | cons b bs ih =>
      intro v
      have hb : bitsValue v (b :: bs) = bitsValue (2 * v + b.toNat) bs := rfl
      rw [hb, List.length_cons, uBits, ih]
      congr 1
      have hv : ∀ (bs : List Bool) (w : Nat), bitsValue w bs = w * 2 ^ bs.length + bitsValue 0 bs := by
        intro bs w
        have h1 := bitsValue_uBits bs.length (bitsValue 0 bs) w
        induction bs generalizing w with
        | nil => simp [bitsValue]
        | cons c cs ihc =>
          have e1 : bitsValue w (c :: cs) = bitsValue (2 * w + c.toNat) cs := rfl
          have e2 : bitsValue 0 (c :: cs) = bitsValue (c.toNat) cs := by simp [bitsValue]
          rw [e1, e2, ihc _ (bitsValue_uBits _ _ _), ihc c.toNat (bitsValue_uBits _ _ _), List.length_cons, Nat.pow_succ]
          ring
      rw [hv, Nat.testBit_eq_decide_div_mod_eq, Nat.mul_comm, Nat.mul_add_div (by positivity),
        Nat.div_eq_of_lt (bitsValue_lt bs)]
      cases b <;> simp <;> omega
  exact h bs 0

/-- What an unsigned read can do: take the next field whole, or raise with nothing consumed. -/
theorem readUnsigned_cases (n : Nat) (s : State) :
    (s.pos.toNat + n ≤ sourceEnd s ∧ Holds (nextBits n s) s
      ∧ readUnsigned n s = .ok (bitsValue 0 (nextBits n s)) (advance (nextBits n s) s)) ∨
    (s.pos.toNat + n > sourceEnd s ∧ readUnsigned n s = .raised .unexpectedEnd s) := by
  by_cases h : s.pos.toNat + n > sourceEnd s
  · exact .inr ⟨h, readUnsigned_of_short h⟩
  · have hh := holds_nextBits (n := n) (s := s) (by omega)
    have hg := gatherBits_of_holds hh 0
    rw [length_nextBits] at hg
    exact .inl ⟨by omega, hh, by rw [readUnsigned, if_neg h, hg]⟩

/-! ## Signed fields (rule R113) -/

@[simp] theorem length_sBits (n : Nat) (v : Int) : (sBits n v).length = n := by simp [sBits]

theorem signExtend_of_fits {n : Nat} {v : Int} (h : fitsSigned n v) :
    signExtend n (v % ((2 ^ n : Nat) : Int)).toNat = v := by
  unfold fitsSigned at h
  split at h
  · subst_vars; simp [signExtend]
  · rename_i hn
    obtain ⟨m, rfl⟩ := Nat.exists_eq_succ_of_ne_zero hn
    have hp : ((2 ^ (m + 1) : Nat) : Int) = 2 * ((2 ^ m : Nat) : Int) := by push_cast; ring
    have hpos : (0 : Int) < ((2 ^ m : Nat) : Int) := by positivity
    simp only [Nat.succ_eq_add_one, Nat.add_sub_cancel] at h
    unfold signExtend
    simp only [Nat.succ_eq_add_one, Nat.add_sub_cancel]
    have hnn : 0 ≤ v % ((2 ^ (m + 1) : Nat) : Int) := Int.emod_nonneg _ (by rw [hp]; omega)
    have hlt : v % ((2 ^ (m + 1) : Nat) : Int) < ((2 ^ (m + 1) : Nat) : Int) := Int.emod_lt_of_pos _ (by rw [hp]; omega)
    have hmod : (v % ((2 ^ (m + 1) : Nat) : Int)).toNat % 2 ^ (m + 1) = (v % ((2 ^ (m + 1) : Nat) : Int)).toNat :=
      Nat.mod_eq_of_lt (by omega)
    rw [hmod, Int.toNat_of_nonneg hnn]
    by_cases hv : 0 ≤ v
    · have : v % ((2 ^ (m + 1) : Nat) : Int) = v := Int.emod_eq_of_lt hv (by omega)
      rw [this, if_pos (by omega)]
    · have : v % ((2 ^ (m + 1) : Nat) : Int) = v + ((2 ^ (m + 1) : Nat) : Int) := by
        rw [← Int.add_emod_right, Int.emod_eq_of_lt (by omega) (by omega)]
      rw [this, if_neg (by omega)]; omega

/-- A signed field that the source holds is read whole. -/
theorem readSigned_of_holds {n : Nat} {v : Int} {s : State} (hv : fitsSigned n v) (h : Holds (sBits n v) s) :
    readSigned n s = .ok v (advance (sBits n v) s) := by
  have hp : (0 : Int) < ((2 ^ n : Nat) : Int) := by positivity
  have hlt : (v % ((2 ^ n : Nat) : Int)).toNat < 2 ^ n := by
    have := Int.emod_lt_of_pos v hp; have := Int.emod_nonneg v hp.ne'; omega
  rw [readSigned, readUnsigned_of_holds hlt h, Res.bind_ok, signExtend_of_fits hv]; rfl

/-- A signed field the source ends inside consumes nothing. -/
theorem readSigned_of_short {n : Nat} {s : State} (h : s.pos.toNat + n > sourceEnd s) :
    readSigned n s = .raised .unexpectedEnd s := by rw [readSigned, readUnsigned_of_short h]; rfl

/-- What a signed read can do. -/
theorem readSigned_cases (n : Nat) (s : State) :
    (s.pos.toNat + n ≤ sourceEnd s ∧ Holds (nextBits n s) s
      ∧ readSigned n s = .ok (signExtend n (bitsValue 0 (nextBits n s))) (advance (nextBits n s) s)) ∨
    (s.pos.toNat + n > sourceEnd s ∧ readSigned n s = .raised .unexpectedEnd s) := by
  rcases readUnsigned_cases n s with ⟨h1, h2, h3⟩ | ⟨h1, h2⟩
  · exact .inl ⟨h1, h2, by rw [readSigned, h3]; rfl⟩
  · exact .inr ⟨h1, readSigned_of_short h1⟩

/-! ## Unary runs (rule R114) -/

@[simp] theorem length_unaryBits (t : Bool) (k : Nat) : (unaryBits t k).length = k + 1 := by simp [unaryBits]

theorem scanUnary_run {t : Bool} {k left p : Nat} {s : State} (hk : k < left)
    (hr : ∀ j, j < k → streamBit (p + j) s ≠ t) (ht : streamBit (p + k) s = t) : scanUnary t left p s = some k := by
  induction k generalizing left p with
  | zero =>
    obtain ⟨left, rfl⟩ : ∃ l, left = l + 1 := ⟨left - 1, by omega⟩
    simp only [Nat.add_zero] at ht
    simp [scanUnary, ht]
  | succ k ih =>
    obtain ⟨left, rfl⟩ : ∃ l, left = l + 1 := ⟨left - 1, by omega⟩
    have h0 : streamBit p s ≠ t := by simpa using hr 0 (by omega)
    rw [scanUnary, if_neg h0, ih (by omega) (fun j hj => ?_) (by rw [← ht]; congr 1; omega)]
    · rfl
    · have := hr (j + 1) (by omega)
      rwa [Nat.add_assoc, Nat.add_comm 1]

theorem scanUnary_none {t : Bool} {left p : Nat} {s : State} (h : ∀ j, j < left → streamBit (p + j) s ≠ t) :
    scanUnary t left p s = none := by
  induction left generalizing p with
  | zero => rfl
  | succ left ih =>
    have h0 : streamBit p s ≠ t := by simpa using h 0 (by omega)
    rw [scanUnary, if_neg h0, ih (fun j hj => ?_)]
    · rfl
    · have := h (j + 1) (by omega)
      rwa [Nat.add_assoc, Nat.add_comm 1]

/-- A scan that finds the terminator has passed bits unlike it only, inside the source. -/
theorem scanUnary_some {t : Bool} {left p k : Nat} {s : State} (h : scanUnary t left p s = some k) :
    k < left ∧ (∀ j, j < k → streamBit (p + j) s ≠ t) ∧ streamBit (p + k) s = t := by
  induction left generalizing p k with
  | zero => simp [scanUnary] at h
  | succ left ih =>
    rw [scanUnary] at h
    split at h
    · simp only [Option.some.injEq] at h; subst h; simp_all
    · simp only [Option.map_eq_some_iff] at h
      obtain ⟨k, hk, rfl⟩ := h
      obtain ⟨h1, h2, h3⟩ := ih hk
      refine ⟨by omega, fun j hj => ?_, by rw [← h3]; congr 1; omega⟩
      rcases j with _ | j
      · simpa
      · have := h2 j (by omega); rwa [Nat.add_assoc, Nat.add_comm 1] at this

/-- A run that the source holds is read whole, with its terminator. -/
theorem readUnary_of_holds {t : Bool} {k : Nat} {s : State} (h : Holds (unaryBits t k) s) :
    readUnary t s = .ok k (advance (unaryBits t k) s) := by
  have h1 := h.1
  rw [length_unaryBits] at h1
  have hs : scanUnary t (sourceEnd s - s.pos.toNat) s.pos.toNat s = some k := by
    apply scanUnary_run (by omega)
    · intro j hj
      rw [h.2 j (by rw [length_unaryBits]; omega)]
      simp only [unaryBits]
      rw [List.getElem_append_left (by simpa using hj)]
      simp
    · rw [h.2 k (by rw [length_unaryBits]; omega)]
      simp [unaryBits]
  rw [readUnary, hs]
  have := consumeBits_of_holds h
  rw [length_unaryBits] at this
  simp only [this]

/-- A run without a terminator consumes nothing. -/
theorem readUnary_of_none {t : Bool} {s : State}
    (h : ∀ p, s.pos.toNat ≤ p → p < sourceEnd s → streamBit p s ≠ t) : readUnary t s = .raised .unexpectedEnd s := by
  rw [readUnary, scanUnary_none fun j hj => h _ (by omega) (by omega)]

/-- What a unary read can do. -/
theorem readUnary_cases (t : Bool) (s : State) :
    (∃ k, Holds (unaryBits t k) s ∧ readUnary t s = .ok k (advance (unaryBits t k) s)) ∨
    ((∀ p, s.pos.toNat ≤ p → p < sourceEnd s → streamBit p s ≠ t) ∧ readUnary t s = .raised .unexpectedEnd s) := by
  by_cases h : ∀ p, s.pos.toNat ≤ p → p < sourceEnd s → streamBit p s ≠ t
  · exact .inr ⟨h, readUnary_of_none h⟩
  · cases hs : scanUnary t (sourceEnd s - s.pos.toNat) s.pos.toNat s with
    | none =>
      exact .inr ⟨by
        intro p hp hlt
        by_contra hb
        have : ∀ (left q : Nat), scanUnary t left q s = none → ∀ j, j < left → streamBit (q + j) s ≠ t := by
          intro left
          induction left with
          | zero => intro q _ j hj; omega
          | succ left ih =>
            intro q hq j hj
            rw [scanUnary] at hq
            split at hq
            · cases hq
            · simp only [Option.map_eq_none_iff] at hq
              rcases j with _ | j
              · simpa
              · have := ih _ hq j (by omega); rwa [Nat.add_assoc, Nat.add_comm 1] at this
        have := this _ _ hs (p - s.pos.toNat) (by omega)
        rw [Nat.add_sub_cancel' hp] at this
        exact this hb, by rw [readUnary, hs]⟩
    | some k =>
      obtain ⟨h1, h2, h3⟩ := scanUnary_some hs
      have hh : Holds (unaryBits t k) s := by
        refine ⟨by rw [length_unaryBits]; omega, fun j hj => ?_⟩
        rw [length_unaryBits] at hj
        by_cases hjk : j < k
        · have := h2 j hjk
          simp only [unaryBits]
          rw [List.getElem_append_left (by simpa using hjk)]
          simp only [List.getElem_replicate]
          revert this
          cases streamBit (s.pos.toNat + j) s <;> cases t <;> simp
        · obtain rfl : j = k := by omega
          simp [unaryBits, h3]
      exact .inl ⟨k, hh, readUnary_of_holds hh⟩

/-! ## The byte boundary (rule R115) -/

theorem alignToByte_of_holds {bs : List Bool} {s : State} (h : Holds bs s) (hn : bs.length = paddingBits s) :
    alignToByte s = .ok () (advance bs s) := by
  have h1 := h.1
  have := consumeBits_of_holds h
  rw [hn] at h1 this
  rw [alignToByte, if_neg (by omega), this]

/-- Where the cursor is inside the source, so is the next byte boundary. -/
theorem padding_le {s : State} (h : s.pos.toNat ≤ sourceEnd s) : s.pos.toNat + paddingBits s ≤ sourceEnd s := by
  simp only [paddingBits, sourceEnd] at *; omega

/-! ## Rice symbols (rule R175) -/

theorem unfold_fold (v : Int) : unfoldZigzag (foldZigzag v) = v := by
  unfold unfoldZigzag foldZigzag
  split <;> split <;> omega

theorem fold_unfold (u : Nat) : foldZigzag (unfoldZigzag u) = u := by
  unfold unfoldZigzag foldZigzag
  split <;> split <;> omega

theorem riceSymbol_of_holds {k : Nat} {v : Int} {s : State} (h : Holds (riceBits k v) s) :
    riceSymbol k s = .ok v (advance (riceBits k v) s) := by
  have h' := holds_append.1 h
  rw [riceSymbol, readUnary_of_holds h'.1, Res.bind_ok,
    readUnsigned_of_holds (Nat.mod_lt _ (by positivity)) h'.2, Res.bind_ok, riceBits, advance_append]
  have : foldZigzag v / 2 ^ k * 2 ^ k + foldZigzag v % 2 ^ k = foldZigzag v := by
    rw [Nat.mul_comm]; exact Nat.div_add_mod _ _
  rw [this, unfold_fold]

end Sys2Proof.Machine
end

