-- ==== Sys2Proof/Laws/Samples.lean ====
section
/-! SUPPORT. Laws/Samples.lean: what the loops that store samples leave: the words, the overflow flag, the canonical
form; and the loops as one run of stores. -/

namespace Sys2Proof.Machine

/-! ## A run of stores -/

/-- `MemWrite(c, i, narrow(v)); i <- i + 1` for every value in turn. -/
def storeAll (c : Nat) : Nat → List Int → State → State
  | _, [], s => s
  | i, v :: vs, s => storeAll c (i + 1) vs (writeSample c i v s)

theorem storeAll_append (c i : Nat) (vs ws : List Int) (s : State) :
    storeAll c i (vs ++ ws) s = storeAll c (i + vs.length) ws (storeAll c i vs s) := by
  induction vs generalizing i s with
  | nil => rfl
  | cons v vs ih =>
    simp only [List.cons_append, storeAll, ih, List.length_cons]
    congr 1; omega

theorem advance_writeSample (bs : List Bool) (c i : Nat) (v : Int) (s : State) :
    advance bs (writeSample c i v s) = writeSample c i v (advance bs s) := rfl

theorem advance_storeAll (bs : List Bool) (c i : Nat) (vs : List Int) (s : State) :
    advance bs (storeAll c i vs s) = storeAll c i vs (advance bs s) := by
  induction vs generalizing i s with
  | nil => rfl
  | cons v vs ih => simp only [storeAll, ih, advance_writeSample]

/-- A run of stores changes sample memory and the overflow flag, which collects every value that was cut (rule R33). -/
theorem storeAll_eq (c i : Nat) (vs : List Int) (s : State) :
    storeAll c i vs s = { s with smp := (storeAll c i vs s).smp, ovf := s.ovf || vs.any narrowLoses } := by
  induction vs generalizing i s with
  | nil => simp [storeAll]
  | cons v vs ih =>
    rw [storeAll, ih]
    simp only [writeSample, storeSample, List.any_cons, Bool.or_assoc]

theorem storeAll_ovf (c i : Nat) (vs : List Int) (s : State) :
    (storeAll c i vs s).ovf = (s.ovf || vs.any narrowLoses) := by rw [storeAll_eq]

/-- The words a run of stores leaves. -/
theorem sampleWord_storeAll (c i : Nat) (vs : List Int) (s : State) (a : Nat) :
    sampleWord a (storeAll c i vs s) =
      if sampleAddress c i ≤ a then ((vs[a - sampleAddress c i]?).map narrow).getD (sampleWord a s)
      else sampleWord a s := by
  induction vs generalizing i s with
  | nil => simp [storeAll]
  | cons v vs ih =>
    have e : sampleAddress c (i + 1) = sampleAddress c i + 1 := by simp only [sampleAddress]; omega
    rw [storeAll, ih, sampleWord_writeSample, e]
    by_cases h1 : sampleAddress c i + 1 ≤ a
    · obtain ⟨k, rfl⟩ : ∃ k, a = sampleAddress c i + 1 + k := ⟨a - (sampleAddress c i + 1), by omega⟩
      have h2 : sampleAddress c i + 1 + k - sampleAddress c i = k + 1 := by omega
      have h3 : ¬ sampleAddress c i = sampleAddress c i + 1 + k := by omega
      simp [h2, h3, show sampleAddress c i ≤ sampleAddress c i + 1 + k by omega]
    · by_cases h2 : sampleAddress c i = a
      · subst h2; simp
      · simp [h1, h2, show ¬ sampleAddress c i ≤ a by omega]

theorem sampleWord_storeAll_of_lt {c i j : Nat} {vs : List Int} {s : State} (h : j < vs.length) :
    sampleWord (sampleAddress c (i + j)) (storeAll c i vs s) = narrow vs[j] := by
  have e : sampleAddress c (i + j) = sampleAddress c i + j := by simp only [sampleAddress]; omega
  rw [sampleWord_storeAll, e]
  simp [h]

theorem sampleWord_storeAll_of_outside {c i a : Nat} {vs : List Int} {s : State}
    (h : ¬ (sampleAddress c i ≤ a ∧ a < sampleAddress c i + vs.length)) :
    sampleWord a (storeAll c i vs s) = sampleWord a s := by
  rw [sampleWord_storeAll]
  split
  · rw [List.getElem?_eq_none (by omega)]; rfl
  · rfl

theorem stored_storeAll (c i : Nat) (vs : List Int) (s : State) : Stored c i vs s (storeAll c i vs s) :=
  ⟨fun _ h => sampleWord_storeAll_of_lt h, fun _ h => sampleWord_storeAll_of_outside h⟩

theorem readSample_storeAll_of_lt {c i j : Nat} {vs : List Int} {s : State} (h : j < vs.length) :
    readSample c (i + j) (storeAll c i vs s) = held vs[j] := by
  rw [readSample, sampleWord_storeAll_of_lt h, held]

theorem samplesWf_storeAll {c i : Nat} {vs : List Int} {s : State} (hc : c < Config.maxCh)
    (hi : i + vs.length ≤ Config.maxBlock) (h : samplesWf s.smp = true) :
    samplesWf (storeAll c i vs s).smp = true := by
  induction vs generalizing i s with
  | nil => exact h
  | cons v vs ih =>
    simp only [List.length_cons] at hi
    exact ih (by omega) (samplesWf_writeSample hc (by omega) h)

/-! ## Samples that are fields of the stream (rules R154, R170) -/

/-- Samples whose fields the source holds are all read and stored. -/
theorem readSamples_of_holds {field : State → Res Int} {bits : Int → List Bool} {c i : Nat} {vs : List Int} {s : State}
    (hf : ∀ v ∈ vs, ∀ s, Holds (bits v) s → field s = .ok v (advance (bits v) s))
    (h : Holds (vs.flatMap bits) s) :
    readSamples field c vs.length i s = .ok () (storeAll c i vs (advance (vs.flatMap bits) s)) := by
  induction vs generalizing i s with
  | nil => simp [readSamples, storeAll]
  | cons v vs ih =>
    rw [List.flatMap_cons] at h
    have h' := holds_append.1 h
    rw [List.length_cons, readSamples, hf v (by simp) s h'.1, Res.bind_ok,
      ih (s := writeSample c i v (advance (bits v) s)) (fun w hw => hf w (by simp [hw]))
        ((holds_congr (s := advance (bits v) s) rfl rfl rfl _).2 h'.2)]
    rw [List.flatMap_cons, advance_append, storeAll, advance_writeSample]

/-- Where the source ends inside a later field, the samples before it are stored (rule R154). -/
theorem readSamples_of_short {field : State → Res Int} {bits : Int → List Bool} {c i n : Nat} {vs : List Int} {s : State}
    (hf : ∀ v ∈ vs, ∀ s, Holds (bits v) s → field s = .ok v (advance (bits v) s))
    (h : Holds (vs.flatMap bits) s) (hn : vs.length < n)
    (he : ∀ t, t.pos = (advance (vs.flatMap bits) s).pos → t.src = s.src → t.srcLen = s.srcLen →
      field t = .raised .unexpectedEnd t) :
    readSamples field c n i s = .raised .unexpectedEnd (storeAll c i vs (advance (vs.flatMap bits) s)) := by
  induction vs generalizing i n s with
  | nil =>
    obtain ⟨n, rfl⟩ : ∃ m, n = m + 1 := ⟨n - 1, by simp at hn; omega⟩
    simp only [List.flatMap_nil, advance_nil] at he ⊢
    rw [readSamples, he s rfl rfl rfl]; rfl
  | cons v vs ih =>
    obtain ⟨n, rfl⟩ : ∃ m, n = m + 1 := ⟨n - 1, by simp at hn; omega⟩
    rw [List.flatMap_cons] at h
    have h' := holds_append.1 h
    rw [readSamples, hf v (by simp) s h'.1, Res.bind_ok,
      ih (s := writeSample c i v (advance (bits v) s)) (fun w hw => hf w (by simp [hw]))
        ((holds_congr (s := advance (bits v) s) rfl rfl rfl _).2 h'.2) (by simpa using hn)]
    · rw [List.flatMap_cons, advance_append, storeAll, advance_writeSample]
    · intro t hp hs hl
      refine he t ?_ hs hl
      rw [List.flatMap_cons, advance_append]; exact hp

/-! ## Samples computed from sample memory -/

/-- A loop whose every step stores one value. -/
theorem forSamples_eq_storeAll {value : Nat → State → Int} {c i : Nat} {vs : List Int} {s : State}
    (h : ∀ j (hj : j < vs.length), value (i + j) (storeAll c i (vs.take j) s) = vs[j]) :
    forSamples (fun i s => writeSample c i (value i s) s) vs.length i s = storeAll c i vs s := by
  induction vs generalizing i s with
  | nil => rfl
  | cons v vs ih =>
    have h0 := h 0 (by simp)
    simp only [Nat.add_zero, List.take_zero, storeAll, List.getElem_cons_zero] at h0
    rw [List.length_cons, forSamples, h0, ih, storeAll]
    intro j hj
    have := h (j + 1) (by simpa using hj)
    simp only [List.take_succ_cons, storeAll, List.getElem_cons_succ] at this
    rw [← this]; congr 1; omega

end Sys2Proof.Machine
end

