-- ==== Sys2Proof/Laws/Predict.lean ====
section
/-! SUPPORT. Laws/Predict.lean: narrowing, the predictors as functions of the samples before, reconstruction in place as
one run of stores, and that no 64-bit intermediate wraps. -/

namespace Sys2Proof.Machine

/-! ## Narrowing (rule R9) -/

theorem held_bounds (v : Int) : -2147483648 ≤ held v ∧ held v < 2147483648 := by
  have h1 := BitVec.le_toInt (narrow v)
  have h2 := BitVec.toInt_lt (x := narrow v)
  simp only [Config.sampleW] at h1 h2
  exact ⟨by simpa [held] using h1, by simpa [held] using h2⟩

theorem held_eq_bmod (v : Int) : held v = v.bmod (2 ^ 32) := by
  simp [held, narrow, BitVec.toInt_ofInt, Config.sampleW]

theorem held_of_bounds {v : Int} (h1 : -2147483648 ≤ v) (h2 : v < 2147483648) : held v = v := by
  rw [held_eq_bmod, Int.bmod_eq_of_le (by omega) (by omega)]

@[simp] theorem held_held (v : Int) : held (held v) = held v :=
  held_of_bounds (held_bounds v).1 (held_bounds v).2

theorem narrow_eq_iff {v w : Int} : narrow v = narrow w ↔ held v = held w := by
  rw [held, held, BitVec.toInt_inj]

@[simp] theorem narrow_held (v : Int) : narrow (held v) = narrow v := narrow_eq_iff.2 (held_held v)

theorem narrowLoses_eq_false {v : Int} : narrowLoses v = false ↔ held v = v := by simp [narrowLoses, held]

theorem narrowLoses_held (v : Int) : narrowLoses (held v) = false := narrowLoses_eq_false.2 (held_held v)

theorem held_add_held (a b : Int) : held (a + held b) = held (a + b) := by
  simp [held_eq_bmod]

theorem held_held_mul (a k : Int) : held (held a * k) = held (a * k) := by
  simp [held_eq_bmod]

theorem fits_bounds {n : Nat} {v : Int} (hn : n ≤ 32) (h : fitsSigned n v) : -2147483648 ≤ v ∧ v < 2147483648 := by
  unfold fitsSigned at h
  split at h
  · omega
  · have : 2 ^ (n - 1) ≤ 2 ^ 31 := Nat.pow_le_pow_right (by norm_num) (by omega)
    have e : (2 : Nat) ^ 31 = 2147483648 := by norm_num
    omega

theorem held_of_fits {n : Nat} {v : Int} (hn : n ≤ 32) (h : fitsSigned n v) : held v = v :=
  held_of_bounds (fits_bounds hn h).1 (fits_bounds hn h).2

theorem wrap64_of_bounds {v : Int} (h1 : -9223372036854775808 ≤ v) (h2 : v < 9223372036854775808) : wrap64 v = v := by
  rw [wrap64, BitVec.toInt_ofInt]
  exact Int.bmod_eq_of_le (by simp only [Config.accW]; omega) (by simp only [Config.accW]; omega)

theorem readSample_bounds (c i : Nat) (s : State) : -2147483648 ≤ readSample c i s ∧ readSample c i s < 2147483648 := by
  have h1 := BitVec.le_toInt (sampleWord (sampleAddress c i) s)
  have h2 := BitVec.toInt_lt (x := sampleWord (sampleAddress c i) s)
  simp only [Config.sampleW] at h1 h2
  exact ⟨by simpa [readSample] using h1, by simpa [readSample] using h2⟩

theorem held_readSample (c i : Nat) (s : State) : held (readSample c i s) = readSample c i s :=
  held_of_bounds (readSample_bounds c i s).1 (readSample_bounds c i s).2

theorem narrow_readSample (c i : Nat) (s : State) : narrow (readSample c i s) = sampleWord (sampleAddress c i) s := by
  rw [← BitVec.toInt_inj]; exact held_readSample c i s

/-! ## Predictors over the samples before (rules R156 and R159) -/

/-- The samples before sample `i` of a plane, the newest first. -/
def history (c i : Nat) (s : State) : List Int := (List.range i).map fun k => readSample c (i - 1 - k) s

@[simp] theorem length_history (c i : Nat) (s : State) : (history c i s).length = i := by simp [history]

theorem getD_history {c i k : Nat} (h : k < i) (s : State) : (history c i s).getD k 0 = readSample c (i - 1 - k) s := by
  simp [history, List.getD_eq_getElem?_getD, h]

theorem history_succ (c i : Nat) (s : State) : history c (i + 1) s = readSample c i s :: history c i s := by
  rw [history, List.range_succ_eq_map, List.map_cons, List.map_map, history]
  simp only [Nat.add_sub_cancel, Nat.sub_zero]
  congr 1
  apply List.map_congr_left
  intro k hk
  simp only [Function.comp]
  congr 1; omega

theorem history_congr {c i : Nat} {s t : State} (h : ∀ k, k < i → readSample c k t = readSample c k s) :
    history c i t = history c i s := by
  simp only [history]
  apply List.map_congr_left
  intro k hk
  rw [List.mem_range] at hk
  exact h _ (by omega)

theorem history_bounds {c i : Nat} {s : State} {x : Int} (h : x ∈ history c i s) :
    -2147483648 ≤ x ∧ x < 2147483648 := by
  simp only [history, List.mem_map] at h
  obtain ⟨k, -, rfl⟩ := h
  exact readSample_bounds _ _ _

theorem predictFixed0_eq (c i : Nat) (s : State) : predictFixed0 c i s = fixedPrediction 0 (history c i s) := rfl

theorem predictFixed1_eq {c i : Nat} (s : State) (h : 1 ≤ i) :
    predictFixed1 c i s = fixedPrediction 1 (history c i s) := by
  simp only [predictFixed1, fixedPrediction, getD_history (show 0 < i by omega), Nat.sub_zero]

theorem predictFixed2_eq {c i : Nat} (s : State) (h : 2 ≤ i) :
    predictFixed2 c i s = fixedPrediction 2 (history c i s) := by
  simp only [predictFixed2, fixedPrediction, getD_history (show 0 < i by omega), getD_history (show 1 < i by omega),
    Nat.sub_sub, Nat.add_zero]

theorem predictFixed3_eq {c i : Nat} (s : State) (h : 3 ≤ i) :
    predictFixed3 c i s = fixedPrediction 3 (history c i s) := by
  simp only [predictFixed3, fixedPrediction, getD_history (show 0 < i by omega), getD_history (show 1 < i by omega),
    getD_history (show 2 < i by omega), Nat.sub_sub, Nat.add_zero]

theorem predictFixed4_eq {c i : Nat} (s : State) (h : 4 ≤ i) :
    predictFixed4 c i s = fixedPrediction 4 (history c i s) := by
  simp only [predictFixed4, fixedPrediction, getD_history (show 0 < i by omega), getD_history (show 1 < i by omega),
    getD_history (show 2 < i by omega), getD_history (show 3 < i by omega), Nat.sub_sub, Nat.add_zero]

/-- A fixed prediction from words of sample memory stays far inside 64 bits (rule R155). -/
theorem fixedPrediction_bounds {o : Nat} {past : List Int} (h : ∀ x ∈ past, -2147483648 ≤ x ∧ x < 2147483648) :
    -34359738368 ≤ fixedPrediction o past ∧ fixedPrediction o past ≤ 34359738368 := by
  have hg : ∀ k, -2147483648 ≤ past.getD k 0 ∧ past.getD k 0 < 2147483648 := by
    intro k
    rw [List.getD_eq_getElem?_getD]
    by_cases hk : k < past.length
    · rw [List.getElem?_eq_getElem hk, Option.getD_some]; exact h _ (List.getElem_mem hk)
    · rw [List.getElem?_eq_none (by omega)]; exact ⟨by decide, by decide⟩
  have h0 := hg 0; have h1 := hg 1; have h2 := hg 2; have h3 := hg 3
  unfold fixedPrediction
  split <;> omega

theorem coefficientSum_eq {c i o : Nat} {s : State} (h : o ≤ i) :
    coefficientSum c i o s
      = (List.zipWith (· * ·) ((List.range o).map fun j => coefficient j s) (history c i s)).sum := by
  induction o with
  | zero => simp [coefficientSum]
  | succ o ih =>
    rw [coefficientSum, ih (by omega), List.range_succ, List.map_append]
    obtain ⟨l1, l2, hl⟩ : ∃ l1 l2, history c i s = l1 ++ l2 ∧ l1.length = o :=
      ⟨(history c i s).take o, (history c i s).drop o, (List.take_append_drop _ _).symm, by simp; omega⟩
    have hx : ∃ l3, l2 = readSample c (i - 1 - o) s :: l3 := by
      have hg := getD_history (c := c) (i := i) (k := o) (by omega) s
      rw [hl.1, List.getD_eq_getElem?_getD, List.getElem?_append_right (by omega)] at hg
      have hlen : l2.length = i - o := by
        have := length_history c i s; rw [hl.1, List.length_append] at this; omega
      match l2, hlen with
      | [], hlen => simp at hlen; omega
      | x :: l3, _ => exact ⟨l3, by simp [hl.2] at hg; rw [hg]⟩
    obtain ⟨l3, rfl⟩ := hx
    rw [hl.1]
    have e : l1 ++ readSample c (i - 1 - o) s :: l3 = (l1 ++ [readSample c (i - 1 - o) s]) ++ l3 := by simp
    have z : ∀ (as bs cs : List Int), as.length = bs.length →
        List.zipWith (· * ·) as (bs ++ cs) = List.zipWith (· * ·) as bs := by
      intro as
      induction as with
      | nil => simp
      | cons a as ih => intro bs cs h; cases bs with
        | nil => simp at h
        | cons b bs => simp [ih bs cs (by simpa using h)]
    rw [z _ l1 _ (by simp [hl.2]), e, z _ (l1 ++ [readSample c (i - 1 - o) s]) _ (by simp [hl.2]),
      List.zipWith_append (by simp [hl.2])]
    simp

theorem zipWith_sum_bounds {as bs : List Int} (ha : ∀ a ∈ as, -32768 ≤ a ∧ a ≤ 32767)
    (hb : ∀ b ∈ bs, -2147483648 ≤ b ∧ b < 2147483648) :
    -(70368744177664 * as.length) ≤ (List.zipWith (· * ·) as bs).sum
      ∧ (List.zipWith (· * ·) as bs).sum ≤ 70368744177664 * as.length := by
  induction as generalizing bs with
  | nil => simp
  | cons a as ih =>
    cases bs with
    | nil => simp; omega
    | cons b bs =>
      have h1 := ha a (by simp); have h2 := hb b (by simp)
      have h3 := ih (fun x hx => ha x (by simp [hx])) (bs := bs) (fun x hx => hb x (by simp [hx]))
      simp only [List.zipWith_cons_cons, List.sum_cons, List.length_cons]
      have h4 : -70368744177664 ≤ a * b ∧ a * b ≤ 70368744177664 := by constructor <;> nlinarith
      push_cast
      omega

theorem coefficient_bounds (j : Nat) (s : State) : -32768 ≤ coefficient j s ∧ coefficient j s ≤ 32767 := by
  have h1 := BitVec.le_toInt (s.coef.toList.getD j 0#16)
  have h2 := BitVec.toInt_lt (x := s.coef.toList.getD j 0#16)
  simp only [coefficient]
  constructor
  · simpa using h1
  · have : (s.coef.toList.getD j 0#16).toInt < 32768 := by simpa using h2
    omega

/-- The linear prediction of rule R159: no intermediate value leaves 64 bits. -/
theorem predictLpc_eq {c i o q : Nat} {s : State} (ho : o ≤ 32) (h : o ≤ i) (hq : s.lpcShift.toInt = q) :
    predictLpc o c i s
      = linearPrediction ((List.range o).map fun j => coefficient j s) q (history c i s) := by
  have hb := zipWith_sum_bounds (as := (List.range o).map fun j => coefficient j s) (bs := history c i s)
    (by simp only [List.mem_map]; rintro a ⟨j, -, rfl⟩; exact coefficient_bounds j s) (fun b hb => history_bounds hb)
  simp only [List.length_map, List.length_range] at hb
  rw [predictLpc, coefficientSum_eq h, wrap64_of_bounds (by omega) (by omega), hq, shiftSum, if_pos (by omega),
    linearPrediction]
  simp

theorem linearPrediction_bounds {as past : List Int} {q : Nat} (ha : ∀ a ∈ as, -32768 ≤ a ∧ a ≤ 32767)
    (hl : as.length ≤ 32) (hb : ∀ b ∈ past, -2147483648 ≤ b ∧ b < 2147483648) :
    -2251799813685248 ≤ linearPrediction as q past ∧ linearPrediction as q past ≤ 2251799813685248 := by
  have h := zipWith_sum_bounds ha hb
  have hq : (1 : Int) ≤ ((2 ^ q : Nat) : Int) := by exact_mod_cast Nat.one_le_two_pow
  unfold linearPrediction
  set x := (List.zipWith (· * ·) as past).sum
  constructor
  · rw [Int.le_ediv_iff_mul_le (by omega)]; nlinarith
  · by_cases hx : 0 ≤ x
    · have := Int.ediv_le_self ((2 ^ q : Nat) : Int) hx; omega
    · have := Int.ediv_neg_of_neg_of_pos (by omega : x < 0) (by omega : (0 : Int) < ((2 ^ q : Nat) : Int)); omega

/-! ## Reconstruction in place (rules R155 and R160) -/

/-- The residuals that stand in a plane from sample `o` on. -/
def residuals (c o count : Nat) (s : State) : List Int := (List.range count).map fun j => readSample c (o + j) s

theorem length_rebuild (P : List Int → Int) (past rs : List Int) : (rebuild P past rs).length = rs.length := by
  induction rs generalizing past with
  | nil => rfl
  | cons r rs ih => simp [rebuild, ih]

theorem residuals_succ (c o count : Nat) (s : State) :
    residuals c o (count + 1) s = readSample c o s :: residuals c (o + 1) count s := by
  rw [residuals, List.range_succ_eq_map, List.map_cons, List.map_map, residuals]
  simp only [Nat.add_zero]
  congr 1
  apply List.map_congr_left
  intro k _
  simp only [Function.comp]
  congr 1; omega

theorem readSample_writeSample (c i k : Nat) (v : Int) (s : State) :
    readSample c k (writeSample c i v s) = if i = k then held v else readSample c k s := by
  rw [readSample, sampleWord_writeSample, readSample]
  by_cases h : i = k
  · subst h; simp [held]
  · have : ¬ sampleAddress c i = sampleAddress c k := by simp only [sampleAddress]; omega
    simp [h, this]

/-- Reconstruction is one run of stores of the rebuilt values. -/
theorem reconstruct_eq {predict : Nat → Nat → State → Int} {P : List Int → Int} {c o n : Nat} {s : State}
    (hp : ∀ i t, o ≤ i → t = { s with smp := t.smp, ovf := t.ovf } → predict c i t = P (history c i t))
    (hb : ∀ past, (∀ x ∈ past, -2147483648 ≤ x ∧ x < 2147483648) →
      -9000000000000000000 ≤ P past ∧ P past ≤ 9000000000000000000) :
    reconstruct predict c o n s = storeAll c o (rebuild P (history c o s) (residuals c o (n - o) s)) s := by
  rw [reconstruct]
  have main : ∀ (count i : Nat) (t : State), o ≤ i → t = { s with smp := t.smp, ovf := t.ovf } →
      forSamples (fun i s => writeSample c i (wrap64 (predict c i s + readSample c i s)) s) count i t
        = storeAll c i (rebuild P (history c i t) (residuals c i count t)) t := by
    intro count
    induction count with
    | zero => intro i t _ _; rfl
    | succ count ih =>
      intro i t hi ht
      have h1 := hb (history c i t) fun x hx => history_bounds hx
      have h2 := readSample_bounds c i t
      rw [forSamples, residuals_succ, rebuild, storeAll, hp i t hi ht, wrap64_of_bounds (by omega) (by omega), ih]
      · congr 2
        · rw [history_succ, readSample_writeSample, if_pos rfl]
          congr 1
          exact history_congr fun k hk => by rw [readSample_writeSample, if_neg (by omega)]
        · apply List.map_congr_left
          intro j _
          rw [readSample_writeSample, if_neg (by omega)]
      · omega
      · rw [ht]; rfl
  exact main _ _ _ le_rfl rfl

/-- Rebuilding the differences of samples gives the samples back, whatever the predictor, even where a residual
did not fit its word. -/
theorem rebuild_differences {P : List Int → Int} {past xs : List Int}
    (hx : ∀ x ∈ xs, -2147483648 ≤ x ∧ x < 2147483648) :
    (rebuild P past ((differences P past xs).map held)).map held = xs := by
  induction xs generalizing past with
  | nil => rfl
  | cons x xs ih =>
    have h := hx x (by simp)
    have e : held (P past + held (x - P past)) = x := by
      rw [held_add_held]
      have : P past + (x - P past) = x := by omega
      rw [this, held_of_bounds h.1 h.2]
    simp only [differences, List.map_cons, rebuild, e, ih fun y hy => hx y (by simp [hy])]

/-! ## The wasted-bits shift (rule R157) -/

theorem restoreWasted_eq {c wasted : Nat} {xs : List Int} {s : State}
    (h : ∀ j (hj : j < xs.length), readSample c j s = held xs[j]) :
    restoreWasted c wasted xs.length s = if wasted = 0 then s else storeAll c 0 (scaled wasted xs) s := by
  unfold restoreWasted
  split
  · rw [if_neg (by omega)]
    have e : xs.length = (scaled wasted xs).length := by simp [scaled]
    rw [e]
    refine forSamples_eq_storeAll (value := fun i s => readSample c i s * ((2 ^ wasted : Nat) : Int)) fun j hj => ?_
    have hj' : j < xs.length := by simpa [scaled] using hj
    have : readSample c (0 + j) (storeAll c 0 ((scaled wasted xs).take j) s) = readSample c j s := by
      rw [Nat.zero_add, readSample, readSample, sampleWord_storeAll_of_outside]
      simp only [sampleAddress, List.length_take]; omega
    simp only [this, h j hj']
    simp [scaled]
  · rw [if_pos (by omega)]

end Sys2Proof.Machine
end

