-- ==== Sys2Proof/Laws/Number.lean ====
section
/-! SUPPORT. Laws/Number.lean: fields side by side, and what VARINT reads: a canonical number whole, and where each
malformed one stops. -/

namespace Sys2Proof.Machine

/-! ## Fields side by side -/

theorem uBits_mod (n v : Nat) : uBits n (v % 2 ^ n) = uBits n v := by
  have h := uBits_bitsValue (uBits n v)
  rw [length_uBits, bitsValue_uBits] at h
  simpa using h

theorem uBits_append (m n a b : Nat) : uBits m a ++ uBits n b = uBits (m + n) (a * 2 ^ n + b % 2 ^ n) := by
  have h := uBits_bitsValue (uBits m a ++ uBits n b)
  rw [List.length_append, length_uBits, length_uBits] at h
  rw [← h]
  have e : bitsValue 0 (uBits m a ++ uBits n b) = (a % 2 ^ m) * 2 ^ n + b % 2 ^ n := by
    rw [bitsValue, List.foldl_append]
    have h1 := bitsValue_uBits m a 0
    have h2 := bitsValue_uBits n b (a % 2 ^ m)
    simp only [bitsValue, Nat.zero_mul, Nat.zero_add] at h1 h2
    rw [h1, h2]
  rw [e, ← uBits_mod (m + n) (a * 2 ^ n + b % 2 ^ n), ← uBits_mod (m + n) (a % 2 ^ m * 2 ^ n + b % 2 ^ n)]
  congr 1
  rw [Nat.pow_add]
  have hb : b % 2 ^ n < 2 ^ n := Nat.mod_lt _ (by positivity)
  have key : ∀ x : Nat, (x * 2 ^ n + b % 2 ^ n) % (2 ^ m * 2 ^ n) = x % 2 ^ m * 2 ^ n + b % 2 ^ n := by
    intro x
    rw [Nat.mul_comm (2 ^ m) (2 ^ n), Nat.mod_mul, Nat.mul_comm x, Nat.mul_add_mod, Nat.mod_eq_of_lt hb,
      Nat.mul_add_div (by positivity), Nat.div_eq_of_lt hb, Nat.add_zero]
    ring
  rw [key, key, Nat.mod_mod]

/-! ## The variable-length number (rules R130 to R133) -/

/-- The lead byte of a number with `n` continuation bytes (rule R131). -/
def leadByte (n v : Nat) : Nat :=
  if n = 0 then v % 2 ^ 7 else (2 ^ (n + 1) - 1) * 2 ^ (7 - n) + v / 2 ^ (6 * n) % 2 ^ (6 - n)

theorem numberBits_eq {n : Nat} (hn : n ≤ 6) (v : Nat) :
    numberBits n v = uBits 8 (leadByte n v) ++ continuationBits n v := by
  have hl : ∀ n, n ≤ 6 → n ≠ 0 → ∀ p, p < 64 → p < 2 ^ (6 - n) →
      List.replicate (n + 1) true ++ [false] ++ uBits (6 - n) p
        = uBits 8 ((2 ^ (n + 1) - 1) * 2 ^ (7 - n) + p) := by decide
  unfold numberBits leadByte
  by_cases h0 : n = 0
  · subst h0
    rw [if_pos rfl, if_pos rfl, uBits_append]
    simp [continuationBits]
  · rw [if_neg h0, if_neg h0, ← uBits_mod (6 - n), hl n hn h0]
    · refine lt_of_lt_of_le (Nat.mod_lt _ (by positivity)) ?_
      calc 2 ^ (6 - n) ≤ 2 ^ 6 := Nat.pow_le_pow_right (by norm_num) (by omega)
        _ = 64 := by norm_num
    · exact Nat.mod_lt _ (by positivity)

theorem leadByte_lt {n : Nat} (hn : n ≤ 6) (v : Nat) : leadByte n v < 2 ^ 8 := by
  unfold leadByte
  have h0 : v % 2 ^ 7 < 2 ^ 7 := Nat.mod_lt _ (by norm_num)
  have h1 : v / 2 ^ (6 * n) % 2 ^ (6 - n) < 2 ^ (6 - n) := Nat.mod_lt _ (by positivity)
  generalize v / 2 ^ (6 * n) % 2 ^ (6 - n) = p at h1
  interval_cases n <;> simp at * <;> omega

theorem lead_leadByte {n : Nat} (hn : n ≤ 6) (v : Nat) :
    lead (leadByte n v) = some (n, if n = 0 then v % 2 ^ 7 else v / 2 ^ (6 * n) % 2 ^ (6 - n)) := by
  unfold leadByte
  have h0 : v % 2 ^ 7 < 2 ^ 7 := Nat.mod_lt _ (by norm_num)
  have h1 : v / 2 ^ (6 * n) % 2 ^ (6 - n) < 2 ^ (6 - n) := Nat.mod_lt _ (by positivity)
  generalize v / 2 ^ (6 * n) % 2 ^ (6 - n) = p at h1
  generalize v % 2 ^ 7 = q at h0
  by_cases hn0 : n = 0
  · subst hn0
    simp only [if_true, lead]
    rw [if_pos (by omega)]
  · rw [if_neg hn0, if_neg hn0]
    simp only [lead]
    interval_cases n <;> simp at * <;> split_ifs <;> (try simp) <;> omega

@[simp] theorem length_continuationBits (n v : Nat) : (continuationBits n v).length = 8 * n := by
  induction n with
  | zero => rfl
  | succ n ih => simp [continuationBits, ih]; omega

theorem continuationBits_take {n k : Nat} (hk : k ≤ n) (v : Nat) :
    (continuationBits n v).take (8 * k) = continuationBits k (v / 2 ^ (6 * (n - k))) := by
  induction n generalizing k with
  | zero => obtain rfl : k = 0 := by omega
            rfl
  | succ n ih =>
    cases k with
    | zero => simp [continuationBits]
    | succ k =>
      have e : 8 * (k + 1) = (uBits 2 2 ++ uBits 6 (v / 2 ^ (6 * n))).length + 8 * k := by simp; omega
      have d : v / 2 ^ (6 * (n + 1 - (k + 1))) / 2 ^ (6 * k) = v / 2 ^ (6 * n) := by
        rw [Nat.div_div_eq_div_mul, ← Nat.pow_add]; congr 2; omega
      rw [continuationBits, e, List.take_length_add_append, ih (by omega), continuationBits, d]
      rw [Nat.add_sub_add_right]

/-- Continuation bytes that the source holds are taken into the payload. -/
theorem readContinuation_of_holds {k m v acc : Nat} {s : State} (h : Holds (continuationBits k v) s) :
    readContinuation (k + m) acc s
      = readContinuation m (acc * 2 ^ (6 * k) + v % 2 ^ (6 * k)) (advance (continuationBits k v) s) := by
  induction k generalizing acc s with
  | zero => simp [continuationBits, Nat.mod_one]
  | succ k ih =>
    rw [continuationBits, uBits_append] at h ⊢
    have h' := holds_append.1 h
    have hx : v / 2 ^ (6 * k) % 2 ^ 6 < 64 := Nat.mod_lt _ (by norm_num)
    generalize hg : v / 2 ^ (6 * k) % 2 ^ 6 = x at *
    have hb : bitField (2 * 2 ^ 6 + x) 7 6 = 2 ∧ bitField (2 * 2 ^ 6 + x) 5 0 = x := by
      simp only [bitField]; omega
    rw [show k + 1 + m = (k + m) + 1 by omega, readContinuation,
      readUnsigned_of_holds (n := 8) (by omega) h'.1, Res.bind_ok]
    simp only [hb.1, hb.2, ne_eq, not_true_eq_false, if_false]
    rw [ih h'.2, advance_append]
    congr 1
    have hm : v % 2 ^ (6 * (k + 1)) = v % 2 ^ (6 * k) + 2 ^ (6 * k) * x := by
      rw [show 6 * (k + 1) = 6 * k + 6 by ring, Nat.pow_add, Nat.mod_mul, hg]
    rw [hm, show 6 * (k + 1) = 6 * k + 6 by ring, Nat.pow_add]
    ring

theorem extraBytes_le (v : Nat) : extraBytes v ≤ 6 := by unfold extraBytes; split_ifs <;> omega

/-- What a number with its lead byte and `n` continuation bytes is read as, before the test of canonical form. -/
theorem readVarint_of_holds {n v : Nat} {s : State} (hn : n ≤ 6) (hv : v < 2 ^ (if n = 0 then 7 else 6 + 5 * n))
    (h : Holds (numberBits n v) s) :
    readVarint s = if v < leastValue n then .raised .malformedVarint (advance (numberBits n v) s)
      else .ok v (advance (numberBits n v) s) := by
  rw [numberBits_eq hn] at h ⊢
  have h' := holds_append.1 h
  rw [readVarint, readUnsigned_of_holds (leadByte_lt hn v) h'.1, Res.bind_ok, lead_leadByte hn]
  have hmax : ¬ n > Config.varintMaxExtra := by simp only [Config.varintMaxExtra]; omega
  simp only [if_neg hmax]
  have hc := readContinuation_of_holds (m := 0) (acc := if n = 0 then v % 2 ^ 7 else v / 2 ^ (6 * n) % 2 ^ (6 - n)) h'.2
  rw [Nat.add_zero] at hc
  rw [hc, readContinuation, Res.bind_ok, ← advance_append]
  have e : (if n = 0 then v % 2 ^ 7 else v / 2 ^ (6 * n) % 2 ^ (6 - n)) * 2 ^ (6 * n) + v % 2 ^ (6 * n) = v := by
    by_cases h0 : n = 0
    · subst h0; simp only [if_true] at hv ⊢; simp [Nat.mod_one]; omega
    · rw [if_neg h0] at hv ⊢
      have : v / 2 ^ (6 * n) < 2 ^ (6 - n) := by
        rw [Nat.div_lt_iff_lt_mul (by positivity), ← Nat.pow_add]
        convert hv using 2; omega
      rw [Nat.mod_eq_of_lt this, Nat.mul_comm]; exact Nat.div_add_mod _ _
  simp only [e]

theorem extraBytes_spec {v : Nat} (hv : v < 2 ^ 36) :
    v < 2 ^ (if extraBytes v = 0 then 7 else 6 + 5 * extraBytes v) ∧ ¬ v < leastValue (extraBytes v) := by
  unfold extraBytes
  split_ifs <;> simp [leastValue] at * <;> omega

/-- A canonical number that the source holds is read whole (rule R130). -/
theorem readVarint_of_vint {v : Nat} {s : State} (hv : v < 2 ^ 36) (h : Holds (vintBits v) s) :
    readVarint s = .ok v (advance (vintBits v) s) := by
  have hs := extraBytes_spec hv
  rw [readVarint_of_holds (extraBytes_le v) hs.1 h, if_neg hs.2]; rfl

/-- The first `j` bytes of a number that the source holds, `1 ≤ j ≤ n`: what is left to read. -/
theorem readVarint_of_take {n v j : Nat} {s : State} (hn : n ≤ 6) (hj : j ≤ n)
    (h : Holds ((numberBits n v).take (8 * (j + 1))) s) :
    ∃ acc, readVarint s =
      (readContinuation (n - j) acc (advance ((numberBits n v).take (8 * (j + 1))) s)).bind fun v s =>
        if v < leastValue n then .raised .malformedVarint s else .ok v s := by
  rw [numberBits_eq hn, show 8 * (j + 1) = (uBits 8 (leadByte n v)).length + 8 * j by simp; omega,
    List.take_length_add_append, continuationBits_take hj] at h ⊢
  have h' := holds_append.1 h
  have hc := readContinuation_of_holds (m := n - j)
    (acc := if n = 0 then v % 2 ^ 7 else v / 2 ^ (6 * n) % 2 ^ (6 - n)) h'.2
  rw [show j + (n - j) = n by omega] at hc
  refine ⟨(if n = 0 then v % 2 ^ 7 else v / 2 ^ (6 * n) % 2 ^ (6 - n)) * 2 ^ (6 * j)
    + v / 2 ^ (6 * (n - j)) % 2 ^ (6 * j), ?_⟩
  rw [readVarint, readUnsigned_of_holds (leadByte_lt hn v) h'.1, Res.bind_ok, lead_leadByte hn]
  have hmax : ¬ n > Config.varintMaxExtra := by simp only [Config.varintMaxExtra]; omega
  simp only [if_neg hmax]
  rw [hc, ← advance_append]

theorem readContinuation_of_bad {m acc c : Nat} {s : State} (hc : c < 256) (hb : c / 64 ≠ 2)
    (h : Holds (uBits 8 c) s) :
    readContinuation (m + 1) acc s = .raised .malformedVarint (advance (uBits 8 c) s) := by
  rw [readContinuation, readUnsigned_of_holds (n := 8) (by omega) h, Res.bind_ok, if_pos]
  simp only [bitField]; omega

theorem readContinuation_of_short {m acc : Nat} {s : State} (h : s.pos.toNat + 8 > sourceEnd s) :
    readContinuation (m + 1) acc s = .raised .unexpectedEnd s := by
  rw [readContinuation, readUnsigned_of_short h]; rfl

end Sys2Proof.Machine
end

