-- ==== Sys2Proof/Laws/Header.lean ====
section
/-! SUPPORT. Laws/Header.lean: what FRAMEHDR's parts read of a header spelled in the stream notation of rule R104. -/

namespace Sys2Proof.Machine

/-! ## The header word (rules R85 and R137) -/

/-- The header word as one number. -/
def HeaderFields.word (h : HeaderFields) : Nat :=
  Config.syncCode * 2 ^ 18 + h.strategy * 2 ^ 16 + h.block * 2 ^ 12 + h.rate * 2 ^ 8 + h.channels * 2 ^ 4 + h.size * 2

theorem headerWordBits_eq {h : HeaderFields} (hl : h.legal) : headerWordBits h = uBits 32 h.word := by
  obtain ⟨h1, h2, h3, h4, h5, h6, h7, h8, h9, h10⟩ := hl
  simp only [headerWordBits, uBits_append, HeaderFields.word, Config.syncCode]
  norm_num
  congr 1
  omega

theorem word_fields {h : HeaderFields} (hl : h.legal) :
    h.word < 2 ^ 32 ∧ bitField h.word 31 18 = Config.syncCode ∧ bitField h.word 17 17 = 0
      ∧ bitField h.word 16 16 = h.strategy ∧ bitField h.word 15 12 = h.block ∧ bitField h.word 11 8 = h.rate
      ∧ bitField h.word 7 4 = h.channels ∧ bitField h.word 3 1 = h.size ∧ bitField h.word 0 0 = 0 := by
  obtain ⟨h1, h2, h3, h4, h5, h6, h7, h8, h9, h10⟩ := hl
  simp only [HeaderFields.word, Config.syncCode, bitField]
  omega

theorem headerDefect_word {h : HeaderFields} (hl : h.legal) : headerDefect h.word = none := by
  obtain ⟨-, f1, f2, -, f4, f5, f6, f7, f8⟩ := word_fields hl
  obtain ⟨h1, h2, h3, h4, h5, h6, h7, h8, h9, h10⟩ := hl
  simp only [headerDefect, f1, f2, f4, f5, f6, f7, f8]
  rw [if_neg (by omega), if_neg (by omega), if_neg (by omega), if_neg (by omega), if_neg (by omega), if_neg (by omega),
    if_neg (by omega)]

/-! ## The extensions (rules R139 and R140) -/

theorem readBlocksize_of_holds {b x : Nat} {s : State} (h1 : 1 ≤ b) (h2 : b < 16)
    (hx : x < (if b = 6 then 2 ^ 8 else 2 ^ 16)) (h : Holds (blockExtensionBits b x) s) :
    readBlocksize b s = .ok (blockSizeOf b x) (advance (blockExtensionBits b x) s) := by
  unfold blockExtensionBits at *
  by_cases h6 : b = 6
  · subst h6
    simp only [if_true] at h hx ⊢
    rw [readBlocksize, if_neg (by omega), if_neg (by omega), if_pos rfl, readUnsigned_of_holds hx h]
    simp [blockSizeOf]
  · by_cases h7 : b = 7
    · subst h7
      simp only [if_true, h6, if_false] at h hx ⊢
      have h' := holds_append.1 h
      rw [readBlocksize, if_neg (by omega), if_neg (by omega), if_neg (by omega), if_pos rfl,
        readUnsigned_of_holds (by omega) h'.1, Res.bind_ok, readUnsigned_of_holds (by omega) h'.2, Res.bind_ok,
        advance_append]
      simp [blockSizeOf]; omega
    · simp only [h6, h7, if_false, advance_nil] at h ⊢
      unfold readBlocksize blockSizeOf
      by_cases e1 : b = 1
      · simp [e1]
      · by_cases e2 : b ≤ 5
        · simp [e1, e2]
        · rw [if_neg e1, if_neg e2, if_neg h6, if_neg h7, if_neg e1, if_neg e2, if_neg (by omega)]

theorem readSampleRate_of_holds {r y : Nat} {s : State} (h1 : r < 15)
    (hy : y < (if r = 12 then 2 ^ 8 else 2 ^ 16)) (h : Holds (rateExtensionBits r y) s) :
    readSampleRate r s = .ok (sampleRateOf r y s.siRate.toNat) (advance (rateExtensionBits r y) s) := by
  unfold rateExtensionBits at *
  by_cases h12 : r = 12
  · subst h12
    simp only [if_true] at h hy ⊢
    rw [readSampleRate, if_neg (by omega), if_neg (by omega), if_pos rfl, readUnsigned_of_holds hy h]; rfl
  · by_cases h13 : r = 13
    · subst h13
      simp only [h12, if_false, true_or, if_true] at h hy ⊢
      rw [readSampleRate, if_neg (by omega), if_neg (by omega), if_neg (by omega), if_pos rfl,
        readUnsigned_of_holds hy h]; rfl
    · by_cases h14 : r = 14
      · subst h14
        simp only [h12, h13, if_false, or_true, if_true] at h hy ⊢
        rw [readSampleRate, if_neg (by omega), if_neg (by omega), if_neg (by omega), if_neg (by omega),
          readUnsigned_of_holds hy h]; rfl
      · simp only [h12, h13, h14, if_false, or_self, advance_nil] at h ⊢
        have : r ≤ 11 := by omega
        interval_cases r <;> rfl

theorem sampleRateOf_lt {r y : Nat} (s : State) (h1 : r < 15) (hy : y < (if r = 12 then 2 ^ 8 else 2 ^ 16)) :
    sampleRateOf r y s.siRate.toNat < 2 ^ 20 := by
  have := s.siRate.isLt
  split at hy
  · subst_vars; simp [sampleRateOf]; omega
  · interval_cases r <;> simp [sampleRateOf] <;> omega

theorem sampleSize_eq {z : Nat} (s : State) (h1 : z < 7) (h3 : z ≠ 3) :
    sampleSize z s = BitVec.ofNat 6 (sampleSizeOf z s.siBps.toNat) := by
  interval_cases z <;> simp_all [sampleSize, sampleSizeOf]

/-! ## A whole header (rules R134 to R143) -/

theorem readHeader_of_holds {h : HeaderFields} {c : BitVec 8} {s : State} (hl : h.legal)
    (hh : Holds (headerBits h ++ uBits 8 c.toNat) s) :
    readHeader s =
      (checkHeaderChecksum ((headerBits h).foldl crc8Step 0) c.toNat
        (advance (headerBits h ++ uBits 8 c.toNat) (zeroChecksums s))).bind fun _ t => .ok () (h.registers c t) := by
  have hh : Holds (headerBits h ++ uBits 8 c.toNat) (zeroChecksums s) := (holds_congr (s := s) rfl rfl rfl _).2 hh
  obtain ⟨w0, f1, f2, f3, f4, f5, f6, f7, f8⟩ := word_fields hl
  have hd := headerDefect_word hl
  have hw := headerWordBits_eq hl
  obtain ⟨h1, h2, h3, h4, h5, h6, h7, h8, h9, h10⟩ := hl
  unfold headerBits at hh ⊢
  have a1 := hh.left.left.left.left
  have a2 := hh.left.left.left.right
  have a3 := hh.left.left.right
  have a4 := hh.left.right
  have a5 := hh.right
  rw [hw] at a1
  rw [readHeader, readUnsigned_of_holds w0 a1, Res.bind_ok]
  simp only [hd, f4, f5]
  rw [← hw, readVarint_of_vint h8 a2, Res.bind_ok, ← advance_append, readBlocksize_of_holds h2 h3 h9 a3, Res.bind_ok,
    ← advance_append, readSampleRate_of_holds h4 h10 a4, Res.bind_ok, ← advance_append,
    readUnsigned_of_holds (n := 8) c.isLt a5, Res.bind_ok, ← advance_append]
  simp only [advance_crc8, zeroChecksums_crc8, advance_siRate, zeroChecksums_siRate]
  generalize (headerWordBits h ++ vintBits h.number ++ blockExtensionBits h.block h.blockExt
      ++ rateExtensionBits h.rate h.rateExt) = bits
  have key : ∀ t : State, t.siRate = s.siRate → writeHeader h.word h.number (blockSizeOf h.block h.blockExt)
      (sampleRateOf h.rate h.rateExt s.siRate.toNat) c.toNat t = h.registers c t := by
    intro t ht
    simp only [writeHeader, HeaderFields.registers, f3, f6, f7, sampleSize_eq t h6 h7, channelCount, ht,
      BitVec.ofNat_toNat, BitVec.setWidth_eq, Nat.le_iff_lt_add_one]
  have hs : (advance (bits ++ uBits 8 c.toNat) (zeroChecksums s)).siRate = s.siRate := rfl
  generalize advance (bits ++ uBits 8 c.toNat) (zeroChecksums s) = u at hs ⊢
  unfold checkHeaderChecksum
  split
  · rw [Res.bind_ok, Res.bind_ok, key u hs]
  · split
    · rfl
    · rw [Res.bind_ok, Res.bind_ok, key { u with hcrcBad := true } hs]

/-- A header word with a defect stops right after it (rule R137). -/
theorem readHeader_of_defect {w : Nat} {c : Cause} {s : State} (hw : w < 2 ^ 32) (hd : headerDefect w = some c)
    (hh : Holds (uBits 32 w) s) : readHeader s = .raised c (advance (uBits 32 w) (zeroChecksums s)) := by
  have hh : Holds (uBits 32 w) (zeroChecksums s) := (holds_congr (s := s) rfl rfl rfl _).2 hh
  rw [readHeader, readUnsigned_of_holds hw hh, Res.bind_ok]
  simp only [hd]

theorem readHeader_of_short {s : State} (h : s.pos.toNat + 32 > sourceEnd s) :
    readHeader s = .raised .unexpectedEnd (zeroChecksums s) := by
  rw [readHeader, readUnsigned_of_short (s := zeroChecksums s) h]; rfl

end Sys2Proof.Machine
end

