-- ==== Sys2Proof/Laws/Residual.lean ====
section
/-! SUPPORT. Laws/Residual.lean: what RESID and its partitions read of a section spelled in the notation of rule R104. -/

namespace Sys2Proof.Machine

/-! ## Partitions (rules R172 to R177) -/

/-- A Rice partition that the source holds (rules R173 and R174). -/
theorem ricePartition_of_holds {p : Part} {k : Nat} {vs : List Int} {s : State} (hn : vs.length = p.count)
    (h : Holds (vs.flatMap (riceBits k)) s) :
    ricePartition p k s = .ok () (storeAll p.ch.toNat p.first vs (advance (vs.flatMap (riceBits k)) s)) := by
  rw [ricePartition, ← hn]
  exact readSamples_of_holds (fun v _ s h => riceSymbol_of_holds h) h

/-- An escaped partition that the source holds (rules R176 and R177). -/
theorem escapePartition_of_holds {p : Part} {w : Nat} {vs : List Int} {s : State} (hn : vs.length = p.count)
    (hf : ∀ v ∈ vs, fitsSigned w v) (h : Holds (vs.flatMap (sBits w)) s) :
    escapePartition p w s = .ok () (storeAll p.ch.toNat p.first vs (advance (vs.flatMap (sBits w)) s)) := by
  rw [escapePartition, ← hn]
  exact readSamples_of_holds (fun v hv s h => readSigned_of_holds (hf v hv) h) h

theorem escapeValue_lt (m : Nat) : escapeValue m < 2 ^ paramWidth m := by
  unfold escapeValue paramWidth; split <;> norm_num

theorem decodePartition_of_holds {m : Nat} {p : Part} {c : PartitionCode} {s : State} (hl : c.legal m)
    (hn : c.values.length = p.count) (h : Holds (c.bits m) s) :
    decodePartition m p s = .ok () (storeAll p.ch.toNat p.first c.values (advance (c.bits m) s)) := by
  cases c with
  | rice k vs =>
    simp only [PartitionCode.legal, PartitionCode.values, PartitionCode.bits] at *
    have hk : k < 2 ^ paramWidth m := lt_trans hl (escapeValue_lt m)
    rw [decodePartition, readUnsigned_of_holds hk h.left, Res.bind_ok, if_neg (by omega),
      ricePartition_of_holds hn h.right, ← advance_append]
  | escape w vs =>
    simp only [PartitionCode.legal, PartitionCode.values, PartitionCode.bits] at *
    rw [decodePartition, readUnsigned_of_holds (escapeValue_lt m) h.left.left, Res.bind_ok, if_pos rfl,
      readUnsigned_of_holds (n := 5) hl.1 h.left.right, Res.bind_ok, ← advance_append,
      escapePartition_of_holds hn hl.2 h.right, ← advance_append]

theorem holds_storeAll {bs : List Bool} {c i : Nat} {vs : List Int} {s : State} :
    Holds bs (storeAll c i vs s) ↔ Holds bs s := by
  rw [storeAll_eq]; exact holds_congr rfl rfl rfl _

/-- The partitions of a section, one after another (rule R172). -/
theorem decodePartitions_of_holds {m len i n : Nat} {ch : BitVec 3} {parts : List PartitionCode} {s : State}
    (hl : ∀ c ∈ parts, c.legal m)
    (hn : ∀ j (hj : j < parts.length), parts[j].values.length = if j = 0 then n else len)
    (h : Holds (parts.flatMap (PartitionCode.bits m)) s) :
    decodePartitions m ch len parts.length i n s
      = .ok () (storeAll ch.toNat i (sectionValues parts) (advance (parts.flatMap (PartitionCode.bits m)) s)) := by
  induction parts generalizing i n s with
  | nil => simp [decodePartitions, sectionValues, storeAll]
  | cons c parts ih =>
    rw [List.flatMap_cons] at h ⊢
    have h0 := hn 0 (by simp)
    simp only [List.getElem_cons_zero, if_true] at h0
    rw [List.length_cons, decodePartitions, decodePartition_of_holds (hl c (by simp)) h0 h.left, Res.bind_ok]
    rw [ih (n := len) (fun d hd => hl d (by simp [hd])) ?_ (holds_storeAll.2 h.right)]
    · have sv : sectionValues (c :: parts) = c.values ++ sectionValues parts := by simp [sectionValues]
      rw [sv, storeAll_append, h0, advance_append, advance_storeAll]
    · intro j hj
      have := hn (j + 1) (by simpa using hj)
      simp only [List.getElem_cons_succ] at this
      rw [this]; simp

/-! ## The section (rules R170 and R171) -/

/-- The registers a residual section writes. -/
def sectionRegisters (m p : Nat) (s : State) : State :=
  { s with resMethod := BitVec.ofNat 1 m, resPorder := BitVec.ofNat 4 p }

theorem paramWidth_le (m : Nat) : paramWidth m ≤ 5 := by unfold paramWidth; split <;> omega

/-- The head of a section: its method and its partition order, then the test of rule R171. -/
theorem decodeResidual_of_head {m p o : Nat} {ch : BitVec 3} {s : State} (hm : m < 2) (hp : p < 16)
    (h : Holds (uBits 1 m ++ uBits 4 p) s) :
    decodeResidual ch o s =
      if s.fhBlocksize.toNat % 2 ^ p ≠ 0 ∨ s.fhBlocksize.toNat / 2 ^ p < o then
        .raised .invalidPartitionOrder (advance (uBits 1 m ++ uBits 4 p) (sectionRegisters m p s))
      else
        decodePartitions m ch (s.fhBlocksize.toNat / 2 ^ p) (2 ^ p) o (s.fhBlocksize.toNat / 2 ^ p - o)
          (advance (uBits 1 m ++ uBits 4 p) (sectionRegisters m p s)) := by
  have h1 := h.left; have h2 := h.right
  rw [decodeResidual, readUnsigned_of_holds (n := 1) (by omega) h1, Res.bind_ok]
  have h2' : Holds (uBits 4 p) { advance (uBits 1 m) s with resMethod := BitVec.ofNat 1 m } :=
    (holds_congr (s := advance (uBits 1 m) s) rfl rfl rfl _).2 h2
  rw [readUnsigned_of_holds (n := 4) (by omega) h2', Res.bind_ok]
  have e : { advance (uBits 4 p) { advance (uBits 1 m) s with resMethod := BitVec.ofNat 1 m } with
      resPorder := BitVec.ofNat 4 p }
      = advance (uBits 1 m ++ uBits 4 p) (sectionRegisters m p s) := by
    rw [advance_append]; rfl
  simp only [e]
  rfl

/-- A residual section that the source holds (rule R170). -/
theorem decodeResidual_of_holds {m p o : Nat} {ch : BitVec 3} {parts : List PartitionCode} {s : State}
    (hl : sectionLegal m p s.fhBlocksize.toNat o parts) (h : Holds (sectionBits m p parts) s) :
    decodeResidual ch o s = .ok () (storeAll ch.toNat o (sectionValues parts)
      (advance (sectionBits m p parts) (sectionRegisters m p s))) := by
  obtain ⟨hm, hp, hd, ho, hlen, hleg⟩ := hl
  unfold sectionBits at *
  have hpos : 0 < 2 ^ p := by positivity
  have hcount : parts.length = 2 ^ p := by
    have := congrArg List.length hlen
    simp only [List.length_map, List.length_cons, List.length_replicate] at this
    omega
  rw [decodeResidual_of_head hm hp h.left, if_neg (by omega), ← hcount, decodePartitions_of_holds hleg]
  · rw [← advance_append]
  · intro j hj
    have hj' : j < (parts.map fun c => c.values.length).length := by simpa using hj
    have : (parts.map fun c => c.values.length)[j] = parts[j].values.length := by simp
    rw [← this]
    simp only [hlen]
    cases j with
    | zero => rw [hcount]; rfl
    | succ j => rw [hcount]; simp
  · exact (holds_congr (s := advance (uBits 1 m ++ uBits 4 p) s) rfl rfl rfl _).2 h.right

/-- A partition order that does not divide the block, or leaves the first partition negative (rule R171). -/
theorem decodeResidual_of_bad {m p o : Nat} {ch : BitVec 3} {s : State} (hm : m < 2) (hp : p < 16)
    (hb : s.fhBlocksize.toNat % 2 ^ p ≠ 0 ∨ s.fhBlocksize.toNat / 2 ^ p < o) (h : Holds (uBits 1 m ++ uBits 4 p) s) :
    decodeResidual ch o s = .raised .invalidPartitionOrder
      (advance (uBits 1 m ++ uBits 4 p) (sectionRegisters m p s)) := by
  rw [decodeResidual_of_head hm hp h, if_pos hb]

theorem length_sectionValues {m p n o : Nat} {parts : List PartitionCode} (hl : sectionLegal m p n o parts) :
    (sectionValues parts).length = n - o := by
  obtain ⟨hm, hp, hd, ho, hlen, hleg⟩ := hl
  rw [sectionValues, List.length_flatMap]
  have : (parts.map fun c => c.values.length).sum = n - o := by
    rw [hlen]
    simp only [List.sum_cons, List.sum_replicate, smul_eq_mul]
    have h1 : 0 < 2 ^ p := by positivity
    have h2 : n = 2 ^ p * (n / 2 ^ p) := by
      have := Nat.div_add_mod n (2 ^ p); omega
    have h3 : (2 ^ p - 1) * (n / 2 ^ p) = 2 ^ p * (n / 2 ^ p) - n / 2 ^ p := by
      rw [Nat.sub_mul, Nat.one_mul]
    have h4 : n / 2 ^ p ≤ n := Nat.div_le_self _ _
    omega
  exact this

end Sys2Proof.Machine
end

