-- ==== Sys2Proof/Laws/Subframe.lean ====
section
/-! SUPPORT. Laws/Subframe.lean: what the bodies of the subframe kinds do on a source spelled in the notation of rule R104. -/

namespace Sys2Proof.Machine

/-! ## Stores and registers -/

/-- Register updates commute with a run of stores. -/
theorem storeAll_comm {c : Nat} {f : State → State}
    (hf : ∀ i v s, f (writeSample c i v s) = writeSample c i v (f s)) (i : Nat) (vs : List Int) (s : State) :
    f (storeAll c i vs s) = storeAll c i vs (f s) := by
  induction vs generalizing i s with
  | nil => rfl
  | cons v vs ih => rw [storeAll, ih, hf, storeAll]

theorem history_storeAll {c : Nat} {vs : List Int} {s : State} :
    history c vs.length (storeAll c 0 vs s) = (vs.map held).reverse := by
  apply List.ext_getElem
  · simp
  · intro k h1 h2
    simp only [length_history] at h1
    have := readSample_storeAll_of_lt (c := c) (i := 0) (j := vs.length - 1 - k) (vs := vs) (s := s) (by omega)
    rw [Nat.zero_add] at this
    simp [history, this]

theorem history_storeAll_above {c o i : Nat} {vs : List Int} {s : State} (h : o ≤ i) :
    history c o (storeAll c i vs s) = history c o s :=
  history_congr fun k hk => by
    rw [readSample, readSample, sampleWord_storeAll_of_outside]
    simp only [sampleAddress]; omega

theorem residuals_storeAll {c i : Nat} {vs : List Int} {s : State} :
    residuals c i vs.length (storeAll c i vs s) = vs.map held := by
  apply List.ext_getElem
  · simp [residuals]
  · intro k h1 h2
    simp only [residuals, List.length_map, List.length_range] at h1
    simp [residuals, readSample_storeAll_of_lt h1]

/-! ## The header (rules R92, R94, R151 and R152) -/

theorem fullWidth_eq (ch : BitVec 3) (s : State) : fullWidth ch s = codedWidth ch.toNat s := by
  unfold fullWidth codedWidth isSide
  congr 1
  simp only [Config.sideExtraMs, Bool.true_and, List.mem_cons, List.not_mem_nil, or_false, Prod.mk.injEq]
  have e : ∀ (a : BitVec 4) (c : BitVec 3),
      ((a == 8 && c == 1 || a == 9 && c == 0 || a == 10 && c == 1).toNat)
        = if (a.toNat = 8 ∧ c.toNat = 1 ∨ a.toNat = 9 ∧ c.toNat = 0 ∨ a.toNat = 10 ∧ c.toNat = 1) then 1 else 0 := by
    decide
  exact e s.fhChassign ch

theorem readWasted_of_holds {w : Nat} {s : State} (h : Holds (wastedBits w) s) :
    readWasted (decide (0 < w)) s = .ok w (advance (wastedBits w) s) := by
  unfold readWasted wastedBits at *
  by_cases hw : w = 0
  · subst hw; simp
  · rw [if_neg hw] at h ⊢
    rw [if_pos (by simpa using Nat.pos_of_ne_zero hw), readUnary_of_holds h, Res.bind_ok]
    congr 1; omega

/-- A kind after its header: the body at the width left, then the wasted-bits shift. -/
theorem decodeKind_of_holds {ch : BitVec 3} {k : SubKind} {w : Nat} {s : State} (hw : w < codedWidth ch.toNat s)
    (h : Holds (wastedBits w) s) :
    decodeKind ch k (decide (0 < w)) s =
      (kindBody k ch (codedWidth ch.toNat s - w) s.fhBlocksize.toNat
        (advance (wastedBits w) (writeSubframe k w (codedWidth ch.toNat s - w) s))).bind fun _ t =>
      .ok () (restoreWasted ch.toNat w t.fhBlocksize.toNat t) := by
  rw [decodeKind, readWasted_of_holds h, Res.bind_ok]
  have e : fullWidth ch (advance (wastedBits w) s) = codedWidth ch.toNat s := by rw [fullWidth_eq]; rfl
  rw [e, if_neg (by omega)]
  rfl

/-- A count that leaves no width (rule R152). -/
theorem decodeKind_of_narrow {ch : BitVec 3} {k : SubKind} {w : Nat} {s : State} (hw : codedWidth ch.toNat s ≤ w)
    (h : Holds (wastedBits w) s) :
    decodeKind ch k (decide (0 < w)) s = .raised .reservedCodeUsed (advance (wastedBits w) s) := by
  rw [decodeKind, readWasted_of_holds h, Res.bind_ok]
  have e : fullWidth ch (advance (wastedBits w) s) = codedWidth ch.toNat s := by rw [fullWidth_eq]; rfl
  rw [e, if_pos (by omega)]

/-! ## The wasted-bits shift (rule R157) -/

theorem scaled_zero (xs : List Int) : scaled 0 xs = xs.map held := by simp [scaled]

/-- What the shift leaves of a plane whose first words hold these samples. -/
theorem restoreWasted_spec {c w : Nat} {xs : List Int} {s t : State}
    (h : ∀ j (hj : j < xs.length), sampleWord (sampleAddress c j) t = narrow xs[j])
    (ho : ∀ a, ¬ (sampleAddress c 0 ≤ a ∧ a < sampleAddress c 0 + xs.length) → sampleWord a t = sampleWord a s) :
    Stored c 0 (scaled w xs) s (restoreWasted c w xs.length t)
      ∧ restoreWasted c w xs.length t
        = { t with smp := (restoreWasted c w xs.length t).smp, ovf := t.ovf || (scaled w xs).any narrowLoses } := by
  have hr : ∀ j (hj : j < xs.length), readSample c j t = held xs[j] := fun j hj => by rw [readSample, h j hj, held]
  rw [restoreWasted_eq hr]
  by_cases hw : w = 0
  · subst hw
    rw [if_pos rfl, scaled_zero]
    refine ⟨⟨fun j hj => ?_, fun a ha => ho a (by simpa using ha)⟩, ?_⟩
    · simp only [List.length_map] at hj
      simp [h j hj]
    · have : (xs.map held).any narrowLoses = false := by simp [narrowLoses_held]
      rw [this, Bool.or_false]
  · rw [if_neg hw]
    refine ⟨⟨fun j hj => sampleWord_storeAll_of_lt hj, fun a ha => ?_⟩, storeAll_eq _ _ _ _⟩
    rw [sampleWord_storeAll_of_outside ha]
    exact ho a (by simpa [scaled] using ha)

/-! ## CONSTANT and VERBATIM (rules R153 and R154) -/

theorem constantBody_of_holds {ch : BitVec 3} {width n : Nat} {v : Int} {s : State} (hv : fitsSigned width v)
    (h : Holds (sBits width v) s) :
    constantBody ch width n s = .ok () (storeAll ch.toNat 0 (List.replicate n v) (advance (sBits width v) s)) := by
  rw [constantBody, readSigned_of_holds hv h, Res.bind_ok]
  have := forSamples_eq_storeAll (value := fun _ _ => v) (c := ch.toNat) (i := 0) (vs := List.replicate n v)
    (s := advance (sBits width v) s) (by simp)
  rw [List.length_replicate] at this
  rw [this]

theorem verbatimBody_of_holds {ch : BitVec 3} {width : Nat} {vs : List Int} {s : State}
    (hv : ∀ v ∈ vs, fitsSigned width v) (h : Holds (vs.flatMap (sBits width)) s) :
    verbatimBody ch width vs.length s = .ok () (storeAll ch.toNat 0 vs (advance (vs.flatMap (sBits width)) s)) :=
  readSamples_of_holds (fun v m _ h => readSigned_of_holds (hv v m) h) h

/-! ## FIXED (rule R155) -/

/-- The warm-up and the residuals in their places. -/
theorem warmResidual_of_holds {m p width : Nat} {ch : BitVec 3} {warm : List Int} {parts : List PartitionCode} {s : State}
    (hw : ∀ v ∈ warm, fitsSigned width v) (hl : sectionLegal m p s.fhBlocksize.toNat warm.length parts)
    (h : Holds (warm.flatMap (sBits width) ++ sectionBits m p parts) s) :
    ((readSamples (readSigned width) ch.toNat warm.length 0 s).bind fun _ s => decodeResidual ch warm.length s)
      = .ok () (storeAll ch.toNat warm.length (sectionValues parts) (storeAll ch.toNat 0 warm
          (advance (warm.flatMap (sBits width) ++ sectionBits m p parts) (sectionRegisters m p s)))) := by
  rw [readSamples_of_holds (fun v m s h => readSigned_of_holds (hw v m) h) h.left, Res.bind_ok]
  have hb : (storeAll ch.toNat 0 warm (advance (warm.flatMap (sBits width)) s)).fhBlocksize = s.fhBlocksize := by
    rw [storeAll_eq]; rfl
  rw [decodeResidual_of_holds (by rw [hb]; exact hl) (holds_storeAll.2 h.right)]
  have e := storeAll_comm (c := ch.toNat) (f := sectionRegisters m p) (fun _ _ _ => rfl) 0 warm
    (advance (warm.flatMap (sBits width)) s)
  rw [e, advance_storeAll, advance_append]
  rfl

/-- Reconstruction over a plane that holds a warm-up and residuals. -/
theorem reconstruct_of_residuals {predict : Nat → Nat → State → Int} {P : List Int → Int} {c n : Nat}
    {warm rs : List Int} {s : State} (hn : rs.length = n - warm.length)
    (hp : ∀ i t, warm.length ≤ i → t = { s with smp := t.smp, ovf := t.ovf } → predict c i t = P (history c i t))
    (hb : ∀ past, (∀ x ∈ past, -2147483648 ≤ x ∧ x < 2147483648) →
      -9000000000000000000 ≤ P past ∧ P past ≤ 9000000000000000000) :
    reconstruct predict c warm.length n (storeAll c warm.length rs (storeAll c 0 warm s))
      = storeAll c warm.length (rebuild P (warm.map held).reverse (rs.map held))
          (storeAll c warm.length rs (storeAll c 0 warm s)) := by
  rw [reconstruct_eq (P := P) _ hb, ← hn, residuals_storeAll, history_storeAll_above le_rfl, history_storeAll]
  intro i t hi ht
  refine hp i t hi ?_
  rw [ht, storeAll_eq c warm.length, storeAll_eq c 0]

/-- The words that a warm-up, residuals and the samples rebuilt over them leave. -/
theorem rebuilt_words {c : Nat} {warm rs rb : List Int} {s : State} (hn : rb.length = rs.length) :
    (∀ j (hj : j < (warm ++ rb).length), sampleWord (sampleAddress c j)
        (storeAll c warm.length rb (storeAll c warm.length rs (storeAll c 0 warm s))) = narrow (warm ++ rb)[j])
      ∧ ∀ a, ¬ (sampleAddress c 0 ≤ a ∧ a < sampleAddress c 0 + (warm ++ rb).length) →
        sampleWord a (storeAll c warm.length rb (storeAll c warm.length rs (storeAll c 0 warm s))) = sampleWord a s := by
  have e : ∀ i, sampleAddress c i = sampleAddress c 0 + i := by intro i; simp only [sampleAddress]; omega
  constructor
  · intro j hj
    rw [List.length_append] at hj
    by_cases h : j < warm.length
    · rw [List.getElem_append_left h, sampleWord_storeAll_of_outside (by rw [e j, e warm.length]; omega),
        sampleWord_storeAll_of_outside (by rw [e j, e warm.length]; omega)]
      have := sampleWord_storeAll_of_lt (c := c) (i := 0) (s := s) h
      rwa [Nat.zero_add] at this
    · rw [List.getElem_append_right (by omega)]
      have := sampleWord_storeAll_of_lt (c := c) (i := warm.length) (j := j - warm.length) (vs := rb)
        (s := storeAll c warm.length rs (storeAll c 0 warm s)) (by omega)
      rwa [show warm.length + (j - warm.length) = j by omega] at this
  · intro a ha
    rw [List.length_append] at ha
    rw [sampleWord_storeAll_of_outside (by rw [e warm.length]; omega),
      sampleWord_storeAll_of_outside (by rw [e warm.length]; omega), sampleWord_storeAll_of_outside (by omega)]

theorem fixedBody_of_holds {predict : Nat → Nat → State → Int} {m p width : Nat} {ch : BitVec 3} {warm : List Int}
    {parts : List PartitionCode} {s : State}
    (hp : ∀ i t, warm.length ≤ i → predict ch.toNat i t = fixedPrediction warm.length (history ch.toNat i t))
    (hw : ∀ v ∈ warm, fitsSigned width v) (hl : sectionLegal m p s.fhBlocksize.toNat warm.length parts)
    (h : Holds (warm.flatMap (sBits width) ++ sectionBits m p parts) s) :
    fixedBody predict warm.length ch width s.fhBlocksize.toNat s
      = .ok () (storeAll ch.toNat warm.length
          (rebuild (fixedPrediction warm.length) (warm.map held).reverse ((sectionValues parts).map held))
          (storeAll ch.toNat warm.length (sectionValues parts) (storeAll ch.toNat 0 warm
            (advance (warm.flatMap (sBits width) ++ sectionBits m p parts) (sectionRegisters m p s))))) := by
  rw [fixedBody, ← Res.bind_assoc, warmResidual_of_holds hw hl h, Res.bind_ok,
    reconstruct_of_residuals (P := fixedPrediction warm.length) (length_sectionValues hl)
      (fun i t hi _ => hp i t hi) (fun past hx => by have := fixedPrediction_bounds (o := warm.length) hx; omega)]

/-! ## LPC (rules R158 to R160) -/

/-- The registers the parameters of an LPC subframe write (rule R158). -/
def lpcRegisters (prec : Nat) (shift : Int) (coefs : List Int) (s : State) : State :=
  { s with
    lpcPrec := BitVec.ofNat 5 prec
    lpcShift := BitVec.ofInt 5 shift
    coef := loadCoefficients coefs s.coef }

/-- Coefficients written one after another from index `j` on. -/
def writeCoefficients : Nat → List Int → State → State
  | _, [], s => s
  | j, v :: vs, s => writeCoefficients (j + 1) vs (writeCoefficient j v s)

theorem readCoefficients_of_holds {prec j : Nat} {vs : List Int} {s : State} (hv : ∀ v ∈ vs, fitsSigned prec v)
    (h : Holds (vs.flatMap (sBits prec)) s) :
    readCoefficients prec vs.length j s = .ok () (writeCoefficients j vs (advance (vs.flatMap (sBits prec)) s)) := by
  induction vs generalizing j s with
  | nil => simp [readCoefficients, writeCoefficients]
  | cons v vs ih =>
    rw [List.flatMap_cons] at h ⊢
    rw [List.length_cons, readCoefficients, readSigned_of_holds (hv v (by simp)) h.left, Res.bind_ok,
      ih (s := writeCoefficient j v (advance (sBits prec v) s)) (fun w hw => hv w (by simp [hw]))
        ((holds_congr (s := advance (sBits prec v) s) rfl rfl rfl _).2 h.right), advance_append]
    rfl

theorem writeCoefficients_eq (vs : List Int) (j : Nat) (s : State) :
    writeCoefficients j vs s = { s with coef := (writeCoefficients j vs s).coef } := by
  induction vs generalizing j s with
  | nil => rfl
  | cons v vs ih => rw [writeCoefficients, ih]; rfl

theorem getElem_writeCoefficients (vs : List Int) (j k : Nat) (hk : k < Config.maxOrder) (s : State) :
    (writeCoefficients j vs s).coef[k]
      = if j ≤ k then ((vs[k - j]?).map (BitVec.ofInt 16)).getD s.coef[k] else s.coef[k] := by
  induction vs generalizing j s with
  | nil => simp [writeCoefficients]
  | cons v vs ih =>
    rw [writeCoefficients, ih]
    simp only [writeCoefficient, Vector.getElem_setIfInBounds]
    by_cases h1 : j + 1 ≤ k
    · obtain ⟨d, rfl⟩ : ∃ d, k = j + 1 + d := ⟨k - (j + 1), by omega⟩
      have h2 : j + 1 + d - j = d + 1 := by omega
      simp [h2, show ¬ j = j + 1 + d by omega, show j ≤ j + 1 + d by omega]
    · by_cases h2 : j = k
      · subst h2; simp
      · simp [h1, h2, show ¬ j ≤ k by omega]

theorem writeCoefficients_load (vs : List Int) (s : State) :
    writeCoefficients 0 vs s = { s with coef := loadCoefficients vs s.coef } := by
  have e : (writeCoefficients 0 vs s).coef = loadCoefficients vs s.coef := by
    ext k hk
    rw [getElem_writeCoefficients vs 0 k hk s]
    simp [loadCoefficients]
  rw [writeCoefficients_eq, e]

theorem readLpcParams_of_holds {prec : Nat} {shift : Int} {coefs : List Int} {s : State} (h1 : 1 ≤ prec)
    (h2 : prec ≤ 16) (h3 : 0 ≤ shift) (h4 : shift < 16) (hc : ∀ v ∈ coefs, fitsSigned prec v)
    (h : Holds (uBits 4 (prec - 1) ++ sBits 5 shift ++ coefs.flatMap (sBits prec)) s) :
    readLpcParams coefs.length s = .ok ()
      (lpcRegisters prec shift coefs
        (advance (uBits 4 (prec - 1) ++ sBits 5 shift ++ coefs.flatMap (sBits prec)) s)) := by
  have hs : fitsSigned 5 shift := by unfold fitsSigned; rw [if_neg (by omega)]; constructor <;> norm_num <;> omega
  rw [readLpcParams, readUnsigned_of_holds (n := 4) (by omega) h.left.left, Res.bind_ok,
    show prec - 1 + 1 = prec by omega]
  have a2 : Holds (sBits 5 shift) { advance (uBits 4 (prec - 1)) s with lpcPrec := BitVec.ofNat 5 prec } :=
    (holds_congr (s := advance (uBits 4 (prec - 1)) s) rfl rfl rfl _).2 h.left.right
  rw [readSigned_of_holds hs a2, Res.bind_ok, if_neg (by omega)]
  have e : { advance (sBits 5 shift) { advance (uBits 4 (prec - 1)) s with lpcPrec := BitVec.ofNat 5 prec } with
      lpcShift := BitVec.ofInt 5 shift }
      = { advance (uBits 4 (prec - 1) ++ sBits 5 shift) s with
          lpcPrec := BitVec.ofNat 5 prec, lpcShift := BitVec.ofInt 5 shift } := by
    rw [advance_append]; rfl
  rw [e, readCoefficients_of_holds
    (s := { advance (uBits 4 (prec - 1) ++ sBits 5 shift) s with
      lpcPrec := BitVec.ofNat 5 prec, lpcShift := BitVec.ofInt 5 shift }) hc
    ((holds_congr (s := advance (uBits 4 (prec - 1) ++ sBits 5 shift) s) rfl rfl rfl _).2 h.right),
    writeCoefficients_load, advance_append _ (coefs.flatMap (sBits prec))]
  rfl

/-- A negative shift raises before any coefficient is read (rule R158). -/
theorem readLpcParams_of_negative {o prec : Nat} {shift : Int} {s : State} (h1 : 1 ≤ prec) (h2 : prec ≤ 16)
    (h3 : -16 ≤ shift) (h4 : shift < 0) (h : Holds (uBits 4 (prec - 1) ++ sBits 5 shift) s) :
    readLpcParams o s = .raised .invalidShift
      { advance (uBits 4 (prec - 1) ++ sBits 5 shift) s with
        lpcPrec := BitVec.ofNat 5 prec, lpcShift := BitVec.ofInt 5 shift } := by
  have hs : fitsSigned 5 shift := by unfold fitsSigned; rw [if_neg (by omega)]; constructor <;> norm_num <;> omega
  rw [readLpcParams, readUnsigned_of_holds (n := 4) (by omega) h.left, Res.bind_ok,
    show prec - 1 + 1 = prec by omega]
  have a2 : Holds (sBits 5 shift) { advance (uBits 4 (prec - 1)) s with lpcPrec := BitVec.ofNat 5 prec } :=
    (holds_congr (s := advance (uBits 4 (prec - 1)) s) rfl rfl rfl _).2 h.right
  rw [readSigned_of_holds hs a2, Res.bind_ok, if_pos ⟨h4, rfl⟩, advance_append]
  rfl

theorem coefficient_load {coefs : List Int} {prec j : Nat} {s : State} (hp : prec ≤ 16)
    (hc : ∀ v ∈ coefs, fitsSigned prec v) (hl : coefs.length ≤ Config.maxOrder) (hj : j < coefs.length)
    (h : ∃ old, s.coef = loadCoefficients coefs old) : coefficient j s = coefs[j] := by
  obtain ⟨old, h⟩ := h
  have hk : j < Config.maxOrder := by omega
  have e : s.coef.toList.getD j 0#16 = BitVec.ofInt 16 coefs[j] := by
    rw [List.getD_eq_getElem?_getD, Vector.getElem?_toList, Vector.getElem?_eq_getElem hk, h]
    simp [loadCoefficients, hj]
  have hf := hc _ (List.getElem_mem hj)
  rw [coefficient, e, BitVec.toInt_ofInt]
  unfold fitsSigned at hf
  split at hf
  · rw [hf]; rfl
  · have : 2 ^ (prec - 1) ≤ 2 ^ 15 := Nat.pow_le_pow_right (by norm_num) (by omega)
    have e : (2 : Nat) ^ 15 = 32768 := by norm_num
    exact Int.bmod_eq_of_le (by omega) (by omega)

theorem lpcBody_of_holds {m p width prec shift : Nat} {ch : BitVec 3} {warm coefs : List Int}
    {parts : List PartitionCode} {s : State} (hlen : warm.length = coefs.length) (ho : coefs.length ≤ 32)
    (hw : ∀ v ∈ warm, fitsSigned width v) (h1 : 1 ≤ prec) (h2 : prec ≤ 16) (h4 : shift < 16)
    (hc : ∀ v ∈ coefs, fitsSigned prec v) (hl : sectionLegal m p s.fhBlocksize.toNat warm.length parts)
    (h : Holds (warm.flatMap (sBits width) ++ (uBits 4 (prec - 1) ++ sBits 5 shift ++ coefs.flatMap (sBits prec))
      ++ sectionBits m p parts) s) :
    lpcBody warm.length ch width s.fhBlocksize.toNat s
      = .ok () (storeAll ch.toNat warm.length
          (rebuild (linearPrediction coefs shift) (warm.map held).reverse ((sectionValues parts).map held))
          (storeAll ch.toNat warm.length (sectionValues parts) (storeAll ch.toNat 0 warm
            (advance (warm.flatMap (sBits width)
                ++ (uBits 4 (prec - 1) ++ sBits 5 shift ++ coefs.flatMap (sBits prec)) ++ sectionBits m p parts)
              (sectionRegisters m p (lpcRegisters prec shift coefs s)))))) := by
  generalize hpb : uBits 4 (prec - 1) ++ sBits 5 shift ++ coefs.flatMap (sBits prec) = pb at h
  have a1 := h.left.left
  have a2 : Holds pb (storeAll ch.toNat 0 warm (advance (warm.flatMap (sBits width)) s)) := holds_storeAll.2 h.left.right
  have a3 := h.right
  rw [lpcBody, readSamples_of_holds (fun v m s h => readSigned_of_holds (hw v m) h) a1, Res.bind_ok]
  have hpar := readLpcParams_of_holds h1 h2 (Int.natCast_nonneg shift) (by exact_mod_cast h4) hc (by rw [hpb]; exact a2)
  rw [hpb] at hpar
  rw [hlen, hpar, Res.bind_ok, ← hlen]
  have e : lpcRegisters prec shift coefs (advance pb (storeAll ch.toNat 0 warm (advance (warm.flatMap (sBits width)) s)))
      = storeAll ch.toNat 0 warm (advance (warm.flatMap (sBits width) ++ pb) (lpcRegisters prec shift coefs s)) := by
    rw [advance_storeAll, ← advance_append,
      storeAll_comm (c := ch.toNat) (f := lpcRegisters prec shift coefs) (fun _ _ _ => rfl)]
    rfl
  have hN : (storeAll ch.toNat 0 warm
      (advance (warm.flatMap (sBits width) ++ pb) (lpcRegisters prec shift coefs s))).fhBlocksize = s.fhBlocksize := by
    rw [storeAll_eq]; rfl
  rw [e, decodeResidual_of_holds (s := storeAll ch.toNat 0 warm
      (advance (warm.flatMap (sBits width) ++ pb) (lpcRegisters prec shift coefs s))) (by rw [hN]; exact hl)
    (holds_storeAll.2 ((holds_congr (s := advance (warm.flatMap (sBits width) ++ pb) s) rfl rfl rfl _).2 a3)), Res.bind_ok]
  have e2 := storeAll_comm (c := ch.toNat) (f := sectionRegisters m p) (fun _ _ _ => rfl) 0 warm
    (advance (warm.flatMap (sBits width) ++ pb) (lpcRegisters prec shift coefs s))
  rw [e2, advance_storeAll]
  have e3 : advance (sectionBits m p parts)
      (sectionRegisters m p (advance (warm.flatMap (sBits width) ++ pb) (lpcRegisters prec shift coefs s)))
      = advance (warm.flatMap (sBits width) ++ pb ++ sectionBits m p parts)
          (sectionRegisters m p (lpcRegisters prec shift coefs s)) := by
    rw [advance_append _ (sectionBits m p parts)]; rfl
  rw [e3]
  have hrs : (sectionValues parts).length = s.fhBlocksize.toNat - warm.length := length_sectionValues hl
  rw [reconstruct_of_residuals (P := linearPrediction coefs shift) hrs]
  · intro i t hi ht
    have hq : t.lpcShift.toInt = shift := by
      rw [ht]
      simp only [advance_lpcShift, sectionRegisters, lpcRegisters, BitVec.toInt_ofInt]
      exact Int.bmod_eq_of_le (by omega) (by omega)
    rw [predictLpc_eq (by omega) hi hq]
    congr 1
    apply List.ext_getElem
    · simpa using hlen
    · intro j g1 g2
      simp only [List.getElem_map, List.getElem_range]
      exact coefficient_load h2 hc ho g2 ⟨s.coef, by rw [ht]; rfl⟩
  · intro past hx
    have hcb : ∀ a ∈ coefs, -32768 ≤ a ∧ a ≤ 32767 := by
      intro a ha
      have hf := hc a ha
      unfold fitsSigned at hf
      split at hf
      · omega
      · have : 2 ^ (prec - 1) ≤ 2 ^ 15 := Nat.pow_le_pow_right (by norm_num) (by omega)
        have e : (2 : Nat) ^ 15 = 32768 := by norm_num
        omega
    have := linearPrediction_bounds (q := shift) hcb ho hx
    omega

end Sys2Proof.Machine
end

