-- ==== Sys2Proof/Laws/Exec.lean ====
section
/-! SUPPORT. Laws/Exec.lean: from an instruction to the body it runs, and the end every subframe kind shares. -/

namespace Sys2Proof.Machine

/-! ## Register checks -/

theorem subframeLegal_iff {s : State} : subframeLegal s = true ↔ SubframeRegisters s := by
  simp only [subframeLegal, blocksizeLegal, bpsLegal, chassignLegal, SubframeRegisters, Config.maxBlock,
    Bool.and_eq_true, decide_eq_true_eq]
  tauto

theorem blocksizeLegal_iff {s : State} :
    blocksizeLegal s = true ↔ 1 ≤ s.fhBlocksize.toNat ∧ s.fhBlocksize.toNat ≤ 65536 := by
  simp only [blocksizeLegal, Config.maxBlock, Bool.and_eq_true, decide_eq_true_eq]

/-! ## Stream kinds -/

theorem exec_subframeKind (k : SubKind) (ch : BitVec 3) (w : Bool) (s : State) :
    exec (k.instr ch w) s = subframeKind ch k w s := by cases k <;> rfl

/-- A subframe kind whose registers are legal. -/
theorem subframeKind_of_ready {ch : BitVec 3} {k : SubKind} {w : Bool} {s : State} (hs : s.st ≠ .fault)
    (hr : SubframeRegisters s) :
    subframeKind ch k w s = finish (atFrameLevel ((decodeKind ch k w s).bind fun _ t => .ok s.st t)) := by
  rw [subframeKind, streamKind_of_ready hs, if_pos (subframeLegal_iff.2 hr)]

theorem partitionKind_of_ready {p : Part} {body : State → Res Unit} {s : State} (hs : s.st ≠ .fault)
    (hp : p.wellFormed = true) :
    streamKind (inPlane p body) s = finish (atFrameLevel ((body s).bind fun _ t => .ok s.st t)) := by
  rw [streamKind_of_ready hs, inPlane, if_pos hp]

theorem channelKind_of_ready {body : State → State} {s : State} (hs : s.st ≠ .fault)
    (hb : blocksizeLegal s = true) : channelKind body s = .next { body s with st := s.st } := by
  rw [channelKind, streamKind_of_ready hs, if_pos hb]; rfl

/-- The 8 header bits of a legal subframe: the kind, decoded after them (rule R151). -/
theorem decodeSubframe_of_header {ch : BitVec 3} {k : SubKind} {w : Bool} {s : State}
    (h : Holds (uBits 1 0 ++ uBits 6 k.selector ++ uBits 1 w.toNat) s) :
    decodeSubframe ch s
      = decodeKind ch k w (advance (uBits 1 0 ++ uBits 6 k.selector ++ uBits 1 w.toNat) s) := by
  have hk : SubKind.ofSelector k.selector = some k ∧ k.selector < 64 := by
    cases k
    case lpc o => clear h; revert o; decide
    all_goals exact ⟨rfl, by decide⟩
  rw [decodeSubframe, readUnsigned_of_holds (n := 1) (v := 0) (by omega) h.left.left, Res.bind_ok]
  simp only [Nat.zero_ne_one, if_false]
  rw [readUnsigned_of_holds (n := 6) (by omega) h.left.right, Res.bind_ok]
  simp only [hk.1]
  rw [← advance_append, readUnsigned_of_holds (n := 1) (by cases w <;> simp) h.right, Res.bind_ok, ← advance_append]
  cases w <;> rfl

/-! ## Kinds whose body has stored a plane -/

/-- The end of a kind whose body left these samples in the plane: the shift, and nothing else (rule R157). -/
theorem finishKind {c w : Nat} {xs : List Int} {s u : State} {st : BlockState} (hn : u.fhBlocksize.toNat = xs.length)
    (hx : ∀ j (hj : j < xs.length), sampleWord (sampleAddress c j) u = narrow xs[j])
    (ho : ∀ a, ¬ (sampleAddress c 0 ≤ a ∧ a < sampleAddress c 0 + xs.length) → sampleWord a u = sampleWord a s) :
    ∃ t, finish (atFrameLevel ((Res.ok () u).bind fun _ t =>
        (Res.ok () (restoreWasted c w t.fhBlocksize.toNat t)).bind fun _ t => .ok st t)) = .next t
      ∧ Stored c 0 (scaled w xs) s t
      ∧ t = { u with smp := t.smp, ovf := u.ovf || (scaled w xs).any narrowLoses, st := st } := by
  obtain ⟨h1, h2⟩ := restoreWasted_spec (w := w) hx ho
  refine ⟨{ restoreWasted c w xs.length u with st := st }, ?_, h1, ?_⟩
  · simp only [Res.bind_ok, atFrameLevel_ok, finish_ok, hn]
  · exact congrArg (fun t : State => { t with st := st }) h2

end Sys2Proof.Machine
end

