-- ==== Sys2Proof/Laws/Parts.lean ====
section
/-! SUPPORT. Laws/Parts.lean: what each part of a command may do: what it leaves alone, which words it may change,
which causes it may raise. Fields of the stream, samples and residuals. -/

namespace Sys2Proof.Machine

/-! ## Erasures: what a part leaves alone is what survives its erasure -/

/-- Everything but the cursor and the checksums. -/
def exceptStream (s : State) : State := { s with pos := 0, crc8 := 0, crc16 := 0 }

/-- Everything but those, sample memory and its overflow flag. -/
def exceptSamples (s : State) : State := { exceptStream s with smp := [], ovf := false }

/-- Everything but those and the registers of a residual section. -/
def exceptSection (s : State) : State := { exceptSamples s with resMethod := 0, resPorder := 0 }

/-- Everything but those and the other registers of a subframe. -/
def exceptSubframe (s : State) : State :=
  { exceptSection s with
    sfType := 0, sfOrder := 0, sfWasted := 0, sfWidth := 0, lpcPrec := 0, lpcShift := 0
    coef := State.reset.coef }

theorem eq_of_exceptStream {s t : State} (h : exceptStream t = exceptStream s) :
    t = { s with pos := t.pos, crc8 := t.crc8, crc16 := t.crc16 } := by
  cases s; cases t; simp only [exceptStream, State.mk.injEq] at h ⊢; tauto

theorem eq_of_exceptSamples {s t : State} (h : exceptSamples t = exceptSamples s) :
    t = { s with pos := t.pos, crc8 := t.crc8, crc16 := t.crc16, smp := t.smp, ovf := t.ovf } := by
  cases s; cases t; simp only [exceptSamples, exceptStream, State.mk.injEq] at h ⊢; tauto

theorem eq_of_exceptSection {s t : State} (h : exceptSection t = exceptSection s) :
    t = { s with pos := t.pos, crc8 := t.crc8, crc16 := t.crc16, smp := t.smp, ovf := t.ovf, resMethod := t.resMethod,
                 resPorder := t.resPorder } := by
  cases s; cases t; simp only [exceptSection, exceptSamples, exceptStream, State.mk.injEq] at h ⊢; tauto

theorem eq_of_exceptSubframe {s t : State} (h : exceptSubframe t = exceptSubframe s) :
    t = { s with pos := t.pos, crc8 := t.crc8, crc16 := t.crc16, smp := t.smp, ovf := t.ovf, resMethod := t.resMethod,
                 resPorder := t.resPorder, sfType := t.sfType, sfOrder := t.sfOrder, sfWasted := t.sfWasted,
                 sfWidth := t.sfWidth, lpcPrec := t.lpcPrec, lpcShift := t.lpcShift, coef := t.coef } := by
  cases s; cases t
  simp only [exceptSubframe, exceptSection, exceptSamples, exceptStream, State.mk.injEq] at h ⊢; tauto

/-! ## What a part may do -/

/-- The ranges of rule R41. -/
def Ranges (s : State) : Prop :=
  s.sfOrder.toNat ≤ Config.maxOrder ∧ s.sfWasted.toNat ≤ 32 ∧ s.sfWidth.toNat ≤ 33 ∧ s.lpcPrec.toNat ≤ Config.maxPrec

/-- The cursor moves forward inside the source, `OVF` is only ever set, and of sample memory only words at the addresses
`W` change. -/
structure Moves (W : Nat → Prop) (s t : State) : Prop where
  length : sourceEnd t = sourceEnd s
  forward : s.pos.toNat ≤ sourceEnd s → s.pos.toNat ≤ t.pos.toNat ∧ t.pos.toNat ≤ sourceEnd s
  sticky : s.ovf = true → t.ovf = true
  words : ∀ a, ¬ W a → sampleWord a t = sampleWord a s
  canonical : samplesWf s.smp = true → samplesWf t.smp = true
  ranges : Ranges s → Ranges t

variable {W W' : Nat → Prop} {s t u : State}

theorem Moves.refl (W : Nat → Prop) (s : State) : Moves W s s :=
  ⟨rfl, fun h => ⟨le_rfl, h⟩, id, fun _ _ => rfl, id, id⟩

theorem Moves.trans (h : Moves W s t) (h' : Moves W t u) : Moves W s u where
  length := h'.length.trans h.length
  forward hp := by
    have h1 := h.forward hp
    have h2 := h'.forward (by rw [h.length]; exact h1.2)
    rw [h.length] at h2
    exact ⟨h1.1.trans h2.1, h2.2⟩
  sticky := h'.sticky ∘ h.sticky
  words a ha := (h'.words a ha).trans (h.words a ha)
  canonical := h'.canonical ∘ h.canonical
  ranges := h'.ranges ∘ h.ranges

theorem Moves.mono (h : Moves W s t) (hw : ∀ a, W a → W' a) : Moves W' s t :=
  { h with words := fun a ha => h.words a fun hc => ha (hw a hc) }

/-- An update that leaves the cursor, the source length, the samples and the ranges of rule R41 alone. -/
theorem Moves.of_update (hl : t.srcLen = s.srcLen) (hp : t.pos = s.pos) (ho : t.ovf = s.ovf) (hm : t.smp = s.smp)
    (hs : t.sampleSeed = s.sampleSeed) (hr : Ranges s → Ranges t) : Moves W s t where
  length := by simp only [sourceEnd, hl]
  forward h := by rw [hp]; exact ⟨le_rfl, h⟩
  sticky := by rw [ho]; exact id
  words _ _ := by simp only [sampleWord, hm, hs]
  canonical := by rw [hm]; exact id
  ranges := hr

theorem moves_advance {bs : List Bool} (h : Holds bs s) : Moves W s (advance bs s) where
  length := rfl
  forward _ := by rw [h.pos_advance]; exact ⟨by omega, h.1⟩
  sticky := id
  words _ _ := rfl
  canonical := id
  ranges := id

theorem moves_writeSample {c i : Nat} (v : Int) (hW : W (sampleAddress c i)) (hc : c < Config.maxCh)
    (hi : i < Config.maxBlock) : Moves W s (writeSample c i v s) where
  length := rfl
  forward h := ⟨le_rfl, h⟩
  sticky h := by simp [writeSample, h]
  words a ha := by
    rw [sampleWord_writeSample, if_neg]
    rintro rfl; exact ha hW
  canonical h := samplesWf_writeSample hc hi h
  ranges := id

/-- A part of a command: however it ends, it has moved within `W`, what `E` keeps is as before, and if it raised, it was
one of the causes `C`. It does not stop the model. -/
def Does {α : Type} (W : Nat → Prop) (E : State → State) (C : List Cause) (s : State) (r : Res α) : Prop :=
  r.All (fun _ t => Moves W s t ∧ E t = E s) (fun c t => c ∈ C ∧ Moves W s t ∧ E t = E s) (fun _ => False)

section Does

variable {α β : Type} {E : State → State} {C C' : List Cause} {r : Res α}

theorem Does.ok (a : α) (h : Moves W s t) (he : E t = E s) : Does W E C s (.ok a t) := ⟨h, he⟩

theorem Does.raised (c : Cause) (hc : c ∈ C) (h : Moves W s t) (he : E t = E s) : Does W E C s (.raised c t : Res α) :=
  ⟨hc, h, he⟩

theorem Does.bind {f : α → State → Res β} (hr : Does W E C s r)
    (hf : ∀ a t, r = .ok a t → E t = E s → Moves W s t → Does W E C t (f a t)) : Does W E C s (r.bind f) := by
  cases r with
  | ok a t =>
    have h := hf a t rfl hr.2 hr.1
    rw [Res.bind_ok]
    revert h
    cases f a t with
    | ok b u => exact fun h => ⟨hr.1.trans h.1, h.2.trans hr.2⟩
    | raised c u => exact fun h => ⟨h.1, hr.1.trans h.2.1, h.2.2.trans hr.2⟩
    | stopped e => exact id
  | raised c t => exact hr
  | stopped e => exact hr

theorem Does.mono {E' : State → State} (h : Does W E C s r) (hw : ∀ a, W a → W' a) (hc : ∀ c ∈ C, c ∈ C')
    (he : ∀ t, E t = E s → E' t = E' s) : Does W' E' C' s r :=
  Res.All.mono h (fun _ t h => ⟨h.1.mono hw, he t h.2⟩) (fun c t h => ⟨hc c h.1, h.2.1.mono hw, he t h.2.2⟩) fun _ h => h

/-- An update before a part. -/
theorem Does.after (h : Does W E C t r) (hm : Moves W s t) (he : E t = E s) : Does W E C s r :=
  Res.All.mono h (fun _ _ h => ⟨hm.trans h.1, h.2.trans he⟩) (fun _ _ h => ⟨h.1, hm.trans h.2.1, h.2.2.trans he⟩)
    fun _ h => h

end Does

theorem except_samples_of_stream (h : exceptStream t = exceptStream s) : exceptSamples t = exceptSamples s :=
  congrArg (fun s : State => { s with smp := [], ovf := false }) h

theorem except_section_of_samples (h : exceptSamples t = exceptSamples s) : exceptSection t = exceptSection s :=
  congrArg (fun s : State => { s with resMethod := 0, resPorder := 0 }) h

theorem except_subframe_of_section (h : exceptSection t = exceptSection s) : exceptSubframe t = exceptSubframe s :=
  congrArg (fun s : State => { s with
    sfType := 0, sfOrder := 0, sfWasted := 0, sfWidth := 0, lpcPrec := 0, lpcShift := 0
    coef := State.reset.coef }) h

/-! ## Fields of the stream -/

theorem does_readUnsigned (W : Nat → Prop) (n : Nat) (s : State) :
    Does W exceptStream [.unexpectedEnd] s (readUnsigned n s) := by
  rcases readUnsigned_cases n s with ⟨-, h, e⟩ | ⟨-, e⟩ <;> rw [e]
  · exact .ok _ (moves_advance h) rfl
  · exact .raised _ (by simp) (.refl _ _) rfl

theorem does_readSigned (W : Nat → Prop) (n : Nat) (s : State) :
    Does W exceptStream [.unexpectedEnd] s (readSigned n s) := by
  rcases readSigned_cases n s with ⟨-, h, e⟩ | ⟨-, e⟩ <;> rw [e]
  · exact .ok _ (moves_advance h) rfl
  · exact .raised _ (by simp) (.refl _ _) rfl

theorem does_readUnary (W : Nat → Prop) (b : Bool) (s : State) :
    Does W exceptStream [.unexpectedEnd] s (readUnary b s) := by
  rcases readUnary_cases b s with ⟨k, h, e⟩ | ⟨-, e⟩ <;> rw [e]
  · exact .ok _ (moves_advance h) rfl
  · exact .raised _ (by simp) (.refl _ _) rfl

theorem does_riceSymbol (W : Nat → Prop) (k : Nat) (s : State) :
    Does W exceptStream [.unexpectedEnd] s (riceSymbol k s) :=
  (does_readUnary W true s).bind fun _ t _ _ _ => (does_readUnsigned W k t).bind fun _ _ _ _ _ => .ok _ (.refl _ _) rfl

theorem does_alignToByte (h : s.pos.toNat ≤ sourceEnd s) (W : Nat → Prop) :
    Does W exceptStream [] s (alignToByte s) := by
  have hh := holds_nextBits (padding_le h)
  rw [alignToByte_of_holds hh (by simp)]
  exact .ok _ (moves_advance hh) rfl

theorem does_readContinuation (W : Nat → Prop) (n v : Nat) (s : State) :
    Does W exceptStream [.unexpectedEnd, .malformedVarint] s (readContinuation n v s) := by
  induction n generalizing v s with
  | zero => exact .ok _ (.refl _ _) rfl
  | succ n ih =>
    refine ((does_readUnsigned W 8 s).mono (fun _ => id) (by simp) fun _ => id).bind fun c t _ _ _ => ?_
    split
    · exact .raised _ (by simp) (.refl _ _) rfl
    · exact ih _ _

theorem does_readVarint (W : Nat → Prop) (s : State) :
    Does W exceptStream [.unexpectedEnd, .malformedVarint] s (readVarint s) := by
  refine ((does_readUnsigned W 8 s).mono (fun _ => id) (by simp) fun _ => id).bind fun b t _ _ _ => ?_
  split
  · exact .raised _ (by simp) (.refl _ _) rfl
  · split
    · exact .raised _ (by simp) (.refl _ _) rfl
    · refine (does_readContinuation W _ _ t).bind fun v u _ _ _ => ?_
      split
      · exact .raised _ (by simp) (.refl _ _) rfl
      · exact .ok _ (.refl _ _) rfl

theorem does_readBlocksize (W : Nat → Prop) (b : Nat) (s : State) :
    Does W exceptStream [.unexpectedEnd] s (readBlocksize b s) := by
  unfold readBlocksize
  split
  · exact .ok _ (.refl _ _) rfl
  split
  · exact .ok _ (.refl _ _) rfl
  split
  · exact (does_readUnsigned W 8 s).bind fun _ _ _ _ _ => .ok _ (.refl _ _) rfl
  split
  · exact (does_readUnsigned W 8 s).bind fun _ t _ _ _ => (does_readUnsigned W 8 t).bind fun _ _ _ _ _ =>
      .ok _ (.refl _ _) rfl
  · exact .ok _ (.refl _ _) rfl

theorem does_readSampleRate (W : Nat → Prop) (r : Nat) (s : State) :
    Does W exceptStream [.unexpectedEnd] s (readSampleRate r s) := by
  unfold readSampleRate
  split
  · exact .ok _ (.refl _ _) rfl
  split
  · exact .ok _ (.refl _ _) rfl
  split
  · exact does_readUnsigned W 8 s
  split
  · exact does_readUnsigned W 16 s
  · exact (does_readUnsigned W 16 s).bind fun _ _ _ _ _ => .ok _ (.refl _ _) rfl

/-! ## Samples -/

/-- The addresses of samples `lo` to `hi - 1` of plane `c`. -/
def Span (c lo hi : Nat) (a : Nat) : Prop := ∃ j, lo ≤ j ∧ j < hi ∧ a = sampleAddress c j

theorem Span.mono {c lo hi lo' hi' : Nat} (hl : lo' ≤ lo) (hh : hi ≤ hi') (a : Nat) (h : Span c lo hi a) :
    Span c lo' hi' a := by
  obtain ⟨j, h1, h2, h3⟩ := h
  exact ⟨j, by omega, by omega, h3⟩

theorem does_readSamples {field : State → Res Int} {c lo hi n i : Nat} (hc : c < Config.maxCh)
    (hh : hi ≤ Config.maxBlock) (hl : lo ≤ i) (hn : i + n ≤ hi)
    (hf : ∀ s, Does (Span c lo hi) exceptStream [.unexpectedEnd] s (field s)) (s : State) :
    Does (Span c lo hi) exceptSamples [.unexpectedEnd] s (readSamples field c n i s) := by
  induction n generalizing i s with
  | zero => exact .ok _ (.refl _ _) rfl
  | succ n ih =>
    refine ((hf s).mono (fun _ => id) (fun _ => id) fun _ => except_samples_of_stream).bind fun v t _ _ _ => ?_
    exact (ih (by omega) (by omega) _).after (moves_writeSample v ⟨i, hl, by omega, rfl⟩ hc (by omega)) rfl

theorem moves_forSamples {step : Nat → State → State} {n i lo hi : Nat} (hl : lo ≤ i) (hn : i + n ≤ hi)
    (hs : ∀ j s, lo ≤ j → j < hi → Moves W s (step j s) ∧ exceptSamples (step j s) = exceptSamples s) (s : State) :
    Moves W s (forSamples step n i s) ∧ exceptSamples (forSamples step n i s) = exceptSamples s := by
  induction n generalizing i s with
  | zero => exact ⟨.refl _ _, rfl⟩
  | succ n ih =>
    have h1 := hs i s hl (by omega)
    have h2 := ih (i := i + 1) (by omega) (by omega) (step i s)
    exact ⟨h1.1.trans h2.1, h2.2.trans h1.2⟩

/-! ## Residuals -/

theorem does_ricePartition {p : Part} (k : Nat) (hp : p.first + p.count ≤ Config.maxBlock) (s : State) :
    Does (Span p.ch.toNat p.first (p.first + p.count)) exceptSamples [.unexpectedEnd] s (ricePartition p k s) :=
  does_readSamples p.ch.isLt hp le_rfl le_rfl (fun s => does_riceSymbol _ k s) s

theorem does_escapePartition {p : Part} (w : Nat) (hp : p.first + p.count ≤ Config.maxBlock) (s : State) :
    Does (Span p.ch.toNat p.first (p.first + p.count)) exceptSamples [.unexpectedEnd] s (escapePartition p w s) :=
  does_readSamples p.ch.isLt hp le_rfl le_rfl (fun s => does_readSigned _ w s) s

theorem does_decodePartition {p : Part} (m : Nat) (hp : p.first + p.count ≤ Config.maxBlock) (s : State) :
    Does (Span p.ch.toNat p.first (p.first + p.count)) exceptSamples [.unexpectedEnd] s (decodePartition m p s) := by
  refine ((does_readUnsigned _ _ s).mono (fun _ => id) (fun _ => id) fun _ => except_samples_of_stream).bind
    fun k t _ _ _ => ?_
  split
  · exact ((does_readUnsigned _ _ t).mono (fun _ => id) (fun _ => id) fun _ => except_samples_of_stream).bind
      fun w u _ _ _ => does_escapePartition w hp u
  · exact does_ricePartition k hp t

theorem does_decodePartitions {m len left i n lo hi : Nat} {ch : BitVec 3} (hl : lo ≤ i) (hh : hi ≤ Config.maxBlock)
    (hn : left ≠ 0 → i + n + (left - 1) * len ≤ hi) (s : State) :
    Does (Span ch.toNat lo hi) exceptSamples [.unexpectedEnd] s (decodePartitions m ch len left i n s) := by
  induction left generalizing i n s with
  | zero => exact .ok _ (.refl _ _) rfl
  | succ left ih =>
    have h := hn (by omega)
    simp only [Nat.add_sub_cancel] at h
    refine ((does_decodePartition m (p := ⟨ch, i, n⟩) ?_ s).mono (Span.mono hl ?_) (fun _ => id) fun _ => id).bind
      fun _ t _ _ _ => ih (by omega) (fun hz => ?_) t
    · show i + n ≤ _; omega
    · show i + n ≤ _; omega
    · obtain ⟨k, rfl⟩ := Nat.exists_eq_succ_of_ne_zero hz
      simp only [Nat.succ_eq_add_one, Nat.add_sub_cancel] at h ⊢
      rw [Nat.add_mul] at h; omega

theorem does_decodeResidual {o : Nat} (ch : BitVec 3) (hb : s.fhBlocksize.toNat ≤ Config.maxBlock) :
    Does (Span ch.toNat o s.fhBlocksize.toNat) exceptSection [.unexpectedEnd, .invalidPartitionOrder] s
      (decodeResidual ch o s) := by
  have lift : ∀ {α : Type} {n : Nat} {t : State} {r : Res α}, Does (Span ch.toNat o n) exceptStream [.unexpectedEnd] t r →
      Does (Span ch.toNat o n) exceptSection [.unexpectedEnd, .invalidPartitionOrder] t r := fun h =>
    h.mono (fun _ => id) (by simp) fun _ h => except_section_of_samples (except_samples_of_stream h)
  refine (lift (does_readUnsigned _ _ s)).bind fun m t _ ht _ => ?_
  refine Does.after (t := { t with resMethod := BitVec.ofNat 1 m }) ?_ (.of_update rfl rfl rfl rfl rfl id) rfl
  refine (lift (does_readUnsigned _ _ _)).bind fun p u _ hu _ => ?_
  have hf : u.fhBlocksize.toNat = s.fhBlocksize.toNat := by
    have h1 := congrArg (fun s : State => s.fhBlocksize.toNat) hu
    have h2 := congrArg (fun s : State => s.fhBlocksize.toNat) ht
    exact h1.trans h2
  simp only [hf]
  have hm : Moves (Span ch.toNat o s.fhBlocksize.toNat) u { u with resPorder := BitVec.ofNat 4 p } :=
    .of_update rfl rfl rfl rfl rfl id
  split
  · exact .raised _ (by simp) hm rfl
  · rename_i hc
    refine Does.after ?_ hm rfl
    refine (does_decodePartitions le_rfl hb (fun _ => ?_) _).mono (fun _ => id) (by simp)
      fun _ => except_section_of_samples
    have h1 : s.fhBlocksize.toNat = 2 ^ p * (s.fhBlocksize.toNat / 2 ^ p) := by
      have := Nat.div_add_mod s.fhBlocksize.toNat (2 ^ p); omega
    have h2 : (2 ^ p - 1) * (s.fhBlocksize.toNat / 2 ^ p)
        = 2 ^ p * (s.fhBlocksize.toNat / 2 ^ p) - s.fhBlocksize.toNat / 2 ^ p := by rw [Nat.sub_mul, Nat.one_mul]
    have h3 := Nat.div_le_self s.fhBlocksize.toNat (2 ^ p)
    omega

end Sys2Proof.Machine
end

