-- ==== Sys2Proof/Laws/SubframeParts.lean ====
section
/-! SUPPORT. Laws/SubframeParts.lean: what the subframe kinds may do. -/

namespace Sys2Proof.Machine

variable {W W' : Nat → Prop} {s t u : State}

/-! ## Subframes -/

theorem kept_blocksize (h : exceptSubframe t = exceptSubframe s) : t.fhBlocksize.toNat = s.fhBlocksize.toNat := by
  have := congrArg (fun s : State => s.fhBlocksize.toNat) h; exact this

theorem kept_bps (h : exceptSubframe t = exceptSubframe s) : t.fhBps.toNat = s.fhBps.toNat := by
  have := congrArg (fun s : State => s.fhBps.toNat) h; exact this

theorem readUnsigned_lt {n v : Nat} (h : readUnsigned n s = .ok v t) : v < 2 ^ n := by
  rcases readUnsigned_cases n s with ⟨-, -, e⟩ | ⟨-, e⟩ <;> rw [e] at h
  · cases h
    have := bitsValue_lt (nextBits n s)
    rwa [length_nextBits] at this
  · cases h

/-- What the body of a kind leaves alone. -/
def exceptBody : SubKind → State → State
  | .constant => exceptSamples
  | .verbatim => exceptSamples
  | .fixed0 => exceptSection
  | .fixed1 => exceptSection
  | .fixed2 => exceptSection
  | .fixed3 => exceptSection
  | .fixed4 => exceptSection
  | .lpc _ => exceptSubframe

/-- What the body of a kind can raise. -/
def bodyCauses : SubKind → List Cause
  | .constant => [.unexpectedEnd]
  | .verbatim => [.unexpectedEnd]
  | .fixed0 => [.unexpectedEnd, .invalidPartitionOrder]
  | .fixed1 => [.unexpectedEnd, .invalidPartitionOrder]
  | .fixed2 => [.unexpectedEnd, .invalidPartitionOrder]
  | .fixed3 => [.unexpectedEnd, .invalidPartitionOrder]
  | .fixed4 => [.unexpectedEnd, .invalidPartitionOrder]
  | .lpc _ => [.unexpectedEnd, .invalidShift, .invalidPartitionOrder]

theorem moves_reconstruct {predict : Nat → Nat → State → Int} {c o n : Nat} (hc : c < Config.maxCh) (ho : o ≤ 32)
    (hn : n ≤ Config.maxBlock) (s : State) :
    Moves (Span c 0 (max n 32)) s (reconstruct predict c o n s)
      ∧ exceptSamples (reconstruct predict c o n s) = exceptSamples s := by
  refine moves_forSamples (W := Span c 0 (max n 32))
    (step := fun i s => writeSample c i (wrap64 (predict c i s + readSample c i s)) s) (lo := 0) (hi := max n 32) (n := n - o) (i := o) (by omega) (by omega) (fun j s _ hj => ⟨?_, rfl⟩) s
  have : (32 : Nat) ≤ Config.maxBlock := by decide
  exact moves_writeSample _ ⟨j, by omega, hj, rfl⟩ hc (by omega)

theorem does_constantBody {ch : BitVec 3} {width n : Nat} (hn : n ≤ Config.maxBlock) (s : State) :
    Does (Span ch.toNat 0 (max n 32)) exceptSamples [.unexpectedEnd] s (constantBody ch width n s) := by
  refine ((does_readSigned _ width s).mono (fun _ => id) (fun _ => id) fun _ => except_samples_of_stream).bind
    fun v t _ _ _ => ?_
  have h := moves_forSamples (W := Span ch.toNat 0 (max n 32)) (step := fun i s => writeSample ch.toNat i v s)
    (lo := 0) (hi := n) (n := n) (i := 0)
    (by omega) (by omega) (fun j s _ hj => ⟨moves_writeSample v ⟨j, by omega, by omega, rfl⟩ ch.isLt (by omega), rfl⟩) t
  exact .ok _ h.1 h.2

theorem does_verbatimBody {ch : BitVec 3} {width n : Nat} (hn : n ≤ Config.maxBlock) (s : State) :
    Does (Span ch.toNat 0 (max n 32)) exceptSamples [.unexpectedEnd] s (verbatimBody ch width n s) :=
  does_readSamples ch.isLt (by have : (32 : Nat) ≤ Config.maxBlock := by decide
                               omega) le_rfl (by omega) (fun s => does_readSigned _ width s) s

theorem does_warmUp {ch : BitVec 3} {width n o : Nat} (hn : n ≤ Config.maxBlock) (ho : o ≤ 32) (s : State) :
    Does (Span ch.toNat 0 (max n 32)) exceptSamples [.unexpectedEnd] s
      (readSamples (readSigned width) ch.toNat o 0 s) :=
  does_readSamples ch.isLt (by have : (32 : Nat) ≤ Config.maxBlock := by decide
                               omega) le_rfl (by omega) (fun s => does_readSigned _ width s) s

theorem does_fixedBody {predict : Nat → Nat → State → Int} {o : Nat} {ch : BitVec 3} {width : Nat} (ho : o ≤ 32)
    (hn : s.fhBlocksize.toNat ≤ Config.maxBlock) :
    Does (Span ch.toNat 0 (max s.fhBlocksize.toNat 32)) exceptSection [.unexpectedEnd, .invalidPartitionOrder] s
      (fixedBody predict o ch width s.fhBlocksize.toNat s) := by
  refine ((does_warmUp hn ho s).mono (fun _ => id) (by simp) fun _ => except_section_of_samples).bind
    fun _ t _ ht _ => ?_
  have hb : t.fhBlocksize.toNat = s.fhBlocksize.toNat := kept_blocksize (except_subframe_of_section ht)
  refine ((does_decodeResidual (o := o) ch (by rw [hb]; exact hn)).mono (Span.mono (by omega) (by rw [hb]; omega))
    (fun _ => id) fun _ => id).bind fun _ u _ _ _ => ?_
  have h := moves_reconstruct (predict := predict) ch.isLt ho hn u
  exact .ok _ h.1 (except_section_of_samples h.2)

theorem does_readCoefficients (W : Nat → Prop) (prec left j : Nat) (s : State) :
    Does W exceptSubframe [.unexpectedEnd] s (readCoefficients prec left j s) := by
  induction left generalizing j s with
  | zero => exact .ok _ (.refl _ _) rfl
  | succ left ih =>
    refine ((does_readSigned W prec s).mono (fun _ => id) (fun _ => id) fun _ h =>
      except_subframe_of_section (except_section_of_samples (except_samples_of_stream h))).bind fun v t _ _ _ => ?_
    exact (ih _ _).after (.of_update rfl rfl rfl rfl rfl id) rfl

theorem does_readLpcParams (W : Nat → Prop) (o : Nat) (s : State) :
    Does W exceptSubframe [.unexpectedEnd, .invalidShift] s (readLpcParams o s) := by
  have lift : ∀ {E : State} {α : Type} {r : Res α}, Does W exceptStream [.unexpectedEnd] E r →
      Does W exceptSubframe [.unexpectedEnd, .invalidShift] E r := fun h =>
    h.mono (fun _ => id) (by simp) fun _ h =>
      except_subframe_of_section (except_section_of_samples (except_samples_of_stream h))
  refine (lift (does_readUnsigned W 4 s)).bind fun p t hp _ _ => ?_
  have hp : p < 16 := readUnsigned_lt hp
  refine Does.after (t := { t with lpcPrec := BitVec.ofNat 5 (p + 1) }) ?_ (.of_update rfl rfl rfl rfl rfl ?_) rfl
  · refine (lift (does_readSigned W 5 _)).bind fun q u _ _ _ => ?_
    have hm : Moves W u { u with lpcShift := BitVec.ofInt 5 q } := .of_update rfl rfl rfl rfl rfl id
    split
    · exact .raised _ (by simp) hm rfl
    · exact ((does_readCoefficients W _ _ _ _).mono (fun _ => id) (by simp) fun _ => id).after hm rfl
  · rintro ⟨h1, h2, h3, -⟩
    refine ⟨h1, h2, h3, ?_⟩
    simp only [BitVec.toNat_ofNat, Config.maxPrec]; omega

theorem does_lpcBody {o : Nat} {ch : BitVec 3} {width : Nat} (ho : o ≤ 32)
    (hn : s.fhBlocksize.toNat ≤ Config.maxBlock) :
    Does (Span ch.toNat 0 (max s.fhBlocksize.toNat 32)) exceptSubframe
      [.unexpectedEnd, .invalidShift, .invalidPartitionOrder] s (lpcBody o ch width s.fhBlocksize.toNat s) := by
  refine ((does_warmUp hn ho s).mono (fun _ => id) (by simp) fun _ h =>
    except_subframe_of_section (except_section_of_samples h)).bind fun _ t _ ht _ => ?_
  refine ((does_readLpcParams _ o t).mono (fun _ => id) (by simp) fun _ => id).bind fun _ u _ hu _ => ?_
  have hb : u.fhBlocksize.toNat = s.fhBlocksize.toNat := kept_blocksize (hu.trans ht)
  refine ((does_decodeResidual (o := o) ch (by rw [hb]; exact hn)).mono (Span.mono (by omega) (by rw [hb]; omega))
    (by simp) fun _ => except_subframe_of_section).bind fun _ v _ _ _ => ?_
  have h := moves_reconstruct (predict := predictLpc o) ch.isLt ho hn v
  exact .ok _ h.1 (except_subframe_of_section (except_section_of_samples h.2))

theorem predictorOrder_le (k : SubKind) : predictorOrder k ≤ 32 := by
  cases k
  case lpc o => have := o.isLt; simp only [predictorOrder]; omega
  all_goals decide

theorem does_kindBody (k : SubKind) {ch : BitVec 3} {width : Nat} (hn : s.fhBlocksize.toNat ≤ Config.maxBlock) :
    Does (Span ch.toNat 0 (max s.fhBlocksize.toNat 32)) (exceptBody k) (bodyCauses k) s
      (kindBody k ch width s.fhBlocksize.toNat s) := by
  cases k
  case constant => exact does_constantBody hn s
  case verbatim => exact does_verbatimBody hn s
  case lpc o => exact does_lpcBody (predictorOrder_le (.lpc o)) hn
  all_goals exact does_fixedBody (by decide) hn

/-- What a kind leaves alone. -/
def exceptKind (k : SubKind) (s : State) : State :=
  { exceptBody k s with sfType := 0, sfOrder := 0, sfWasted := 0, sfWidth := 0 }

theorem except_kind_of_body {k : SubKind} (h : exceptBody k t = exceptBody k s) : exceptKind k t = exceptKind k s :=
  congrArg (fun s : State => { s with sfType := 0, sfOrder := 0, sfWasted := 0, sfWidth := 0 }) h

theorem except_body_of_samples {k : SubKind} (h : exceptSamples t = exceptSamples s) : exceptBody k t = exceptBody k s := by
  cases k
  case constant => exact h
  case verbatim => exact h
  case lpc o => exact except_subframe_of_section (except_section_of_samples h)
  all_goals exact except_section_of_samples h

theorem except_subframe_of_kind {k : SubKind} (h : exceptKind k t = exceptKind k s) : exceptSubframe t = exceptSubframe s := by
  have h' := congrArg (fun s : State => { s with
    sfType := 0, sfOrder := 0, sfWasted := 0, sfWidth := 0, lpcPrec := 0, lpcShift := 0, resMethod := 0, resPorder := 0
    coef := State.reset.coef }) h
  cases k <;> exact h'

theorem moves_restoreWasted {c w n : Nat} (hc : c < Config.maxCh) (hn : n ≤ Config.maxBlock) (s : State) :
    Moves (Span c 0 (max n 32)) s (restoreWasted c w n s) ∧ exceptSamples (restoreWasted c w n s) = exceptSamples s := by
  unfold restoreWasted
  split
  · exact moves_forSamples (W := Span c 0 (max n 32)) (lo := 0) (hi := n) (n := n) (i := 0) (by omega) (by omega) (fun j s _ hj =>
      ⟨moves_writeSample _ ⟨j, by omega, by omega, rfl⟩ hc (by omega), rfl⟩) s
  · exact ⟨.refl _ _, rfl⟩

theorem does_readWasted (W : Nat → Prop) (b : Bool) (s : State) :
    Does W exceptStream [.unexpectedEnd] s (readWasted b s) := by
  unfold readWasted
  split
  · exact (does_readUnary W true s).bind fun _ _ _ _ _ => .ok _ (.refl _ _) rfl
  · exact .ok _ (.refl _ _) rfl

theorem does_decodeKind (ch : BitVec 3) (k : SubKind) (flag : Bool) (hn : s.fhBlocksize.toNat ≤ Config.maxBlock)
    (hb : s.fhBps.toNat ≤ 32) :
    Does (Span ch.toNat 0 (max s.fhBlocksize.toNat 32)) (exceptKind k) (.reservedCodeUsed :: bodyCauses k) s
      (decodeKind ch k flag s) := by
  have hu : ∀ c ∈ [Cause.unexpectedEnd], c ∈ Cause.reservedCodeUsed :: bodyCauses k := by cases k <;> simp [bodyCauses]
  refine ((does_readWasted _ flag s).mono (fun _ => id) hu fun _ h =>
    except_kind_of_body (except_body_of_samples (except_samples_of_stream h))).bind fun w t _ ht _ => ?_
  have ht := except_subframe_of_kind ht
  have hN : t.fhBlocksize.toNat = s.fhBlocksize.toNat := kept_blocksize ht
  have hB : t.fhBps.toNat = s.fhBps.toNat := kept_bps ht
  split
  · exact .raised _ (by simp) (.refl _ _) rfl
  · rename_i hw
    refine Does.bind (Does.after (t := writeSubframe k w (fullWidth ch t - w) t)
      (((does_kindBody k (s := writeSubframe k w (fullWidth ch t - w) t) (hN ▸ hn)).mono
        (by rw [← hN]; exact fun _ => id) (fun _ hc => List.mem_cons_of_mem _ hc) fun _ => except_kind_of_body))
      (.of_update rfl rfl rfl rfl rfl ?_) (by cases k <;> rfl)) fun _ u _ hu _ => ?_
    · rintro ⟨-, -, -, h4⟩
      have h1 := predictorOrder_le k
      have h2 : fullWidth ch t ≤ 33 := by
        have : (isSide ch t).toNat ≤ 1 := by cases isSide ch t <;> decide
        unfold fullWidth; omega
      refine ⟨?_, ?_, ?_, h4⟩ <;> simp only [writeSubframe, BitVec.toNat_ofNat, Config.maxOrder] <;> omega
    · have hM : u.fhBlocksize.toNat = s.fhBlocksize.toNat :=
        (kept_blocksize (except_subframe_of_kind hu)).trans hN
      rw [hM]
      have h := moves_restoreWasted (w := w) ch.isLt hn u
      exact .ok _ h.1 (except_kind_of_body (except_body_of_samples h.2))

theorem does_decodeSubframe (ch : BitVec 3) (hn : s.fhBlocksize.toNat ≤ Config.maxBlock) (hb : s.fhBps.toNat ≤ 32) :
    Does (Span ch.toNat 0 (max s.fhBlocksize.toNat 32)) exceptSubframe
      [.unexpectedEnd, .reservedCodeUsed, .invalidShift, .invalidPartitionOrder] s (decodeSubframe ch s) := by
  have lift : ∀ {E : State} {α : Type} {r : Res α}, Does (Span ch.toNat 0 (max s.fhBlocksize.toNat 32)) exceptStream [.unexpectedEnd] E r →
      Does (Span ch.toNat 0 (max s.fhBlocksize.toNat 32)) exceptSubframe
        [.unexpectedEnd, .reservedCodeUsed, .invalidShift, .invalidPartitionOrder] E r := fun h =>
    h.mono (fun _ => id) (by simp) fun _ h =>
      except_subframe_of_section (except_section_of_samples (except_samples_of_stream h))
  refine (lift (does_readUnsigned _ 1 s)).bind fun r t _ ht _ => ?_
  split
  · exact .raised _ (by simp) (.refl _ _) rfl
  refine (lift (does_readUnsigned _ 6 t)).bind fun c u _ hu _ => ?_
  split
  · exact .raised _ (by simp) (.refl _ _) rfl
  rename_i k _
  refine (lift (does_readUnsigned _ 1 u)).bind fun f v _ hv _ => ?_
  have e := (hv.trans hu).trans ht
  have hN : v.fhBlocksize.toNat = s.fhBlocksize.toNat := kept_blocksize e
  have hB : v.fhBps.toNat = s.fhBps.toNat := kept_bps e
  refine (does_decodeKind ch k _ (hN ▸ hn) (hB ▸ hb)).mono (by rw [hN]; exact fun _ => id) ?_ fun _ =>
    except_subframe_of_kind
  cases k <;> simp [bodyCauses]

theorem does_decodeSubframes (left c : Nat) (hn : s.fhBlocksize.toNat ≤ Config.maxBlock) (hb : s.fhBps.toNat ≤ 32)
    (hc : c + left ≤ Config.maxCh) :
    Does (fun a => ∃ d, c ≤ d ∧ d < c + left ∧ Span d 0 (max s.fhBlocksize.toNat 32) a) exceptSubframe
      [.unexpectedEnd, .reservedCodeUsed, .invalidShift, .invalidPartitionOrder] s (decodeSubframes left c s) := by
  induction left generalizing c s with
  | zero => exact .ok _ (.refl _ _) rfl
  | succ left ih =>
    have hc' : c < 8 := by have : Config.maxCh = 8 := rfl
                           omega
    have e : (BitVec.ofNat 3 c).toNat = c := by simp; omega
    refine ((does_decodeSubframe (BitVec.ofNat 3 c) hn hb).mono ?_ (fun _ => id) fun _ => id).bind fun _ t _ ht _ => ?_
    · rw [e]; exact fun a ha => ⟨c, le_rfl, by omega, ha⟩
    · have hN : t.fhBlocksize.toNat = s.fhBlocksize.toNat := kept_blocksize ht
      have hB : t.fhBps.toNat = s.fhBps.toNat := kept_bps ht
      refine (ih (s := t) (c := c + 1) (hN ▸ hn) (hB ▸ hb) (by omega)).mono ?_ (fun _ => id) fun _ => id
      rw [hN]
      rintro a ⟨d, h1, h2, h3⟩
      exact ⟨d, by omega, by omega, h3⟩

end Sys2Proof.Machine
end

