-- ==== Sys2Proof/Laws/FrameParts.lean ====
section
/-! SUPPORT. Laws/FrameParts.lean: what headers, channel reconstruction and frames may do. -/

namespace Sys2Proof.Machine

variable {W W' : Nat → Prop} {s t u : State}

/-- A part whose end is more than `Does` says of it. -/
theorem Does.bindAll {α β : Type} {E : State → State} {C : List Cause} {r : Res α} {f : α → State → Res β}
    {Q : β → State → Prop} {R : Cause → State → Prop} {S : Fault → Prop} (hr : Does W E C s r)
    (hf : ∀ a t, r = .ok a t → E t = E s → Moves W s t → (f a t).All Q R S)
    (hc : ∀ c t, c ∈ C → Moves W s t → E t = E s → R c t) : (r.bind f).All Q R S := by
  cases r with
  | ok a t => exact hf a t rfl hr.2 hr.1
  | raised c t => exact hc c t hr.1 hr.2.1 hr.2.2
  | stopped e => exact hr.elim

/-! ## Frame headers -/

/-- Everything but the cursor, the checksums, the header's flag and the `FH_*` registers. -/
def exceptHeader (s : State) : State :=
  { exceptStream s with
    hcrcBad := false, fhStrategy := 0, fhBlocksize := 0, fhRate := 0, fhChassign := 0, fhNch := 0, fhBps := 0
    fhNumber := 0, fhCrc := 0 }

theorem eq_of_exceptHeader (h : exceptHeader t = exceptHeader s) :
    t = { s with pos := t.pos, crc8 := t.crc8, crc16 := t.crc16, hcrcBad := t.hcrcBad, fhStrategy := t.fhStrategy,
                 fhBlocksize := t.fhBlocksize, fhRate := t.fhRate, fhChassign := t.fhChassign, fhNch := t.fhNch,
                 fhBps := t.fhBps, fhNumber := t.fhNumber, fhCrc := t.fhCrc } := by
  cases s; cases t; simp only [exceptHeader, exceptStream, State.mk.injEq] at h ⊢; tauto

/-- What an accepted header leaves in its registers (rules R86 and R88). -/
def HeaderAccepted (s : State) : Prop :=
  1 ≤ s.fhBlocksize.toNat ∧ s.fhBlocksize.toNat ≤ 65536 ∧ s.fhChassign.toNat ≤ 10
    ∧ s.fhNch.toNat = channelCount s.fhChassign.toNat

/-- The causes FRAMEHDR raises after its tests (rule R213). -/
def headerCauses : List Cause := [.unexpectedEnd, .syncLost, .reservedCodeUsed, .malformedVarint, .checksumMismatch]

theorem readBlocksize_range {b n : Nat} (hb : b < 16) (hb0 : b ≠ 0) (h : readBlocksize b s = .ok n t) :
    1 ≤ n ∧ n ≤ 65536 := by
  unfold readBlocksize at h
  split at h
  · cases h; omega
  split at h
  · cases h
    have : b = 2 ∨ b = 3 ∨ b = 4 ∨ b = 5 := by omega
    rcases this with rfl | rfl | rfl | rfl <;> decide
  split at h
  · obtain ⟨x, u, h1, h2⟩ := Res.bind_eq_ok.1 h
    cases h2
    have := readUnsigned_lt h1; omega
  split at h
  · obtain ⟨x, u, h1, h2⟩ := Res.bind_eq_ok.1 h
    obtain ⟨y, v, h3, h4⟩ := Res.bind_eq_ok.1 h2
    cases h4
    have := readUnsigned_lt h1; have := readUnsigned_lt h3; omega
  · cases h
    have : b = 8 ∨ b = 9 ∨ b = 10 ∨ b = 11 ∨ b = 12 ∨ b = 13 ∨ b = 14 ∨ b = 15 := by omega
    rcases this with rfl | rfl | rfl | rfl | rfl | rfl | rfl | rfl <;> decide

theorem headerDefect_cases {w : Nat} {c : Cause} (h : headerDefect w = some c) : c = .syncLost ∨ c = .reservedCodeUsed := by
  unfold headerDefect at h
  iterate 7 (split at h; · cases h; simp)
  cases h

theorem headerDefect_none {w : Nat} (h : headerDefect w = none) : bitField w 15 12 ≠ 0 ∧ bitField w 7 4 < 11 := by
  unfold headerDefect at h
  split at h; · cases h
  split at h; · cases h
  split at h; · cases h
  split at h; · cases h
  split at h; · cases h
  constructor <;> omega

theorem all_readHeader (W : Nat → Prop) (s : State) :
    (readHeader s).All (fun _ t => Moves W s t ∧ exceptHeader t = exceptHeader s ∧ HeaderAccepted t)
      (fun c t => c ∈ headerCauses ∧ Moves W s t ∧ exceptStream t = exceptStream s) (fun _ => False) := by
  have lift : ∀ {E : State} {α : Type} {r : Res α}, Does W exceptStream [.unexpectedEnd] E r →
      Does W exceptStream headerCauses E r := fun h => h.mono (fun _ => id) (by simp [headerCauses]) fun _ => id
  have hz : Moves W s (zeroChecksums s) := .of_update rfl rfl rfl rfl rfl id
  refine ((lift (does_readUnsigned W 32 (zeroChecksums s))).after hz rfl).bindAll (fun w t _ ht mt => ?_)
    (fun c t h1 h2 h3 => ⟨h1, h2, h3⟩)
  split
  · rename_i c hc
    rcases headerDefect_cases hc with rfl | rfl <;> exact ⟨by simp [headerCauses], mt, ht⟩
  rename_i hd
  have hd := headerDefect_none hd
  refine Does.bindAll ((does_readVarint W t).mono (fun _ => id) (by simp [headerCauses]) fun _ => id)
    (fun num u _ hu mu => ?_) (fun c u h1 h2 h3 => ⟨h1, mt.trans h2, h3.trans ht⟩)
  have hu := hu.trans ht; have mu := mt.trans mu
  refine Does.bindAll (lift (does_readBlocksize W _ u)) (fun bs v hbs hv mv => ?_)
    (fun c v h1 h2 h3 => ⟨h1, mu.trans h2, h3.trans hu⟩)
  have hv := hv.trans hu; have mv := mu.trans mv
  refine Does.bindAll (lift (does_readSampleRate W _ v)) (fun rate x _ hx mx => ?_)
    (fun c x h1 h2 h3 => ⟨h1, mv.trans h2, h3.trans hv⟩)
  have hx := hx.trans hv; have mx := mv.trans mx
  refine Does.bindAll (lift (does_readUnsigned W 8 x)) (fun c y _ hy my => ?_)
    (fun c y h1 h2 h3 => ⟨h1, mx.trans h2, h3.trans hx⟩)
  have hy := hy.trans hx; have my := mx.trans my
  have fin : ∀ z : State, exceptHeader z = exceptHeader s → Moves W s z →
      Moves W s (writeHeader w num bs rate c z) ∧ exceptHeader (writeHeader w num bs rate c z) = exceptHeader s
        ∧ HeaderAccepted (writeHeader w num bs rate c z) := by
    intro z hz mz
    refine ⟨mz.trans (.of_update rfl rfl rfl rfl rfl id), hz, ?_⟩
    have hr := readBlocksize_range (by simp only [bitField]; omega) hd.1 hbs
    have h4 : channelCount (bitField w 7 4) < 16 := by unfold channelCount; split <;> omega
    refine ⟨?_, ?_, ?_, ?_⟩ <;> simp only [writeHeader, BitVec.toNat_ofNat]
    · omega
    · omega
    · omega
    · rw [Nat.mod_eq_of_lt h4, Nat.mod_eq_of_lt (by omega)]
  have hy' : exceptHeader y = exceptHeader s := congrArg (fun s : State => { s with
    hcrcBad := false, fhStrategy := 0, fhBlocksize := 0, fhRate := 0, fhChassign := 0, fhNch := 0, fhBps := 0
    fhNumber := 0, fhCrc := 0 }) hy
  unfold checkHeaderChecksum
  split
  · exact fin y hy' my
  split
  · exact ⟨by simp [headerCauses], my, hy⟩
  · exact fin _ hy' (my.trans (.of_update rfl rfl rfl rfl rfl id))

/-! ## Channels -/

/-- The planes a channel assignment writes (rule R234). -/
def ChannelSpan (a n : Nat) (x : Nat) : Prop :=
  ((a = 9 ∨ a = 10) ∧ Span 0 0 n x) ∨ ((a = 8 ∨ a = 10) ∧ Span 1 0 n x)

theorem except_writeSample (c i : Nat) (v : Int) (s : State) : exceptSamples (writeSample c i v s) = exceptSamples s := rfl

theorem moves_lsideChannels (hn : s.fhBlocksize.toNat ≤ Config.maxBlock) :
    Moves (Span 1 0 s.fhBlocksize.toNat) s (lsideChannels s) ∧ exceptSamples (lsideChannels s) = exceptSamples s :=
  moves_forSamples (step := lsideStep) (n := s.fhBlocksize.toNat) (i := 0) (lo := 0) (hi := s.fhBlocksize.toNat) (by omega)
    (by omega) (fun j s _ hj => ⟨moves_writeSample _ ⟨j, by omega, hj, rfl⟩ (by decide) (by omega), rfl⟩) s

theorem moves_rsideChannels (hn : s.fhBlocksize.toNat ≤ Config.maxBlock) :
    Moves (Span 0 0 s.fhBlocksize.toNat) s (rsideChannels s) ∧ exceptSamples (rsideChannels s) = exceptSamples s :=
  moves_forSamples (step := rsideStep) (n := s.fhBlocksize.toNat) (i := 0) (lo := 0) (hi := s.fhBlocksize.toNat) (by omega)
    (by omega) (fun j s _ hj => ⟨moves_writeSample _ ⟨j, by omega, hj, rfl⟩ (by decide) (by omega), rfl⟩) s

theorem moves_msideChannels (hn : s.fhBlocksize.toNat ≤ Config.maxBlock) :
    Moves (fun x => Span 0 0 s.fhBlocksize.toNat x ∨ Span 1 0 s.fhBlocksize.toNat x) s (msideChannels s)
      ∧ exceptSamples (msideChannels s) = exceptSamples s := by
  refine moves_forSamples (W := fun x => Span 0 0 s.fhBlocksize.toNat x ∨ Span 1 0 s.fhBlocksize.toNat x)
    (step := msideStep) (n := s.fhBlocksize.toNat) (i := 0) (lo := 0) (hi := s.fhBlocksize.toNat) (by omega)
    (by omega) (fun j t _ hj => ?_) s
  simp only [msideStep]
  generalize midSideLeft (readSample 0 j t) (readSample 1 j t) = left
  generalize left - readSample 1 j t = right
  have h0 : Moves (fun x => Span 0 0 s.fhBlocksize.toNat x ∨ Span 1 0 s.fhBlocksize.toNat x) t (writeSample 0 j left t) :=
    moves_writeSample left (.inl ⟨j, by omega, hj, rfl⟩) (by decide) (by omega)
  have h1 : Moves (fun x => Span 0 0 s.fhBlocksize.toNat x ∨ Span 1 0 s.fhBlocksize.toNat x) (writeSample 0 j left t)
      (writeSample 1 j right (writeSample 0 j left t)) :=
    moves_writeSample right (.inr ⟨j, by omega, hj, rfl⟩) (by decide) (by omega)
  exact ⟨h0.trans h1, by rw [except_writeSample, except_writeSample]⟩

theorem moves_reconstructChannels (hn : s.fhBlocksize.toNat ≤ Config.maxBlock) :
    Moves (ChannelSpan s.fhChassign.toNat s.fhBlocksize.toNat) s (reconstructChannels s)
      ∧ exceptSamples (reconstructChannels s) = exceptSamples s := by
  unfold reconstructChannels
  split <;> rename_i h
  · exact ⟨(moves_lsideChannels hn).1.mono fun a ha => .inr ⟨by omega, ha⟩, (moves_lsideChannels hn).2⟩
  · exact ⟨(moves_rsideChannels hn).1.mono fun a ha => .inl ⟨by omega, ha⟩, (moves_rsideChannels hn).2⟩
  · refine ⟨(moves_msideChannels hn).1.mono fun a ha => ?_, (moves_msideChannels hn).2⟩
    rcases ha with ha | ha
    · exact .inl ⟨by omega, ha⟩
    · exact .inr ⟨by omega, ha⟩
  · exact ⟨.refl _ _, rfl⟩

/-! ## Frames -/

/-- Everything but the cursor, the checksums and the footer's flag. -/
def exceptFooter (s : State) : State := { exceptStream s with fcrcBad := false }

theorem does_readFooter (hp : s.pos.toNat ≤ sourceEnd s) (W : Nat → Prop) :
    Does W exceptFooter [.unexpectedEnd, .checksumMismatch] s (readFooter s) := by
  have up : ∀ {a b : State}, exceptStream a = exceptStream b → exceptFooter a = exceptFooter b := fun h =>
    congrArg (fun s : State => { s with fcrcBad := false }) h
  refine ((does_alignToByte hp W).mono (fun _ => id) (by simp) fun _ => up).bind fun _ t _ _ _ => ?_
  refine ((does_readUnsigned W 16 t).mono (fun _ => id) (by simp) fun _ => up).bind fun f u _ _ _ => ?_
  unfold checkFooter
  split
  · exact .ok _ (.refl _ _) rfl
  split
  · exact .raised _ (by simp) (.refl _ _) rfl
  · exact .ok _ (.of_update rfl rfl rfl rfl rfl id) rfl

/-- What a frame after its header leaves alone. -/
def exceptBodyOfFrame (s : State) : State := { exceptSubframe s with fcrcBad := false }

/-- The words a frame writes: its channels' planes below the block size or the warm-up. -/
def FrameSpan (nch n : Nat) (a : Nat) : Prop := ∃ d, d < nch ∧ Span d 0 (max n 32) a

/-- The causes a frame raises after its header (rule R213). -/
def frameCauses : List Cause :=
  [.badCommand, .unexpectedEnd, .reservedCodeUsed, .invalidShift, .invalidPartitionOrder, .checksumMismatch]

/-- A frame after its header (rules R195 to R200). -/
theorem all_decodeFrameBody (hp : s.pos.toNat ≤ sourceEnd s) (hh : HeaderAccepted s) :
    (decodeFrameBody s).All
      (fun st t => st = .ready ∧ ∃ u, Moves (FrameSpan s.fhNch.toNat s.fhBlocksize.toNat) s u
        ∧ exceptBodyOfFrame u = exceptBodyOfFrame s ∧ t = yieldBlock u)
      (fun c t => c ∈ frameCauses ∧ Moves (FrameSpan s.fhNch.toNat s.fhBlocksize.toNat) s t
        ∧ exceptBodyOfFrame t = exceptBodyOfFrame s) (fun _ => False) := by
  obtain ⟨h1, h2, h3, h4⟩ := hh
  have hn : s.fhBlocksize.toNat ≤ Config.maxBlock := h2
  unfold decodeFrameBody
  split
  · exact ⟨by simp [frameCauses], .refl _ _, rfl⟩
  rename_i hb
  simp only [Bool.not_eq_true', Bool.not_eq_false] at hb
  have hb : s.fhBps.toNat ≤ 32 := by simp only [bpsLegal, Bool.and_eq_true, decide_eq_true_eq] at hb; exact hb.2
  have up : ∀ {a b : State}, exceptSubframe a = exceptSubframe b → exceptBodyOfFrame a = exceptBodyOfFrame b := fun h =>
    congrArg (fun s : State => { s with fcrcBad := false }) h
  have hc : 0 + s.fhNch.toNat ≤ Config.maxCh := by
    rw [h4]; unfold channelCount; have : Config.maxCh = 8 := rfl
    split <;> omega
  refine Does.bindAll (W := FrameSpan s.fhNch.toNat s.fhBlocksize.toNat) (E := exceptSubframe)
    ((does_decodeSubframes s.fhNch.toNat 0 hn hb hc).mono (fun a ⟨d, _, h, h'⟩ => ⟨d, by omega, h'⟩)
      (fun _ => id) fun _ => id) (fun _ t _ ht mt => ?_)
    (fun c t h1 h2 h3 => ⟨by revert h1; simp only [frameCauses, List.mem_cons]; tauto, h2, up h3⟩)
  have hN := kept_blocksize ht
  have hA : t.fhChassign.toNat = s.fhChassign.toNat := by
    have := congrArg (fun s : State => s.fhChassign.toNat) ht; exact this
  have hr := moves_reconstructChannels (s := t) (hN ▸ hn)
  have mr : Moves (FrameSpan s.fhNch.toNat s.fhBlocksize.toNat) s (reconstructChannels t) := by
    refine mt.trans (hr.1.mono ?_)
    rw [hN, hA]
    rintro a (⟨h, ha⟩ | ⟨h, ha⟩)
    · exact ⟨0, by rw [h4]; unfold channelCount; split <;> omega, Span.mono le_rfl (by omega) a ha⟩
    · exact ⟨1, by rw [h4, channelCount, if_neg (by omega)]; omega, Span.mono le_rfl (by omega) a ha⟩
  have er : exceptSubframe (reconstructChannels t) = exceptSubframe s :=
    (except_subframe_of_section (except_section_of_samples hr.2)).trans ht
  have hpr : (reconstructChannels t).pos.toNat ≤ sourceEnd (reconstructChannels t) := by
    rw [mr.length]; exact (mr.forward hp).2
  have down : ∀ {a b : State}, exceptFooter a = exceptFooter b → exceptBodyOfFrame a = exceptBodyOfFrame b := by
    intro a b h; have := congrArg exceptBodyOfFrame h; exact this
  refine Does.bindAll (does_readFooter hpr (FrameSpan s.fhNch.toNat s.fhBlocksize.toNat)) (fun _ u _ hu mu => ?_)
    (fun c u h1 h2 h3 => ⟨by revert h1; simp only [frameCauses, List.mem_cons]; tauto, mr.trans h2, (down h3).trans (up er)⟩)
  exact ⟨rfl, u, mr.trans mu, (down hu).trans (up er), rfl⟩

end Sys2Proof.Machine
end

