-- ==== Sys2Proof/Laws/Uniform.lean ====
section
/-! SUPPORT. Laws/Uniform.lean: no part of a command reads or writes `STATUS.STATE` (rule R30: it is set when a command ends). -/

namespace Sys2Proof.Machine

/-- The result with another `STATE`. -/
def Res.withSt {α : Type} (x : BlockState) : Res α → Res α
  | .ok a s => .ok a { s with st := x }
  | .raised c s => .raised c { s with st := x }
  | .stopped e => .stopped e

/-- A part that neither reads nor writes `STATE`. -/
def Uniform {α : Type} (f : State → Res α) : Prop := ∀ x s, f { s with st := x } = (f s).withSt x

/-- An update that neither reads nor writes `STATE`. -/
def UniformUpdate (g : State → State) : Prop := ∀ x s, g { s with st := x } = { g s with st := x }

section Uniform

variable {α β : Type}

theorem Uniform.bind {f : State → Res α} {g : α → State → Res β} (hf : Uniform f) (hg : ∀ a, Uniform (g a)) :
    Uniform fun s => (f s).bind g := by
  intro x s
  dsimp only
  rw [hf x s]
  cases f s with
  | ok a t => exact hg a x t
  | raised c t => rfl
  | stopped e => rfl

theorem uniform_ok {g : State → State} (hg : UniformUpdate g) (a : α) : Uniform fun s => .ok a (g s) := by
  intro x s; dsimp only; rw [hg x s]; rfl

theorem uniform_raised {g : State → State} (hg : UniformUpdate g) (c : Cause) :
    Uniform fun s => (.raised c (g s) : Res α) := by
  intro x s; dsimp only; rw [hg x s]; rfl

theorem uniform_id : UniformUpdate fun s => s := fun _ _ => rfl

theorem Uniform.ite {p : State → Prop} [∀ s, Decidable (p s)] {f g : State → Res α} (hp : ∀ x s, p { s with st := x } ↔ p s)
    (hf : Uniform f) (hg : Uniform g) : Uniform fun s => if p s then f s else g s := by
  intro x s
  dsimp only
  by_cases h : p s
  · rw [if_pos h, if_pos ((hp x s).2 h)]; exact hf x s
  · rw [if_neg h, if_neg fun h' => h ((hp x s).1 h')]; exact hg x s

theorem uniform_gatherBits (n v : Nat) (x : BlockState) (s : State) :
    gatherBits n v { s with st := x } = ((gatherBits n v s).1, { (gatherBits n v s).2 with st := x }) := by
  induction n generalizing v s with
  | zero => rfl
  | succ n ih => exact ih _ (consumeBit s)

theorem uniform_consumeBits (n : Nat) : UniformUpdate (consumeBits n) := by
  induction n with
  | zero => exact fun _ _ => rfl
  | succ n ih => exact fun x s => ih x (consumeBit s)

theorem uniform_readUnsigned (n : Nat) : Uniform (readUnsigned n) := by
  intro x s
  unfold readUnsigned
  by_cases h : s.pos.toNat + n > sourceEnd s
  · rw [if_pos h, if_pos (by exact h)]; rfl
  · rw [if_neg h, if_neg (by exact h), uniform_gatherBits]; rfl

theorem uniform_readSigned (n : Nat) : Uniform (readSigned n) :=
  (uniform_readUnsigned n).bind fun v => uniform_ok uniform_id _

theorem uniform_scanUnary (t : Bool) (n p : Nat) (x : BlockState) (s : State) :
    scanUnary t n p { s with st := x } = scanUnary t n p s := by
  induction n generalizing p with
  | zero => rfl
  | succ n ih => simp only [scanUnary, ih]; rfl

theorem uniform_readUnary (t : Bool) : Uniform (readUnary t) := by
  intro x s
  have h := uniform_scanUnary t (sourceEnd s - s.pos.toNat) s.pos.toNat x s
  unfold readUnary
  change (match scanUnary t (sourceEnd s - s.pos.toNat) s.pos.toNat { s with st := x } with
    | none => _ | some c => _) = _
  rw [h]
  cases scanUnary t (sourceEnd s - s.pos.toNat) s.pos.toNat s with
  | none => rfl
  | some c => simp only [uniform_consumeBits (c + 1) x s]; rfl

theorem uniform_riceSymbol (k : Nat) : Uniform (riceSymbol k) :=
  (uniform_readUnary true).bind fun _ => (uniform_readUnsigned k).bind fun _ => uniform_ok uniform_id _

theorem uniform_alignToByte : Uniform alignToByte := by
  intro x s
  unfold alignToByte
  by_cases h : s.pos.toNat + paddingBits s > sourceEnd s ∧ paddingBits s ≠ 0
  · rw [if_pos h, if_pos (by exact h)]; rfl
  · rw [if_neg h, if_neg (by exact h)]
    exact congrArg (Res.ok ()) (uniform_consumeBits (paddingBits s) x s)

theorem uniform_readContinuation (n v : Nat) : Uniform (readContinuation n v) := by
  induction n generalizing v with
  | zero => exact uniform_ok uniform_id v
  | succ n ih =>
    refine (uniform_readUnsigned 8).bind fun c => ?_
    by_cases h : bitField c 7 6 ≠ 2
    · simp only [if_pos h]; exact uniform_raised uniform_id _
    · simp only [if_neg h]; exact ih _

theorem uniform_readVarint : Uniform readVarint := by
  refine (uniform_readUnsigned 8).bind fun b => ?_
  cases lead b with
  | none => exact uniform_raised uniform_id _
  | some q =>
    obtain ⟨n, v⟩ := q
    by_cases h : n > Config.varintMaxExtra
    · simp only [if_pos h]; exact uniform_raised uniform_id _
    · simp only [if_neg h]
      refine (uniform_readContinuation n v).bind fun v => ?_
      by_cases h : v < leastValue n
      · simp only [if_pos h]; exact uniform_raised uniform_id _
      · simp only [if_neg h]; exact uniform_ok uniform_id _

theorem uniform_readBlocksize (b : Nat) : Uniform (readBlocksize b) := by
  have h8 : Uniform fun s => (readUnsigned 8 s).bind fun x s => Res.ok (x + 1) s :=
    (uniform_readUnsigned 8).bind fun x => uniform_ok uniform_id _
  have h16 : Uniform fun s => (readUnsigned 8 s).bind fun lo s => (readUnsigned 8 s).bind fun hi s =>
      Res.ok (hi * 256 + lo + 1) s :=
    (uniform_readUnsigned 8).bind fun lo => (uniform_readUnsigned 8).bind fun hi => uniform_ok uniform_id _
  intro x s
  unfold readBlocksize
  split
  · rfl
  split
  · rfl
  split
  · exact h8 x s
  split
  · exact h16 x s
  · rfl

theorem uniform_readSampleRate (r : Nat) : Uniform (readSampleRate r) := by
  have h16 : Uniform fun s => (readUnsigned 16 s).bind fun x s => Res.ok (10 * x) s :=
    (uniform_readUnsigned 16).bind fun x => uniform_ok uniform_id _
  intro x s
  unfold readSampleRate
  split
  · rfl
  split
  · rfl
  split
  · exact uniform_readUnsigned 8 x s
  split
  · exact uniform_readUnsigned 16 x s
  · exact h16 x s

theorem uniform_checkHeaderChecksum (e : BitVec 8) (c : Nat) : Uniform (checkHeaderChecksum e c) := by
  intro x s
  unfold checkHeaderChecksum
  split
  · rfl
  change (if s.strict then _ else _) = _
  split <;> rfl

theorem uniform_writeHeader (w num bs rate c : Nat) : UniformUpdate (writeHeader w num bs rate c) := fun _ _ => rfl

theorem uniform_readHeader : Uniform readHeader := by
  have h1 : Uniform fun s => readUnsigned 32 (zeroChecksums s) := fun x s => uniform_readUnsigned 32 x (zeroChecksums s)
  refine h1.bind fun w => ?_
  cases headerDefect w with
  | some c => exact uniform_raised uniform_id _
  | none =>
    refine uniform_readVarint.bind fun num => ?_
    refine (uniform_readBlocksize _).bind fun bs => ?_
    refine (uniform_readSampleRate _).bind fun rate => ?_
    have tail : ∀ e c, Uniform fun t => (checkHeaderChecksum e c t).bind fun _ t =>
        Res.ok () (writeHeader w num bs rate c t) := fun e c =>
      (uniform_checkHeaderChecksum e c).bind fun _ => uniform_ok (uniform_writeHeader w num bs rate c) _
    intro x s
    dsimp only
    rw [uniform_readUnsigned 8 x s]
    generalize readUnsigned 8 s = r
    cases r with
    | ok c t => exact tail s.crc8 c x t
    | raised c t => rfl
    | stopped e => rfl

theorem uniform_readSamples {field : State → Res Int} (hf : Uniform field) (c n i : Nat) :
    Uniform (readSamples field c n i) := by
  induction n generalizing i with
  | zero => exact uniform_ok uniform_id _
  | succ n ih => exact hf.bind fun v x s => ih (i + 1) x (writeSample c i v s)

theorem uniform_forSamples {step : Nat → State → State} (hs : ∀ i, UniformUpdate (step i)) (n i : Nat) :
    UniformUpdate (forSamples step n i) := by
  induction n generalizing i with
  | zero => exact fun _ _ => rfl
  | succ n ih =>
    intro x s
    rw [forSamples, forSamples, hs i x s]; exact ih (i + 1) x _

theorem uniform_decodePartition (m : Nat) (p : Part) : Uniform (decodePartition m p) := by
  refine (uniform_readUnsigned _).bind fun k => ?_
  by_cases h : k = escapeValue m
  · simp only [if_pos h]
    exact (uniform_readUnsigned 5).bind fun w => uniform_readSamples (uniform_readSigned w) _ _ _
  · simp only [if_neg h]
    exact uniform_readSamples (uniform_riceSymbol k) _ _ _

theorem uniform_decodePartitions (m : Nat) (ch : BitVec 3) (len left i n : Nat) :
    Uniform (decodePartitions m ch len left i n) := by
  induction left generalizing i n with
  | zero => exact uniform_ok uniform_id _
  | succ left ih => exact (uniform_decodePartition m _).bind fun _ => ih _ _

theorem uniform_decodeResidual (ch : BitVec 3) (o : Nat) : Uniform (decodeResidual ch o) := by
  refine (uniform_readUnsigned 1).bind fun m => ?_
  refine Uniform.bind (f := fun s => readUnsigned 4 { s with resMethod := BitVec.ofNat 1 m })
    (fun x s => uniform_readUnsigned 4 x { s with resMethod := BitVec.ofNat 1 m }) fun p => ?_
  intro x s
  dsimp only
  split
  · rfl
  · exact uniform_decodePartitions _ _ _ _ _ _ x { s with resPorder := BitVec.ofNat 4 p }

theorem uniform_reconstruct {predict : Nat → Nat → State → Int} (hp : ∀ c i x s, predict c i { s with st := x } = predict c i s)
    (c o n : Nat) : UniformUpdate (reconstruct predict c o n) := by
  refine uniform_forSamples (fun i x s => ?_) _ _
  dsimp only
  rw [hp c i x s]; rfl

theorem uniform_coefficientSum (c i o : Nat) (x : BlockState) (s : State) :
    coefficientSum c i o { s with st := x } = coefficientSum c i o s := by
  induction o with
  | zero => rfl
  | succ o ih => rw [coefficientSum, coefficientSum, ih]; rfl

theorem uniform_predictLpc (o c i : Nat) (x : BlockState) (s : State) :
    predictLpc o c i { s with st := x } = predictLpc o c i s := by
  unfold predictLpc; rw [uniform_coefficientSum]

theorem uniform_readCoefficients (prec left j : Nat) : Uniform (readCoefficients prec left j) := by
  induction left generalizing j with
  | zero => exact uniform_ok uniform_id _
  | succ left ih => exact (uniform_readSigned prec).bind fun v x s => ih (j + 1) x (writeCoefficient j v s)

theorem uniform_readLpcParams (o : Nat) : Uniform (readLpcParams o) := by
  refine (uniform_readUnsigned 4).bind fun p => ?_
  refine Uniform.bind (f := fun s => readSigned 5 { s with lpcPrec := BitVec.ofNat 5 (p + 1) })
    (fun x s => uniform_readSigned 5 x { s with lpcPrec := BitVec.ofNat 5 (p + 1) }) fun q => ?_
  intro x s
  dsimp only
  split
  · rfl
  · exact uniform_readCoefficients _ _ _ x { s with lpcShift := BitVec.ofInt 5 q }

theorem uniform_fixedBody {predict : Nat → Nat → State → Int} (hp : ∀ c i x s, predict c i { s with st := x } = predict c i s)
    (o : Nat) (ch : BitVec 3) (width n : Nat) : Uniform (fixedBody predict o ch width n) :=
  (uniform_readSamples (uniform_readSigned width) _ _ _).bind fun _ => (uniform_decodeResidual ch o).bind fun _ =>
    uniform_ok (uniform_reconstruct hp _ _ _) _

theorem uniform_kindBody (k : SubKind) (ch : BitVec 3) (width n : Nat) : Uniform (kindBody k ch width n) := by
  cases k
  case constant =>
    exact (uniform_readSigned width).bind fun v => uniform_ok (uniform_forSamples (fun _ _ _ => rfl) _ _) _
  case verbatim => exact uniform_readSamples (uniform_readSigned width) _ _ _
  case lpc o =>
    exact (uniform_readSamples (uniform_readSigned width) _ _ _).bind fun _ => (uniform_readLpcParams _).bind fun _ =>
      (uniform_decodeResidual ch _).bind fun _ => uniform_ok (uniform_reconstruct (uniform_predictLpc _) _ _ _) _
  all_goals exact uniform_fixedBody (fun _ _ _ _ => rfl) _ _ _ _

theorem uniform_readWasted (b : Bool) : Uniform (readWasted b) := by
  cases b
  · exact uniform_ok uniform_id _
  · exact (uniform_readUnary true).bind fun k => uniform_ok uniform_id _

theorem uniform_restoreWasted (c w n : Nat) : UniformUpdate (restoreWasted c w n) := by
  intro x s
  unfold restoreWasted
  split
  · exact uniform_forSamples (fun _ _ _ => rfl) _ _ x s
  · rfl

theorem uniform_decodeKind (ch : BitVec 3) (k : SubKind) (b : Bool) : Uniform (decodeKind ch k b) := by
  refine (uniform_readWasted b).bind fun w => ?_
  intro x s
  change (if fullWidth ch s < w + 1 then _ else _) = Res.withSt x (if fullWidth ch s < w + 1 then _ else _)
  split
  · rfl
  · have h1 := uniform_kindBody k ch (fullWidth ch s - w) s.fhBlocksize.toNat x (writeSubframe k w (fullWidth ch s - w) s)
    change (kindBody k ch (fullWidth ch s - w) s.fhBlocksize.toNat
      { writeSubframe k w (fullWidth ch s - w) s with st := x }).bind _ = _
    rw [h1]
    cases kindBody k ch (fullWidth ch s - w) s.fhBlocksize.toNat (writeSubframe k w (fullWidth ch s - w) s) with
    | ok a t => exact congrArg (Res.ok ()) (uniform_restoreWasted ch.toNat w t.fhBlocksize.toNat x t)
    | raised c t => rfl
    | stopped e => rfl

theorem uniform_decodeSubframe (ch : BitVec 3) : Uniform (decodeSubframe ch) := by
  refine (uniform_readUnsigned 1).bind fun r => ?_
  by_cases h : r = 1
  · simp only [if_pos h]; exact uniform_raised uniform_id _
  simp only [if_neg h]
  refine (uniform_readUnsigned 6).bind fun t => ?_
  cases SubKind.ofSelector t with
  | none => exact uniform_raised uniform_id _
  | some k => exact (uniform_readUnsigned 1).bind fun f => uniform_decodeKind ch k _

theorem uniform_reconstructChannels : UniformUpdate reconstructChannels := by
  intro x s
  have h8 := uniform_forSamples (step := lsideStep) (fun _ _ _ => rfl) s.fhBlocksize.toNat 0 x s
  have h9 := uniform_forSamples (step := rsideStep) (fun _ _ _ => rfl) s.fhBlocksize.toNat 0 x s
  have h10 := uniform_forSamples (step := msideStep) (fun _ _ _ => rfl) s.fhBlocksize.toNat 0 x s
  unfold reconstructChannels
  dsimp only
  generalize s.fhChassign.toNat = a
  by_cases a8 : a = 8
  · subst a8; exact h8
  by_cases a9 : a = 9
  · subst a9; exact h9
  by_cases a10 : a = 10
  · subst a10; exact h10
  · split
    · exact absurd rfl a8
    · exact absurd rfl a9
    · exact absurd rfl a10
    · rfl

theorem uniform_checkFooter (e : BitVec 16) (f : Nat) : Uniform (checkFooter e f) := by
  intro x s
  unfold checkFooter
  split
  · rfl
  change (if s.strict then _ else _) = _
  split <;> rfl

theorem uniform_readFooter : Uniform readFooter := by
  refine uniform_alignToByte.bind fun _ => ?_
  intro x s
  dsimp only
  rw [uniform_readUnsigned 16 x s]
  cases readUnsigned 16 s with
  | ok f t => exact uniform_checkFooter s.crc16 f x t
  | raised c t => rfl
  | stopped e => rfl

end Uniform

end Sys2Proof.Machine
end

