-- ==== Sys2Proof/Laws/Commands.lean ====
section
/-! SUPPORT. Laws/Commands.lean: what one instruction can do, said once: how its body ends, what it keeps and what it
may raise. -/

namespace Sys2Proof.Machine

variable {W : Nat → Prop} {s t u : State}

/-- Everything no command other than RESET writes. -/
def exceptCommand (s : State) : State :=
  { exceptSubframe s with
    rv := 0, raw := State.reset.raw, rawLen := 0, freeIndex := 0, frameIdx := 0
    hcrcBad := false, fcrcBad := false, blkv := false
    fhStrategy := 0, fhBlocksize := 0, fhRate := 0, fhChassign := 0, fhNch := 0, fhBps := 0, fhNumber := 0, fhCrc := 0 }

/-- What the body of an instruction other than RESET may do, whatever it is. -/
structure Effect (s t : State) : Prop where
  moves : Moves (fun _ => True) s t
  kept : exceptCommand t = exceptCommand s
  rawLen : s.rawLen.toNat ≤ Config.rawMax → t.rawLen.toNat ≤ Config.rawMax

theorem command_of_subframe (h : exceptSubframe t = exceptSubframe s) : exceptCommand t = exceptCommand s := by
  have := congrArg exceptCommand h; exact this

theorem command_of_frameBody (h : exceptBodyOfFrame t = exceptBodyOfFrame s) : exceptCommand t = exceptCommand s := by
  have := congrArg exceptCommand h; exact this

theorem command_of_header (h : exceptHeader t = exceptHeader s) : exceptCommand t = exceptCommand s := by
  have := congrArg exceptCommand h; exact this

theorem command_of_stream (h : exceptStream t = exceptStream s) : exceptCommand t = exceptCommand s := by
  have := congrArg exceptCommand h; exact this

theorem Effect.trans (h : Effect s t) (h' : Effect t u) : Effect s u :=
  ⟨h.moves.trans h'.moves, h'.kept.trans h.kept, h'.rawLen ∘ h.rawLen⟩

theorem Effect.of_update (hm : Moves (fun _ => True) s t) (hk : exceptCommand t = exceptCommand s)
    (hr : t.rawLen = s.rawLen) : Effect s t := ⟨hm, hk, by rw [hr]; exact id⟩

theorem rawLen_of_subframe (h : exceptSubframe t = exceptSubframe s) : t.rawLen = s.rawLen ∧ t.frameIdx = s.frameIdx := by
  have h1 := congrArg State.rawLen h; have h2 := congrArg State.frameIdx h; exact ⟨h1, h2⟩

/-- How the body of an instruction may end: what holds of a good end, of a raise, and of a stop. -/
def BodyEnds (i : Instr) (s : State) (r : Res BlockState) : Prop :=
  r.All
    (fun st u => Effect s u ∧ (i.slot = .command → st = .ready ∨ st = .done ∧ (i = .framehdr ∨ i = .frame))
      ∧ (i.slot ≠ .command → st = s.st))
    (fun c u => (i.wellFormed = true → c ∈ allowedCauses i) ∧ Effect s u ∧ u.frameIdx = s.frameIdx)
    (fun e => (i = .align ∧ e = .beyondSource ∧ sourceEnd s < s.pos.toNat)
      ∨ (e = .beyondPlane ∧ i.wellFormed = false ∧ i.slot ≠ .command))

theorem bodyEnds_ok {i : Instr} (h : Effect s u) (hi : i.slot = .command) : BodyEnds i s (endReady u) :=
  ⟨h, fun _ => .inl rfl, fun h => absurd hi h⟩

theorem bodyEnds_raised {i : Instr} {c : Cause} (h : Effect s u) (hf : u.frameIdx = s.frameIdx)
    (hc : i.wellFormed = true → c ∈ allowedCauses i) : BodyEnds i s (.raised c u) := ⟨hc, h, hf⟩

theorem Effect.refl (s : State) : Effect s s := ⟨.refl _ s, rfl, id⟩

/-- A primitive command over one part of the reader. -/
theorem bodyEnds_reader {α : Type} {i : Instr} {C : List Cause} {r : Res α} {f : α → State → State}
    (hr : Does (fun _ => True) exceptStream C s r) (hi : i.slot = .command) (hC : ∀ c ∈ C, c ∈ allowedCauses i)
    (hf : ∀ a t, Effect t (f a t)) : BodyEnds i s (r.bind fun a t => endReady (f a t)) := by
  refine hr.bindAll (fun a t _ ht mt => ?_) (fun c t h1 h2 h3 => ?_)
  · have he : Effect s t := .of_update mt (command_of_stream ht) (by have := congrArg State.rawLen ht; exact this)
    exact ⟨he.trans (hf a t), fun _ => .inl rfl, fun h => absurd hi h⟩
  · exact ⟨fun _ => hC c h1, .of_update h2 (command_of_stream h3) (by have := congrArg State.rawLen h3; exact this),
      by have := congrArg State.frameIdx h3; exact this⟩

theorem atFrameLevel_cases (c : Cause) : (c = .unexpectedEnd ∧ c.atFrameLevel = .truncatedStream) ∨ c.atFrameLevel = c := by
  cases c <;> simp [Cause.atFrameLevel]

/-- A frame-level part that leaves at least what SUBFRAME leaves. -/
theorem effect_of_subframe (hm : Moves W s t) (h : exceptSubframe t = exceptSubframe s) : Effect s t :=
  .of_update (hm.mono fun _ _ => trivial) (command_of_subframe h) (rawLen_of_subframe h).1

theorem bodyEnds_kind {i : Instr} {C : List Cause} {E : State → State} {r : Res Unit} (hr : Does W E C s r)
    (hE : ∀ t, E t = E s → exceptSubframe t = exceptSubframe s) (hi : i.slot ≠ .command)
    (hC : ∀ c ∈ C, c.atFrameLevel ∈ allowedCauses i) :
    BodyEnds i s (atFrameLevel (r.bind fun _ t => .ok s.st t)) := by
  cases r with
  | ok a t => exact ⟨effect_of_subframe hr.1 (hE t hr.2), fun h => absurd h hi, fun _ => rfl⟩
  | raised c t =>
    exact ⟨fun _ => hC c hr.1, effect_of_subframe hr.2.1 (hE t hr.2.2), (rawLen_of_subframe (hE t hr.2.2)).2⟩
  | stopped e => exact hr.elim

theorem bodyEnds_command {i : Instr} {C : List Cause} {E : State → State} {r : Res Unit} (hr : Does W E C t r)
    (ht : Effect s t) (hf : t.frameIdx = s.frameIdx)
    (hE : ∀ u, E u = E t → exceptSubframe u = exceptSubframe t) (hi : i.slot = .command)
    (hC : ∀ c ∈ C, c.atFrameLevel ∈ allowedCauses i) :
    BodyEnds i s (atFrameLevel (r.bind fun _ t => endReady t)) := by
  cases r with
  | ok a u => exact ⟨ht.trans (effect_of_subframe hr.1 (hE u hr.2)), fun _ => .inl rfl, fun h => absurd hi h⟩
  | raised c u =>
    exact ⟨fun _ => hC c hr.1, ht.trans (effect_of_subframe hr.2.1 (hE u hr.2.2)),
      (rawLen_of_subframe (hE u hr.2.2)).2.trans hf⟩
  | stopped e => exact hr.elim

theorem effect_invalidateBlock (s : State) : Effect s (invalidateBlock s) :=
  .of_update (.of_update rfl rfl rfl rfl rfl id) rfl rfl

theorem effect_clearFrameFlags (s : State) : Effect s (clearFrameFlags s) :=
  .of_update (.of_update rfl rfl rfl rfl rfl id) rfl rfl

/-- FRAMEHDR's body, and the first part of FRAME's: an accepted header, the end of the input, or a fault. -/
theorem all_decodeFrameHeader (s : State) :
    (decodeFrameHeader s).All
      (fun st u => (st = .done ∧ s.pos.toNat = sourceEnd s ∧ u = clearFrameFlags s) ∨
        (st = .ready ∧ Moves (fun _ => False) s u ∧ exceptHeader u = exceptHeader (clearFrameFlags s) ∧ HeaderAccepted u
          ∧ u.pos.toNat ≤ sourceEnd u))
      (fun c u => (c = .badCommand ∧ u = s) ∨ (c = .missingStreamInfo ∧ u = s) ∨
        (c ∈ headerCauses ∧ Moves (fun _ => False) s u ∧ exceptStream u = exceptStream (clearFrameFlags s)))
      (fun _ => False) := by
  unfold decodeFrameHeader
  split
  · exact .inl ⟨rfl, rfl⟩
  split
  · exact .inr (.inl ⟨rfl, rfl⟩)
  split
  · rename_i h; exact .inl ⟨rfl, h, rfl⟩
  have hm : Moves (fun _ => False) s (clearFrameFlags s) := .of_update rfl rfl rfl rfl rfl id
  have h := all_readHeader (fun _ => False) (clearFrameFlags s)
  by_cases hp : s.pos.toNat ≤ sourceEnd s
  · cases hr : readHeader (clearFrameFlags s) with
    | ok a u =>
      rw [hr] at h
      have m := hm.trans h.1
      exact .inr ⟨rfl, m, h.2.1, h.2.2, by rw [m.length]; exact (m.forward hp).2⟩
    | raised c u => rw [hr] at h; exact .inr (.inr ⟨h.1, hm.trans h.2.1, h.2.2⟩)
    | stopped e => rw [hr] at h; exact h.elim
  · have e : readUnsigned 32 (zeroChecksums (clearFrameFlags s)) = .raised .unexpectedEnd (zeroChecksums (clearFrameFlags s)) :=
      readUnsigned_of_short (by show s.pos.toNat + 32 > sourceEnd s; omega)
    rw [readHeader, e]
    exact .inr (.inr ⟨by simp [headerCauses], hm.trans (.of_update rfl rfl rfl rfl rfl id), rfl⟩)

theorem effect_of_header (hm : Moves W s u) (h : exceptHeader u = exceptHeader (clearFrameFlags s)) :
    Effect s u ∧ u.frameIdx = s.frameIdx :=
  ⟨.of_update (hm.mono fun _ _ => trivial) ((command_of_header h).trans rfl) (by have := congrArg State.rawLen h; exact this),
    by have := congrArg State.frameIdx h; exact this⟩

theorem effect_of_stream (hm : Moves W s u) (h : exceptStream u = exceptStream (clearFrameFlags s)) :
    Effect s u ∧ u.frameIdx = s.frameIdx :=
  ⟨.of_update (hm.mono fun _ _ => trivial) ((command_of_stream h).trans rfl) (by have := congrArg State.rawLen h; exact this),
    by have := congrArg State.frameIdx h; exact this⟩

theorem mem_frame_of_header {c : Cause} (h : c ∈ headerCauses) :
    c.atFrameLevel ∈ allowedCauses .framehdr ∧ c.atFrameLevel ∈ allowedCauses .frame := by
  revert h; cases c <;> decide

theorem bodyEnds_framehdr (s : State) : BodyEnds .framehdr s (atFrameLevel (decodeFrameHeader s)) := by
  have h := all_decodeFrameHeader s
  cases hr : decodeFrameHeader s with
  | ok st u =>
    rw [hr] at h
    rcases h with ⟨rfl, -, rfl⟩ | ⟨rfl, hm, he, -⟩
    · exact ⟨effect_clearFrameFlags s, fun _ => .inr ⟨rfl, .inl rfl⟩, fun h => absurd rfl h⟩
    · exact ⟨(effect_of_header hm he).1, fun _ => .inl rfl, fun h => absurd rfl h⟩
  | raised c u =>
    rw [hr] at h
    rcases h with ⟨rfl, rfl⟩ | ⟨rfl, rfl⟩ | ⟨hc, hm, he⟩
    · exact ⟨fun _ => by decide, .refl _, rfl⟩
    · exact ⟨fun _ => by decide, .refl _, rfl⟩
    · exact ⟨fun _ => (mem_frame_of_header hc).1, (effect_of_stream hm he).1, (effect_of_stream hm he).2⟩
  | stopped e => rw [hr] at h; exact h.elim

theorem effect_of_frameBody (hm : Moves W s u) (h : exceptBodyOfFrame u = exceptBodyOfFrame s) :
    Effect s u ∧ u.frameIdx = s.frameIdx :=
  ⟨.of_update (hm.mono fun _ _ => trivial) (command_of_frameBody h) (by have := congrArg State.rawLen h; exact this),
    by have := congrArg State.frameIdx h; exact this⟩

theorem bodyEnds_frame (s : State) : BodyEnds .frame s (atFrameLevel (decodeFrame s)) := by
  have h := all_decodeFrameHeader s
  unfold decodeFrame
  cases hr : decodeFrameHeader s with
  | ok st u =>
    rw [hr] at h
    rcases h with ⟨rfl, -, rfl⟩ | ⟨rfl, hm, he, hh, hp⟩
    · exact ⟨effect_clearFrameFlags s, fun _ => .inr ⟨rfl, .inr rfl⟩, fun h => absurd rfl h⟩
    · have e := effect_of_header hm he
      have hb := all_decodeFrameBody hp hh
      simp only [Res.bind_ok]
      cases hq : decodeFrameBody u with
      | ok st v =>
        rw [hq] at hb
        obtain ⟨rfl, w, hm, hw, rfl⟩ := hb
        exact ⟨e.1.trans ((effect_of_frameBody hm hw).1.trans (.of_update (.of_update rfl rfl rfl rfl rfl id) rfl rfl)),
          fun _ => .inl rfl, fun h => absurd rfl h⟩
      | raised c v =>
        rw [hq] at hb
        have e' := effect_of_frameBody hb.2.1 hb.2.2
        refine ⟨fun _ => ?_, e.1.trans e'.1, e'.2.trans e.2⟩
        have := hb.1; revert this; cases c <;> decide
      | stopped x => rw [hq] at hb; exact hb.elim
  | raised c u =>
    rw [hr] at h
    rcases h with ⟨rfl, rfl⟩ | ⟨rfl, rfl⟩ | ⟨hc, hm, he⟩
    · exact ⟨fun _ => by decide, .refl _, rfl⟩
    · exact ⟨fun _ => by decide, .refl _, rfl⟩
    · exact ⟨fun _ => (mem_frame_of_header hc).2, (effect_of_stream hm he).1, (effect_of_stream hm he).2⟩
  | stopped e => rw [hr] at h; exact h.elim

theorem bodyEnds_subframeKind (k : SubKind) (ch : BitVec 3) (w : Bool) (s : State) :
    BodyEnds (k.instr ch w) s (atFrameLevel ((if subframeLegal s then decodeKind ch k w s else .raised .badCommand s).bind
      fun _ t => .ok s.st t)) := by
  have hs : (k.instr ch w).slot ≠ .command := by cases k <;> exact fun h => nomatch h
  by_cases hl : subframeLegal s = true
  · rw [if_pos hl]
    obtain ⟨-, h2, -, h4, -⟩ := subframeLegal_iff.1 hl
    exact bodyEnds_kind (does_decodeKind ch k w h2 h4) (fun t => except_subframe_of_kind) hs
      (by cases k <;> simp [bodyCauses, Cause.atFrameLevel, SubKind.instr, allowedCauses])
  · rw [if_neg hl]
    exact ⟨fun _ => by cases k <;> simp [Cause.atFrameLevel, SubKind.instr, allowedCauses], .refl _, rfl⟩

theorem bodyEnds_partition {i : Instr} {p : Part} {body : State → Res Unit} (hi : i.slot = .param0 p ∨ i.slot = .param1 p)
    (hw : i.wellFormed = true → p.wellFormed = true) (ha : allowedCauses i = [.truncatedStream])
    (hb : ∀ s, p.first + p.count ≤ Config.maxBlock →
      Does (Span p.ch.toNat p.first (p.first + p.count)) exceptSamples [.unexpectedEnd] s (body s)) (s : State) :
    BodyEnds i s (atFrameLevel ((inPlane p body s).bind fun _ t => .ok s.st t)) := by
  have hs : i.slot ≠ .command := by rcases hi with h | h <;> rw [h] <;> exact fun h => nomatch h
  unfold inPlane
  by_cases hp : p.wellFormed = true
  · rw [if_pos hp]
    exact bodyEnds_kind (hb s (by simpa [Part.wellFormed] using hp))
      (fun t h => except_subframe_of_section (except_section_of_samples h)) hs (by simp [ha, Cause.atFrameLevel])
  · rw [if_neg hp]
    exact .inr ⟨rfl, by rw [Bool.eq_false_iff]; exact fun h => hp (hw h), hs⟩

theorem bodyEnds_channels {i : Instr} {body : State → State} (hi : i.slot = .channels)
    (ha : allowedCauses i = [.badCommand])
    (hb : ∀ s, s.fhBlocksize.toNat ≤ Config.maxBlock →
      Moves (fun _ => True) s (body s) ∧ exceptSamples (body s) = exceptSamples s) (s : State) :
    BodyEnds i s (atFrameLevel ((if blocksizeLegal s then Res.ok () (body s) else .raised .badCommand s).bind
      fun _ t => .ok s.st t)) := by
  have hs : i.slot ≠ .command := by rw [hi]; exact fun h => nomatch h
  by_cases hl : blocksizeLegal s = true
  · rw [if_pos hl]
    have h := hb s (blocksizeLegal_iff.1 hl).2
    exact ⟨effect_of_subframe h.1 (except_subframe_of_section (except_section_of_samples h.2)), fun h => absurd h hs, fun _ => rfl⟩
  · rw [if_neg hl]
    exact ⟨fun _ => by simp [ha, Cause.atFrameLevel], .refl _, rfl⟩

theorem ends_subframeKind (k : SubKind) (ch : BitVec 3) (w : Bool) (hs : s.st ≠ .fault) :
    ∃ r, exec (k.instr ch w) s = finish r ∧ BodyEnds (k.instr ch w) s r := by
  rw [exec_subframeKind, subframeKind, streamKind_of_ready hs]
  exact ⟨_, rfl, bodyEnds_subframeKind k ch w s⟩

theorem ends_crcrst (m : BitVec 2) (hs : s.st ≠ .fault) :
    ∃ r, exec (.crcrst m) s = finish r ∧ BodyEnds (.crcrst m) s r := by
  show ∃ r, execCrcrst m s = finish r ∧ _
  rw [execCrcrst, primitiveCommand_of_ready hs]
  exact ⟨_, rfl, bodyEnds_ok (.of_update (.of_update rfl rfl rfl rfl rfl id) rfl rfl) rfl⟩

theorem ends_rdu (n : BitVec 7) (hs : s.st ≠ .fault) :
    ∃ r, exec (.rdu n) s = finish r ∧ BodyEnds (.rdu n) s r := by
  show ∃ r, execRdu n s = finish r ∧ _
  rw [execRdu, primitiveCommand_of_ready hs]
  refine ⟨_, rfl, ?_⟩
  split
  · rename_i h
    refine bodyEnds_raised (.refl _) rfl fun hw => ?_
    simp only [Instr.wellFormed, decide_eq_true_eq] at hw; omega
  · exact bodyEnds_reader (does_readUnsigned _ _ s) rfl (fun _ => id)
      fun v t => .of_update (.of_update rfl rfl rfl rfl rfl id) rfl rfl

theorem ends_rds (n : BitVec 7) (hs : s.st ≠ .fault) :
    ∃ r, exec (.rds n) s = finish r ∧ BodyEnds (.rds n) s r := by
  show ∃ r, execRds n s = finish r ∧ _
  rw [execRds, primitiveCommand_of_ready hs]
  refine ⟨_, rfl, ?_⟩
  split
  · rename_i h
    refine bodyEnds_raised (.refl _) rfl fun hw => ?_
    simp only [Instr.wellFormed, decide_eq_true_eq] at hw; omega
  · exact bodyEnds_reader (does_readSigned _ _ s) rfl (fun _ => id)
      fun v t => .of_update (.of_update rfl rfl rfl rfl rfl id) rfl rfl

theorem ends_rdunary (b : Bool) (hs : s.st ≠ .fault) :
    ∃ r, exec (.rdunary b) s = finish r ∧ BodyEnds (.rdunary b) s r := by
  show ∃ r, execRdunary b s = finish r ∧ _
  rw [execRdunary, primitiveCommand_of_ready hs]
  exact ⟨_, rfl, bodyEnds_reader (does_readUnary _ b s) rfl (fun _ => id)
    fun v t => .of_update (.of_update rfl rfl rfl rfl rfl id) rfl rfl⟩

theorem ends_align (hs : s.st ≠ .fault) :
    ∃ r, exec .align s = finish r ∧ BodyEnds .align s r := by
  show ∃ r, execAlign s = finish r ∧ _
  rw [execAlign, primitiveCommand_of_ready hs]
  refine ⟨_, rfl, ?_⟩
  by_cases hp : s.pos.toNat ≤ sourceEnd s
  · exact bodyEnds_reader (f := fun _ t => t) (does_alignToByte hp _) rfl (by simp) fun _ t => .refl t
  · unfold alignToByte
    split
    · exact .inl ⟨rfl, rfl, by omega⟩
    · rename_i h
      have h0 : paddingBits s = 0 := by omega
      rw [h0]
      exact bodyEnds_ok (.refl s) rfl

theorem moves_gatherBytes {n : Nat} (h : s.pos.toNat + 8 * n ≤ sourceEnd s) :
    Moves W s (gatherBytes n s).2 ∧ exceptStream (gatherBytes n s).2 = exceptStream s ∧ (gatherBytes n s).1.length = n := by
  induction n generalizing s with
  | zero => exact ⟨.refl _ _, rfl, rfl⟩
  | succ n ih =>
    have hh := holds_nextBits (n := 8) (s := s) (by omega)
    have e := gatherBits_of_holds hh 0
    rw [length_nextBits] at e
    have hq := hh.pos_advance
    rw [length_nextBits] at hq
    have := ih (s := advance (nextBits 8 s) s) (by rw [hq, sourceEnd_advance]; omega)
    rw [gatherBytes, e]
    exact ⟨(moves_advance hh).trans this.1, this.2.1, by simp [this.2.2]⟩

theorem effect_deliverBytes {bytes : List Byte} (h : bytes.length ≤ 16) (s : State) : Effect s (deliverBytes bytes s) := by
  have hm : Moves (fun _ => True) s (deliverBytes bytes s) :=
    .of_update (by simp only [deliverBytes]) (by simp only [deliverBytes]) (by simp only [deliverBytes])
      (by simp only [deliverBytes]) (by simp only [deliverBytes]) (by simp only [deliverBytes, Ranges]; exact id)
  have hk : exceptCommand (deliverBytes bytes s) = exceptCommand s := by
    simp only [exceptCommand, exceptSubframe, exceptSection, exceptSamples, exceptStream, deliverBytes]
  refine ⟨hm, hk, fun _ => ?_⟩
  have e : (deliverBytes bytes s).rawLen = BitVec.ofNat 5 bytes.length := rfl
  rw [e, BitVec.toNat_ofNat]
  have : Config.rawMax = 16 := rfl
  omega

theorem ends_rdbytes (n : BitVec 5) (hs : s.st ≠ .fault) :
    ∃ r, exec (.rdbytes n) s = finish r ∧ BodyEnds (.rdbytes n) s r := by
  show ∃ r, execRdbytes n s = finish r ∧ _
  rw [execRdbytes, primitiveCommand_of_ready hs]
  refine ⟨_, rfl, ?_⟩
  have hr : Config.rawMax = 16 := rfl
  split
  · exact bodyEnds_raised (.refl _) rfl fun _ => by simp [allowedCauses]
  split
  · exact bodyEnds_raised (.refl _) rfl fun _ => by simp [allowedCauses]
  split
  · exact bodyEnds_raised (.refl _) rfl fun _ => by simp [allowedCauses]
  · have h := moves_gatherBytes (W := fun _ => True) (s := s) (n := n.toNat) (by omega)
    have h1 : Effect s (gatherBytes n.toNat s).2 :=
      .of_update h.1 (command_of_stream h.2.1) (by have := congrArg State.rawLen h.2.1; exact this)
    exact bodyEnds_ok (h1.trans (effect_deliverBytes (by rw [h.2.2]; omega) _)) rfl

theorem ends_varint (hs : s.st ≠ .fault) :
    ∃ r, exec .varint s = finish r ∧ BodyEnds .varint s r := by
  show ∃ r, execVarint s = finish r ∧ _
  rw [execVarint, primitiveCommand_of_ready hs]
  exact ⟨_, rfl, bodyEnds_reader (does_readVarint _ s) rfl (fun _ => id)
    fun v t => .of_update (.of_update rfl rfl rfl rfl rfl id) rfl rfl⟩

theorem ends_framehdr (hs : s.st ≠ .fault) :
    ∃ r, exec .framehdr s = finish r ∧ BodyEnds .framehdr s r := by
  show ∃ r, execFramehdr s = finish r ∧ _
  rw [execFramehdr, frameCommand_of_ready hs]
  exact ⟨_, rfl, bodyEnds_framehdr s⟩

theorem ends_subframe (ch : BitVec 3) (hs : s.st ≠ .fault) :
    ∃ r, exec (.subframe ch) s = finish r ∧ BodyEnds (.subframe ch) s r := by
  show ∃ r, execSubframe ch s = finish r ∧ _
  rw [execSubframe, frameCommand_of_ready hs]
  refine ⟨_, rfl, ?_⟩
  by_cases hl : subframeLegal s = true
  · rw [if_pos hl]
    obtain ⟨-, h2, -, h4, -⟩ := subframeLegal_iff.1 hl
    exact bodyEnds_command (does_decodeSubframe (s := invalidateBlock s) ch h2 h4) (effect_invalidateBlock s) rfl
      (fun _ => id) rfl (by simp [allowedCauses, Cause.atFrameLevel])
  · rw [if_neg hl]
    exact ⟨fun _ => by simp [Cause.atFrameLevel, allowedCauses], .refl _, rfl⟩

theorem ends_resid (ch : BitVec 3) (ord : BitVec 6) (hs : s.st ≠ .fault) :
    ∃ r, exec (.resid ch ord) s = finish r ∧ BodyEnds (.resid ch ord) s r := by
  show ∃ r, execResid ch ord s = finish r ∧ _
  rw [execResid, frameCommand_of_ready hs]
  refine ⟨_, rfl, ?_⟩
  split
  · exact ⟨fun _ => by simp [Cause.atFrameLevel, allowedCauses], .refl _, rfl⟩
  split
  · exact ⟨fun _ => by simp [Cause.atFrameLevel, allowedCauses], .refl _, rfl⟩
  · rename_i h
    simp only [Bool.not_eq_true', Bool.not_eq_false] at h
    exact bodyEnds_command (does_decodeResidual (s := invalidateBlock s) ch (blocksizeLegal_iff.1 h).2)
      (effect_invalidateBlock s) rfl (fun _ => except_subframe_of_section) rfl (by simp [allowedCauses, Cause.atFrameLevel])

theorem ends_decorr (hs : s.st ≠ .fault) :
    ∃ r, exec .decorr s = finish r ∧ BodyEnds .decorr s r := by
  show ∃ r, execDecorr s = finish r ∧ _
  rw [execDecorr, frameCommand_of_ready hs]
  refine ⟨_, rfl, ?_⟩
  split
  · rename_i h
    simp only [Bool.and_eq_true] at h
    have hr := moves_reconstructChannels (s := invalidateBlock s) (blocksizeLegal_iff.1 h.1).2
    exact bodyEnds_ok ((effect_invalidateBlock s).trans (effect_of_subframe hr.1
      (except_subframe_of_section (except_section_of_samples hr.2)))) rfl
  · exact ⟨fun _ => by simp [Cause.atFrameLevel, allowedCauses], .refl _, rfl⟩

theorem ends_frame (hs : s.st ≠ .fault) :
    ∃ r, exec .frame s = finish r ∧ BodyEnds .frame s r := by
  show ∃ r, execFrame s = finish r ∧ _
  rw [execFrame, frameCommand_of_ready hs]
  exact ⟨_, rfl, bodyEnds_frame s⟩

theorem ends_rice4 (p : Part) (k : BitVec 4) (hs : s.st ≠ .fault) :
    ∃ r, exec (.rice4 p k) s = finish r ∧ BodyEnds (.rice4 p k) s r := by
  show ∃ r, execRice4 p k s = finish r ∧ _
  rw [execRice4, streamKind_of_ready hs]
  refine ⟨_, rfl, bodyEnds_partition (.inl rfl) (fun h => ?_) rfl
    (fun s hp => does_ricePartition k.toNat hp s) s⟩
  simp only [Instr.wellFormed, Bool.and_eq_true] at h; exact h.1

theorem ends_esc4 (p : Part) (w : BitVec 5) (hs : s.st ≠ .fault) :
    ∃ r, exec (.esc4 p w) s = finish r ∧ BodyEnds (.esc4 p w) s r := by
  show ∃ r, execEsc4 p w s = finish r ∧ _
  rw [execEsc4, streamKind_of_ready hs]
  exact ⟨_, rfl, bodyEnds_partition (.inl rfl) id rfl (fun s hp => does_escapePartition w.toNat hp s) s⟩

theorem ends_rice5 (p : Part) (k : BitVec 5) (hs : s.st ≠ .fault) :
    ∃ r, exec (.rice5 p k) s = finish r ∧ BodyEnds (.rice5 p k) s r := by
  show ∃ r, execRice5 p k s = finish r ∧ _
  rw [execRice5, streamKind_of_ready hs]
  refine ⟨_, rfl, bodyEnds_partition (.inr rfl) (fun h => ?_) rfl
    (fun s hp => does_ricePartition k.toNat hp s) s⟩
  simp only [Instr.wellFormed, Bool.and_eq_true] at h; exact h.1

theorem ends_esc5 (p : Part) (w : BitVec 5) (hs : s.st ≠ .fault) :
    ∃ r, exec (.esc5 p w) s = finish r ∧ BodyEnds (.esc5 p w) s r := by
  show ∃ r, execEsc5 p w s = finish r ∧ _
  rw [execEsc5, streamKind_of_ready hs]
  exact ⟨_, rfl, bodyEnds_partition (.inr rfl) id rfl (fun s hp => does_escapePartition w.toNat hp s) s⟩

theorem ends_indep (c : BitVec 3) (hs : s.st ≠ .fault) :
    ∃ r, exec (.indep c) s = finish r ∧ BodyEnds (.indep c) s r := by
  show ∃ r, execIndep c s = finish r ∧ _
  rw [execIndep, channelKind, streamKind_of_ready hs]
  exact ⟨_, rfl, bodyEnds_channels rfl rfl (fun s _ => ⟨.refl _ s, rfl⟩) s⟩

theorem ends_lside (hs : s.st ≠ .fault) :
    ∃ r, exec .lside s = finish r ∧ BodyEnds .lside s r := by
  show ∃ r, execLside s = finish r ∧ _
  rw [execLside, channelKind, streamKind_of_ready hs]
  exact ⟨_, rfl, bodyEnds_channels rfl rfl
    (fun s h => ⟨(moves_lsideChannels h).1.mono fun _ _ => trivial, (moves_lsideChannels h).2⟩) s⟩

theorem ends_rside (hs : s.st ≠ .fault) :
    ∃ r, exec .rside s = finish r ∧ BodyEnds .rside s r := by
  show ∃ r, execRside s = finish r ∧ _
  rw [execRside, channelKind, streamKind_of_ready hs]
  exact ⟨_, rfl, bodyEnds_channels rfl rfl
    (fun s h => ⟨(moves_rsideChannels h).1.mono fun _ _ => trivial, (moves_rsideChannels h).2⟩) s⟩

theorem ends_mside (hs : s.st ≠ .fault) :
    ∃ r, exec .mside s = finish r ∧ BodyEnds .mside s r := by
  show ∃ r, execMside s = finish r ∧ _
  rw [execMside, channelKind, streamKind_of_ready hs]
  exact ⟨_, rfl, bodyEnds_channels rfl rfl
    (fun s h => ⟨(moves_msideChannels h).1.mono fun _ _ => trivial, (moves_msideChannels h).2⟩) s⟩

/-- Every instruction but RESET, accepted: it runs a body that ends as `BodyEnds` says. -/
theorem exec_ends (i : Instr) (hi : i ≠ .reset) (s : State) (hs : s.st ≠ .fault) :
    ∃ r, exec i s = finish r ∧ BodyEnds i s r := by
  cases i
  case reset => exact absurd rfl hi
  case crcrst m => exact ends_crcrst m hs
  case rdu n => exact ends_rdu n hs
  case rds n => exact ends_rds n hs
  case rdunary b => exact ends_rdunary b hs
  case align => exact ends_align hs
  case rdbytes n => exact ends_rdbytes n hs
  case varint => exact ends_varint hs
  case framehdr => exact ends_framehdr hs
  case subframe ch => exact ends_subframe ch hs
  case resid ch ord => exact ends_resid ch ord hs
  case decorr => exact ends_decorr hs
  case frame => exact ends_frame hs
  case constant ch w => exact ends_subframeKind .constant ch w hs
  case verbatim ch w => exact ends_subframeKind .verbatim ch w hs
  case fixed0 ch w => exact ends_subframeKind .fixed0 ch w hs
  case fixed1 ch w => exact ends_subframeKind .fixed1 ch w hs
  case fixed2 ch w => exact ends_subframeKind .fixed2 ch w hs
  case fixed3 ch w => exact ends_subframeKind .fixed3 ch w hs
  case fixed4 ch w => exact ends_subframeKind .fixed4 ch w hs
  case lpc ch o w => exact ends_subframeKind (.lpc o) ch w hs
  case rice4 p k => exact ends_rice4 p k hs
  case esc4 p w => exact ends_esc4 p w hs
  case rice5 p k => exact ends_rice5 p k hs
  case esc5 p w => exact ends_esc5 p w hs
  case indep c => exact ends_indep c hs
  case lside => exact ends_lside hs
  case rside => exact ends_rside hs
  case mside => exact ends_mside hs

/-- In FAULT an instruction other than RESET changes nothing (rule R217). -/
theorem exec_of_fault {i : Instr} (hi : i ≠ .reset) (hs : s.st = .fault) : exec i s = .next s := by
  cases i
  case reset => exact absurd rfl hi
  case constant => show execConstant _ _ s = _; rw [execConstant, subframeKind, streamKind_of_fault hs]
  case verbatim => show execVerbatim _ _ s = _; rw [execVerbatim, subframeKind, streamKind_of_fault hs]
  case fixed0 => show execFixed0 _ _ s = _; rw [execFixed0, subframeKind, streamKind_of_fault hs]
  case fixed1 => show execFixed1 _ _ s = _; rw [execFixed1, subframeKind, streamKind_of_fault hs]
  case fixed2 => show execFixed2 _ _ s = _; rw [execFixed2, subframeKind, streamKind_of_fault hs]
  case fixed3 => show execFixed3 _ _ s = _; rw [execFixed3, subframeKind, streamKind_of_fault hs]
  case fixed4 => show execFixed4 _ _ s = _; rw [execFixed4, subframeKind, streamKind_of_fault hs]
  case lpc => show execLpc _ _ _ s = _; rw [execLpc, subframeKind, streamKind_of_fault hs]
  case rice4 => show execRice4 _ _ s = _; rw [execRice4, streamKind_of_fault hs]
  case esc4 => show execEsc4 _ _ s = _; rw [execEsc4, streamKind_of_fault hs]
  case rice5 => show execRice5 _ _ s = _; rw [execRice5, streamKind_of_fault hs]
  case esc5 => show execEsc5 _ _ s = _; rw [execEsc5, streamKind_of_fault hs]
  case indep c => show execIndep c s = _; rw [execIndep, channelKind, streamKind_of_fault hs]
  case lside => show execLside s = _; rw [execLside, channelKind, streamKind_of_fault hs]
  case rside => show execRside s = _; rw [execRside, channelKind, streamKind_of_fault hs]
  case mside => show execMside s = _; rw [execMside, channelKind, streamKind_of_fault hs]
  case framehdr => show execFramehdr s = _; rw [execFramehdr, frameCommand_of_fault hs]
  case subframe => show execSubframe _ s = _; rw [execSubframe, frameCommand_of_fault hs]
  case resid => show execResid _ _ s = _; rw [execResid, frameCommand_of_fault hs]
  case decorr => show execDecorr s = _; rw [execDecorr, frameCommand_of_fault hs]
  case frame => show execFrame s = _; rw [execFrame, frameCommand_of_fault hs]
  case crcrst => show execCrcrst _ s = _; rw [execCrcrst, primitiveCommand_of_fault hs]
  case rdu => show execRdu _ s = _; rw [execRdu, primitiveCommand_of_fault hs]
  case rds => show execRds _ s = _; rw [execRds, primitiveCommand_of_fault hs]
  case rdunary => show execRdunary _ s = _; rw [execRdunary, primitiveCommand_of_fault hs]
  case align => show execAlign s = _; rw [execAlign, primitiveCommand_of_fault hs]
  case rdbytes => show execRdbytes _ s = _; rw [execRdbytes, primitiveCommand_of_fault hs]
  case varint => show execVarint s = _; rw [execVarint, primitiveCommand_of_fault hs]

end Sys2Proof.Machine
end

