-- ==== Sys2Proof/Laws/Encoding.lean ====
section
/-! SUPPORT. Laws/Encoding.lean: the command decoder against the encoder. -/

namespace Sys2Proof

theorem selects_iff (w m v : BitVec 32) : selects w m v = true ↔ w &&& m = v := by simp [selects]

/-- A row whose mask is all ones has one word. -/
theorem eq_of_selects_all {w v : BitVec 32} (h : selects w 0xFFFFFFFF#32 v = true) : w = v := by
  rw [selects_iff, show (0xFFFFFFFF#32) = BitVec.allOnes 32 from rfl, BitVec.and_allOnes] at h; exact h

theorem ofSelector_some {t : Nat} {k : SubKind} (h : SubKind.ofSelector t = some k) : k.selector = t := by
  unfold SubKind.ofSelector at h
  split at h
  iterate 7 (simp only [Option.some.injEq] at h; subst h; rfl)
  split at h
  · simp only [Option.some.injEq] at h; subst h
    simp [SubKind.selector]; omega
  · cases h

/-- A word is its bits under a mask and its bits outside it. -/
theorem split_mask (w m : BitVec 32) : w = (w &&& m) ||| (w &&& ~~~m) := by
  ext i hi; simp; cases w[i] <;> cases m[i] <;> rfl

/-- The low bits of a word as a field. -/
theorem low_field (w : BitVec 32) (n : Nat) :
    w &&& BitVec.ofNat 32 (2 ^ n - 1) = (w.extractLsb' 0 n).setWidth 32 := by
  apply BitVec.eq_of_getLsbD_eq
  intro i hi
  simp only [BitVec.getLsbD_and, BitVec.getLsbD_ofNat, Nat.testBit_two_pow_sub_one, BitVec.getLsbD_setWidth,
    BitVec.getLsbD_extractLsb', hi, decide_true, Bool.true_and, Nat.zero_add]
  rw [Bool.and_comm]

/-- The two operand fields of RESID. -/
theorem resid_field (w : BitVec 32) :
    w &&& 0x3F07#32 = (w.extractLsb' 0 3).setWidth 32 ||| (w.extractLsb' 8 6).setWidth 32 <<< 8 := by
  apply BitVec.eq_of_getLsbD_eq
  intro i hi
  interval_cases i <;> simp

theorem inRange_ok {i j : Instr} (h : inRange i = .ok j) : i = j ∧ i.wellFormed = true := by
  unfold inRange at h; split at h
  · cases h; exact ⟨rfl, ‹_›⟩
  · cases h

theorem ite_ok {c : Prop} [Decidable c] {x y : Except DecodeError Instr} {i : Instr}
    (h : (if c then x else y) = .ok i) :
    (c ∧ x = .ok i) ∨ y = .ok i := by
  split at h
  · exact .inl ⟨‹_›, h⟩
  · exact .inr h

/-- Whatever the command decoder accepts is a well-formed command, and the word is its encoding (rules R81 and R82). -/
theorem decodeCommand_ok {w : CommandWord} {i : Instr} (h : decodeCommand w = .ok i) :
    i.slot = .command ∧ i.width = 32 ∧ encode i = w.toNat ∧ i.wellFormed = true := by
  unfold decodeCommand at h
  rcases ite_ok h with ⟨e, h⟩ | h
  · have := eq_of_selects_all e; subst this; cases h; decide
  rcases ite_ok h with ⟨e, h⟩ | h
  · have e := (selects_iff _ _ _).1 e; have := split_mask w 0xFFFFFFFC#32
    rw [e, show ~~~ 0xFFFFFFFC#32 = BitVec.ofNat 32 (2 ^ 2 - 1) by rfl, low_field w 2] at this
    cases h; rw [congrArg BitVec.toNat this]; generalize w.extractLsb' 0 2 = n; revert n; decide
  rcases ite_ok h with ⟨e, h⟩ | h
  · have e := (selects_iff _ _ _).1 e; have := split_mask w 0xFFFFFF80#32
    rw [e, show ~~~ 0xFFFFFF80#32 = BitVec.ofNat 32 (2 ^ 7 - 1) by rfl, low_field w 7] at this
    obtain ⟨rfl, hw⟩ := inRange_ok h; rw [congrArg BitVec.toNat this]; revert hw
    generalize w.extractLsb' 0 7 = n; revert n; decide
  rcases ite_ok h with ⟨e, h⟩ | h
  · have e := (selects_iff _ _ _).1 e; have := split_mask w 0xFFFFFF80#32
    rw [e, show ~~~ 0xFFFFFF80#32 = BitVec.ofNat 32 (2 ^ 7 - 1) by rfl, low_field w 7] at this
    obtain ⟨rfl, hw⟩ := inRange_ok h; rw [congrArg BitVec.toNat this]; revert hw
    generalize w.extractLsb' 0 7 = n; revert n; decide
  rcases ite_ok h with ⟨e, h⟩ | h
  · have e := (selects_iff _ _ _).1 e; have := split_mask w 0xFFFFFFFE#32
    rw [e, show ~~~ 0xFFFFFFFE#32 = BitVec.ofNat 32 (2 ^ 1 - 1) by rfl, low_field w 1] at this
    have e : w.getLsbD 0 = (w.extractLsb' 0 1).getLsbD 0 := by simp
    cases h; rw [congrArg BitVec.toNat this, e]; generalize w.extractLsb' 0 1 = n; revert n; decide
  rcases ite_ok h with ⟨e, h⟩ | h
  · have := eq_of_selects_all e; subst this; cases h; decide
  rcases ite_ok h with ⟨e, h⟩ | h
  · have e := (selects_iff _ _ _).1 e; have := split_mask w 0xFFFFFFE0#32
    rw [e, show ~~~ 0xFFFFFFE0#32 = BitVec.ofNat 32 (2 ^ 5 - 1) by rfl, low_field w 5] at this
    obtain ⟨rfl, hw⟩ := inRange_ok h; rw [congrArg BitVec.toNat this]; revert hw
    generalize w.extractLsb' 0 5 = n; revert n; decide
  rcases ite_ok h with ⟨e, h⟩ | h
  · have := eq_of_selects_all e; subst this; cases h; decide
  rcases ite_ok h with ⟨e, h⟩ | h
  · have := eq_of_selects_all e; subst this; cases h; decide
  rcases ite_ok h with ⟨e, h⟩ | h
  · have e := (selects_iff _ _ _).1 e; have := split_mask w 0xFFFFFFF8#32
    rw [e, show ~~~ 0xFFFFFFF8#32 = BitVec.ofNat 32 (2 ^ 3 - 1) by rfl, low_field w 3] at this
    cases h; rw [congrArg BitVec.toNat this]; generalize w.extractLsb' 0 3 = n; revert n; decide
  rcases ite_ok h with ⟨e, h⟩ | h
  · have e := (selects_iff _ _ _).1 e; have := split_mask w 0xFFFFC0F8#32
    rw [e, show ~~~ 0xFFFFC0F8#32 = 0x3F07#32 by rfl, resid_field w] at this
    obtain ⟨rfl, hw⟩ := inRange_ok h; rw [congrArg BitVec.toNat this]; revert hw
    generalize w.extractLsb' 0 3 = n; generalize w.extractLsb' 8 6 = m; revert n m; decide
  rcases ite_ok h with ⟨e, h⟩ | h
  · have := eq_of_selects_all e; subst this; cases h; decide
  rcases ite_ok h with ⟨e, h⟩ | h
  · have := eq_of_selects_all e; subst this; cases h; decide
  cases h

end Sys2Proof
end

