-- ==== Sys2Proof/Laws/Fields.lean ====
section
/-! SUPPORT. Laws/Fields.lean: where a source that ends inside an encoding stops each part of the decoder. `Reads` says
of a part that it reads exactly these fields, `CutBy` that it raises at the first that is not whole; parts compose by
`Reads.bind` and `Reads.bindCut`. -/

namespace Sys2Proof.Machine

/-! ## Fields one after another -/

@[simp] theorem runFields_nil (s : State) : runFields [] s = s := rfl
@[simp] theorem runFields_cons (f : Field) (fs : List Field) (s : State) :
    runFields (f :: fs) s = runFields fs (f.run s) := rfl
theorem runFields_append (fs gs : List Field) (s : State) : runFields (fs ++ gs) s = runFields gs (runFields fs s) :=
  List.foldl_append ..
@[simp] theorem fieldBits_nil : fieldBits [] = [] := rfl
@[simp] theorem fieldBits_cons (f : Field) (fs : List Field) : fieldBits (f :: fs) = f.bits ++ fieldBits fs := rfl
theorem fieldBits_append (fs gs : List Field) : fieldBits (fs ++ gs) = fieldBits fs ++ fieldBits gs :=
  List.flatMap_append

/-- A field whose effect leaves the source and the cursor alone. -/
def Field.Quiet (f : Field) : Prop :=
  ∀ s, (f.effect s).src = s.src ∧ (f.effect s).srcLen = s.srcLen ∧ (f.effect s).pos = s.pos

theorem Field.Quiet.holds {f : Field} (hq : f.Quiet) {bs : List Bool} {s : State} :
    Holds bs (f.run s) ↔ Holds bs (advance f.bits s) :=
  holds_congr (hq _).1 (hq _).2.1 (hq _).2.2 bs

theorem holds_runFields {fs : List Field} (hq : ∀ f ∈ fs, f.Quiet) {bs : List Bool} {s : State} :
    Holds (fieldBits fs ++ bs) s ↔ Holds (fieldBits fs) s ∧ Holds bs (runFields fs s) := by
  induction fs generalizing s with
  | nil => simp only [fieldBits_nil, List.nil_append, runFields_nil]
           exact ⟨fun h => ⟨⟨by have := h.1; simp; omega, by simp⟩, h⟩, And.right⟩
  | cons f fs ih =>
    have hf := hq f (by simp)
    rw [fieldBits_cons, List.append_assoc, holds_append (as := f.bits),
      holds_append (as := f.bits) (bs := fieldBits fs),
      runFields_cons, ← hf.holds, ← hf.holds, ih fun g hg => hq g (by simp [hg]), and_assoc]

/-! ## Parts that read fields -/

section

variable {α β : Type}

/-- Wherever the source ends inside these fields, the part raises at the first field that is not whole. -/
def CutBy (fs : List Field) (s : State) (r : Res α) : Prop :=
  ∀ (k : Nat) (f : Field), fs[k]? = some f → Holds (fieldBits (fs.take k)) s → f.lacking (runFields (fs.take k) s) →
    r = .raised .unexpectedEnd (runFields (fs.take k) s)

/-- The part reads exactly these fields, and ends with this value. -/
structure Reads (fs : List Field) (s : State) (r : Res α) (a : α) : Prop where
  quiet : ∀ f ∈ fs, f.Quiet
  whole : Holds (fieldBits fs) s → r = .ok a (runFields fs s)
  cut   : CutBy fs s r

theorem cutBy_nil (s : State) (r : Res α) : CutBy [] s r := fun k f h => by simp at h

theorem Reads.nil (a : α) (s : State) : Reads [] s (.ok a s) a := ⟨by simp, fun _ => rfl, cutBy_nil _ _⟩

/-- One part after another. -/
theorem Reads.bindCut {fs gs : List Field} {s : State} {r : Res α} {a : α} {g : α → State → Res β}
    (hr : Reads fs s r a) (hg : CutBy gs (runFields fs s) (g a (runFields fs s))) : CutBy (fs ++ gs) s (r.bind g) := by
  intro k f hk hh hl
  by_cases h : k < fs.length
  · rw [List.getElem?_append_left h] at hk
    rw [List.take_append_of_le_length h.le] at hh hl ⊢
    rw [hr.cut k f hk hh hl]; rfl
  · obtain ⟨j, rfl⟩ := Nat.exists_eq_add_of_le (Nat.le_of_not_lt h)
    rw [List.getElem?_append_right (by omega), Nat.add_sub_cancel_left] at hk
    rw [List.take_length_add_append] at hh hl ⊢
    rw [fieldBits_append, holds_runFields hr.quiet] at hh
    rw [runFields_append] at hl ⊢
    rw [hr.whole hh.1, Res.bind_ok, hg j f hk hh.2 hl]

theorem Reads.bind {fs gs : List Field} {s : State} {r : Res α} {a : α} {g : α → State → Res β} {b : β}
    (hr : Reads fs s r a) (hg : Reads gs (runFields fs s) (g a (runFields fs s)) b) :
    Reads (fs ++ gs) s (r.bind g) b where
  quiet f hf := (List.mem_append.1 hf).elim (hr.quiet f) (hg.quiet f)
  whole h := by
    rw [fieldBits_append, holds_runFields hr.quiet] at h
    rw [hr.whole h.1, Res.bind_ok, hg.whole h.2, runFields_append]
  cut := hr.bindCut hg.cut

/-- One field, then what follows its effect. -/
theorem cutBy_cons {f : Field} {gs : List Field} {s : State} {r : Res α} {a : α} {g : α → State → Res β}
    (hq : f.Quiet) (hr : Holds f.bits s → r = .ok a (advance f.bits s))
    (hl : f.lacking s → r = .raised .unexpectedEnd s)
    (hg : CutBy gs (f.run s) (g a (advance f.bits s))) : CutBy (f :: gs) s (r.bind g) := by
  intro k f' hk hh hlk
  cases k with
  | zero =>
    simp only [List.getElem?_cons_zero, Option.some.injEq] at hk; subst hk
    simp only [List.take_zero, runFields_nil] at hlk ⊢
    rw [hl hlk]; rfl
  | succ k =>
    simp only [List.getElem?_cons_succ, List.take_succ_cons, fieldBits_cons, runFields_cons] at hk hh hlk ⊢
    rw [hr hh.left, Res.bind_ok, hg k f' hk (hq.holds.2 hh.right) hlk]

theorem Reads.cons {f : Field} {gs : List Field} {s : State} {r : Res α} {a : α} {g : α → State → Res β} {b : β}
    (hq : f.Quiet) (hr : Holds f.bits s → r = .ok a (advance f.bits s))
    (hl : f.lacking s → r = .raised .unexpectedEnd s)
    (hg : Reads gs (f.run s) (g a (advance f.bits s)) b) : Reads (f :: gs) s (r.bind g) b where
  quiet f' hf := (List.mem_cons.1 hf).elim (fun h => h ▸ hq) (hg.quiet f')
  whole h := by rw [hr h.left, Res.bind_ok, hg.whole (hq.holds.2 h.right)]; rfl
  cut := cutBy_cons hq hr hl hg.cut

theorem CutBy.bind {fs : List Field} {s : State} {r : Res α} (h : CutBy fs s r) (g : α → State → Res β) :
    CutBy fs s (r.bind g) := fun k f hk hh hl => by rw [h k f hk hh hl]; rfl

/-- A field of no bits: no source ends inside it. -/
theorem cutBy_effect {e : State → State} {gs : List Field} {s : State} {r : Res α}
    (hq : ({ bits := [], effect := e } : Field).Quiet) (hg : CutBy gs (e s) r) :
    CutBy ({ bits := [], effect := e } :: gs) s r := by
  intro k f hk hh hl
  have he : Field.run { bits := [], effect := e } s = e s := by simp [Field.run]
  cases k with
  | zero =>
    simp only [List.getElem?_cons_zero, Option.some.injEq] at hk; subst hk
    have h1 := hh.1
    have h2 : sourceEnd s < s.pos.toNat + 0 := hl
    simp at h1; omega
  | succ k =>
    simp only [List.getElem?_cons_succ, List.take_succ_cons, fieldBits_cons, runFields_cons, he,
      List.nil_append] at hk hh hl ⊢
    exact hg k f hk (by rw [← he, hq.holds]; simpa using hh) hl

/-- One field alone. -/
theorem Reads.one {f : Field} {s : State} {r : Res α} {a : α} (hq : f.Quiet) (he : f.effect = id)
    (hr : Holds f.bits s → r = .ok a (advance f.bits s)) (hl : f.lacking s → r = .raised .unexpectedEnd s) :
    Reads [f] s r a where
  quiet f' hf := by simp only [List.mem_singleton] at hf; exact hf ▸ hq
  whole h := by simp only [fieldBits_cons, fieldBits_nil, List.append_nil] at h; rw [hr h]; simp [Field.run, he]
  cut := by
    intro k f' hk hh hlk
    cases k with
    | zero =>
      simp only [List.getElem?_cons_zero, Option.some.injEq] at hk; subst hk
      exact hl hlk
    | succ k => simp at hk

end

/-! ## The reader's fields -/

theorem lacking_fixed {bits : List Bool} {e : State → State} {s : State} :
    ({ bits := bits, effect := e } : Field).lacking s ↔ sourceEnd s < s.pos.toNat + bits.length := Iff.rfl

theorem quiet_id (bits : List Bool) (u : Bool) : ({ bits := bits, unary := u } : Field).Quiet :=
  fun _ => ⟨rfl, rfl, rfl⟩

theorem quiet_writeSample (bits : List Bool) (c i : Nat) (v : Int) :
    ({ bits := bits, effect := writeSample c i v } : Field).Quiet := fun _ => ⟨rfl, rfl, rfl⟩

theorem readUnsigned_of_lacking {n v : Nat} {e : State → State} {s : State}
    (h : ({ bits := uBits n v, effect := e } : Field).lacking s) : readUnsigned n s = .raised .unexpectedEnd s :=
  readUnsigned_of_short (by simpa [lacking_fixed] using h)

theorem readSigned_of_lacking {n : Nat} {v : Int} {e : State → State} {s : State}
    (h : ({ bits := sBits n v, effect := e } : Field).lacking s) : readSigned n s = .raised .unexpectedEnd s :=
  readSigned_of_short (by simpa [lacking_fixed] using h)

theorem readUnary_of_lacking {bits : List Bool} {s : State} (h : ({ bits := bits, unary := true } : Field).lacking s) :
    readUnary true s = .raised .unexpectedEnd s := by
  have h : ∀ p, s.pos.toNat ≤ p → p < sourceEnd s → streamBit p s = false := h
  exact readUnary_of_none fun p h1 h2 => by rw [h p h1 h2]; decide

/-! ## Samples and partitions -/

theorem reads_signedFields {w c i : Nat} {vs : List Int} {s : State} (hv : ∀ v ∈ vs, fitsSigned w v) :
    Reads (signedFields w c i vs) s (readSamples (readSigned w) c vs.length i s) () := by
  induction vs generalizing i s with
  | nil => exact .nil () s
  | cons v vs ih =>
    exact .cons (quiet_writeSample _ _ _ _) (readSigned_of_holds (hv v (by simp))) readSigned_of_lacking
      (ih fun x hx => hv x (by simp [hx]))

theorem runFields_signedFields (w c i : Nat) (vs : List Int) (s : State) :
    runFields (signedFields w c i vs) s = storeAll c i vs (advance (vs.flatMap (sBits w)) s) := by
  induction vs generalizing i s with
  | nil => simp [signedFields, storeAll]
  | cons v vs ih =>
    rw [signedFields, runFields_cons, ih, List.flatMap_cons, advance_append]; rfl

theorem reads_riceFields {k c i : Nat} {vs : List Int} {s : State} :
    Reads (riceFields k c i vs) s (readSamples (riceSymbol k) c vs.length i s) () := by
  induction vs generalizing i s with
  | nil => exact .nil () s
  | cons v vs ih =>
    rw [List.length_cons, readSamples, riceSymbol, Res.bind_assoc]
    refine .cons (quiet_id _ _) readUnary_of_holds readUnary_of_lacking ?_
    rw [Res.bind_assoc]
    refine .cons (quiet_writeSample _ _ _ _) (readUnsigned_of_holds (Nat.mod_lt _ (by positivity)))
      readUnsigned_of_lacking ?_
    have e : foldZigzag v / 2 ^ k * 2 ^ k + foldZigzag v % 2 ^ k = foldZigzag v := by
      rw [Nat.mul_comm]; exact Nat.div_add_mod _ _
    rw [Res.bind_ok, e, unfold_fold]
    exact ih

theorem reads_partition {m : Nat} {p : Part} {c : PartitionCode} {s : State} (hl : c.legal m)
    (hn : c.values.length = p.count) :
    Reads (c.fields m p.ch.toNat p.first) s (decodePartition m p s) () := by
  cases c with
  | rice k vs =>
    simp only [PartitionCode.legal, PartitionCode.values] at *
    refine .cons (quiet_id _ _) (readUnsigned_of_holds (lt_trans hl (escapeValue_lt m))) readUnsigned_of_lacking ?_
    rw [if_neg (by omega), ricePartition, ← hn]
    exact reads_riceFields
  | escape w vs =>
    simp only [PartitionCode.legal, PartitionCode.values] at *
    refine .cons (quiet_id _ _) (readUnsigned_of_holds (escapeValue_lt m)) readUnsigned_of_lacking ?_
    rw [if_pos rfl]
    refine .cons (quiet_id _ _) (readUnsigned_of_holds (n := 5) hl.1) readUnsigned_of_lacking ?_
    rw [escapePartition, ← hn]
    exact reads_signedFields hl.2

theorem reads_partitions {m len i n : Nat} {ch : BitVec 3} {parts : List PartitionCode} {s : State}
    (hl : ∀ c ∈ parts, c.legal m)
    (hn : ∀ j (hj : j < parts.length), parts[j].values.length = if j = 0 then n else len) :
    Reads (partitionFields m ch.toNat i parts) s (decodePartitions m ch len parts.length i n s) () := by
  induction parts generalizing i n s with
  | nil => exact .nil () s
  | cons c parts ih =>
    have h0 := hn 0 (by simp)
    simp only [List.getElem_cons_zero, if_true] at h0
    refine (reads_partition (p := { ch := ch, first := i, count := n }) (hl c (by simp)) h0).bind ?_
    rw [h0]
    refine ih (fun d hd => hl d (by simp [hd])) fun j hj => ?_
    have := hn (j + 1) (by simpa using hj)
    simpa using this

/-! ## The residual section (rule R170) -/

/-- The lengths of a legal section's partitions, as the decoder counts them. -/
theorem sectionLegal_counts {m p n o : Nat} {parts : List PartitionCode} (hl : sectionLegal m p n o parts) :
    parts.length = 2 ^ p ∧ ∀ j (hj : j < parts.length),
      parts[j].values.length = if j = 0 then n / 2 ^ p - o else n / 2 ^ p := by
  obtain ⟨-, -, -, -, hlen, -⟩ := hl
  have hpos : 0 < 2 ^ p := by positivity
  refine ⟨?_, fun j hj => ?_⟩
  · have := congrArg List.length hlen
    simp only [List.length_map, List.length_cons, List.length_replicate] at this
    omega
  · have e : (parts.map fun c => c.values.length)[j]? = some parts[j].values.length := by simp [hj]
    rw [hlen] at e
    cases j with
    | zero => simpa using e.symm
    | succ j =>
      simp only [List.getElem?_cons_succ, List.getElem?_replicate] at e
      split at e
      · simpa using e.symm
      · cases e

/-- The head of a section, then what follows the partition order. -/
theorem decodeResidual_steps (ch : BitVec 3) (o : Nat) (s : State) :
    decodeResidual ch o s = (readUnsigned 1 s).bind fun m s =>
      (readUnsigned 4 { s with resMethod := BitVec.ofNat 1 m }).bind fun p s =>
        if s.fhBlocksize.toNat % 2 ^ p ≠ 0 ∨ s.fhBlocksize.toNat / 2 ^ p < o then
          .raised .invalidPartitionOrder { s with resPorder := BitVec.ofNat 4 p }
        else decodePartitions m ch (s.fhBlocksize.toNat / 2 ^ p) (2 ^ p) o (s.fhBlocksize.toNat / 2 ^ p - o)
          { s with resPorder := BitVec.ofNat 4 p } := rfl

theorem reads_section {m p o : Nat} {ch : BitVec 3} {parts : List PartitionCode} {s : State}
    (hl : sectionLegal m p s.fhBlocksize.toNat o parts) :
    Reads (sectionFields m p ch.toNat o parts) s (decodeResidual ch o s) () := by
  obtain ⟨hc, hn⟩ := sectionLegal_counts hl
  obtain ⟨hm, hp, hd, ho, -, hleg⟩ := hl
  rw [decodeResidual_steps]
  refine .cons (fun _ => ⟨rfl, rfl, rfl⟩) (readUnsigned_of_holds (n := 1) hm) readUnsigned_of_lacking ?_
  refine .cons (fun _ => ⟨rfl, rfl, rfl⟩) (readUnsigned_of_holds (n := 4) hp) readUnsigned_of_lacking ?_
  show Reads _ _ (if s.fhBlocksize.toNat % 2 ^ p ≠ 0 ∨ s.fhBlocksize.toNat / 2 ^ p < o then _
    else decodePartitions m ch (s.fhBlocksize.toNat / 2 ^ p) (2 ^ p) o (s.fhBlocksize.toNat / 2 ^ p - o) _) ()
  rw [← hc] at hn
  rw [if_neg (by omega), ← hc]
  exact reads_partitions hleg hn

theorem cutBy_section {m p o : Nat} {ch : BitVec 3} {parts : List PartitionCode} {s : State} (hm : m < 2) (hp : p < 16)
    (hl : parts = [] ∨ sectionLegal m p s.fhBlocksize.toNat o parts) :
    CutBy (sectionFields m p ch.toNat o parts) s (decodeResidual ch o s) := by
  rcases hl with rfl | hl
  · rw [decodeResidual_steps]
    refine cutBy_cons (fun _ => ⟨rfl, rfl, rfl⟩) (readUnsigned_of_holds (n := 1) hm) readUnsigned_of_lacking ?_
    refine cutBy_cons (fun _ => ⟨rfl, rfl, rfl⟩) (readUnsigned_of_holds (n := 4) hp) readUnsigned_of_lacking ?_
    exact cutBy_nil _ _
  · exact (reads_section hl).cut

theorem sectionHead_bad {m p o : Nat} {ch : BitVec 3} {s : State} (hm : m < 2) (hp : p < 16)
    (hb : s.fhBlocksize.toNat % 2 ^ p ≠ 0 ∨ s.fhBlocksize.toNat / 2 ^ p < o)
    (h : Holds (fieldBits (sectionFields m p ch.toNat o [])) s) :
    decodeResidual ch o s = .raised .invalidPartitionOrder (runFields (sectionFields m p ch.toNat o []) s) := by
  have h : Holds (uBits 1 m ++ uBits 4 p) s := by simpa [sectionFields, partitionFields] using h
  rw [decodeResidual_of_bad hm hp hb h, advance_append]; rfl

/-! ## Subframes (rules R150 to R160) -/

theorem reads_coefficients {prec j : Nat} {vs : List Int} {s : State} (hv : ∀ v ∈ vs, fitsSigned prec v) :
    Reads (coefficientFields prec j vs) s (readCoefficients prec vs.length j s) () := by
  induction vs generalizing j s with
  | nil => exact .nil () s
  | cons v vs ih =>
    exact .cons (fun _ => ⟨rfl, rfl, rfl⟩) (readSigned_of_holds (hv v (by simp))) readSigned_of_lacking
      (ih fun x hx => hv x (by simp [hx]))

theorem reads_lpcParams {prec shift : Nat} {coefs : List Int} {s : State} (h1 : 1 ≤ prec) (h2 : prec ≤ 16)
    (h3 : shift < 16) (hc : ∀ v ∈ coefs, fitsSigned prec v) :
    Reads (lpcFields prec shift coefs) s (readLpcParams coefs.length s) () := by
  have hs : fitsSigned 5 shift := by unfold fitsSigned; rw [if_neg (by omega)]; constructor <;> norm_num <;> omega
  have e : prec - 1 + 1 = prec := by omega
  refine .cons (fun _ => ⟨rfl, rfl, rfl⟩) (readUnsigned_of_holds (n := 4) (by omega)) readUnsigned_of_lacking ?_
  rw [e]
  refine .cons (fun _ => ⟨rfl, rfl, rfl⟩) (readSigned_of_holds hs) readSigned_of_lacking ?_
  rw [if_neg (by omega)]
  have : BitVec.ofInt 5 (shift : Int) = BitVec.ofNat 5 shift := BitVec.ofInt_natCast ..
  rw [this]
  exact reads_coefficients hc

theorem reads_wastedRun {w : Nat} {s : State} : Reads (wastedRun w) s (readWasted (decide (0 < w)) s) w := by
  unfold wastedRun readWasted
  by_cases h : w = 0
  · subst h; exact .nil 0 s
  · have e : w - 1 + 1 = w := by omega
    rw [if_neg h, if_pos (by simpa using Nat.pos_of_ne_zero h)]
    refine .cons (quiet_id _ _) ?_ readUnary_of_lacking (a := w - 1) ?_
    · intro hh
      simp only [wastedBits, if_neg h] at hh ⊢
      exact readUnary_of_holds hh
    · rw [e]; exact .nil w _

theorem runFields_wastedRun (w : Nat) (s : State) : runFields (wastedRun w) s = advance (wastedBits w) s := by
  unfold wastedRun
  by_cases h : w = 0
  · simp [h, wastedBits]
  · rw [if_neg h]; rfl

theorem quiet_subframeField (type order w width : Nat) : (subframeField type order w width).Quiet :=
  fun _ => ⟨rfl, rfl, rfl⟩

theorem runFields_coefficients (prec j : Nat) (vs : List Int) (s : State) :
    runFields (coefficientFields prec j vs) s = writeCoefficients j vs (advance (vs.flatMap (sBits prec)) s) := by
  induction vs generalizing j s with
  | nil => simp [coefficientFields, writeCoefficients]
  | cons v vs ih => rw [coefficientFields, runFields_cons, ih, List.flatMap_cons, advance_append]; rfl

theorem runFields_lpcFields (prec shift : Nat) (coefs : List Int) (s : State) :
    (runFields (lpcFields prec shift coefs) s).fhBlocksize = s.fhBlocksize := by
  rw [lpcFields, runFields_cons, runFields_cons, runFields_coefficients, writeCoefficients_eq]; rfl

/-- A kind whose body reads these fields: the wasted-bits run before them (rules R151 and R152). -/
theorem cutBy_decodeKind {ch : BitVec 3} {k : SubKind} {type order w width : Nat} {body : List Field} {s : State}
    (hw : w < codedWidth ch.toNat s) (hwd : width = codedWidth ch.toNat s - w)
    (ht : typeCode k = BitVec.ofNat 2 type) (ho : predictorOrder k = order)
    (hb : ∀ t : State, t.fhBlocksize = s.fhBlocksize → CutBy body t (kindBody k ch width s.fhBlocksize.toNat t)) :
    CutBy (wastedFields type order w width ++ body) s (decodeKind ch k (decide (0 < w)) s) := by
  rw [wastedFields, List.append_assoc]
  refine reads_wastedRun.bindCut ?_
  rw [runFields_wastedRun]
  have hf : fullWidth ch (advance (wastedBits w) s) = codedWidth ch.toNat s := by rw [fullWidth_eq]; rfl
  rw [if_neg (by omega), hf, ← hwd]
  refine CutBy.bind ?_ _
  refine cutBy_effect (quiet_subframeField type order w width) ?_
  have e : (subframeField type order w width).effect (advance (wastedBits w) s)
      = writeSubframe k w width (advance (wastedBits w) s) := by
    simp only [subframeField, writeSubframe, ht, ho]
  exact e ▸ hb _ rfl

/-- FIXED of order `o` (rule R155). -/
theorem cutBy_fixedBody {predict : Nat → Nat → State → Int} {m p width : Nat} {ch : BitVec 3} {warm : List Int}
    {parts : List PartitionCode} {s : State} (n : Nat) (hw : ∀ v ∈ warm, fitsSigned width v) (hm : m < 2) (hp : p < 16)
    (hl : parts = [] ∨ sectionLegal m p s.fhBlocksize.toNat warm.length parts) :
    CutBy (signedFields width ch.toNat 0 warm ++ sectionFields m p ch.toNat warm.length parts) s
      (fixedBody predict warm.length ch width n s) := by
  refine (reads_signedFields hw).bindCut (CutBy.bind (cutBy_section hm hp ?_) _)
  rwa [runFields_signedFields, storeAll_eq]

/-- LPC (rule R160). -/
theorem cutBy_lpcBody {m p width prec shift : Nat} {ch : BitVec 3} {warm coefs : List Int} {parts : List PartitionCode}
    {s : State} (n : Nat) (hlen : warm.length = coefs.length) (hw : ∀ v ∈ warm, fitsSigned width v) (h1 : 1 ≤ prec)
    (h2 : prec ≤ 16) (h3 : shift < 16) (hc : ∀ v ∈ coefs, fitsSigned prec v) (hm : m < 2) (hp : p < 16)
    (hl : parts = [] ∨ sectionLegal m p s.fhBlocksize.toNat warm.length parts) :
    CutBy (signedFields width ch.toNat 0 warm ++ lpcFields prec shift coefs
      ++ sectionFields m p ch.toNat warm.length parts) s (lpcBody warm.length ch width n s) := by
  rw [List.append_assoc]
  refine (reads_signedFields hw).bindCut ?_
  rw [hlen]
  refine (reads_lpcParams h1 h2 h3 hc).bindCut (CutBy.bind (cutBy_section hm hp ?_) _)
  rw [runFields_lpcFields, runFields_signedFields, storeAll_eq]
  rwa [hlen] at hl

/-! ## Instructions -/

/-- What a part raises is what the command or kind around it takes, as `TruncatedStream` (rule R214). -/
theorem endsInside_of_cutBy {α : Type} {fs : List Field} {s : State} {r : Res α} (h : CutBy fs s r)
    (g : α → State → Res BlockState) : EndsInside fs s (finish (atFrameLevel (r.bind g))) :=
  fun k f hk hh hl => by rw [h k f hk hh hl]; rfl

/-- The header of a subframe (rules R92 to R94 and R151). -/
theorem cutBy_subframeHeader {ch : BitVec 3} {k : SubKind} {w : Nat} {s : State} :
    CutBy (subframeHeaderFields k w) s (decodeSubframe ch s) := by
  have hk : SubKind.ofSelector k.selector = some k ∧ k.selector < 64 := by
    cases k
    case lpc o => revert o; decide
    all_goals exact ⟨rfl, by decide⟩
  refine cutBy_cons (quiet_id _ _) (readUnsigned_of_holds (n := 1) (v := 0) (by omega)) readUnsigned_of_lacking ?_
  rw [if_neg Nat.zero_ne_one]
  refine cutBy_cons (quiet_id _ _) (readUnsigned_of_holds (n := 6) hk.2) readUnsigned_of_lacking ?_
  simp only [hk.1]
  refine cutBy_cons (quiet_id _ _)
    (readUnsigned_of_holds (n := 1) (v := if w = 0 then 0 else 1) (by split <;> omega)) readUnsigned_of_lacking ?_
  have e : ((if w = 0 then 0 else 1 : Nat) == 1) = decide (0 < w) := by
    by_cases h : w = 0 <;> simp [h]; omega
  rw [e]
  exact (reads_wastedRun.cut).bind _

/-! ## Frame headers (rules R130 to R143) -/

theorem runFields_plain {fs : List Field} (h : ∀ f ∈ fs, f.effect = id) (s : State) :
    runFields fs s = advance (fieldBits fs) s := by
  induction fs generalizing s with
  | nil => simp
  | cons f fs ih =>
    rw [runFields_cons, ih fun g hg => h g (by simp [hg]), fieldBits_cons, advance_append, Field.run,
      h f (by simp)]; rfl

theorem length_numberBits {n : Nat} (hn : n ≤ 6) (v : Nat) : (numberBits n v).length = 8 * (n + 1) := by
  rw [numberBits_eq hn]; simp; omega

theorem fieldBits_numberFields {n k v : Nat} (hk : k ≤ n + 1) :
    fieldBits ((numberFields n v).take k) = (numberBits n v).take (8 * k) := by
  induction k with
  | zero => rfl
  | succ k ih =>
    have hj : (numberFields n v)[k]? = some { bits := ((numberBits n v).drop (8 * k)).take 8 } := by
      simp [numberFields, show k < n + 1 by omega]
    rw [List.take_succ, hj, fieldBits_append, ih (by omega), show 8 * (k + 1) = 8 * k + 8 by ring, List.take_add]
    simp

theorem numberFields_plain (n v : Nat) : ∀ f ∈ numberFields n v, f.effect = id := by
  intro f hf
  simp only [numberFields, List.mem_map] at hf
  obtain ⟨j, -, rfl⟩ := hf
  rfl

theorem cutBy_number {n v : Nat} {s : State} (hn : n ≤ 6) : CutBy (numberFields n v) s (readVarint s) := by
  intro k f hk hh hl
  have hkn : k < n + 1 := by
    have := (List.getElem?_eq_some_iff.1 hk).1
    simpa [numberFields] using this
  have hf : f = { bits := ((numberBits n v).drop (8 * k)).take 8 } := by
    have : (numberFields n v)[k]? = some { bits := ((numberBits n v).drop (8 * k)).take 8 } := by
      simp [numberFields, hkn]
    rw [this] at hk; exact (Option.some.inj hk).symm
  rw [runFields_plain fun f hf => numberFields_plain n v f (List.mem_of_mem_take hf)] at hl ⊢
  rw [fieldBits_numberFields (by omega)] at hh hl ⊢
  subst hf
  have hlen := length_numberBits hn v
  have hl : sourceEnd s < (advance ((numberBits n v).take (8 * k)) s).pos.toNat + 8 := by
    have h' := lacking_fixed.1 hl
    rw [List.length_take, List.length_drop, hlen, sourceEnd_advance] at h'
    omega
  cases k with
  | zero =>
    simp only [Nat.mul_zero, List.take_zero, advance_nil] at hl ⊢
    rw [readVarint, readUnsigned_of_short hl]; rfl
  | succ k =>
    obtain ⟨acc, ha⟩ := readVarint_of_take (j := k) hn (by omega) hh
    rw [ha, show n - k = (n - k - 1) + 1 by omega, readContinuation_of_short (by rw [sourceEnd_advance]; exact hl)]; rfl

theorem reads_number {v : Nat} {s : State} (hv : v < 2 ^ 36) :
    Reads (numberFields (extraBytes v) v) s (readVarint s) v := by
  have hb : fieldBits (numberFields (extraBytes v) v) = vintBits v := by
    have h := fieldBits_numberFields (n := extraBytes v) (k := extraBytes v + 1) (v := v) le_rfl
    rwa [← length_numberBits (extraBytes_le v) v, List.take_length, List.take_of_length_le (by
      simp [numberFields])] at h
  refine ⟨fun f hf s => ?_, fun h => ?_, cutBy_number (extraBytes_le v)⟩
  · rw [numberFields_plain _ _ f hf]; exact ⟨rfl, rfl, rfl⟩
  · rw [runFields_plain (numberFields_plain _ _), hb]
    exact readVarint_of_vint hv (hb ▸ h)

theorem reads_blockExtension {b x : Nat} {s : State} (h1 : 1 ≤ b) (h2 : b < 16)
    (hx : x < (if b = 6 then 2 ^ 8 else 2 ^ 16)) :
    Reads (if b = 6 then [{ bits := uBits 8 x }]
      else if b = 7 then [{ bits := uBits 8 (x % 256) }, { bits := uBits 8 (x / 256) }] else []) s
      (readBlocksize b s) (blockSizeOf b x) := by
  unfold readBlocksize blockSizeOf
  by_cases h6 : b = 6
  · subst h6
    exact .cons (quiet_id _ _) (readUnsigned_of_holds (n := 8) hx) readUnsigned_of_lacking (.nil _ _)
  · by_cases h7 : b = 7
    · subst h7
      refine .cons (quiet_id _ _) (readUnsigned_of_holds (n := 8) (by omega)) readUnsigned_of_lacking ?_
      refine .cons (quiet_id _ _) (readUnsigned_of_holds (n := 8) (by simp at hx; omega)) readUnsigned_of_lacking ?_
      have e : x / 256 * 256 + x % 256 + 1 = x + 1 := by omega
      exact e ▸ .nil _ _
    · rw [if_neg h6, if_neg h7]
      split_ifs <;> first | omega | exact .nil _ _

theorem reads_rateExtension {r y : Nat} {s : State} (h1 : r < 15) (hy : y < (if r = 12 then 2 ^ 8 else 2 ^ 16)) :
    Reads (if r = 12 then [{ bits := uBits 8 y }] else if r = 13 ∨ r = 14 then [{ bits := uBits 16 y }] else []) s
      (readSampleRate r s) (sampleRateOf r y s.siRate.toNat) := by
  by_cases h12 : r = 12
  · subst h12
    exact .one (quiet_id _ _) rfl (readUnsigned_of_holds (n := 8) hy) readUnsigned_of_lacking
  · by_cases h13 : r = 13
    · subst h13
      exact .one (quiet_id _ _) rfl (readUnsigned_of_holds (n := 16) hy) readUnsigned_of_lacking
    · by_cases h14 : r = 14
      · subst h14
        exact .cons (quiet_id _ _) (readUnsigned_of_holds (n := 16) hy) readUnsigned_of_lacking (.nil _ _)
      · rw [if_neg h12, if_neg (by omega)]
        have : r ≤ 11 := by omega
        interval_cases r <;> exact .nil _ _

/-- The header after its word (rules R137 to R143). -/
theorem readHeader_of_word {h : HeaderFields} {s : State} (hl : h.legal) (hh : Holds (headerWordBits h) s) :
    readHeader s = (readVarint (advance (headerWordBits h) (zeroChecksums s))).bind fun num s =>
      (readBlocksize h.block s).bind fun bs s => (readSampleRate h.rate s).bind fun rate s =>
      (readUnsigned 8 s).bind fun c t => (checkHeaderChecksum s.crc8 c t).bind fun _ t =>
      .ok () (writeHeader h.word num bs rate c t) := by
  obtain ⟨w0, f1, f2, f3, f4, f5, f6, f7, f8⟩ := word_fields hl
  have hh : Holds (uBits 32 h.word) (zeroChecksums s) := by
    rw [← headerWordBits_eq hl]; exact (holds_congr (s := s) rfl rfl rfl _).2 hh
  rw [readHeader, readUnsigned_of_holds w0 hh, Res.bind_ok]
  simp only [headerDefect_word hl, f4, f5, headerWordBits_eq hl]

theorem cutBy_headerNumber {h : HeaderFields} {n v : Nat} {s : State} (hl : h.legal) (hn : n ≤ 6)
    (hh : Holds (headerWordBits h) s) :
    CutBy (numberFields n v) (advance (headerWordBits h) (zeroChecksums s)) (readHeader s) := by
  rw [readHeader_of_word hl hh]
  exact (cutBy_number hn).bind _

theorem cutBy_headerTail {h : HeaderFields} {c : BitVec 8} {s : State} (hl : h.legal)
    (hh : Holds (headerWordBits h) s) :
    CutBy (headerTailFields h c) (advance (headerWordBits h) (zeroChecksums s)) (readHeader s) := by
  rw [readHeader_of_word hl hh]
  obtain ⟨h1, h2, h3, h4, h5, h6, h7, h8, h9, h10⟩ := hl
  unfold headerTailFields
  rw [List.append_assoc, List.append_assoc]
  refine (reads_number h8).bindCut ?_
  refine (reads_blockExtension h2 h3 h9).bindCut ?_
  refine (reads_rateExtension h4 h10).bindCut ?_
  exact cutBy_cons (quiet_id _ _) (readUnsigned_of_holds (n := 8) c.isLt) readUnsigned_of_lacking (cutBy_nil _ _)

/-- A malformed number stops just after the offending byte (rule R133). -/
theorem readVarint_of_malformed {bits : List Bool} {s : State} (hm : MalformedNumber bits) (hh : Holds bits s) :
    readVarint s = .raised .malformedVarint (advance bits s) := by
  rcases hm with ⟨b, hb, rfl⟩ | ⟨n, v, hn, hv, rfl⟩ | ⟨n, v, j, c, hn, h1, h2, hc, hc', rfl⟩
  · have hb' : lead b = none := by unfold lead; split_ifs <;> first | rfl | omega
    rw [readVarint, readUnsigned_of_holds (n := 8) (by omega) hh, Res.bind_ok]
    simp only [hb']
  · have hlv : v < leastValue n ∧ v < 2 ^ (if n = 0 then 7 else 6 + 5 * n) := by
      unfold extraBytes at hv
      have : n ≠ 0 := by omega
      split_ifs at hv <;> interval_cases n <;> simp [leastValue] <;> omega
    rw [readVarint_of_holds hn hlv.2 hh, if_pos hlv.1]
  · obtain ⟨j, rfl⟩ : ∃ k, j = k + 1 := ⟨j - 1, by omega⟩
    obtain ⟨acc, ha⟩ := readVarint_of_take (j := j) hn (by omega) hh.left
    rw [ha, show n - j = (n - j - 1) + 1 by omega, readContinuation_of_bad hc hc' hh.right, ← advance_append]; rfl

end Sys2Proof.Machine
end

