-- ==== Sys2Proof/Laws/PerInstr.lean ====
section
/-! SUPPORT. Laws/PerInstr.lean: statements made for every instruction, one lemma per constructor.

`EncodeFits`: the encoding of an instruction fits the number of bits its row of the opcode table has. -/

namespace Sys2Proof.Laws.EncodeFits

/-- The encoding has no bit beyond its width. -/
def Statement (i : Instr) : Prop := encode i < 2 ^ i.width

theorem reset : Statement .reset := by unfold Statement; decide
theorem crcrst (m : BitVec 2) : Statement (.crcrst m) := by
  have := m.isLt
  simp only [Statement, encode, commandBits, Instr.width]
  omega
theorem rdu (n : BitVec 7) : Statement (.rdu n) := by
  have := n.isLt
  simp only [Statement, encode, commandBits, Instr.width]
  omega
theorem rds (n : BitVec 7) : Statement (.rds n) := by
  have := n.isLt
  simp only [Statement, encode, commandBits, Instr.width]
  omega
theorem rdunary (t : Bool) : Statement (.rdunary t) := by
  cases t <;> simp [Statement, encode, commandBits, Instr.width]
theorem align : Statement .align := by unfold Statement; decide
theorem rdbytes (n : BitVec 5) : Statement (.rdbytes n) := by
  have := n.isLt
  simp only [Statement, encode, commandBits, Instr.width]
  omega
theorem varint : Statement .varint := by unfold Statement; decide
theorem framehdr : Statement .framehdr := by unfold Statement; decide
theorem subframe (ch : BitVec 3) : Statement (.subframe ch) := by
  have := ch.isLt
  simp only [Statement, encode, commandBits, Instr.width]
  omega
theorem resid (ch : BitVec 3) (ord : BitVec 6) : Statement (.resid ch ord) := by
  have := ch.isLt
  have := ord.isLt
  simp only [Statement, encode, commandBits, Instr.width]
  omega
theorem decorr : Statement .decorr := by unfold Statement; decide
theorem frame : Statement .frame := by unfold Statement; decide
theorem constant (ch : BitVec 3) (w : Bool) : Statement (.constant ch w) := by
  cases w <;> simp [Statement, encode, headerByte, SubKind.selector, Instr.width]
theorem verbatim (ch : BitVec 3) (w : Bool) : Statement (.verbatim ch w) := by
  cases w <;> simp [Statement, encode, headerByte, SubKind.selector, Instr.width]
theorem fixed0 (ch : BitVec 3) (w : Bool) : Statement (.fixed0 ch w) := by
  cases w <;> simp [Statement, encode, headerByte, SubKind.selector, Instr.width]
theorem fixed1 (ch : BitVec 3) (w : Bool) : Statement (.fixed1 ch w) := by
  cases w <;> simp [Statement, encode, headerByte, SubKind.selector, Instr.width]
theorem fixed2 (ch : BitVec 3) (w : Bool) : Statement (.fixed2 ch w) := by
  cases w <;> simp [Statement, encode, headerByte, SubKind.selector, Instr.width]
theorem fixed3 (ch : BitVec 3) (w : Bool) : Statement (.fixed3 ch w) := by
  cases w <;> simp [Statement, encode, headerByte, SubKind.selector, Instr.width]
theorem fixed4 (ch : BitVec 3) (w : Bool) : Statement (.fixed4 ch w) := by
  cases w <;> simp [Statement, encode, headerByte, SubKind.selector, Instr.width]
theorem lpc (ch : BitVec 3) (o : BitVec 5) (w : Bool) : Statement (.lpc ch o w) := by
  have := o.isLt
  cases w <;> simp [Statement, encode, headerByte, SubKind.selector, Instr.width] <;> omega
theorem rice4 (p : Part) (k : BitVec 4) : Statement (.rice4 p k) := by
  have := k.isLt
  simp only [Statement, encode, Instr.width]
  omega
theorem esc4 (p : Part) (w : BitVec 5) : Statement (.esc4 p w) := by
  have := w.isLt
  simp [Statement, encode, escapeValue, Instr.width]
  omega
theorem rice5 (p : Part) (k : BitVec 5) : Statement (.rice5 p k) := by
  have := k.isLt
  simp only [Statement, encode, Instr.width]
  omega
theorem esc5 (p : Part) (w : BitVec 5) : Statement (.esc5 p w) := by
  have := w.isLt
  simp [Statement, encode, escapeValue, Instr.width]
  omega
theorem indep (c : BitVec 3) : Statement (.indep c) := by
  have := c.isLt
  simp only [Statement, encode, Instr.width]
  omega
theorem lside : Statement .lside := by unfold Statement; decide
theorem rside : Statement .rside := by unfold Statement; decide
theorem mside : Statement .mside := by unfold Statement; decide

end Sys2Proof.Laws.EncodeFits
end

