-- ==== Sys2Proof/Tests/Slice0.lean ====
section
/-! SUPPORT. Tests/Slice0.lean: ill-formed terms, decoded words, one step of every instruction on small states, and a
witness for the hypotheses of every statement.

Expected values are those of `spec/95_test_vectors.md`, by the row named, or of the rule named. -/

open Sys2Proof Sys2Proof.Machine

namespace Sys2Proof.Tests

set_option Elab.async false

/-! ## Small states -/

/-- The reset state with these bytes as its source. -/
def source (bytes : List Nat) : State :=
  { State.reset with
    src := (bytes.zipIdx.foldl (fun s (b, a) => writeSource a (BitVec.ofNat 8 b) s) State.reset).src
    srcLen := BitVec.ofNat 61 bytes.length }

/-- The bits as bytes, the last one filled up with zeros. -/
def packed (bits : List Bool) : List Nat :=
  (List.range ((bits.length + 7) / 8)).map fun k =>
    (List.range 8).foldl (fun v j => 2 * v + (bits.getD (8 * k + j) false).toNat) 0

/-- A source that holds these bits at the cursor. -/
def holding (bits : List Bool) : State := source (packed bits)

/-- The cursor moved on, for a test that starts inside a stream. -/
def from_ (pos : Nat) (s : State) : State := { s with pos := BitVec.ofNat 64 pos }

/-- A source that holds these bits at the cursor and ends with them. -/
def endingWith (bits : List Bool) : State :=
  let gap := (8 - bits.length % 8) % 8
  from_ gap (holding (List.replicate gap false ++ bits))

/-- The stream description of section 5 of `95_test_vectors.md`: 44100 Hz, 16 bits, strict. -/
def described (s : State) : State := { s with siRate := 44100, siBps := 16, siValid := true }

/-- The frame header registers of sections 6 to 8. -/
def coded (n bps assignment : Nat) (s : State) : State :=
  { s with
    fhBlocksize := BitVec.ofNat 17 n, fhBps := BitVec.ofNat 6 bps, fhChassign := BitVec.ofNat 4 assignment }

/-- Words of one plane, from sample 0 on. -/
def planed (c : Nat) (vs : List Int) (s : State) : State :=
  { s with smp := (vs.zipIdx.foldl (fun s (v, i) => writeSample c i v s) s).smp }

/-- The first words of a plane. -/
def plane (c n : Nat) (s : State) : List Int := (List.range n).map fun i => readSample c i s

/-- A view of the next state of an instruction. -/
def after {α : Type} (i : Instr) (s : State) (f : State → α) : Option α :=
  match exec i s with
  | .next t => some (f t)
  | .fault _ => none
  | .refused _ => none

/-! ## Well-formedness: one ill-formed term for each check -/

theorem test_wf_rdu_width : Instr.wellFormed (.rdu 64) = true ∧ Instr.wellFormed (.rdu 65) = false := by decide
theorem test_wf_rds_width : Instr.wellFormed (.rds 64) = true ∧ Instr.wellFormed (.rds 65) = false := by decide
theorem test_wf_rdbytes_count : Instr.wellFormed (.rdbytes 16) = true ∧ Instr.wellFormed (.rdbytes 17) = false := by
  decide
theorem test_wf_resid_order : Instr.wellFormed (.resid 0 32) = true ∧ Instr.wellFormed (.resid 0 33) = false := by
  decide
theorem test_wf_part_in_plane : Part.wellFormed ⟨0, 65535, 1⟩ = true ∧ Part.wellFormed ⟨0, 65535, 2⟩ = false := by
  decide
theorem test_wf_rice4_escape : Instr.wellFormed (.rice4 ⟨0, 0, 1⟩ 14) = true
    ∧ Instr.wellFormed (.rice4 ⟨0, 0, 1⟩ 15) = false ∧ Instr.wellFormed (.rice4 ⟨0, 65535, 2⟩ 0) = false := by decide
theorem test_wf_rice5_escape : Instr.wellFormed (.rice5 ⟨0, 0, 1⟩ 30) = true
    ∧ Instr.wellFormed (.rice5 ⟨0, 0, 1⟩ 31) = false ∧ Instr.wellFormed (.rice5 ⟨0, 65535, 2⟩ 0) = false := by decide
theorem test_wf_escape_in_plane : Instr.wellFormed (.esc4 ⟨7, 65536, 0⟩ 31) = true
    ∧ Instr.wellFormed (.esc4 ⟨7, 65536, 1⟩ 31) = false ∧ Instr.wellFormed (.esc5 ⟨7, 65536, 1⟩ 0) = false := by decide

/-! ## Decoding: words written out from rules R81, R88, R93 and R98, and section 9's command words -/

theorem test_decode_reset : decode .command 32 0b00000001000000000000000000000000 = .ok .reset := by decide
theorem test_decode_crcrst : decode .command 32 0b00000010000000000000000000000010 = .ok (.crcrst 2) := by decide
theorem test_decode_rdu : decode .command 32 0b00010000000000000000000000001100 = .ok (.rdu 12) := by decide
theorem test_decode_rds : decode .command 32 0b00010001000000000000000000000001 = .ok (.rds 1) := by decide
theorem test_decode_rdunary : decode .command 32 0b00010010000000000000000000000001 = .ok (.rdunary true) := by decide
theorem test_decode_align : decode .command 32 0b00010011000000000000000000000000 = .ok .align := by decide
theorem test_decode_rdbytes : decode .command 32 0b00010100000000000000000000010000 = .ok (.rdbytes 16) := by decide
theorem test_decode_varint : decode .command 32 0b00010101000000000000000000000000 = .ok .varint := by decide
theorem test_decode_framehdr : decode .command 32 0b00100000000000000000000000000000 = .ok .framehdr := by decide
theorem test_decode_subframe : decode .command 32 0b00100001000000000000000000000110 = .ok (.subframe 6) := by decide
theorem test_decode_resid : decode .command 32 0b00100010000000000000001000000001 = .ok (.resid 1 2) := by decide
theorem test_decode_decorr : decode .command 32 0b00100011000000000000000000000000 = .ok .decorr := by decide
theorem test_decode_frame : decode .command 32 0b00100100000000000000000000000000 = .ok .frame := by decide
theorem test_decode_constant : decode (.header 2) 8 0b00000001 = .ok (.constant 2 true) := by decide
theorem test_decode_verbatim : decode (.header 2) 8 0b00000010 = .ok (.verbatim 2 false) := by decide
theorem test_decode_fixed0 : decode (.header 2) 8 0b00010000 = .ok (.fixed0 2 false) := by decide
theorem test_decode_fixed1 : decode (.header 2) 8 0b00010011 = .ok (.fixed1 2 true) := by decide
theorem test_decode_fixed2 : decode (.header 2) 8 0b00010100 = .ok (.fixed2 2 false) := by decide
theorem test_decode_fixed3 : decode (.header 2) 8 0b00010111 = .ok (.fixed3 2 true) := by decide
theorem test_decode_fixed4 : decode (.header 2) 8 0b00011000 = .ok (.fixed4 2 false) := by decide
theorem test_decode_lpc : decode (.header 2) 8 0b01000100 = .ok (.lpc 2 2 false) := by decide
theorem test_decode_rice4 : decode (.param0 ⟨0, 4, 4⟩) 4 0b0011 = .ok (.rice4 ⟨0, 4, 4⟩ 3) := by decide
theorem test_decode_esc4 : decode (.param0 ⟨0, 4, 4⟩) 9 0b111100011 = .ok (.esc4 ⟨0, 4, 4⟩ 3) := by decide
theorem test_decode_rice5 : decode (.param1 ⟨0, 4, 4⟩) 5 0b11110 = .ok (.rice5 ⟨0, 4, 4⟩ 30) := by decide
theorem test_decode_esc5 : decode (.param1 ⟨0, 4, 4⟩) 10 0b1111111111 = .ok (.esc5 ⟨0, 4, 4⟩ 31) := by decide
theorem test_decode_indep : decode .channels 4 0b0101 = .ok (.indep 5) := by decide
theorem test_decode_lside : decode .channels 4 0b1000 = .ok .lside := by decide
theorem test_decode_rside : decode .channels 4 0b1001 = .ok .rside := by decide
theorem test_decode_mside : decode .channels 4 0b1010 = .ok .mside := by decide

theorem test_decode_command_refuses : decode .command 32 0x14000011 = .error .operandRange
    ∧ decode .command 32 0x02000004 = .error .noCommand ∧ decode .command 32 0 = .error .noCommand
    ∧ decode .command 31 0x13000000 = .error .length := by decide
theorem test_decode_header_refuses : decode (.header 0) 8 0b10000000 = .error .reservedBit
    ∧ decode (.header 0) 8 0b00001110 = .error .reservedType ∧ decode (.header 0) 8 0b00111110 = .error .reservedType
    ∧ decode (.header 0) 9 0 = .error .length := by decide
theorem test_decode_param_refuses : decode (.param0 ⟨0, 0, 1⟩) 4 15 = .error .noParameter
    ∧ decode (.param1 ⟨0, 0, 1⟩) 5 31 = .error .noParameter := by decide
theorem test_decode_channels_refuses : decode .channels 4 15 = .error .reservedChannels := by decide
theorem test_decodeTableWord : decodeTableWord 32 0x2200027F = none ∧ decodeTableWord 32 0x22002007 = some (.resid 7 32)
    ∧ decodeTableWord 8 0x7F = some (.lpc 0 31 true) := by decide

/-! ## One step of each instruction; the numbers are those of `95_test_vectors.md`, by the row named -/

/-- F9: RESET out of FAULT. -/
theorem test_reset : after .reset { source [0xA5] with st := .fault, errCause := 10, pos := 63, strict := false }
    (fun t => (t.st, t.pos, t.errCause, ctrlWord t)) = some (.ready, 0, 0, 1) := by decide +kernel
theorem test_reset_keeps_source : after .reset (source [0xA5]) (fun t => (t.srcLen, sourceByte 0 t)) = some (0, 0xA5) := by
  decide +kernel
/-- Section 3, CRCRST 1. -/
theorem test_crcrst : after (.crcrst 1) { source [] with crc8 := 0x72, crc16 := 0x03DE } (fun t => (t.crc8, t.crc16))
    = some (0, 0x03DE) := by decide +kernel
/-- B6. -/
theorem test_rdu_unaligned : after (.rdu 8) (from_ 4 (source [0xA5, 0x3C])) (fun t => (t.rv, t.pos)) = some (83, 12) := by
  decide +kernel
/-- B3. -/
theorem test_rdu_checksums : after (.rdu 16) (source [0xA5, 0x3C]) (fun t => (t.rv, t.crc8, t.crc16))
    = some (42300, 0xED, 0xDE82) := by decide +kernel
/-- B2. -/
theorem test_rds : after (.rds 8) (source [0xA5, 0x3C]) (fun t => (t.rv, t.pos)) = some (0xFFFFFFFFFFFFFFA5, 8) := by
  decide +kernel
/-- B16, at the end of the source. -/
theorem test_rds_short : after (.rds 1) (from_ 8 (source [0xA5])) (fun t => (t.st, t.errCause, t.errPos, t.pos))
    = some (.fault, 6, 8, 8) := by decide +kernel
/-- V7. -/
theorem test_rdunary_ones : after (.rdunary false) (source [0xFF, 0x7F]) (fun t => (t.rv, t.pos, t.crc8, t.crc16))
    = some (8, 9, 0xE1, 0x0404) := by decide +kernel
/-- V6. -/
theorem test_rdunary_short : after (.rdunary true) (from_ 4 (source [0x10])) (fun t => (t.errCause, t.pos)) = some (6, 4) := by
  decide +kernel
/-- A1, from the registers that RDU 3 leaves. -/
theorem test_align : after .align { from_ 3 (source [0xA5, 0x3C]) with crc8 := 0x1B, crc16 := 0x001E }
    (fun t => (t.pos, t.crc8, t.crc16)) = some (8, 0x72, 0x03DE) := by decide +kernel
/-- A3. -/
theorem test_rdbytes : after (.rdbytes 2) (source [0xA5, 0x3C, 0x10])
    (fun t => (t.raw.toList.take 2, t.rawLen, t.pos, t.crc8, t.crc16)) = some ([0xA5, 0x3C], 2, 16, 0xED, 0xDE82) := by
  decide +kernel
/-- A5. -/
theorem test_rdbytes_unaligned : after (.rdbytes 1) (from_ 1 (source [0xA5])) (fun t => (t.errCause, t.pos, t.rawLen))
    = some (11, 1, 0) := by decide +kernel
/-- Section 4, 2^36 - 1. -/
theorem test_varint : after .varint (source [0xFE, 0xBF, 0xBF, 0xBF, 0xBF, 0xBF, 0xBF]) (fun t => (t.rv, t.pos))
    = some (68719476735, 56) := by decide +kernel
/-- Section 4, an overlong number with a bad byte. -/
theorem test_varint_overlong : after .varint (source [0xE0, 0x9F, 0xBF]) (fun t => (t.errCause, t.pos, t.rv))
    = some (3, 24, 0) := by decide +kernel
/-- H24. -/
theorem test_framehdr : after .framehdr (described (source [0xFF, 0xF8, 0x7D, 0x08, 0x00, 0x0F, 0x00, 0x1F, 0x40, 0x14]))
    (fun t => (t.fhBlocksize, t.fhRate, t.fhBps, t.fhNch, t.crc8, t.pos)) = some (16, 8000, 16, 1, 0, 80) := by
  decide +kernel
/-- H38, and H43 to H49: the cause and the cursor. -/
theorem test_framehdr_faults : ∀ c ∈ [([0xFF, 0xF8, 0x69, 0x08, 0x00, 0x03, 0x15], 8, 56),
    ([0xFF, 0xF8, 0x69, 0x08], 7, 32), ([0xFF, 0xF8, 0x69, 0x08, 0x00], 7, 40),
    ([0xFF, 0xF8, 0x69, 0x08, 0x00, 0x03], 7, 48),
    ([0xFF, 0xF8, 0x79, 0x08, 0x00, 0x0F], 7, 48), ([0xFF, 0xF8, 0x1D, 0x08, 0x00, 0xAC], 7, 40),
    ([0xFF, 0xF8, 0x69, 0x08, 0x80, 0x03, 0x14], 3, 40), ([0xFF, 0xF8, 0x69, 0x08, 0xC0, 0x80, 0x03, 0x14], 3, 48)],
    after .framehdr (described (source c.1)) (fun t => (t.errCause, t.pos, t.fhBlocksize)) = some (c.2.1, c.2.2, 0) := by
  decide +kernel
/-- S14. -/
theorem test_subframe_negative_shift : after (.subframe 0) (coded 4 8 0 (source [0x40, 0x01, 0x1F, 0xA0, 0x08]))
    (fun t => (t.errCause, t.pos, t.lpcPrec, t.lpcShift, plane 0 1 t)) = some (5, 25, 2, -1, [1]) := by decide +kernel
/-- S19. -/
theorem test_subframe_reserved_type : after (.subframe 0) (coded 4 16 0 (source [0x1A])) (fun t => (t.errCause, t.pos))
    = some (10, 7) := by decide +kernel
/-- Q7: partitions of 0, 2, 2 and 2 residuals. -/
theorem test_resid : after (.resid 0 2) (coded 8 16 0 (source [0x10, 0x0A, 0xFC, 0x6E, 0x12, 0x90]))
    (fun t => ((plane 0 8 t).drop 2, t.pos, t.resPorder)) = some ([1, -1, 3, -4, -3, 4], 46, 2) := by decide +kernel
/-- Q20. -/
theorem test_resid_order : after (.resid 0 3) (coded 8 16 0 (source [0x10, 0x00])) (fun t => (t.errCause, t.pos))
    = some (4, 5) := by decide +kernel
/-- X5. -/
theorem test_decorr : after .decorr (planed 0 [-1, -1, 7, -2] (planed 1 [-9, -65535, 0, 1] (coded 4 16 10 (source []))))
    (fun t => (plane 0 4 t, plane 1 4 t, t.blkv)) = some ([-5, -32768, 7, -1], [4, 32767, 7, -2], false) := by
  decide +kernel
/-- X9. -/
theorem test_decorr_reserved : after .decorr (coded 4 16 11 (source [])) (fun t => (t.errCause, t.pos)) = some (11, 0) := by
  decide +kernel
/-- F4: padding bits that are not zero. -/
theorem test_frame : after .frame
    (described (source [0xFF, 0xF8, 0x69, 0x08, 0x00, 0x03, 0x14, 0x10, 0x00, 0xAC, 0x9F, 0x04, 0x36]))
    (fun t => (plane 0 4 t, t.pos, t.crc16, t.frameIdx, t.blkv)) = some ([1, -1, 2, -2], 104, 0, 1, true) := by
  decide +kernel
/-- F3: a footer that differs, under the lenient policy. -/
theorem test_frame_lenient : after .frame
    { described (source [0xFF, 0xF8, 0x69, 0x08, 0x00, 0x03, 0x14, 0x10, 0x00, 0xAC, 0x98, 0x84, 0xD8]) with strict := false }
    (fun t => (plane 0 4 t, t.fcrcBad, t.hcrcBad, t.crc16)) = some ([1, -1, 2, -2], true, false, 0x0202) := by
  decide +kernel
/-- S2, after the 8 header bits. -/
theorem test_constant : after (.constant 0 true) (from_ 8 (coded 3 8 0 (source [0x01, 0x30])))
    (fun t => (plane 0 3 t, t.sfWasted, t.sfWidth, t.pos)) = some ([-128, -128, -128], 3, 5, 16) := by decide +kernel
/-- S11b: the side channel of right/side is plane 0. -/
theorem test_constant_side : after (.constant 0 false) (from_ 8 (coded 1 8 9 (source [0x00, 0x80, 0x00])))
    (fun t => (plane 0 1 t, t.sfWidth)) = some ([-256], 9) := by decide +kernel
/-- S3. -/
theorem test_verbatim : after (.verbatim 0 false) (from_ 8 (coded 4 4 0 (source [0x02, 0x78, 0x0F])))
    (fun t => (plane 0 4 t, t.pos, t.sfType)) = some ([7, -8, 0, -1], 24, 1) := by decide +kernel
/-- S15: 33 bits narrowed. -/
theorem test_verbatim_overflow : after (.verbatim 1 false) (from_ 8 (coded 2 32 8 (source [0x02, 0x7F, 0xFF, 0xFF, 0xFF,
    0x80, 0, 0, 0, 0]))) (fun t => (plane 1 2 t, t.ovf)) = some ([-1, 0], true) := by decide +kernel
/-- S4. -/
theorem test_fixed0 : after (.fixed0 0 false) (from_ 8 (coded 4 16 0 (source [0x10, 0x01, 0xA9, 0x31, 0x40])))
    (fun t => (plane 0 4 t, t.pos)) = some ([5, -5, 0, 1], 35) := by decide +kernel
/-- S5. -/
theorem test_fixed1 : after (.fixed1 0 false) (from_ 8 (coded 4 16 0 (source [0x12, 0x00, 0x0A, 0x01, 0xD5, 0x68])))
    (fun t => (plane 0 4 t, t.pos)) = some ([10, 11, 12, 9], 45) := by decide +kernel
/-- S6. -/
theorem test_fixed2 : after (.fixed2 0 false)
    (from_ 8 (coded 5 16 0 (source [0x14, 0x00, 0x0A, 0x00, 0x0C, 0x01, 0xC5, 0x48])))
    (fun t => (plane 0 5 t, t.pos)) = some ([10, 12, 14, 17, 19], 61) := by decide +kernel
/-- S21: the order is above the block size; the warm-up is stored. -/
theorem test_fixed2_order : after (.fixed2 0 false) (from_ 8 (coded 1 8 0 (source [0x14, 0x01, 0x02, 0x00, 0x00])))
    (fun t => (t.errCause, t.pos, plane 0 2 t)) = some (4, 29, [1, 2]) := by decide +kernel
/-- S7. -/
theorem test_fixed3 : after (.fixed3 0 false)
    (from_ 8 (coded 6 16 0 (source [0x16, 0x00, 0x01, 0x00, 0x04, 0x00, 0x09, 0x01, 0xC4, 0x60])))
    (fun t => (plane 0 6 t, t.pos)) = some ([1, 4, 9, 16, 25, 38], 77) := by decide +kernel
/-- S8. -/
theorem test_fixed4 : after (.fixed4 0 false)
    (from_ 8 (coded 7 16 0 (source [0x18, 0x00, 0x01, 0x00, 0x10, 0x00, 0x51, 0x01, 0x00, 0x01, 0x81, 0x10, 0x0F])))
    (fun t => (plane 0 7 t, t.pos)) = some ([1, 16, 81, 256, 625, 1272, 2257], 104) := by decide +kernel
/-- S10: negative sums are shifted toward minus infinity. -/
theorem test_lpc : after (.lpc 0 2 false)
    (from_ 8 (coded 6 8 0 (source [0x44, 0x9C, 0x32, 0xE7, 0xF7, 0xBF, 0xFF, 0xC0, 0x00, 0x00, 0x00, 0x80, 0x68, 0x40])))
    (fun t => (plane 0 6 t, t.lpcPrec, t.lpcShift, t.coef.toList.take 3, t.pos))
      = some ([-100, 50, -25, -76, -51, 28], 16, 15, [32767, -32768, 1], 107) := by decide +kernel
/-- Q1, after the method, the order and the parameter. -/
theorem test_rice4 : after (.rice4 ⟨0, 0, 5⟩ 0) (from_ 9 (source [0x00, 0x52, 0x21])) (fun t => (plane 0 5 t, t.pos))
    = some ([0, -1, 1, -2, 2], 24) := by decide +kernel
/-- Q12: nothing of a run without its terminator is consumed; Q14: the quotient stays consumed. -/
theorem test_rice4_short : after (.rice4 ⟨0, 0, 2⟩ 0) (from_ 9 (source [0x00, 0x00])) (fun t => (t.errCause, t.pos))
      = some (7, 9)
    ∧ after (.rice4 ⟨0, 0, 1⟩ 14) (from_ 9 (source [0x07, 0x40])) (fun t => (t.errCause, t.pos)) = some (7, 10) := by
  decide +kernel
/-- Q6. -/
theorem test_esc4 : after (.esc4 ⟨0, 0, 2⟩ 31)
    (from_ 14 (source [0x07, 0xFE, 0x00, 0x00, 0x00, 0x03, 0xFF, 0xFF, 0xFF, 0xF0]))
    (fun t => (plane 0 2 t, t.pos)) = some ([-1073741824, 1073741823], 76) := by decide +kernel
/-- Q15: two bits left for a residual of four. -/
theorem test_esc4_short : after (.esc4 ⟨0, 0, 3⟩ 4) (from_ 14 (source [0x07, 0x90])) (fun t => (t.errCause, t.pos))
    = some (7, 14) := by decide +kernel
/-- Q17: a residual that does not fit a sample. -/
theorem test_rice5 : after (.rice5 ⟨0, 0, 1⟩ 30) (from_ 10 (source [0x87, 0x82, 0x00, 0x00, 0x00, 0x00]))
    (fun t => (plane 0 1 t, t.ovf, t.pos)) = some ([-2147483648], true, 45) := by decide +kernel
/-- Width 0 reads no bits (rule R177). -/
theorem test_esc5_width_zero : after (.esc5 ⟨0, 1, 2⟩ 0) (planed 0 [9, 9, 9, 9] (from_ 3 (source [0xFF])))
    (fun t => (plane 0 4 t, t.pos)) = some ([9, 0, 0, 9], 3) := by decide +kernel
/-- X6. -/
theorem test_indep : after (.indep 1) (planed 0 [1, 2, 3] (planed 1 [4, 5, 6] (coded 3 16 1 (source []))))
    (fun t => (plane 0 3 t, plane 1 3 t)) = some ([1, 2, 3], [4, 5, 6]) := by decide +kernel
/-- X1. -/
theorem test_lside : after .lside (planed 0 [5, -3, 100] (planed 1 [2, -7, -100] (coded 3 16 8 (source []))))
    (fun t => (plane 0 3 t, plane 1 3 t)) = some ([5, -3, 100], [3, 4, 200]) := by decide +kernel
/-- X8. -/
theorem test_lside_overflow : after .lside (planed 0 [-2147483648] (planed 1 [1] (coded 1 32 8 (source []))))
    (fun t => (plane 1 1 t, t.ovf)) = some ([2147483647], true) := by decide +kernel
/-- X2. -/
theorem test_rside : after .rside (planed 0 [2, -7, -100] (planed 1 [3, 4, 200] (coded 3 16 9 (source []))))
    (fun t => (plane 0 3 t, plane 1 3 t)) = some ([5, -3, 100], [3, 4, 200]) := by decide +kernel
/-- X3. -/
theorem test_mside : after .mside (planed 0 [1, 1, 1, 1, 0, -1, 32767, -32768]
    (planed 1 [3, -3, 1, -1, 0, 1, -1, 0] (coded 8 16 10 (source []))))
    (fun t => (plane 0 8 t, plane 1 8 t))
      = some ([3, 0, 2, 1, 0, 0, 32767, -32768], [0, 3, 1, 2, 0, -1, 32768, -32768]) := by decide +kernel

/-! ## The output view, and the host's questions -/

/-- The last word of the last plane, and the places beyond the planes, which have no word (log entry 22). -/
theorem test_output_beyond_planes :
    (outputSample 7 { State.reset with blkv := true, fhNch := 9, fhBlocksize := 1 }).isSome = true
    ∧ outputSample 8 { State.reset with blkv := true, fhNch := 9, fhBlocksize := 1 } = none
    ∧ (outputSample 65535 { State.reset with blkv := true, fhNch := 1, fhBlocksize := 65537 }).isSome = true
    ∧ outputSample 65536 { State.reset with blkv := true, fhNch := 1, fhBlocksize := 65537 } = none := by decide +kernel
/-- A view of the state after one step. -/
def stepped {α : Type} (s : State) (f : State → α) : Option α :=
  match step s with
  | .next t => some (f t)
  | .fault _ => none
  | .refused _ => none

theorem test_fetch_command : stepped (State.reset.withFetchWord 32 0x15000000) (fun t => (t.st, t.errCause, t.host))
    = some (.fault, 6, []) := by decide +kernel
theorem test_fetch_header : stepped (State.reset.withFetchWord 8 0b00010010) (fun t => (t.st, t.sfType, t.sfOrder))
    = some (.ready, 2, 1) := by decide +kernel
/-- X1's side channel written by the host (rule R235), and the same write through the host interface (rule R43). -/
theorem test_host_writes_samples :
    stepped { planed 1 [0] (source []) with host := [.writeSample 65536 2] } (fun t => (plane 1 1 t, t.ovf))
      = some ([2], false)
    ∧ stepped { planed 1 [0] (source []) with host := [.portWriteSample 65536 2] } (fun t => (plane 1 1 t, t.ovf))
      = some ([0], false) := by decide +kernel
theorem test_idle : step State.reset = .next State.reset := rfl

/-! ## Witnesses: states and operands that meet the hypotheses of each statement, clause by clause -/

/-- A next state with a property. -/
def ends (f : State → Bool) (o : Host.Outcome State Fault Refusal) : Bool :=
  match o with
  | .next t => f t
  | .fault _ => false
  | .refused _ => false

theorem exists_next {f : State → Bool} {o : Host.Outcome State Fault Refusal} (h : ends f o = true) :
    ∃ t, o = .next t ∧ f t = true := by
  cases o with
  | next t => exact ⟨t, rfl, h⟩
  | fault _ => exact absurd h (by simp [ends])
  | refused _ => exact absurd h (by simp [ends])

/-- The source holds these fields up to number `k`, and not number `k` whole: the premise of `EndsInside`. -/
def CutShort (fs : List Machine.Field) (k : Nat) (s : State) : Prop :=
  ∃ f, fs[k]? = some f ∧ Holds (fieldBits (fs.take k)) s ∧ f.lacking (runFields (fs.take k) s)

/-- The same as a test. -/
def cutShort (fs : List Machine.Field) (k : Nat) (s : State) : Bool :=
  match fs[k]? with
  | none => false
  | some f =>
    let bits := fieldBits (fs.take k)
    let t := runFields (fs.take k) s
    decide (s.pos.toNat + bits.length ≤ sourceEnd s)
      && (List.range bits.length).all (fun j => some (streamBit (s.pos.toNat + j) s) == bits[j]?)
      && (if f.unary then
          (List.range (sourceEnd t)).all fun p => decide (p < t.pos.toNat) || !(streamBit p t)
        else decide (sourceEnd t < t.pos.toNat + f.bits.length))

theorem cutShort_of {fs : List Machine.Field} {k : Nat} {s : State} (h : cutShort fs k s = true) : CutShort fs k s := by
  unfold cutShort at h
  split at h
  · cases h
  · rename_i f hf
    simp only [Bool.and_eq_true, decide_eq_true_eq, List.all_eq_true, List.mem_range, beq_iff_eq] at h
    obtain ⟨⟨h1, h2⟩, h3⟩ := h
    refine ⟨f, hf, ⟨h1, fun j hj => ?_⟩, ?_⟩
    · have := h2 j hj
      rw [List.getElem?_eq_getElem hj] at this
      exact Option.some.inj this
    · unfold Field.lacking
      split at h3
      · rw [if_pos ‹_›]
        intro p hp hl
        simp only [List.all_eq_true, List.mem_range, Bool.or_eq_true, decide_eq_true_eq, Bool.not_eq_true'] at h3
        exact (h3 p hl).resolve_left (by omega)
      · rw [if_neg ‹_›]
        simpa using h3

theorem witness_DecodeInvertsEncode : ∀ i ∈ [Instr.rdu 64, .resid 7 32, .lpc 7 31 true, .rice4 ⟨7, 0, 65536⟩ 14,
    .rice5 ⟨7, 65536, 0⟩ 30, .esc4 ⟨0, 0, 1⟩ 0, .esc5 ⟨0, 0, 1⟩ 31, .indep 7, .mside], i.wellFormed = true := by decide

theorem witness_EncodeInvertsDecode : decode (.param1 ⟨7, 65535, 1⟩) 10 0b1111111111 = .ok (.esc5 ⟨7, 65535, 1⟩ 31)
    ∧ (⟨7, 65535, 1⟩ : Part).wellFormed = true ∧ decode .command 32 0x24000000 = .ok .frame
    ∧ decode .channels 4 0 = .ok (.indep 0) := by decide

theorem witness_CommandWordsFollowTheTable : 0x01000000#32 &&& 0xFFFFFFFF#32 = 0x01000000#32
    ∧ 0x02000003#32 &&& 0xFFFFFFFC#32 = 0x02000000#32 ∧ 0x10000040#32 &&& 0xFFFFFF80#32 = 0x10000000#32
    ∧ 0x1000007F#32 &&& 0xFFFFFF80#32 = 0x10000000#32 ∧ 0x11000041#32 &&& 0xFFFFFF80#32 = 0x11000000#32
    ∧ 0x12000001#32 &&& 0xFFFFFFFE#32 = 0x12000000#32 ∧ 0x1400001F#32 &&& 0xFFFFFFE0#32 = 0x14000000#32
    ∧ 0x14000010#32 &&& 0xFFFFFFE0#32 = 0x14000000#32 ∧ 0x21000007#32 &&& 0xFFFFFFF8#32 = 0x21000000#32
    ∧ 0x22003F07#32 &&& 0xFFFFC0F8#32 = 0x22000000#32 ∧ 0x22002000#32 &&& 0xFFFFC0F8#32 = 0x22000000#32 := by decide

/-- One bit beyond the operand of CRCRST, and a width of 65. -/
theorem witness_OtherWordsRaiseBadCommand : State.reset.st ≠ .fault
    ∧ (∀ i : Instr, i.slot = .command → i.wellFormed = true → encode i ≠ (0x02000004#32).toNat)
    ∧ (∀ i : Instr, i.slot = .command → i.wellFormed = true → encode i ≠ (0x10000041#32).toNat) := by
  refine ⟨by decide, fun i hs hw => ?_, fun i hs hw => ?_⟩
  all_goals
    cases i <;>
      simp only [Instr.slot, reduceCtorEq] at hs <;>
      simp only [encode, commandBits, Instr.wellFormed, Config.rdMax, Config.rawMax, Config.maxOrder, decide_eq_true_eq,
        BitVec.toNat_ofNat] at hw ⊢ <;>
      omega

theorem witness_SubframeSelectorTable : (63 : Nat) < 64 ∧ (32 : Nat) ≤ 63 ∧ ∀ t ∈ [2, 7, 13, 31],
    t < 64 ∧ (2 ≤ t ∧ t ≤ 7 ∨ 13 ≤ t ∧ t ≤ 31) := by decide

theorem witness_StepRunsTheDecodedCommand :
    decode .command 32 (0x24000000#32).toNat = .ok .frame
    ∧ { State.reset with host := [.command 0x24000000] }.host = [.command 0x24000000]
    ∧ { State.reset with host := [.writeReg 0x0F 0xFFFFFFFF24000000] }.host = [.writeReg 0x0F 0xFFFFFFFF24000000]
    ∧ decode .command 32 ((0xFFFFFFFF24000000#64).toNat % 2 ^ 32) = .ok .frame ∧ State.reset.host = [] := by decide

theorem witness_SubframeRunsTheDecodedKind : (coded 1 4 10 (holding (uBits 8 2))).st ≠ .fault
    ∧ SubframeRegisters (coded 1 4 10 (holding (uBits 8 2)))
    ∧ decode (.header 7) 8 2 = .ok (.verbatim 7 false) ∧ Holds (uBits 8 2) (coded 1 4 10 (holding (uBits 8 2))) := by
  unfold Holds SubframeRegisters
  decide +kernel

/-- A block of one sample and of 65536 samples, both methods, an order equal to the block size. -/
theorem witness_ResidAndDecorrRunTheDecodedKinds :
    (coded 1 16 0 (holding (uBits 1 1 ++ uBits 4 0 ++ uBits 10 0b1111100000))).st ≠ .fault
    ∧ (coded 1 16 0 (holding (uBits 1 1 ++ uBits 4 0 ++ uBits 10 0b1111100000))).fhBlocksize.toNat = 1
    ∧ decode (.param1 ⟨7, 1, 0⟩) 10 0b1111100000 = .ok (.esc5 ⟨7, 1, 0⟩ 0)
    ∧ Holds (uBits 1 1 ++ uBits 4 0 ++ uBits 10 0b1111100000)
      (coded 1 16 0 (holding (uBits 1 1 ++ uBits 4 0 ++ uBits 10 0b1111100000)))
    ∧ decode (.param0 ⟨0, 32, 65504⟩) 4 14 = .ok (.rice4 ⟨0, 32, 65504⟩ 14)
    ∧ (coded 65536 16 10 (source [])).fhBlocksize.toNat = 65536
    ∧ decode .channels 4 (coded 65536 16 10 (source [])).fhChassign.toNat = .ok .mside
    ∧ ¬ (1 ≤ (coded 65537 16 0 (source [])).fhBlocksize.toNat ∧ (coded 65537 16 0 (source [])).fhBlocksize.toNat ≤ 65536
      ∧ (coded 65537 16 0 (source [])).fhChassign.toNat ≤ 10)
    ∧ (coded 1 16 11 (source [])).fhChassign.toNat = 11 := by
  unfold Holds
  decide +kernel

theorem witness_CrcrstClearsTheMaskedChecksums : State.reset.st ≠ .fault := by decide

/-- 64 bits with 64 left and with 63 left; width 65. -/
theorem witness_RduReadsOneWholeField :
    (64#7).toNat ≤ 64 ∧ (source [1, 2, 3, 4, 5, 6, 7, 8]).st ≠ .fault
    ∧ (source [1, 2, 3, 4, 5, 6, 7, 8]).pos.toNat + (64#7).toNat = sourceEnd (source [1, 2, 3, 4, 5, 6, 7, 8])
    ∧ sourceEnd (source [1, 2, 3, 4, 5, 6, 7, 8])
      < (from_ 1 (source [1, 2, 3, 4, 5, 6, 7, 8])).pos.toNat + (64#7).toNat
    ∧ 64 < (65#7).toNat := by decide +kernel

theorem witness_RdsReadsOneWholeSignedField :
    (0#7).toNat ≤ 64 ∧ (source []).st ≠ .fault ∧ (source []).pos.toNat + (0#7).toNat = sourceEnd (source [])
    ∧ sourceEnd (source []) < (source []).pos.toNat + (1#7).toNat ∧ 64 < (127#7).toNat := by decide +kernel

/-- The terminator as the last bit; no terminator; no bit at all. -/
theorem witness_RdunaryCountsToTheTerminator : (source [1]).st ≠ .fault
    ∧ (∃ p, (source [1]).pos.toNat ≤ p ∧ p < sourceEnd (source [1]) ∧ streamBit p (source [1]) = true)
    ∧ (∀ p, (source [1]).pos.toNat ≤ p → p < 7 → streamBit p (source [1]) = false)
    ∧ (∀ p, (source [0]).pos.toNat ≤ p → p < sourceEnd (source [0]) → streamBit p (source [0]) ≠ true)
    ∧ (∀ p, (source []).pos.toNat ≤ p → p < sourceEnd (source []) → streamBit p (source []) ≠ true) := by
  refine ⟨by decide, ⟨7, by decide +kernel⟩, fun p _ => ?_, fun p _ => ?_, fun p _ h => ?_⟩
  · revert p; decide +kernel
  · revert p; decide +kernel
  · exact absurd h (by simp [sourceEnd, source])

theorem witness_AlignConsumesToTheByteBoundary : (from_ 1 (source [0xFF])).st ≠ .fault
    ∧ (from_ 1 (source [0xFF])).pos.toNat ≤ sourceEnd (source [0xFF])
    ∧ (from_ 8 (source [0xFF])).pos.toNat = sourceEnd (source [0xFF]) := by decide +kernel

theorem witness_RdbytesDeliversBytesOrNothing : (16#5).toNat ≤ 16 ∧ State.reset.st ≠ .fault
    ∧ (source (List.range 16)).pos.toNat % 8 = 0
    ∧ (source (List.range 16)).pos.toNat + 8 * (16#5).toNat = sourceEnd (source (List.range 16))
    ∧ sourceEnd (source (List.range 15)) < (source (List.range 15)).pos.toNat + 8 * (16#5).toNat
    ∧ 16 < (17#5).toNat ∧ (from_ 7 (source [0])).pos.toNat % 8 ≠ 0 := by decide +kernel

theorem witness_VarintReadsCanonicalNumbers : ∀ v ∈ [0, 0x7F, 0x80, 0x7FF, 0x800, 0x7FFFFFFF, 0x80000000, 2 ^ 36 - 1],
    (holding (vintBits v)).st ≠ .fault ∧ v < 2 ^ 36 ∧ Holds (vintBits v) (holding (vintBits v)) := by
  unfold Holds
  decide +kernel

theorem witness_VarintStopsAtTheOffendingByte :
    (∀ b ∈ [0x80, 0xBF, 0xFF], (0x80 ≤ b ∧ b ≤ 0xBF ∨ b = 0xFF) ∧ Holds (uBits 8 b) (holding (uBits 8 b)))
    ∧ (∀ c ∈ [(1, 0x7F), (2, 0x7FF), (6, 0x7FFFFFFF)], c.1 ≤ 6 ∧ extraBytes c.2 < c.1
      ∧ Holds (numberBits c.1 c.2) (holding (numberBits c.1 c.2)))
    ∧ (∀ c ∈ [(1, 1, 0x7F), (6, 6, 0xC0), (6, 1, 0)], 1 ≤ c.2.1 ∧ c.2.1 ≤ c.1 ∧ c.1 ≤ 6 ∧ c.2.2 < 256 ∧ c.2.2 / 64 ≠ 2
      ∧ Holds ((numberBits c.1 0).take (8 * c.2.1) ++ uBits 8 c.2.2)
        (holding ((numberBits c.1 0).take (8 * c.2.1) ++ uBits 8 c.2.2)))
    ∧ (∀ c ∈ [(0, 0), (1, 1), (6, 6)], c.1 ≤ 6 ∧ c.2 ≤ c.1
      ∧ Holds ((numberBits c.1 5).take (8 * c.2)) (holding ((numberBits c.1 5).take (8 * c.2)))
      ∧ sourceEnd (holding ((numberBits c.1 5).take (8 * c.2))) < 8 * c.2 + 8) := by
  unfold Holds
  decide +kernel

theorem witness_HeaderPreconditions : (described (source [0])).st ≠ .fault ∧ (from_ 1 (source [0])).pos.toNat % 8 ≠ 0
    ∧ (source [0]).pos.toNat % 8 = 0 ∧ (source [0]).siValid = false ∧ (described (source [])).siValid = true
    ∧ (described (source [])).pos.toNat = sourceEnd (described (source []))
    ∧ (from_ 8 (described (source [0]))).pos.toNat = sourceEnd (described (source [0])) := by decide +kernel

/-- A header with both extensions at their greatest values and the greatest number. -/
def longHeader : HeaderFields :=
  { strategy := 1, block := 7, rate := 14, channels := 10, size := 6, number := 2 ^ 36 - 1, blockExt := 65535,
    rateExt := 65535 }
/-- The header of the frames of section 9: a block of 4 samples, one channel of 16 bits. -/
def shortHeader : HeaderFields :=
  { strategy := 0, block := 6, rate := 9, channels := 0, size := 4, number := 0, blockExt := 3, rateExt := 0 }
/-- A header and a checksum byte. -/
def headed (h : HeaderFields) (c : BitVec 8) : List Bool := headerBits h ++ uBits 8 c.toNat

/-- The checksum that fits, and the complement under the lenient policy. -/
theorem witness_FramehdrDecodesEveryLegalHeader : longHeader.legal ∧ shortHeader.legal
    ∧ (described (source [])).siValid = true
    ∧ (∀ h ∈ [longHeader, shortHeader], Holds (headed h ((headerBits h).foldl crc8Step 0))
      (described (holding (headed h ((headerBits h).foldl crc8Step 0)))))
    ∧ Holds (headed longHeader (~~~((headerBits longHeader).foldl crc8Step 0)))
      { described (holding (headed longHeader (~~~((headerBits longHeader).foldl crc8Step 0)))) with strict := false } := by
  unfold Holds HeaderFields.legal
  decide +kernel

theorem witness_HeaderFaults : (described (source [0, 0, 0])).siValid = true
    ∧ 0 < sourceEnd (described (source [0, 0, 0])) ∧ sourceEnd (described (source [0, 0, 0])) < 32
    ∧ (∀ w ∈ [0, 0xFFF06908, 2 ^ 32 - 1], w < 2 ^ 32 ∧ Holds (uBits 32 w) (described (holding (uBits 32 w)))
      ∧ w / 2 ^ 18 ≠ Config.syncCode)
    ∧ (∀ w ∈ [0xFFFA6908, 0xFFF80908, 0xFFF86F08, 0xFFF869B8, 0xFFF86906, 0xFFF8690E, 0xFFF86909],
      w < 2 ^ 32 ∧ Holds (uBits 32 w) (described (holding (uBits 32 w))) ∧ w / 2 ^ 18 = Config.syncCode
      ∧ (w / 2 ^ 17 % 2 = 1 ∨ w / 2 ^ 12 % 16 = 0 ∨ w / 2 ^ 8 % 16 = 15 ∨ 11 ≤ w / 2 ^ 4 % 16
        ∨ w / 2 % 8 = 3 ∨ w / 2 % 8 = 7 ∨ w % 2 = 1))
    ∧ Holds (headed shortHeader 0) (described (holding (headed shortHeader 0)))
    ∧ 0 ≠ (headerBits shortHeader).foldl crc8Step 0 ∧ (described (holding (headed shortHeader 0))).strict = true := by
  unfold Holds
  decide +kernel

/-- Malformed numbers of each of the three forms; a source that ends in each field of a header with both extensions
and a number of seven bytes, an overlong number among them. -/
theorem witness_HeaderFaults_after_the_word :
    (MalformedNumber (uBits 8 0x80) ∧ MalformedNumber (numberBits 1 0) ∧ MalformedNumber (numberBits 6 0x7FFFFFFF)
      ∧ MalformedNumber ((numberBits 1 0x80).take (8 * 1) ++ uBits 8 0))
    ∧ (∀ bits ∈ [uBits 8 0x80, numberBits 1 0, numberBits 6 0x7FFFFFFF, (numberBits 1 0x80).take (8 * 1) ++ uBits 8 0],
      Holds (headerWordBits shortHeader ++ bits) (described (holding (headerWordBits shortHeader ++ bits))))
    ∧ (∀ k ∈ [0, 6], CutShort (numberFields 6 0) k (described (endingWith (fieldBits ((numberFields 6 0).take k)))))
    ∧ (∀ k ∈ [0, 6, 7, 8, 9, 10], CutShort (headerTailFields longHeader 0) k
      (described (endingWith (fieldBits ((headerTailFields longHeader 0).take k))))) := by
  refine ⟨⟨.inl ⟨0x80, by decide, rfl⟩, .inr (.inl ⟨1, 0, by decide, by decide, rfl⟩),
    .inr (.inl ⟨6, 0x7FFFFFFF, by decide, by decide, rfl⟩),
    .inr (.inr ⟨1, 0x80, 1, 0, by decide, by decide, by decide, by decide, by decide, rfl⟩)⟩, ?_, ?_, ?_⟩
  · unfold Holds
    decide +kernel
  · intro k hk
    exact cutShort_of (by revert k; decide +kernel)
  · intro k hk
    exact cutShort_of (by revert k; decide +kernel)

/-- The greatest wasted-bits count of the widest side channel, with its least sample. -/
theorem witness_ConstantFillsTheBlock :
    SubframeRegisters (coded 65536 32 10 (holding (wastedBits 32 ++ sBits 1 (-1))))
    ∧ codedWidth 1 (coded 65536 32 10 (holding (wastedBits 32 ++ sBits 1 (-1)))) = 33
    ∧ fitsSigned 1 (-1)
    ∧ Holds (wastedBits 32 ++ sBits 1 (-1)) (coded 65536 32 10 (holding (wastedBits 32 ++ sBits 1 (-1)))) := by
  unfold Holds SubframeRegisters fitsSigned
  decide +kernel

/-- A source that ends in the wasted-bits run, and in the sample. -/
def constantFields : List Machine.Field := wastedFields 0 0 3 5 ++ [{ bits := sBits 5 (-16) }]
theorem witness_ConstantFillsTheBlock_short : ∀ k ∈ [0, 2],
    CutShort constantFields k (coded 1 8 0 (endingWith (fieldBits (constantFields.take k)))) := by
  intro k hk
  exact cutShort_of (by revert k; decide +kernel)

/-- A whole block, and a source that ends in its third sample. -/
theorem witness_VerbatimStoresEverySample :
    SubframeRegisters (coded 4 4 0 (holding ([7, -8, 0, -1].flatMap (sBits 4))))
    ∧ (∀ v ∈ [7, -8, 0, -1], fitsSigned 4 v)
    ∧ Holds (wastedBits 0 ++ [7, -8, 0, -1].flatMap (sBits 4)) (coded 4 4 0 (holding ([7, -8, 0, -1].flatMap (sBits 4))))
    ∧ Holds (wastedBits 0 ++ [7, -8].flatMap (sBits 4)) (coded 4 4 0 (holding ([7, -8].flatMap (sBits 4))))
    ∧ sourceEnd (coded 4 4 0 (holding ([7, -8].flatMap (sBits 4)))) < 8 + 4 := by
  unfold Holds SubframeRegisters fitsSigned
  decide +kernel

/-- A source that ends in the wasted-bits run, and in each of two samples. -/
theorem witness_VerbatimStoresEverySample_short : ∀ k ∈ [0, 2, 3],
    CutShort (wastedFields 1 0 2 8 ++ signedFields 8 0 0 [1, 2]) k
      (coded 2 10 0 (endingWith (fieldBits ((wastedFields 1 0 2 8 ++ signedFields 8 0 0 [1, 2]).take k)))) := by
  intro k hk
  exact cutShort_of (by revert k; decide +kernel)

/-- A Rice and an escaped partition of two residuals each, the first shorter by the order. -/
def mixedSection (o : Nat) : List PartitionCode :=
  [.rice 3 (List.replicate (4 - o) (-5)), .escape 5 [15, -16, 0, 1]]

theorem mixedSection_legal (m o : Nat) (hm : m < 2) (ho : o ≤ 4) : sectionLegal m 1 8 o (mixedSection o) := by
  refine ⟨hm, by decide, by decide, ho, by simp [mixedSection, PartitionCode.values], ?_⟩
  intro c hc
  simp only [mixedSection, List.mem_cons, List.not_mem_nil, or_false] at hc
  rcases hc with rfl | rfl
  · simp only [PartitionCode.legal, escapeValue]; split <;> decide
  · simp only [PartitionCode.legal, fitsSigned]; decide

/-- Order 4, with wasted bits. -/
def fixedStream (m : Nat) : List Bool :=
  wastedBits 2 ++ ([31, -32, 0, 1].flatMap (sBits 6) ++ sectionBits m 1 (mixedSection 4))

theorem witness_FixedReconstructsTheBlock : sectionLegal 0 1 8 4 (mixedSection 4) ∧ sectionLegal 1 1 8 4 (mixedSection 4)
    ∧ SubframeRegisters (coded 8 8 0 (holding (fixedStream 1)))
    ∧ (∀ v ∈ [31, -32, 0, 1], fitsSigned (codedWidth 7 (coded 8 8 0 (holding (fixedStream 1))) - 2) v)
    ∧ Holds (fixedStream 0) (coded 8 8 0 (holding (fixedStream 0)))
    ∧ Holds (fixedStream 1) (coded 8 8 0 (holding (fixedStream 1))) := by
  refine ⟨mixedSection_legal 0 4 (by decide) (by decide), mixedSection_legal 1 4 (by decide) (by decide), ?_⟩
  unfold Holds SubframeRegisters fitsSigned
  decide +kernel

/-- The fields of that subframe, and of one with an order above its block of one sample. -/
def fixedFields (m : Nat) : List Machine.Field :=
  wastedFields 2 4 2 6 ++ signedFields 6 7 0 [31, -32, 0, 1] ++ sectionFields m 1 7 4 (mixedSection 4)
def orderFields : List Machine.Field := wastedFields 2 2 0 8 ++ signedFields 8 0 0 [1, 2] ++ sectionFields 0 0 0 2 []
def lpcOrderFields : List Machine.Field :=
  wastedFields 3 2 0 8 ++ signedFields 8 0 0 [1, 2] ++ lpcFields 1 0 [0, -1] ++ sectionFields 0 0 0 2 []

/-- A source that ends in the run, the warm-up, the method, the partition order, the escape, its raw width and the last
residual; and in the partition order of a block below the order. -/
theorem witness_FixedReconstructsTheBlock_short :
    (∀ k ∈ [0, 2, 5, 6, 7, 9, 10, 14], CutShort (fixedFields 1) k
      (coded 8 8 0 (endingWith (fieldBits ((fixedFields 1).take k)))))
    ∧ CutShort orderFields 4 (coded 1 8 0 (endingWith (fieldBits (orderFields.take 4)))) := by
  refine ⟨fun k hk => cutShort_of (by revert k; decide +kernel), cutShort_of (by decide +kernel)⟩

/-- Order 2, the greatest precision and shift. -/
def lpcStream : List Bool :=
  wastedBits 0 ++ ([127, -128].flatMap (sBits 8)
    ++ (uBits 4 (16 - 1) ++ sBits 5 15 ++ [32767, -32768].flatMap (sBits 16)) ++ sectionBits 0 1 (mixedSection 2))

theorem witness_LpcReconstructsTheBlock : sectionLegal 0 1 8 2 (mixedSection 2)
    ∧ SubframeRegisters (coded 8 8 0 (holding lpcStream)) ∧ (∀ v ∈ [127, -128], fitsSigned 8 v)
    ∧ (∀ v ∈ [32767, -32768], fitsSigned 16 v) ∧ Holds lpcStream (coded 8 8 0 (holding lpcStream)) := by
  refine ⟨mixedSection_legal 0 2 (by decide) (by decide), ?_⟩
  unfold Holds SubframeRegisters fitsSigned
  decide +kernel

/-- The fields of that subframe. -/
def lpcStreamFields : List Machine.Field :=
  wastedFields 3 2 0 8 ++ signedFields 8 0 0 [127, -128] ++ lpcFields 16 15 [32767, -32768]
    ++ sectionFields 0 1 0 2 (mixedSection 2)

/-- A source that ends in the warm-up, the precision, the shift, the second coefficient, the method, and the quotient and
the remainder of a residual. -/
theorem witness_LpcReconstructsTheBlock_short : ∀ k ∈ [1, 3, 4, 6, 7, 10, 11],
    CutShort lpcStreamFields k (coded 8 8 0 (endingWith (fieldBits (lpcStreamFields.take k)))) := by
  intro k hk
  exact cutShort_of (by revert k; decide +kernel)

/-- Order 1, shifts -1 and -16. -/
theorem witness_LpcNegativeShiftFaults : ∀ q ∈ [-1, -16],
    -16 ≤ q ∧ q < 0 ∧ SubframeRegisters (coded 1 8 0 (holding (sBits 8 1 ++ (uBits 4 0 ++ sBits 5 q))))
    ∧ fitsSigned 8 1
    ∧ Holds (wastedBits 0 ++ ([1].flatMap (sBits 8) ++ (uBits 4 (1 - 1) ++ sBits 5 q)))
      (coded 1 8 0 (holding (sBits 8 1 ++ (uBits 4 0 ++ sBits 5 q)))) := by
  unfold Holds SubframeRegisters fitsSigned
  decide +kernel

/-- A block of two samples, coded by the fixed predictor of order 1 and by a linear predictor of order 1. -/
def pairSection (r : Int) : List PartitionCode := [.rice 0 [r]]

theorem pairSection_legal (r : Int) : sectionLegal 0 0 2 1 (pairSection r) := by
  refine ⟨by decide, by decide, by decide, by decide, rfl, fun c hc => ?_⟩
  simp only [pairSection, List.mem_singleton] at hc
  subst hc; simp [PartitionCode.legal, escapeValue]

theorem witness_PredictedSubframesAreLossless : SubframeRegisters (coded 2 8 0 (source []))
    ∧ (∀ x ∈ [100, -3], fitsSigned 8 x) ∧ sectionLegal 0 0 2 1 (pairSection (-103)) ∧ sectionLegal 0 0 2 1 (pairSection (-53))
    ∧ sectionValues (pairSection (-103)) = differences (fixedPrediction 1) ([100, -3].take 1).reverse ([100, -3].drop 1)
    ∧ sectionValues (pairSection (-53)) = differences (linearPrediction [1] 1) ([100, -3].take 1).reverse ([100, -3].drop 1)
    ∧ Holds (wastedBits 0 ++ (([100, -3].take 1).flatMap (sBits 8) ++ sectionBits 0 0 (pairSection (-103))))
      (coded 2 8 0 (holding (sBits 8 100 ++ sectionBits 0 0 (pairSection (-103)))))
    ∧ Holds (wastedBits 0 ++ (([100, -3].take 1).flatMap (sBits 8) ++ (uBits 4 (2 - 1) ++ sBits 5 1 ++ [1].flatMap (sBits 2))
        ++ sectionBits 0 0 (pairSection (-53))))
      (coded 2 8 0 (holding (sBits 8 100 ++ (uBits 4 1 ++ sBits 5 1 ++ sBits 2 1) ++ sectionBits 0 0 (pairSection (-53))))) := by
  refine ⟨?_, ?_, pairSection_legal _, pairSection_legal _, ?_⟩
  · unfold SubframeRegisters; decide +kernel
  · unfold fitsSigned; decide +kernel
  · unfold Holds; decide +kernel

theorem witness_SubframeDecodesPlainSamples :
    SubframeRegisters (coded 2 8 0 (holding (subframeHeaderBits .verbatim 1 ++ [63, -64].flatMap (sBits 7))))
    ∧ (∀ v ∈ [63, -64], fitsSigned 7 v)
    ∧ Holds (subframeHeaderBits .verbatim 1 ++ [63, -64].flatMap (sBits 7))
      (coded 2 8 0 (holding (subframeHeaderBits .verbatim 1 ++ [63, -64].flatMap (sBits 7))))
    ∧ Holds (subframeHeaderBits .constant 0 ++ [-128].flatMap (sBits 8))
      (coded 2 8 0 (holding (subframeHeaderBits .constant 0 ++ [-128].flatMap (sBits 8)))) := by
  unfold Holds SubframeRegisters fitsSigned
  decide +kernel

theorem witness_SubframeHeaderFaults : ¬ SubframeRegisters (coded 0 8 0 (source [0]))
    ∧ ¬ SubframeRegisters (coded 65537 8 0 (source [0])) ∧ ¬ SubframeRegisters (coded 1 3 0 (source [0]))
    ∧ ¬ SubframeRegisters (coded 1 33 0 (source [0])) ∧ ¬ SubframeRegisters (coded 1 8 11 (source [0]))
    ∧ SubframeRegisters (coded 1 8 0 (source [0x80])) ∧ Holds [true] (coded 1 8 0 (source [0x80]))
    ∧ (∀ t ∈ [2, 7, 13, 31], Holds (uBits 1 0 ++ uBits 6 t) (coded 1 8 0 (holding (uBits 1 0 ++ uBits 6 t))))
    ∧ codedWidth 0 (coded 1 8 0 (holding (subframeHeaderBits .verbatim 8))) = 8
    ∧ Holds (subframeHeaderBits .verbatim 8) (coded 1 8 0 (holding (subframeHeaderBits .verbatim 8))) := by
  unfold Holds SubframeRegisters
  decide +kernel

/-- A source that ends in the reserved bit, the selector, the flag and the wasted-bits run. -/
theorem witness_SubframeHeaderFaults_short : ∀ k ∈ [0, 1, 2, 3], CutShort (subframeHeaderFields (.lpc 31) 3) k
    { coded 1 8 0 (endingWith (fieldBits ((subframeHeaderFields (.lpc 31) 3).take k))) with blkv := false } := by
  intro k hk
  exact cutShort_of (by revert k; decide +kernel)

/-- The greatest parameters, and a partition of no residual at the end of a plane. -/
theorem witness_RicePartitionsStoreTheirSymbols : Instr.wellFormed (.rice4 ⟨7, 65534, 2⟩ 14) = true
    ∧ Instr.wellFormed (.rice5 ⟨7, 65536, 0⟩ 30) = true
    ∧ Holds ([16384, -16384].flatMap (riceBits 14)) (holding ([16384, -16384].flatMap (riceBits 14)))
    ∧ Holds (([] : List Int).flatMap (riceBits 30)) (source []) := by
  unfold Holds
  decide +kernel

/-- A source that ends in a quotient, in a remainder, and in an escaped residual. -/
theorem witness_partitions_short : (∀ k ∈ [2, 3], CutShort (riceFields 14 7 65534 [16384, -16384]) k
      (endingWith (fieldBits ((riceFields 14 7 65534 [16384, -16384]).take k))))
    ∧ CutShort (signedFields 31 7 65534 [1073741823, -1073741824]) 1 (endingWith (sBits 31 1073741823)) := by
  refine ⟨fun k hk => cutShort_of (by revert k; decide +kernel), cutShort_of (by decide +kernel)⟩

theorem witness_EscapedPartitionsStoreTheirFields : Instr.wellFormed (.esc4 ⟨7, 65534, 2⟩ 31) = true
    ∧ Instr.wellFormed (.esc5 ⟨0, 0, 2⟩ 0) = true
    ∧ (∀ v ∈ [1073741823, -1073741824], fitsSigned (31#5).toNat v) ∧ (∀ v ∈ [0, 0], fitsSigned (0#5).toNat v)
    ∧ Holds ([1073741823, -1073741824].flatMap (sBits (31#5).toNat))
      (holding ([1073741823, -1073741824].flatMap (sBits 31)))
    ∧ Holds ([0, 0].flatMap (sBits (0#5).toNat)) (source []) := by
  unfold Holds fitsSigned
  decide +kernel

theorem witness_ResidDecodesEverySection : sectionLegal 1 1 8 4 (mixedSection 4)
    ∧ (coded 8 8 0 (holding (sectionBits 1 1 (mixedSection 4)))).fhBlocksize.toNat = 8
    ∧ Holds (sectionBits 1 1 (mixedSection 4)) (coded 8 8 0 (holding (sectionBits 1 1 (mixedSection 4)))) := by
  refine ⟨mixedSection_legal 1 4 (by decide) (by decide), ?_⟩
  unfold Holds
  decide +kernel

/-- An odd block in two partitions; a first partition one sample shorter than the order. -/
theorem witness_ResidHeaderFaults : (coded 0 8 0 (source [])).fhBlocksize.toNat = 0
    ∧ 65536 < (coded 65537 8 0 (source [])).fhBlocksize.toNat ∧ 32 < (33#6).toNat
    ∧ (coded 7 8 0 (source [0x08])).fhBlocksize.toNat % 2 ^ 1 ≠ 0
    ∧ (coded 8 8 0 (source [0x08])).fhBlocksize.toNat / 2 ^ 1 < (5#6).toNat
    ∧ Holds (uBits 1 0 ++ uBits 4 1) (coded 8 8 0 (source [0x08])) := by
  unfold Holds
  decide +kernel

/-- A source that ends in the method, the partition order and the last residual; FIXED2 and LPC of order 2 over a block
of one sample. -/
theorem witness_ResidHeaderFaults_kinds : (∀ k ∈ [0, 1, 8], CutShort (sectionFields 1 1 0 4 (mixedSection 4)) k
      { coded 8 8 0 (endingWith (fieldBits ((sectionFields 1 1 0 4 (mixedSection 4)).take k))) with blkv := false })
    ∧ SubframeRegisters (coded 1 8 0 (endingWith (fieldBits orderFields)))
    ∧ (coded 1 8 0 (endingWith (fieldBits orderFields))).fhBlocksize.toNat / 2 ^ 0 < [1, 2].length
    ∧ Holds (fieldBits orderFields) (coded 1 8 0 (endingWith (fieldBits orderFields)))
    ∧ Holds (fieldBits lpcOrderFields) (coded 1 8 0 (endingWith (fieldBits lpcOrderFields))) := by
  refine ⟨fun k hk => cutShort_of (by revert k; decide +kernel), ?_⟩
  unfold Holds SubframeRegisters
  decide +kernel

/-- For INDEP, LSIDE, RSIDE and MSIDE: the least and the greatest block. -/
theorem witness_IndepLsideRsideMside : (coded 1 16 0 (source [])).st ≠ .fault
    ∧ 1 ≤ (coded 1 16 0 (source [])).fhBlocksize.toNat ∧ (coded 65536 16 0 (source [])).fhBlocksize.toNat ≤ 65536 := by
  decide +kernel

/-- Odd sums and negative sides, in each of the three assignments. -/
theorem witness_DecorrInvertsTheForwardTransform :
    (∀ v ∈ [2 ^ 30 - 1, -2 ^ 30, 3, -7], fitsSigned 31 v)
    ∧ plane 0 2 (planed 0 [2 ^ 30 - 1, 3] (planed 1 [2 ^ 31 - 1, 10] (coded 2 31 8 (source [])))) = [2 ^ 30 - 1, 3]
    ∧ plane 1 2 (planed 0 [2 ^ 30 - 1, 3] (planed 1 [2 ^ 31 - 1, 10] (coded 2 31 8 (source []))))
      = [2 ^ 30 - 1 - -2 ^ 30, 3 - -7]
    ∧ plane 0 2 (planed 0 [2 ^ 31 - 1, 10] (planed 1 [-2 ^ 30, -7] (coded 2 31 9 (source []))))
      = [2 ^ 30 - 1 - -2 ^ 30, 3 - -7]
    ∧ plane 1 2 (planed 0 [2 ^ 31 - 1, 10] (planed 1 [-2 ^ 30, -7] (coded 2 31 9 (source [])))) = [-2 ^ 30, -7]
    ∧ plane 0 2 (planed 0 [-1, -2] (planed 1 [2 ^ 31 - 1, 10] (coded 2 31 10 (source []))))
      = [(2 ^ 30 - 1 + -2 ^ 30) / 2, (3 + -7) / 2]
    ∧ plane 1 2 (planed 0 [-1, -2] (planed 1 [2 ^ 31 - 1, 10] (coded 2 31 10 (source []))))
      = [2 ^ 30 - 1 - -2 ^ 30, 3 - -7] := by
  refine ⟨by unfold fitsSigned; decide, ?_⟩
  decide +kernel

/-- A frame of two channels of two samples, with its padding and its footer. -/
def twoChannels : HeaderFields := { shortHeader with channels := 1, size := 1, blockExt := 1 }
def twoPlanes : List (List Int) := [[127, -128], [0, 1]]
def wholeFrame : List Bool :=
  headed twoChannels ((headerBits twoChannels).foldl crc8Step 0)
    ++ twoPlanes.flatMap (fun xs => subframeHeaderBits .verbatim 0 ++ xs.flatMap (sBits 8)) ++ []

theorem witness_FrameYieldsItsBlock : twoChannels.legal ∧ twoPlanes.length = twoChannels.channels + 1
    ∧ (∀ xs ∈ twoPlanes, xs.length = blockSizeOf twoChannels.block twoChannels.blockExt ∧ ∀ x ∈ xs, fitsSigned 8 x)
    ∧ sampleSizeOf twoChannels.size 16 = 8 ∧ wholeFrame.length % 8 = 0
    ∧ Holds (wholeFrame ++ uBits 16 (wholeFrame.foldl crc16Step 0).toNat)
      (described (holding (wholeFrame ++ uBits 16 (wholeFrame.foldl crc16Step 0).toNat))) := by
  unfold Holds HeaderFields.legal fitsSigned
  decide +kernel

/-- F4's frame. -/
def smallFrame : State :=
  described (source [0xFF, 0xF8, 0x69, 0x08, 0x00, 0x03, 0x14, 0x10, 0x00, 0xAC, 0x9F, 0x04, 0x36])

/-- A header that ends DONE; one that inherits a sample size of 3; and a whole frame, with its footer and without. -/
theorem witness_FrameIsItsParts :
    (∃ h, exec .framehdr (described (source [])) = .next h ∧ decide (h.st ≠ .ready) = true)
    ∧ (∃ h, exec .framehdr { described (source [0xFF, 0xF8, 0x69, 0x00, 0x00, 0x03, 0x3C]) with siBps := 3, strict := false } = .next h
      ∧ decide (h.st = .ready ∧ h.fhBps.toNat < 4) = true)
    ∧ (∃ h, exec .framehdr smallFrame = .next h ∧ ends (fun a =>
        decide (h.st = .ready ∧ 4 ≤ h.fhBps.toNat ∧ h.fhBps.toNat ≤ 32 ∧ a.st = .ready)
          && ends (fun r => decide (r.st = .ready ∧ r.rv = a.crc16.setWidth 64)) (exec (.rdu 16) a))
      (runAll ((List.range h.fhNch.toNat).map (fun c => .subframe (BitVec.ofNat 3 c)) ++ [.decorr, .align]) h) = true)
    ∧ (∃ h, exec .framehdr { smallFrame with srcLen := 12 } = .next h ∧ ends (fun a =>
        decide (h.st = .ready ∧ a.st = .ready ∧ sourceEnd a < a.pos.toNat + 16))
      (runAll ((List.range h.fhNch.toNat).map (fun c => .subframe (BitVec.ofNat 3 c)) ++ [.decorr, .align]) h) = true)
    ∧ (∃ h, exec .framehdr { smallFrame with srcLen := 8 } = .next h ∧ ends (fun a =>
        decide (h.st = .ready ∧ a.st ≠ .ready))
      (runAll ((List.range h.fhNch.toNat).map (fun c => .subframe (BitVec.ofNat 3 c)) ++ [.decorr, .align]) h) = true) :=
  ⟨exists_next (by decide +kernel), exists_next (by decide +kernel), exists_next (by decide +kernel),
    exists_next (by decide +kernel), exists_next (by decide +kernel)⟩

theorem witness_FaultIsSticky : { State.reset with st := BlockState.fault }.st = .fault
    ∧ decode .command 32 (0x24000000#32).toNat ≠ .ok .reset ∧ decode .command 32 ((0#64).toNat % 2 ^ 32) ≠ .ok .reset
    ∧ Instr.align ≠ .reset := by decide

/-- A well-formed instruction that raises. -/
theorem witness_RaiseRecordsAnAllowedCause : Instr.wellFormed (.rdbytes 1) = true
    ∧ ∃ t, exec (.rdbytes 1) (from_ 1 (source [0, 0])) = .next t ∧ decide (t.st = .fault ∧ t.errCause = 11) = true :=
  ⟨by decide, exists_next (by decide +kernel)⟩

/-- A command and a stream kind that end well, and one in DONE. -/
theorem witness_CommandsEndReadyDoneOrFault :
    (∃ t, exec (.rdu 1) (source [0]) = .next t ∧ decide (t.st = .ready) = true)
    ∧ (∃ t, exec .framehdr (described (source [])) = .next t ∧ decide (t.st = .done) = true)
    ∧ (∃ t, exec .lside { coded 1 16 8 (planed 0 [1] (planed 1 [1] (source []))) with st := .done } = .next t
      ∧ decide (t.st = .done) = true)
    ∧ { State.reset with st := BlockState.done }.st = .done ∧ Instr.slot .frame = .command :=
  ⟨exists_next (by decide +kernel), exists_next (by decide +kernel), exists_next (by decide +kernel), by decide,
    by decide⟩

theorem witness_CursorMovesForwardWithinTheSource : (source [0]).pos.toNat ≤ sourceEnd (source [0])
    ∧ ∃ t, exec (.rdu 8) (source [0]) = .next t ∧ decide (t.pos.toNat = 8) = true :=
  ⟨by decide +kernel, exists_next (by decide +kernel)⟩

theorem witness_ReaderCommandsFrame :
    (∃ t, exec (.rds 8) (source [0x80]) = .next t ∧ decide (t.st = .ready) = true)
    ∧ (∃ t, exec (.crcrst 3) (source [0x80]) = .next t ∧ decide (t.st = .ready) = true)
    ∧ (∃ t, exec (.rdbytes 1) (source [0x80]) = .next t ∧ decide (t.st = .ready) = true)
    ∧ (∃ t, exec (.rdbytes 2) (source [0x80]) = .next t ∧ decide (t.st = .fault) = true) :=
  ⟨exists_next (by decide +kernel), exists_next (by decide +kernel), exists_next (by decide +kernel),
    exists_next (by decide +kernel)⟩

theorem witness_FramehdrFrame :
    (∃ t, exec .framehdr smallFrame = .next t ∧ decide (t.st = .ready) = true)
    ∧ (∃ t, exec .framehdr (described (source [0])) = .next t ∧ decide (t.st ≠ .ready) = true) :=
  ⟨exists_next (by decide +kernel), exists_next (by decide +kernel)⟩

theorem witness_SubframeFrame : Instr.slot (.verbatim 0 false) = .header 0
    ∧ (∃ t, exec (.verbatim 0 false) (coded 1 8 0 (source [7])) = .next t ∧ decide (t.st = .ready) = true)
    ∧ (∃ t, exec (.subframe 0) (coded 1 8 0 (source [0, 7])) = .next t ∧ decide (t.st = .ready) = true) :=
  ⟨rfl, exists_next (by decide +kernel), exists_next (by decide +kernel)⟩

theorem witness_ResidFrame : Instr.slot (.rice4 ⟨0, 3, 1⟩ 0) = .param0 ⟨0, 3, 1⟩
    ∧ (∃ t, exec (.rice4 ⟨0, 3, 1⟩ 0) (source [0x80]) = .next t ∧ decide (t.st = .ready) = true)
    ∧ (∃ t, exec (.resid 0 0) (coded 1 8 0 (source [0, 0x7F])) = .next t ∧ decide (t.st = .ready) = true) :=
  ⟨rfl, exists_next (by decide +kernel), exists_next (by decide +kernel)⟩

theorem witness_DecorrFrame : ∀ a ∈ [8, 9, 10], Instr.slot .mside = .channels
    ∧ ∃ t, exec .decorr (coded 1 16 a (planed 0 [1] (planed 1 [1] (source [])))) = .next t
      ∧ decide (t.st = .ready) = true := by
  intro a ha
  fin_cases ha <;> exact ⟨rfl, exists_next (by decide +kernel)⟩

theorem witness_FrameCommandFrame : ∃ t, exec .frame smallFrame = .next t
    ∧ decide (t.st = .ready ∧ t.frameIdx = 1 ∧ t.fhNch.toNat ≤ 1 ∧ max t.fhBlocksize.toNat 32 ≤ 32) = true :=
  exists_next (by decide +kernel)

theorem witness_OverflowIsSticky : Instr.align ≠ .reset ∧ { source [0] with ovf := true }.ovf = true
    ∧ ∃ t, exec .align { source [0] with ovf := true } = .next t ∧ decide (t.st = .ready) = true :=
  ⟨by decide, rfl, exists_next (by decide +kernel)⟩

theorem witness_HostReadsDeliverRegisters : (0x0E : Nat) ≠ 0x0F ∧ (0x0F : Nat) < 0x18
    ∧ ∀ n ∈ [0x0C, 0x0E, 0x12, 0x17, 0x28, 0x3F, 0x70],
      0x70 ≤ n ∨ 0x28 ≤ n ∧ n < 0x40 ∨ 0x0C ≤ n ∧ n < 0x0F ∨ 0x12 ≤ n ∧ n < 0x18 := by decide

theorem witness_HostWritesStoreTheLowBits : State.reset.st ≠ .fault
    ∧ 0x06 ∉ [0x04, 0x05, 0x0F, 0x10, 0x11, 0x18, 0x19, 0x1A, 0x1B, 0x1C, 0x1D, 0x1E, 0x1F] := by decide

/-- The cursor one bit beyond the new end, and at it; the least length too great. -/
theorem witness_SourceLengthWriteIsGuarded : (from_ 9 (source [0, 0])).st ≠ .fault
    ∧ 8 * (1#64).toNat < (from_ 9 (source [0, 0])).pos.toNat ∧ 2 ^ 61 ≤ (0x2000000000000000#64).toNat
    ∧ (from_ 8 (source [0, 0])).pos.toNat = 8 * (1#64).toNat ∧ (1#64).toNat < 2 ^ 61 := by decide +kernel

/-- The least and the greatest word of sample memory. -/
theorem witness_MemoriesReadBackWrites : sourceWf (source [1, 0, 3]).src = true ∧ (0 : Nat) < 8 ∧ (7 : Nat) < 8
    ∧ (65535 : Nat) < 65536 ∧ 7 * 65536 + 65535 < 2 ^ 19 := by
  decide +kernel

/-- The invariant holds of a state in the middle of a stream and of one in FAULT, and a step follows. -/
theorem inv_after_reset (s : State) (hs : sourceWf s.src = true) (hl : s.pos.toNat ≤ sourceEnd s)
    (h : s = { State.reset with src := s.src, srcLen := s.srcLen, pos := s.pos, host := s.host }) : s.Inv := by
  refine ⟨hs, by rw [h]; rfl, hl, ?_, fun _ => by rw [h]; exact ⟨rfl, rfl, rfl⟩, fun hf => ?_, ?_, ?_, ?_, ?_⟩
  · rw [h]; exact Nat.zero_le _
  · rw [h] at hf; cases hf
  all_goals rw [h]; exact Nat.zero_le _

theorem witness_StepKeepsTheInvariant : { from_ 3 (source [1, 2]) with host := [.command 0x13000000] }.Inv
    ∧ ∃ t, step { from_ 3 (source [1, 2]) with host := [.command 0x13000000] } = .next t
      ∧ decide (t.pos.toNat = 8) = true :=
  ⟨inv_after_reset _ (by decide +kernel) (by decide +kernel) rfl, exists_next (by decide +kernel)⟩

theorem witness_EveryStepAnswers : { source [1, 2] with host := [.command 0x24000000] }.Inv :=
  inv_after_reset _ (by decide +kernel) (by decide +kernel) rfl

end Sys2Proof.Tests
end

section
/-! PROOFS. The statements of `10_state.md`, part 1: what an instruction and a step can do.

`exec_next_cases` says once how an instruction that answers a next state has ended; the invariant (O57, O58), progress
(O59), the ends of commands (O44), the cursor (O45) and the overflow flag (O52) are read off it. -/

namespace Sys2Proof.Machine

variable {i : Instr} {s t : State}

/-! ## The registers an instruction's body keeps -/

theorem Effect.src (h : Effect s t) : t.src = s.src := by have := congrArg State.src h.kept; exact this
theorem Effect.srcLen (h : Effect s t) : t.srcLen = s.srcLen := by have := congrArg State.srcLen h.kept; exact this
theorem Effect.strict (h : Effect s t) : t.strict = s.strict := by have := congrArg State.strict h.kept; exact this
theorem Effect.siValid (h : Effect s t) : t.siValid = s.siValid := by have := congrArg State.siValid h.kept; exact this
theorem Effect.siRate (h : Effect s t) : t.siRate = s.siRate := by have := congrArg State.siRate h.kept; exact this
theorem Effect.siBps (h : Effect s t) : t.siBps = s.siBps := by have := congrArg State.siBps h.kept; exact this
theorem Effect.host (h : Effect s t) : t.host = s.host := by have := congrArg State.host h.kept; exact this
theorem Effect.reads (h : Effect s t) : t.reads = s.reads := by have := congrArg State.reads h.kept; exact this
theorem Effect.st (h : Effect s t) : t.st = s.st := by have := congrArg State.st h.kept; exact this
theorem Effect.errCause (h : Effect s t) : t.errCause = s.errCause := by
  have := congrArg State.errCause h.kept; exact this
theorem Effect.errPos (h : Effect s t) : t.errPos = s.errPos := by have := congrArg State.errPos h.kept; exact this
theorem Effect.errFrame (h : Effect s t) : t.errFrame = s.errFrame := by
  have := congrArg State.errFrame h.kept; exact this

/-! ## What an instruction can do -/

/-- An instruction other than RESET that answers a next state was ignored in FAULT, or its body ended well and only
`STATE` was written after it, or its body raised and the fault was taken where it stood (rules R30, R215 and R217). -/
theorem exec_next_cases (hi : i ≠ .reset) (h : exec i s = .next t) :
    (s.st = .fault ∧ t = s)
    ∨ (s.st ≠ .fault ∧ ∃ st u, t = { u with st := st } ∧ Effect s u
        ∧ (i.slot = .command → st = .ready ∨ st = .done ∧ (i = .framehdr ∨ i = .frame))
        ∧ (i.slot ≠ .command → st = s.st))
    ∨ (s.st ≠ .fault ∧ ∃ c u, t = takeFault c u ∧ Effect s u ∧ (i.wellFormed = true → c ∈ allowedCauses i)) := by
  by_cases hs : s.st = .fault
  · rw [exec_of_fault hi hs] at h
    cases h
    exact .inl ⟨hs, rfl⟩
  · obtain ⟨r, e, hr⟩ := exec_ends i hi s hs
    rw [e] at h
    cases r with
    | ok st u => cases h; exact .inr (.inl ⟨hs, st, u, rfl, hr⟩)
    | raised c u =>
      obtain ⟨hc, hu, -⟩ := hr
      cases h
      exact .inr (.inr ⟨hs, c, u, rfl, hu, hc⟩)
    | stopped e => cases h

/-- What holds of every end alike: the body's effect, and beside it only `STATE` and the fault record. -/
theorem exec_next_effect (hi : i ≠ .reset) (h : exec i s = .next t) :
    ∃ u st c p f, Effect s u ∧ t = { u with st := st, errCause := c, errPos := p, errFrame := f } := by
  rcases exec_next_cases hi h with ⟨-, rfl⟩ | ⟨-, st, u, rfl, hu, -⟩ | ⟨-, c, u, rfl, hu, -⟩
  · exact ⟨_, _, _, _, _, .refl _, rfl⟩
  · exact ⟨u, _, _, _, _, hu, rfl⟩
  · exact ⟨u, _, _, _, _, hu, rfl⟩

/-! ## What a step can do -/

theorem step_nil (h : s.host = []) : step s = .next s := by unfold step; rw [h]

theorem step_cons {a : HostAction} {rest : List HostAction} (h : s.host = a :: rest) :
    step s = act a { s with host := rest } := by unfold step; rw [h]

/-- A command word that decodes runs its instruction (rule R81). -/
theorem runCommand_of_decode {w : CommandWord} (h : decode .command 32 w.toNat = .ok i) (s : State) :
    runCommand w s = exec i s := by unfold runCommand; rw [h]

/-- A command word runs a well-formed instruction, or it is malformed (rules R81 to R83). -/
theorem runCommand_cases (w : CommandWord) (s : State) :
    (∃ i : Instr, i.wellFormed = true ∧ runCommand w s = exec i s) ∨ runCommand w s = .next (malformedCommand s) := by
  cases hd : decode .command 32 w.toNat with
  | error e => right; unfold runCommand; rw [hd]
  | ok i =>
    have hw : decodeCommand w = .ok i := by simpa [decode, w.isLt] using hd
    exact .inl ⟨i, (decodeCommand_ok hw).2.2.2, runCommand_of_decode hd s⟩

theorem act_writeReg {num : Nat} (hn : num ≠ commandPort) (v : HostWord) (s : State) :
    act (.writeReg num v) s = .next (hostWriteRegister num v s) := if_neg hn

/-! ## The invariant under the updates of the state -/

/-- Settles O58: every clause but the fault record bounds a zero or an empty memory. -/
theorem resetMeetsTheInvariant : Obligations.ResetMeetsTheInvariant where
  source := rfl
  samples := rfl
  cursor := Nat.zero_le _
  rawLen := Nat.zero_le _
  noFault _ := ⟨rfl, rfl, rfl⟩
  fault h := nomatch h
  order := Nat.zero_le _
  wasted := Nat.zero_le _
  width := Nat.zero_le _
  precision := Nat.zero_le _

/-- A later reset differs from the first only in what the invariant leaves free, and in the source, which it keeps. -/
theorem inv_resetBlock (h : s.Inv) : (resetBlock s).Inv :=
  { resetMeetsTheInvariant with source := h.source, cursor := Nat.zero_le _ }

/-- A body run outside FAULT. -/
theorem inv_of_effect (h : s.Inv) (hs : s.st ≠ .fault) (he : Effect s t) : t.Inv := by
  obtain ⟨order, wasted, width, precision⟩ := he.moves.ranges ⟨h.order, h.wasted, h.width, h.precision⟩
  exact {
    source := by rw [he.src]; exact h.source
    samples := he.moves.canonical h.samples
    cursor := by rw [he.moves.length]; exact (he.moves.forward h.cursor).2
    rawLen := he.rawLen h.rawLen
    noFault := fun _ => by rw [he.errCause, he.errPos, he.errFrame]; exact h.noFault hs
    fault := fun hf => absurd (he.st.symm.trans hf) hs
    order, wasted, width, precision }

/-- `raise K` (rule R215). -/
theorem inv_takeFault {c : Cause} (h : s.Inv) (hc : c ≠ .malformedMetadata) : (takeFault c s).Inv :=
  { h with
    noFault := fun hn => absurd rfl hn
    fault := fun _ => ⟨⟨c, hc, rfl⟩, rfl, rfl⟩ }

/-- The end of a command that raised nothing (rule R30). -/
theorem inv_withSt {st : BlockState} (h : s.Inv) (hs : s.st ≠ .fault) (hst : st ≠ .fault) :
    State.Inv { s with st := st } :=
  { h with
    noFault := fun _ => h.noFault hs
    fault := fun hf => absurd hf hst }

theorem malformedMetadata_notMem_allowedCauses (i : Instr) : Cause.malformedMetadata ∉ allowedCauses i := by
  cases i <;> simp [allowedCauses]

/-- Every well-formed instruction keeps the invariant. -/
theorem inv_exec (h : s.Inv) (hw : i.wellFormed = true) (he : exec i s = .next t) : t.Inv := by
  by_cases hi : i = .reset
  · subst hi; cases he; exact inv_resetBlock h
  rcases exec_next_cases hi he with ⟨-, rfl⟩ | ⟨hs, st, u, rfl, hu, hcommand, hkind⟩ | ⟨hs, c, u, rfl, hu, hc⟩
  · exact h
  · refine inv_withSt (inv_of_effect h hs hu) (hu.st ▸ hs) ?_
    by_cases hslot : i.slot = .command
    · rcases hcommand hslot with rfl | ⟨rfl, -⟩ <;> decide
    · rw [hkind hslot]; exact hs
  · refine inv_takeFault (inv_of_effect h hs hu) ?_
    rintro rfl
    exact malformedMetadata_notMem_allowedCauses i (hc hw)

/-! ## The invariant under the host's actions -/

/-- Everything but what the invariant does not speak of: `CTRL`, `SI_*`, `FH_*` and the model's record of the host. -/
def exceptHost (s : State) : State :=
  { s with
    strict := false, siValid := false, siRate := 0, siBps := 0, fhStrategy := 0, fhBlocksize := 0, fhRate := 0
    fhChassign := 0, fhNch := 0, fhBps := 0, fhNumber := 0, fhCrc := 0, host := [], reads := [] }

theorem inv_exceptHost : (exceptHost s).Inv ↔ s.Inv := ⟨fun h => { h with }, fun h => { h with }⟩

theorem inv_of_exceptHost (h : s.Inv) (e : exceptHost t = exceptHost s) : t.Inv :=
  inv_exceptHost.1 (e ▸ inv_exceptHost.2 h)

theorem inv_malformedCommand (h : s.Inv) : (malformedCommand s).Inv := by
  unfold malformedCommand
  split
  · exact h
  · exact inv_takeFault h (by decide)

theorem inv_runCommand {w : CommandWord} (h : s.Inv) (he : runCommand w s = .next t) : t.Inv := by
  rcases runCommand_cases w s with ⟨i, hw, e⟩ | e
  · exact inv_exec h hw (e ▸ he)
  · rw [e] at he; cases he; exact inv_malformedCommand h

/-- The guard of `SRC_LEN` keeps the cursor inside the source (rule R47). -/
theorem inv_writeSourceLength (h : s.Inv) (v : HostWord) : (writeSourceLength v s).Inv := by
  unfold writeSourceLength
  split
  · exact inv_takeFault h (by decide)
  · refine { h with cursor := ?_ }
    show s.pos.toNat ≤ 8 * (v.setWidth 61).toNat
    rw [BitVec.toNat_setWidth]
    omega

theorem exceptHost_writeRegister {num : Nat} (hn : num ≠ 0x05) (v : HostWord) (s : State) :
    exceptHost (writeRegister num v s) = exceptHost s := by
  unfold writeRegister
  split
  case h_2 => exact absurd rfl hn
  all_goals rfl

theorem inv_hostWriteRegister (h : s.Inv) (num : Nat) (v : HostWord) : (hostWriteRegister num v s).Inv := by
  unfold hostWriteRegister
  split
  · exact h
  · by_cases hn : num = 0x05
    · subst hn; exact inv_writeSourceLength h v
    · exact inv_of_exceptHost h (exceptHost_writeRegister hn v s)

theorem inv_hostReadRegister (h : s.Inv) (num : Nat) : (hostReadRegister num s).Inv := by
  unfold hostReadRegister
  split
  · exact h
  · exact inv_of_exceptHost h rfl

theorem inv_hostWriteSample (h : s.Inv) (a : BitVec 19) (v : Sample) : (hostWriteSample a.toNat v s).Inv := by
  have hcanonical := samplesWf_hostWriteSample (v := v) a.isLt h.samples
  obtain ⟨-, hframe, -⟩ := hostWriteSample_spec s a.toNat v
  rw [hframe]
  exact { h with samples := hcanonical }

/-- Every action of the host keeps the invariant. -/
theorem inv_act {a : HostAction} (h : s.Inv) (he : act a s = .next t) : t.Inv := by
  cases a with
  | command w => exact inv_runCommand h he
  | writeReg num v =>
    by_cases hn : num = commandPort
    · subst hn; exact inv_runCommand h he
    · rw [act_writeReg hn] at he; cases he; exact inv_hostWriteRegister h num v
  | readReg num => cases he; exact inv_hostReadRegister h num
  | readSample a => cases he; exact inv_of_exceptHost h rfl
  | writeSample a v => cases he; exact inv_hostWriteSample h a v
  | portWriteSample a v => cases he; exact h
  | writeSource a b => cases he; exact { h with source := sourceWf_writeSource a.isLt h.source }
  | externalReset => cases he; exact inv_resetBlock h

/-- Settles O57: a step is one action of the host on the state with its queue shortened. -/
theorem stepKeepsTheInvariant : Obligations.StepKeepsTheInvariant := by
  intro s t h he
  cases hq : s.host with
  | nil => rw [step_nil hq] at he; cases he; exact h
  | cons a rest =>
    rw [step_cons hq] at he
    exact inv_act (s := { s with host := rest }) (inv_of_exceptHost h rfl) he

/-! ## Progress -/

/-- Inside the source a well-formed instruction answers: a body stops only at a cursor beyond the source, or on a
partition outside its plane. -/
theorem exec_answers (hp : s.pos.toNat ≤ sourceEnd s) (hw : i.wellFormed = true) : ∃ t, exec i s = .next t := by
  by_cases hi : i = .reset
  · subst hi; exact ⟨_, rfl⟩
  by_cases hs : s.st = .fault
  · exact ⟨s, exec_of_fault hi hs⟩
  obtain ⟨r, e, hr⟩ := exec_ends i hi s hs
  rw [e]
  cases r with
  | ok st u => exact ⟨_, rfl⟩
  | raised c u => exact ⟨_, rfl⟩
  | stopped f =>
    rcases hr with ⟨-, -, hbeyond⟩ | ⟨-, hbad, -⟩
    · omega
    · rw [hw] at hbad; cases hbad

theorem runCommand_answers (hp : s.pos.toNat ≤ sourceEnd s) (w : CommandWord) : ∃ t, runCommand w s = .next t := by
  rcases runCommand_cases w s with ⟨i, hw, e⟩ | e
  · rw [e]; exact exec_answers hp hw
  · exact ⟨_, e⟩

theorem act_answers (hp : s.pos.toNat ≤ sourceEnd s) (a : HostAction) : ∃ t, act a s = .next t := by
  cases a with
  | command w => exact runCommand_answers hp w
  | writeReg num v =>
    by_cases hn : num = commandPort
    · subst hn; exact runCommand_answers hp _
    · exact ⟨_, act_writeReg hn v s⟩
  | _ => exact ⟨_, rfl⟩

/-- Settles O59: the cursor inside the source is all that progress needs. -/
theorem everyStepAnswers : Obligations.EveryStepAnswers := by
  intro s h
  refine ⟨fun i hw => exec_answers h.cursor hw, ?_⟩
  cases hq : s.host with
  | nil => exact ⟨s, step_nil hq⟩
  | cons a rest => rw [step_cons hq]; exact act_answers (s := { s with host := rest }) h.cursor a

/-- Settles O7: the port and its register number both run the decoded word. -/
theorem stepRunsTheDecodedCommand : Obligations.StepRunsTheDecodedCommand := by
  intro s rest i
  refine ⟨fun w hq hd => ?_, fun v hq hd => ?_, step_nil⟩
  · rw [step_cons hq]; exact runCommand_of_decode hd _
  · rw [step_cons hq]
    exact runCommand_of_decode (w := v.setWidth 32) (by rwa [BitVec.toNat_setWidth]) _

/-- Settles O10: RESET and the reset input run the same operation, whose registers the model writes out. -/
theorem resetRestoresEveryRegister : Obligations.ResetRestoresEveryRegister := by
  intro s
  exact ⟨resetBlock s, by simp [exec, execReset, act, resetBlock, State.reset, Config.strictReset]⟩

/-! ## The cursor and the overflow flag -/

/-- Settles O45: the body moves the cursor so, and what ends a command writes none of these registers. -/
theorem cursorMovesForwardWithinTheSource : Obligations.CursorMovesForwardWithinTheSource := by
  intro i s t hi he
  obtain ⟨u, st, c, p, f, hu, rfl⟩ := exec_next_effect hi he
  exact ⟨fun hp => hu.moves.forward hp, hu.src, hu.srcLen, hu.strict, hu.siValid, hu.siRate, hu.siBps, hu.host, hu.reads⟩

/-- Settles O52: a body only ever sets `OVF`, and what ends a command leaves it. -/
theorem overflowIsSticky : Obligations.OverflowIsSticky := by
  intro i s t hi he ho
  obtain ⟨u, st, c, p, f, hu, rfl⟩ := exec_next_effect hi he
  exact hu.moves.sticky ho

end Sys2Proof.Machine
end

section
/-! PROOFS. The statements of `10_state.md`, part 2: `STATE` at a command's end (O44) and the frame of FRAME (O51). -/

namespace Sys2Proof.Machine

variable {i : Instr} {s t u : State}

/-! ## DONE is no lock: the command bodies neither read nor write `STATE` -/

section Uniform

variable {body : State → Res BlockState} {x : BlockState}

theorem finish_withSt (r : Res BlockState) (x : BlockState) : finish (r.withSt x) = finish r := by cases r <;> rfl

theorem atFrameLevel_withSt {α : Type} (r : Res α) (x : BlockState) :
    atFrameLevel (r.withSt x) = (atFrameLevel r).withSt x := by cases r <;> rfl

theorem primitiveCommand_uniform (hb : Uniform body) (hs : s.st ≠ .fault) (hx : x ≠ .fault) :
    primitiveCommand body { s with st := x } = primitiveCommand body s := by
  rw [primitiveCommand_of_ready hs, primitiveCommand_of_ready (s := { s with st := x }) hx, hb, finish_withSt]

theorem frameCommand_uniform (hb : Uniform body) (hs : s.st ≠ .fault) (hx : x ≠ .fault) :
    frameCommand body { s with st := x } = frameCommand body s := by
  rw [frameCommand_of_ready hs, frameCommand_of_ready (s := { s with st := x }) hx, hb, atFrameLevel_withSt, finish_withSt]

/-- A body over an update made first. -/
theorem Uniform.comp {α : Type} {f : State → Res α} {g : State → State} (hf : Uniform f) (hg : UniformUpdate g) :
    Uniform fun s => f (g s) := by
  intro x s
  dsimp only
  rw [hg x s]
  exact hf x (g s)

theorem uniform_endReady {g : State → State} (hg : UniformUpdate g) : Uniform fun s => endReady (g s) := uniform_ok hg _

theorem uniform_gatherBytes (n : Nat) (x : BlockState) (s : State) :
    gatherBytes n { s with st := x } = ((gatherBytes n s).1, { (gatherBytes n s).2 with st := x }) := by
  induction n generalizing s with
  | zero => rfl
  | succ n ih => simp only [gatherBytes, uniform_gatherBits, ih]

theorem uniform_deliver (n : Nat) : UniformUpdate fun s => deliverBytes (gatherBytes n s).1 (gatherBytes n s).2 := by
  intro x s
  dsimp only
  rw [uniform_gatherBytes]
  simp only [deliverBytes]

theorem uniform_decodeFrameHeader : Uniform decodeFrameHeader :=
  .ite (fun _ _ => Iff.rfl) (uniform_raised uniform_id _) <|
  .ite (fun _ _ => Iff.rfl) (uniform_raised uniform_id _) <|
  .ite (fun _ _ => Iff.rfl) (uniform_ok (g := clearFrameFlags) (fun _ _ => rfl) _) <|
  (uniform_readHeader.comp (g := clearFrameFlags) fun _ _ => rfl).bind fun _ => uniform_endReady uniform_id

theorem uniform_decodeSubframes (left c : Nat) : Uniform (decodeSubframes left c) := by
  induction left generalizing c with
  | zero => exact uniform_ok uniform_id _
  | succ left ih => exact (uniform_decodeSubframe _).bind fun _ => ih (c + 1)

theorem uniform_decodeFrameBody : Uniform decodeFrameBody := by
  have hsubframes : Uniform fun s => decodeSubframes s.fhNch.toNat 0 s := fun x s =>
    uniform_decodeSubframes s.fhNch.toNat 0 x s
  exact .ite (fun _ _ => Iff.rfl) (uniform_raised uniform_id _) <|
    hsubframes.bind fun _ => (uniform_readFooter.comp uniform_reconstructChannels).bind fun _ =>
      uniform_endReady (g := yieldBlock) fun _ _ => rfl

theorem uniform_decodeFrame : Uniform decodeFrame := by
  refine uniform_decodeFrameHeader.bind fun st => ?_
  cases st
  · exact uniform_decodeFrameBody
  · exact uniform_ok uniform_id _
  · exact uniform_ok uniform_id _

/-- Outside FAULT a host command does the same whatever `STATE` is. -/
theorem exec_uniform (hi : i.slot = .command) (hs : s.st ≠ .fault) (hx : x ≠ .fault) :
    exec i { s with st := x } = exec i s := by
  have hinvalidate : UniformUpdate invalidateBlock := fun _ _ => rfl
  cases i
  case reset => rfl
  case crcrst m => exact primitiveCommand_uniform (uniform_endReady (g := resetChecksums m) fun _ _ => rfl) hs hx
  case rdu n =>
    show execRdu n _ = execRdu n s
    unfold execRdu
    refine primitiveCommand_uniform ?_ hs hx
    exact .ite (fun _ _ => Iff.rfl) (uniform_raised uniform_id _) <|
      (uniform_readUnsigned _).bind fun v => uniform_endReady fun _ _ => rfl
  case rds n =>
    show execRds n _ = execRds n s
    unfold execRds
    refine primitiveCommand_uniform ?_ hs hx
    exact .ite (fun _ _ => Iff.rfl) (uniform_raised uniform_id _) <|
      (uniform_readSigned _).bind fun v => uniform_endReady fun _ _ => rfl
  case rdunary b =>
    exact primitiveCommand_uniform ((uniform_readUnary b).bind fun c => uniform_endReady fun _ _ => rfl) hs hx
  case align => exact primitiveCommand_uniform (uniform_alignToByte.bind fun _ => uniform_endReady uniform_id) hs hx
  case rdbytes n =>
    show execRdbytes n _ = execRdbytes n s
    unfold execRdbytes
    refine primitiveCommand_uniform ?_ hs hx
    exact .ite (fun _ _ => Iff.rfl) (uniform_raised uniform_id _) <|
      .ite (fun _ _ => Iff.rfl) (uniform_raised uniform_id _) <|
      .ite (fun _ _ => Iff.rfl) (uniform_raised uniform_id _) <| uniform_endReady (uniform_deliver n.toNat)
  case varint => exact primitiveCommand_uniform (uniform_readVarint.bind fun v => uniform_endReady fun _ _ => rfl) hs hx
  case framehdr => exact frameCommand_uniform uniform_decodeFrameHeader hs hx
  case subframe ch =>
    show execSubframe ch _ = execSubframe ch s
    unfold execSubframe
    refine frameCommand_uniform ?_ hs hx
    exact .ite (fun _ _ => Iff.rfl)
      (((uniform_decodeSubframe ch).comp hinvalidate).bind fun _ => uniform_endReady uniform_id)
      (uniform_raised uniform_id _)
  case resid ch ord =>
    show execResid ch ord _ = execResid ch ord s
    unfold execResid
    refine frameCommand_uniform ?_ hs hx
    exact .ite (fun _ _ => Iff.rfl) (uniform_raised uniform_id _) <|
      .ite (fun _ _ => Iff.rfl) (uniform_raised uniform_id _) <|
      ((uniform_decodeResidual ch _).comp hinvalidate).bind fun _ => uniform_endReady uniform_id
  case decorr =>
    show execDecorr _ = execDecorr s
    unfold execDecorr
    refine frameCommand_uniform ?_ hs hx
    exact .ite (fun _ _ => Iff.rfl)
      (uniform_endReady (g := fun s => reconstructChannels (invalidateBlock s)) fun x s =>
        uniform_reconstructChannels x (invalidateBlock s))
      (uniform_raised uniform_id _)
  case frame => exact frameCommand_uniform uniform_decodeFrame hs hx
  all_goals cases hi

end Uniform

/-- Settles O44: the ends are those of `exec_next_cases`; a command does not read which of READY and DONE it starts in. -/
theorem commandsEndReadyDoneOrFault : Obligations.CommandsEndReadyDoneOrFault := by
  refine ⟨fun i s t hs he ht => ?_, fun i s hi hs => ?_⟩
  · by_cases hi : i = .reset
    · subst hi; cases he
      exact ⟨fun _ => .inl rfl, fun h => absurd rfl h, fun h => absurd rfl h⟩
    rcases exec_next_cases hi he with ⟨hf, -⟩ | ⟨-, st, u, rfl, hu, hcommand, hkind⟩ | ⟨-, c, u, rfl, -, -⟩
    · exact absurd hf hs
    · exact ⟨hcommand, hkind, fun _ => ⟨hu.errCause, hu.errPos, hu.errFrame⟩⟩
    · exact absurd rfl ht
  · exact (exec_uniform hi (by rw [hs]; decide) (by decide)).symm

/-! ## The frame of FRAME -/

/-- Everything FRAME does not write, but for the frame index and sample memory. -/
def exceptFrame (s : State) : State :=
  { exceptHeader (exceptBodyOfFrame s) with
    blkv := false, st := .ready, errCause := 0, errPos := 0, errFrame := 0, frameIdx := 0 }

/-- From `s` to `t` FRAME's own registers may have changed, and of sample memory only words of the channels' planes below
the block size or the warm-up. -/
structure FrameLeaves (s t : State) : Prop where
  kept : exceptFrame t = exceptFrame s
  words : ∀ c j, j < 65536 → t.fhNch.toNat ≤ c ∨ max t.fhBlocksize.toNat 32 ≤ j →
    sampleWord (sampleAddress c j) t = sampleWord (sampleAddress c j) s

theorem not_frameSpan {nch n c j : Nat} (hn : n ≤ 65536) (hj : j < 65536) (h : nch ≤ c ∨ max n 32 ≤ j) :
    ¬ FrameSpan nch n (sampleAddress c j) := by
  rintro ⟨d, hd, k, -, hk, e⟩
  obtain ⟨rfl, rfl⟩ := (sampleAddress_inj hj (show k < 65536 by omega)).1 e
  omega

/-- FRAME before its header is accepted: no word of sample memory changes. -/
theorem frameLeaves_of_header (hm : Moves (fun _ => False) s u)
    (he : exceptHeader u = exceptHeader (clearFrameFlags s)) : FrameLeaves s u where
  kept := by have := congrArg exceptFrame he; exact this
  words _ _ _ _ := hm.words _ id

theorem exceptHeader_of_exceptStream (h : exceptStream u = exceptStream s) : exceptHeader u = exceptHeader s := by
  have := congrArg exceptHeader h; exact this

/-- FRAME after a header that was accepted. -/
theorem frameLeaves_of_body (hl : FrameLeaves s t) (hh : HeaderAccepted t)
    (hm : Moves (FrameSpan t.fhNch.toNat t.fhBlocksize.toNat) t u)
    (he : exceptBodyOfFrame u = exceptBodyOfFrame t) : FrameLeaves s u := by
  have hkept : exceptFrame u = exceptFrame t := by have := congrArg exceptFrame he; exact this
  have hnch : u.fhNch = t.fhNch := by have := congrArg State.fhNch he; exact this
  have hblocksize : u.fhBlocksize = t.fhBlocksize := by have := congrArg State.fhBlocksize he; exact this
  obtain ⟨-, hn, -⟩ := hh
  refine ⟨hkept.trans hl.kept, fun c j hj h => ?_⟩
  rw [hnch, hblocksize] at h
  exact (hm.words _ (not_frameSpan hn hj h)).trans (hl.words c j hj h)

theorem frameIdx_of_exceptBodyOfFrame (h : exceptBodyOfFrame u = exceptBodyOfFrame s) : u.frameIdx = s.frameIdx := by
  have := congrArg State.frameIdx h; exact this

/-- How FRAME's body ends: DONE, or READY with the block yielded, or a raise; before the yield the frame index stays
(rules R195, R200 and R201). -/
theorem all_decodeFrame (s : State) :
    (decodeFrame s).All
      (fun st t => (st = .done ∧ FrameLeaves s t ∧ t.frameIdx = s.frameIdx)
        ∨ (st = .ready ∧ ∃ u, FrameLeaves s u ∧ u.frameIdx = s.frameIdx ∧ t = yieldBlock u))
      (fun _ t => FrameLeaves s t ∧ t.frameIdx = s.frameIdx) (fun _ => False) := by
  have hheader := all_decodeFrameHeader s
  unfold decodeFrame
  cases hr : decodeFrameHeader s with
  | stopped e => rw [hr] at hheader; exact hheader.elim
  | raised c u =>
    rw [hr] at hheader
    rcases hheader with ⟨-, rfl⟩ | ⟨-, rfl⟩ | ⟨-, hm, he⟩
    · exact ⟨⟨rfl, fun _ _ _ _ => rfl⟩, rfl⟩
    · exact ⟨⟨rfl, fun _ _ _ _ => rfl⟩, rfl⟩
    · exact ⟨frameLeaves_of_header hm (exceptHeader_of_exceptStream he), (effect_of_stream hm he).2⟩
  | ok st u =>
    rw [hr] at hheader
    rcases hheader with ⟨rfl, -, rfl⟩ | ⟨rfl, hm, he, hh, hp⟩
    · exact .inl ⟨rfl, ⟨rfl, fun _ _ _ _ => rfl⟩, rfl⟩
    · have hl := frameLeaves_of_header hm he
      have hidx := (effect_of_header hm he).2
      refine (all_decodeFrameBody hp hh).mono ?_ ?_ fun _ h => h
      · rintro _ _ ⟨rfl, v, hv, hb, rfl⟩
        exact .inr ⟨rfl, v, frameLeaves_of_body hl hh hv hb, (frameIdx_of_exceptBodyOfFrame hb).trans hidx, rfl⟩
      · rintro _ v ⟨-, hv, hb⟩
        exact ⟨frameLeaves_of_body hl hh hv hb, (frameIdx_of_exceptBodyOfFrame hb).trans hidx⟩

/-- What FRAME does to the state, in FAULT or not: the frame index changes only where the block is yielded. -/
theorem exec_frame_leaves (he : exec .frame s = .next t) :
    FrameLeaves s t ∧ (t.frameIdx = s.frameIdx ∨ t.frameIdx = s.frameIdx + 1 ∧ t.st = .ready ∧ t.blkv = true) := by
  by_cases hs : s.st = .fault
  · rw [exec_of_fault (i := .frame) (by decide) hs] at he
    cases he
    exact ⟨⟨rfl, fun _ _ _ _ => rfl⟩, .inl rfl⟩
  have hbody := all_decodeFrame s
  rw [show exec .frame s = finish (atFrameLevel (decodeFrame s)) from frameCommand_of_ready hs] at he
  cases hr : decodeFrame s with
  | ok st u =>
    rw [hr] at he hbody
    cases he
    rcases hbody with ⟨rfl, hl, hidx⟩ | ⟨rfl, v, hl, hidx, rfl⟩
    · exact ⟨⟨hl.kept, hl.words⟩, .inl hidx⟩
    · exact ⟨⟨hl.kept, hl.words⟩, .inr ⟨congrArg (· + 1) hidx, rfl, rfl⟩⟩
  | raised c u =>
    rw [hr] at he hbody
    cases he
    exact ⟨⟨hbody.1.kept, hbody.1.words⟩, .inl hbody.2⟩
  | stopped e => rw [hr] at hbody; exact hbody.elim

/-- The registers FRAME leaves as they are. -/
theorem FrameLeaves.registers (h : FrameLeaves s t) :
    t.src = s.src ∧ t.srcLen = s.srcLen ∧ t.rv = s.rv ∧ t.raw = s.raw ∧ t.rawLen = s.rawLen ∧ t.strict = s.strict
      ∧ t.siValid = s.siValid ∧ t.siRate = s.siRate ∧ t.siBps = s.siBps ∧ t.host = s.host ∧ t.reads = s.reads
      ∧ t.freeIndex = s.freeIndex ∧ t.sampleSeed = s.sampleSeed := by
  have h := h.kept
  simp only [exceptFrame, exceptHeader, exceptBodyOfFrame, exceptSubframe, exceptSection, exceptSamples, exceptStream,
    State.mk.injEq] at h
  tauto

/-- Settles O51: what `exec_frame_leaves` says, register by register. -/
theorem frameCommandFrame : Obligations.FrameCommandFrame := by
  intro s t he
  obtain ⟨hl, hidx⟩ := exec_frame_leaves he
  obtain ⟨h1, h2, h3, h4, h5, h6, h7, h8, h9, h10, h11, h12, h13⟩ := hl.registers
  refine ⟨h1, h2, h3, h4, h5, h6, h7, h8, h9, h10, h11, h12, h13, hidx, fun _ hready => ?_, hl.words⟩
  rcases hidx with hkept | ⟨-, hr, -⟩
  · exact hkept
  · exact absurd hr hready

end Sys2Proof.Machine
end

section
/-! PROOFS. The statements of `10_state.md`, part 3: the host's reads and writes of registers (O53, O54, O55). -/

namespace Sys2Proof.Machine

/-! ## Reads -/

theorem act_readReg {num : Nat} (hn : num ≠ commandPort) (s : State) :
    act (.readReg num) s = .next { s with reads := readRegister num s :: s.reads } :=
  congrArg Host.Outcome.next (if_neg hn)

/-- `STATUS` bit by bit (rules R29 and R30). -/
theorem toNat_readStatus (s : State) :
    (readRegister 0x00 s).toNat = (match s.st with | .ready => 0 | .done => 1 | .fault => 2)
      + 4 * s.hcrcBad.toNat + 8 * s.fcrcBad.toNat + 16 * s.ovf.toNat + 32 * s.blkv.toNat := by
  show ((statusWord s).setWidth 64).toNat = _
  unfold statusWord
  cases s.st <;> cases s.hcrcBad <;> cases s.fcrcBad <;> cases s.ovf <;> cases s.blkv <;> rfl

/-- `CTRL` bit by bit (rule R28). -/
theorem toNat_readCtrl (s : State) : (readRegister 0x04 s).toNat = s.strict.toNat + 2 * s.siValid.toNat := by
  show ((ctrlWord s).setWidth 64).toNat = _
  unfold ctrlWord
  cases s.strict <;> cases s.siValid <;> rfl

/-- Above the single registers stand `COEF` and `RAW` alone (rule R46). -/
theorem readRegister_of_ge {num : Nat} (h : 0x28 ≤ num) (s : State) : readRegister num s = readFileRegister num s := by
  obtain ⟨k, rfl⟩ := Nat.exists_eq_add_of_le' h
  rfl

theorem toInt_readCoef {j : Nat} (h : j < 32) (s : State) : (readRegister (0x40 + j) s).toInt = s.coef[j].toInt := by
  rw [readRegister_of_ge (by omega), readFileRegister, if_pos (by omega), Nat.add_sub_cancel_left,
    BitVec.toInt_signExtend_of_le (by decide)]
  simp [h]

theorem toNat_readRaw {j : Nat} (h : j < 16) (s : State) : (readRegister (0x60 + j) s).toNat = s.raw[j].toNat := by
  rw [readRegister_of_ge (by omega), readFileRegister, if_neg (by omega), if_pos (by omega), Nat.add_sub_cancel_left,
    BitVec.toNat_setWidth_of_le (by decide)]
  simp [h]

/-- An unassigned number reads as zero (rule R46). -/
theorem readRegister_unassigned {num : Nat} (s : State)
    (h : 0x70 ≤ num ∨ 0x28 ≤ num ∧ num < 0x40 ∨ 0x0C ≤ num ∧ num < 0x0F ∨ 0x12 ≤ num ∧ num < 0x18) :
    readRegister num s = 0 := by
  rcases h with h | ⟨h, h'⟩ | ⟨h, h'⟩ | ⟨h, h'⟩
  · rw [readRegister_of_ge (by omega), readFileRegister, if_neg (by omega), if_neg (by omega)]
  · rw [readRegister_of_ge h, readFileRegister, if_neg (by omega), if_neg (by omega)]
  · interval_cases num <;> rfl
  · interval_cases num <;> rfl

/-- Settles O53: `STATUS`, `CTRL`, the two signed kinds and the unassigned numbers by the lemmas above, every other register
zero-extended. -/
theorem hostReadsDeliverRegisters : Obligations.HostReadsDeliverRegisters := by
  intro s
  refine ⟨fun _ hn => act_readReg hn s, rfl, toNat_readStatus s, ?_, rfl, ?_, toNat_readCtrl s, ?_, rfl, ?_, ?_, rfl,
    ?_, ?_, ?_, ?_, ?_, ?_, ?_, ?_, ?_, ?_, ?_, ?_, ?_, ?_, ?_, ?_, ?_, BitVec.toInt_signExtend_of_le (by decide), ?_, ?_,
    fun _ h => toInt_readCoef h s, fun _ h => toNat_readRaw h s, fun _ h => readRegister_unassigned s h⟩
  all_goals exact BitVec.toNat_setWidth_of_le (by decide)

/-! ## Writes -/

/-- Outside FAULT a register write takes effect (rule R47). -/
theorem act_writeReg_of_ready {num : Nat} {s : State} (hs : s.st ≠ .fault) (hn : num ≠ commandPort) (v : HostWord) :
    act (.writeReg num v) s = .next (writeRegister num v s) := by
  rw [act_writeReg hn, hostWriteRegister, if_neg hs]

/-- A read-only or unassigned number (rule R47). -/
theorem writeRegister_ignored {num : Nat} (v : HostWord) (s : State)
    (h : num ∉ [0x04, 0x05, 0x0F, 0x10, 0x11, 0x18, 0x19, 0x1A, 0x1B, 0x1C, 0x1D, 0x1E, 0x1F]) :
    writeRegister num v s = s := by
  unfold writeRegister
  split
  case h_13 => rfl
  all_goals exact absurd (by decide) h

/-- Settles O54: every number by its arm of `writeRegister`. -/
theorem hostWritesStoreTheLowBits : Obligations.HostWritesStoreTheLowBits := by
  intro v s hs
  have write := fun num (hn : num ≠ commandPort) => act_writeReg_of_ready hs hn v
  refine ⟨write 0x04 (by decide), write 0x10 (by decide), write 0x11 (by decide), write 0x18 (by decide),
    write 0x19 (by decide), write 0x1A (by decide), write 0x1B (by decide), write 0x1C (by decide),
    write 0x1D (by decide), write 0x1E (by decide), write 0x1F (by decide), fun num hnum => ?_⟩
  have hn : num ≠ commandPort := by rintro rfl; exact hnum (by decide)
  rw [write num hn, writeRegister_ignored v s hnum]

/-- Settles O55: outside FAULT the guard of `writeSourceLength` decides. -/
theorem sourceLengthWriteIsGuarded : Obligations.SourceLengthWriteIsGuarded := by
  intro v s hs
  rw [act_writeReg_of_ready hs (by decide)]
  show (_ → Host.Outcome.next (writeSourceLength v s) = _)
    ∧ (_ → _ → ∃ t, Host.Outcome.next (writeSourceLength v s) = _ ∧ _)
  refine ⟨fun h => ?_, fun hpos hv => ?_⟩
  · rw [writeSourceLength, if_pos h, takeFault_eq]; rfl
  · refine ⟨{ s with srcLen := v.setWidth 61 }, ?_, ?_, rfl⟩
    · rw [writeSourceLength, if_neg (by omega)]
    · show (v.setWidth 61).toNat = _
      rw [BitVec.toNat_setWidth, Nat.mod_eq_of_lt hv]

end Sys2Proof.Machine
end

section
/-! PROOFS. The statements of `20_memory.md`: the two memories read back what was written (O56).

What a read gives after each kind of write is said once in Laws/Memory.lean (`sourceByte_writeSource`,
`sampleWord_writeSample`, `hostWriteSample_spec`); here each write gets its frame. -/

namespace Sys2Proof.Machine

/-- Everything a host write of a byte of a canonical source does (rule R60), in whatever `STATE`. -/
theorem writeSource_spec {s : State} (h : sourceWf s.src = true) (a : Nat) (b : Byte) :
    (∀ x, sourceByte x (writeSource a b s) = if x = a then b else sourceByte x s)
      ∧ writeSource a b s = { s with src := (writeSource a b s).src } := by
  refine ⟨fun x => ?_, rfl⟩
  simp only [sourceByte_writeSource h, eq_comm]

/-- `narrow` loses a value exactly when the word does not hold it (rules R9 and R33). -/
theorem narrowLoses_eq (v : Int) : narrowLoses v = decide ((narrow v).toInt ≠ v) := decide_not.symm

/-- Everything the store of a command does (rules R66 and R234): one word, and `OVF` with the words as they were. -/
theorem writeSample_spec (s : State) (c i : Nat) (v : Int) :
    (∀ x, sampleWord x (writeSample c i v s) = if x = sampleAddress c i then narrow v else sampleWord x s)
      ∧ writeSample c i v s
        = { s with smp := (writeSample c i v s).smp, ovf := s.ovf || decide ((narrow v).toInt ≠ v) } := by
  constructor
  · intro x
    simp only [sampleWord_writeSample, eq_comm]
  · rw [← narrowLoses_eq]
    rfl

/-- Settles O56: each access by the lemma that says everything it does. -/
theorem memoriesReadBackWrites : Obligations.MemoriesReadBackWrites := by
  intro s
  refine ⟨fun hs a b => ?_, fun c i v _ _ => writeSample_spec s c i v, fun a v => ⟨?_, rfl⟩, fun _ => rfl⟩
  · exact ⟨writeSource a.toNat b s, rfl, writeSource_spec hs a.toNat b⟩
  · exact ⟨hostWriteSample a.toNat v s, rfl, hostWriteSample_spec s a.toNat v⟩

end Sys2Proof.Machine
end

section
/-! PROOFS. The statements of `30_encoding.md`: the decoder and the encoder are inverse to each other on well-formed
instructions (O1, O2); words written out (O3), the tables of rules R81 and R93 (O4, O6), and rule R83 (O5).

The decoder's side of the command table is `decodeCommand_ok` of Laws/Encoding.lean; here come its rows from the word's
side, the subframe header through `SubKind`, and the parameters and channel codes. -/

namespace Sys2Proof

/-- What a guarded decoder accepts meets the guard; `ite_ok` is the case with an alternative. -/
theorem guard_ok {c : Prop} [Decidable c] {x : Except DecodeError Instr} {e : DecodeError} {i : Instr}
    (h : (if c then x else .error e) = .ok i) : c ∧ x = .ok i := (ite_ok h).resolve_right nofun

/-! ## The command table (rules R81 and R82) -/

theorem decode_command (w : CommandWord) : decode .command 32 w.toNat = decodeCommand w := by
  simp [decode, w.isLt]

/-- Rows whose values differ on the bits both masks have are disjoint: `w & mask & mask'` cannot be both. -/
theorem not_selects_of_and {w m v m' v' : CommandWord} (h : w &&& m = v) (hd : v &&& m' ≠ v' &&& m) :
    selects w m' v' = false := by
  rw [Bool.eq_false_iff, Ne, selects_iff]
  rintro rfl
  exact hd (by rw [← h, BitVec.and_assoc, BitVec.and_comm m, ← BitVec.and_assoc])

/-- Settles O4: the row a word selects is the first it selects, since the rows are disjoint. -/
theorem commandWordsFollowTheTable : Obligations.CommandWordsFollowTheTable := by
  intro w
  rw [decode_command]
  refine ⟨?_, ?_, ?_, ?_, ?_, ?_, ?_, ?_, ?_, ?_, ?_, ?_, ?_⟩
  all_goals
    intro h
    simp (disch := decide) only [decodeCommand, not_selects_of_and h, (selects_iff w _ _).2 h, inRange,
      Instr.wellFormed, decide_eq_true_eq, Bool.false_eq_true, if_true, if_false]

/-- The bits of a command word: the operands in bits 23:0, the opcode in bits 31:24 (rule R81). -/
theorem getElem_commandBits {op a i : Nat} (ha : a < 2 ^ 24) (hi : i < 32) :
    (BitVec.ofNat 32 (commandBits op a))[i] = if i < 24 then a.testBit i else op.testBit (i - 24) := by
  rw [← BitVec.getLsbD_eq_getElem, BitVec.getLsbD_ofNat, decide_eq_true hi, Bool.true_and, commandBits,
    Nat.mul_comm, Nat.testBit_two_pow_mul_add _ ha]

/-- The command word whose only operand has `k` bits: it selects the row of its opcode, and the operand is its field. -/
theorem exists_word_of_operand {op k : Nat} (hop : op < 2 ^ 8) (hk : k ≤ 24) (n : BitVec k) :
    ∃ w : CommandWord, w.toNat = commandBits op n.toNat
      ∧ w &&& BitVec.allOnes 32 <<< k = BitVec.ofNat 32 (commandBits op 0) ∧ w.extractLsb' 0 k = n := by
  have hn : n.toNat < 2 ^ 24 := n.isLt.trans_le (Nat.pow_le_pow_right (by decide) hk)
  refine ⟨BitVec.ofNat 32 (commandBits op n.toNat), ?_, ?_, ?_⟩
  · rw [BitVec.toNat_ofNat, Nat.mod_eq_of_lt]
    simp only [commandBits]
    omega
  · ext i hi
    rw [BitVec.getElem_and, getElem_commandBits hn hi, getElem_commandBits (by decide) hi, BitVec.testBit_toNat,
      BitVec.getElem_shiftLeft]
    by_cases hik : i < k
    · have h24 : i < 24 := by omega
      simp [hik, h24]
    · rw [BitVec.getLsbD_of_ge n i (by omega), BitVec.getElem_allOnes]
      simp [hik]
  · ext i hi
    have h32 : i < 32 := by omega
    have h24 : i < 24 := by omega
    simp [h32, h24, getElem_commandBits hn, BitVec.testBit_toNat, hi]

/-- The command word of RESID, with its two operand fields. -/
theorem exists_word_of_resid (ch : BitVec 3) (ord : BitVec 6) :
    ∃ w : CommandWord, w.toNat = encode (.resid ch ord) ∧ w &&& 0xFFFFC0F8#32 = 0x22000000#32
      ∧ w.extractLsb' 0 3 = ch ∧ w.extractLsb' 8 6 = ord := by
  have hbit (i : Nat) : (2 ^ 8 * ord.toNat + ch.toNat).testBit i
      = if i < 8 then ch.getLsbD i else ord.getLsbD (i - 8) := by
    rw [Nat.testBit_two_pow_mul_add _ (by omega), BitVec.testBit_toNat, BitVec.testBit_toNat]
  have ha : 2 ^ 8 * ord.toNat + ch.toNat < 2 ^ 24 := by omega
  rw [encode, Nat.mul_comm]
  generalize 2 ^ 8 * ord.toNat + ch.toNat = a at hbit ha
  refine ⟨BitVec.ofNat 32 (commandBits 0x22 a), ?_, ?_, ?_, ?_⟩
  · rw [BitVec.toNat_ofNat, Nat.mod_eq_of_lt]
    simp only [commandBits]
    omega
  · ext i hi
    rw [BitVec.getElem_and, getElem_commandBits ha hi, hbit]
    interval_cases i <;> simp [Nat.testBit_eq_decide_div_mod_eq]
  · ext i hi
    have h32 : i < 32 := by omega
    have h24 : i < 24 := by omega
    have h8 : i < 8 := by omega
    simp [h32, h24, h8, getElem_commandBits ha, hbit, hi]
  · ext i hi
    have h32 : 8 + i < 32 := by omega
    have h24 : 8 + i < 24 := by omega
    simp [h32, h24, getElem_commandBits ha, hbit, hi]

/-- A command word decodes to the command it encodes. -/
theorem decode_encode_command {i : Instr} (hs : i.slot = .command) (hi : i.wellFormed = true) :
    decode .command 32 (encode i) = .ok i := by
  cases i <;> simp only [Instr.slot, reduceCtorEq] at hs <;>
    simp only [Instr.wellFormed, decide_eq_true_eq] at hi
  case reset | align | varint | framehdr | decorr | frame => decide
  case crcrst m =>
    obtain ⟨w, hw, hrow, rfl⟩ := exists_word_of_operand (op := 0x02) (by decide) (by decide) m
    obtain ⟨-, crcrst, -⟩ := commandWordsFollowTheTable w
    rw [encode, ← hw]
    exact crcrst hrow
  case rdu n =>
    obtain ⟨w, hw, hrow, rfl⟩ := exists_word_of_operand (op := 0x10) (by decide) (by decide) n
    obtain ⟨-, -, rdu, -⟩ := commandWordsFollowTheTable w
    rw [encode, ← hw]
    exact (rdu hrow).trans (if_pos hi)
  case rds n =>
    obtain ⟨w, hw, hrow, rfl⟩ := exists_word_of_operand (op := 0x11) (by decide) (by decide) n
    obtain ⟨-, -, -, rds, -⟩ := commandWordsFollowTheTable w
    rw [encode, ← hw]
    exact (rds hrow).trans (if_pos hi)
  case rdunary t =>
    obtain ⟨w, hw, hrow, ht⟩ := exists_word_of_operand (op := 0x12) (by decide) (by decide) (BitVec.ofBool t)
    obtain ⟨-, -, -, -, rdunary, -⟩ := commandWordsFollowTheTable w
    have ht : w.getLsbD 0 = t := by simpa using congrArg (·.getLsbD 0) ht
    have := rdunary hrow
    rwa [hw, ht, BitVec.toNat_ofBool] at this
  case rdbytes n =>
    obtain ⟨w, hw, hrow, rfl⟩ := exists_word_of_operand (op := 0x14) (by decide) (by decide) n
    obtain ⟨-, -, -, -, -, -, rdbytes, -⟩ := commandWordsFollowTheTable w
    rw [encode, ← hw]
    exact (rdbytes hrow).trans (if_pos hi)
  case subframe ch =>
    obtain ⟨w, hw, hrow, rfl⟩ := exists_word_of_operand (op := 0x21) (by decide) (by decide) ch
    obtain ⟨-, -, -, -, -, -, -, -, -, subframe, -⟩ := commandWordsFollowTheTable w
    rw [encode, ← hw]
    exact subframe hrow
  case resid ch ord =>
    obtain ⟨w, hw, hrow, rfl, rfl⟩ := exists_word_of_resid ch ord
    obtain ⟨-, -, -, -, -, -, -, -, -, -, resid, -⟩ := commandWordsFollowTheTable w
    rw [← hw]
    exact (resid hrow).trans (if_pos hi)

/-! ## The subframe header (rules R92 and R93) -/

section Header

variable {ch : BitVec 3} {k : SubKind} {w f : Bool} {t b : Nat}

@[simp] theorem SubKind.slot_instr : (k.instr ch w).slot = .header ch := by cases k <;> rfl
@[simp] theorem SubKind.width_instr : (k.instr ch w).width = 8 := by cases k <;> rfl
@[simp] theorem SubKind.encode_instr : encode (k.instr ch w) = headerByte k w := by cases k <;> rfl
@[simp] theorem SubKind.wellFormed_instr : (k.instr ch w).wellFormed = true := by cases k <;> rfl

theorem SubKind.ofSelector_lpc (h1 : 32 ≤ t) (h2 : t ≤ 63) :
    SubKind.ofSelector t = some (.lpc (BitVec.ofNat 5 (t - 32))) := by
  unfold SubKind.ofSelector
  split
  case h_8 => rw [if_pos ⟨h1, h2⟩]
  all_goals omega

/-- The reserved selectors of rule R93. -/
theorem SubKind.ofSelector_reserved (h : 2 ≤ t ∧ t ≤ 7 ∨ 13 ≤ t ∧ t ≤ 31) : SubKind.ofSelector t = none := by
  unfold SubKind.ofSelector
  split
  case h_8 => rw [if_neg (by omega)]
  all_goals omega

theorem SubKind.selector_lt : k.selector < 64 := by
  cases k
  case lpc o => have := o.isLt; simp only [SubKind.selector]; omega
  all_goals decide

/-- Every kind is that of its selector; `ofSelector_some` is the other direction. -/
theorem SubKind.ofSelector_selector : SubKind.ofSelector k.selector = some k := by
  cases k
  case lpc o =>
    have := o.isLt
    simp only [SubKind.selector]
    rw [SubKind.ofSelector_lpc (by omega) (by omega), Nat.add_sub_cancel_left, BitVec.ofNat_toNat, BitVec.setWidth_eq]
  all_goals rfl

/-- The three fields of the header byte `0tttttt f`. -/
theorem bitField_of_selector (ht : t < 64) (f : Bool) : 2 * t + f.toNat < 2 ^ 8 ∧ bitField (2 * t + f.toNat) 7 7 = 0
    ∧ bitField (2 * t + f.toNat) 6 1 = t ∧ bitField (2 * t + f.toNat) 0 0 = f.toNat := by
  have := f.toNat_le
  simp only [bitField]
  omega

/-- A header without the reserved bit decodes as its selector says. -/
theorem decode_header_of_selector (ht : t < 64) : decode (.header ch) 8 (2 * t + f.toNat)
    = (SubKind.ofSelector t).elim (.error .reservedType) fun k => .ok (k.instr ch f) := by
  obtain ⟨hb, h7, h6, h0⟩ := bitField_of_selector ht f
  have hf : (f.toNat == 1) = f := by cases f <;> rfl
  simp only [decode, hb, and_self, if_true, decodeHeader, h7, h6, h0, hf, Nat.zero_ne_one, if_false]
  cases SubKind.ofSelector t <;> rfl

theorem decode_encode_header : decode (.header ch) 8 (headerByte k w) = .ok (k.instr ch w) := by
  rw [headerByte, decode_header_of_selector SubKind.selector_lt, SubKind.ofSelector_selector]
  rfl

/-- A header byte that decodes is that of a kind. -/
theorem decodeHeader_ok {i : Instr} (hb : b < 2 ^ 8) (h : decodeHeader ch b = .ok i) :
    ∃ k w, i = SubKind.instr ch w k ∧ headerByte k w = b := by
  obtain ⟨h7, h⟩ : ¬bitField b 7 7 = 1 ∧ _ := guard_ok ((ite_not _ _ _).trans h)
  cases hk : SubKind.ofSelector (bitField b 6 1) with
  | none => rw [hk] at h; cases h
  | some k =>
    rw [hk] at h
    cases h
    refine ⟨k, _, rfl, ?_⟩
    rw [headerByte, ofSelector_some hk]
    have hf : (bitField b 0 0 == 1).toNat = bitField b 0 0 := by
      obtain h0 | h0 : bitField b 0 0 = 0 ∨ bitField b 0 0 = 1 := Nat.mod_two_eq_zero_or_one _
      · rw [h0]; rfl
      · rw [h0]; rfl
    rw [hf]
    simp only [bitField] at h7 ⊢
    omega

end Header

/-- Settles O6: the selector of the header byte by `decode_header_of_selector`, a set first bit by its field. -/
theorem subframeSelectorTable : Obligations.SubframeSelectorTable := by
  intro ch t f ht
  rw [decode_header_of_selector ht]
  refine ⟨fun b => ?_, ?_, ?_, ?_, ?_, ?_, ?_, ?_, fun h => ?_, fun h => ?_⟩
  · by_cases hb : b < 128
    · have h7 : bitField (128 + b) 7 7 = 1 := by simp only [bitField]; omega
      simp only [decode, decodeHeader, h7, hb, if_true, true_and, show 128 + b < 2 ^ 8 by omega]
    · simp only [decode, hb, if_false, show ¬128 + b < 2 ^ 8 by omega, and_false]
  case refine_9 => rw [SubKind.ofSelector_lpc h (by omega)]; rfl
  case refine_10 => rw [SubKind.ofSelector_reserved h]; rfl
  all_goals rintro rfl; rfl

/-! ## Parameters and channel codes (rules R88 and R98) -/

section Parameters

variable {p : Part}

theorem decode_encode_rice4 {k : BitVec 4} (hk : k ≠ 15#4) : decode (.param0 p) 4 k.toNat = .ok (.rice4 p k) := by
  have hlt : k.toNat < 15 := by bv_omega
  simp [decode, decodeParam0, escapeValue, hlt]

theorem decode_encode_rice5 {k : BitVec 5} (hk : k ≠ 31#5) : decode (.param1 p) 5 k.toNat = .ok (.rice5 p k) := by
  have hlt : k.toNat < 31 := by bv_omega
  simp [decode, decodeParam1, escapeValue, hlt]

/-- An escape parameter taken apart: the escape value above the raw width. -/
theorem escape_div_mod (e : Nat) (w : BitVec 5) :
    (e * 2 ^ 5 + w.toNat) / 32 = e ∧ (e * 2 ^ 5 + w.toNat) % 32 = w.toNat := by
  omega

/-- The other direction of `escape_div_mod`. -/
theorem escape_of_div {v e : Nat} (h : v / 32 = e) : e * 2 ^ 5 + (BitVec.ofNat 5 (v % 32)).toNat = v := by
  rw [BitVec.toNat_ofNat]
  omega

theorem decode_encode_esc4 (w : BitVec 5) :
    decode (.param0 p) 9 (escapeValue 0 * 2 ^ 5 + w.toNat) = .ok (.esc4 p w) := by
  obtain ⟨hd, hm⟩ := escape_div_mod (escapeValue 0) w
  rw [decode, decodeParam0, if_neg (by omega), if_pos ⟨rfl, hd⟩, hm, BitVec.ofNat_toNat, BitVec.setWidth_eq]

theorem decode_encode_esc5 (w : BitVec 5) :
    decode (.param1 p) 10 (escapeValue 1 * 2 ^ 5 + w.toNat) = .ok (.esc5 p w) := by
  obtain ⟨hd, hm⟩ := escape_div_mod (escapeValue 1) w
  rw [decode, decodeParam1, if_neg (by omega), if_pos ⟨rfl, hd⟩, hm, BitVec.ofNat_toNat, BitVec.setWidth_eq]

theorem decodeParam0_ok {nbits v : Nat} {i : Instr} (h : decodeParam0 p nbits v = .ok i) :
    i.slot = .param0 p ∧ i.width = nbits ∧ encode i = v ∧ (p.wellFormed = true → i.wellFormed = true) := by
  unfold decodeParam0 at h
  rcases ite_ok h with ⟨⟨rfl, hv⟩, hd⟩ | h
  · cases hd
    have hv : v < 15 := hv
    have hk : BitVec.ofNat 4 v ≠ 15#4 := by bv_omega
    exact ⟨rfl, rfl, Nat.mod_eq_of_lt (by omega), fun hp => by simp [Instr.wellFormed, hp, hk]⟩
  · obtain ⟨⟨rfl, hv⟩, hd⟩ := guard_ok h
    cases hd
    exact ⟨rfl, rfl, escape_of_div hv, id⟩

theorem decodeParam1_ok {nbits v : Nat} {i : Instr} (h : decodeParam1 p nbits v = .ok i) :
    i.slot = .param1 p ∧ i.width = nbits ∧ encode i = v ∧ (p.wellFormed = true → i.wellFormed = true) := by
  unfold decodeParam1 at h
  rcases ite_ok h with ⟨⟨rfl, hv⟩, hd⟩ | h
  · cases hd
    have hv : v < 31 := hv
    have hk : BitVec.ofNat 5 v ≠ 31#5 := by bv_omega
    exact ⟨rfl, rfl, Nat.mod_eq_of_lt (by omega), fun hp => by simp [Instr.wellFormed, hp, hk]⟩
  · obtain ⟨⟨rfl, hv⟩, hd⟩ := guard_ok h
    cases hd
    exact ⟨rfl, rfl, escape_of_div hv, id⟩

end Parameters

theorem decode_encode_indep (c : BitVec 3) : decode .channels 4 c.toNat = .ok (.indep c) := by
  rw [decode, if_pos ⟨rfl, by omega⟩, decodeChannels, if_pos (by omega), BitVec.ofNat_toNat, BitVec.setWidth_eq]

theorem decodeChannels_ok {a : Nat} {i : Instr} (h : decodeChannels a = .ok i) :
    i.slot = .channels ∧ i.width = 4 ∧ encode i = a ∧ i.wellFormed = true := by
  unfold decodeChannels at h
  rcases ite_ok h with ⟨ha, h⟩ | h
  · cases h
    have hc : (BitVec.ofNat 3 a).toNat = a := by rw [BitVec.toNat_ofNat]; omega
    exact ⟨rfl, rfl, hc, rfl⟩
  rcases ite_ok h with ⟨rfl, h⟩ | h
  · cases h; decide
  rcases ite_ok h with ⟨rfl, h⟩ | h
  · cases h; decide
  obtain ⟨rfl, h⟩ := guard_ok h
  cases h; decide

/-! ## The two directions -/

/-- Settles O1, slot by slot: a command by the table, a header by its kind, a parameter by its fields. -/
theorem decodeInvertsEncode : Obligations.DecodeInvertsEncode := by
  intro i hi
  cases i
  case constant ch w => exact decode_encode_header (k := .constant)
  case verbatim ch w => exact decode_encode_header (k := .verbatim)
  case fixed0 ch w => exact decode_encode_header (k := .fixed0)
  case fixed1 ch w => exact decode_encode_header (k := .fixed1)
  case fixed2 ch w => exact decode_encode_header (k := .fixed2)
  case fixed3 ch w => exact decode_encode_header (k := .fixed3)
  case fixed4 ch w => exact decode_encode_header (k := .fixed4)
  case lpc ch o w => exact decode_encode_header (k := .lpc o)
  case rice4 p k =>
    simp only [Instr.wellFormed, Bool.and_eq_true, decide_eq_true_eq] at hi
    exact decode_encode_rice4 hi.2
  case rice5 p k =>
    simp only [Instr.wellFormed, Bool.and_eq_true, decide_eq_true_eq] at hi
    exact decode_encode_rice5 hi.2
  case esc4 p w => exact decode_encode_esc4 w
  case esc5 p w => exact decode_encode_esc5 w
  case indep c => exact decode_encode_indep c
  case lside | rside | mside => rfl
  all_goals exact decode_encode_command rfl hi

/-- Settles O2, slot by slot: each decoder accepts only what the encoder writes. -/
theorem encodeInvertsDecode : Obligations.EncodeInvertsDecode := by
  intro slot nbits w i h
  cases slot with
  | command =>
    obtain ⟨⟨rfl, hw⟩, hd⟩ := guard_ok h
    obtain ⟨hs, hn, he, hwf⟩ := decodeCommand_ok hd
    exact ⟨hs, hn, he.trans (Nat.mod_eq_of_lt hw), fun _ => hwf⟩
  | header ch =>
    obtain ⟨⟨rfl, hw⟩, hd⟩ := guard_ok h
    obtain ⟨k, f, rfl, he⟩ := decodeHeader_ok hw hd
    exact ⟨SubKind.slot_instr, SubKind.width_instr, SubKind.encode_instr.trans he, fun _ => SubKind.wellFormed_instr⟩
  | param0 p =>
    obtain ⟨hs, hn, he, hwf⟩ := decodeParam0_ok h
    exact ⟨hs, hn, he, fun hp => hwf (hp p (.inl rfl))⟩
  | param1 p =>
    obtain ⟨hs, hn, he, hwf⟩ := decodeParam1_ok h
    exact ⟨hs, hn, he, fun hp => hwf (hp p (.inr rfl))⟩
  | channels =>
    obtain ⟨⟨rfl, -⟩, hd⟩ := guard_ok h
    obtain ⟨hs, hn, he, hwf⟩ := decodeChannels_ok hd
    exact ⟨hs, hn, he, fun _ => hwf⟩

/-- Settles O5: a word that decoded would be the encoding of a well-formed command, by `decodeCommand_ok`. -/
theorem otherWordsRaiseBadCommand : Obligations.OtherWordsRaiseBadCommand := by
  intro w s hs hw
  unfold Machine.runCommand
  cases hd : decode .command 32 w.toNat with
  | ok i =>
    obtain ⟨hslot, -, he, hwf⟩ := decodeCommand_ok (decode_command w ▸ hd)
    exact absurd he (hw i hslot hwf)
  | error e =>
    show Host.Outcome.next (Machine.malformedCommand s) = _
    rw [Machine.malformedCommand, if_neg hs, Machine.takeFault_eq]
    rfl

/-- Settles O3: each word runs through the decoder. -/
theorem writtenOutWordsDecode : Obligations.WrittenOutWordsDecode := by
  unfold Obligations.WrittenOutWordsDecode
  decide

end Sys2Proof
end

section
/-! PROOFS. The statements of `40_bit_reader.md`, part 1: what CRCRST, RDU, RDS, RDUNARY, ALIGN and RDBYTES do
(O11 to O16).

What a field read does on the bits at the cursor is said once in Laws/Reader.lean; here every field of the source gets
its value (`exists_uBits`, `exists_sBits`), and every command its body (`exec_rdu` and the like). -/

namespace Sys2Proof.Machine

variable {s t : State} {n : Nat}

/-! ## The fields at the cursor -/

/-- The next `n` bits of the source are an unsigned field with some value (rule R112). -/
theorem exists_uBits (h : s.pos.toNat + n ≤ sourceEnd s) : ∃ v, v < 2 ^ n ∧ Holds (uBits n v) s := by
  have hv := bitsValue_lt (nextBits n s)
  have hb := uBits_bitsValue (nextBits n s)
  rw [length_nextBits] at hv hb
  exact ⟨_, hv, hb.symm ▸ holds_nextBits h⟩

/-- A number of `n` bits read as two's complement is in the range of a signed field (rule R113). -/
theorem fitsSigned_signExtend (n v : Nat) : fitsSigned n (signExtend n v) := by
  have hlt : v % 2 ^ n < 2 ^ n := Nat.mod_lt _ (by positivity)
  cases n with
  | zero => simp [fitsSigned, signExtend, Nat.mod_one]
  | succ n =>
    have hpow : 2 ^ (n + 1) = 2 * 2 ^ n := Nat.pow_succ'
    simp only [fitsSigned, signExtend, Nat.add_sub_cancel, if_neg n.succ_ne_zero]
    split <;> omega

/-- Two's complement does not change the bits of a field. -/
theorem sBits_signExtend (n v : Nat) : sBits n (signExtend n v) = uBits n v := by
  have hmod : signExtend n v % ((2 ^ n : Nat) : Int) = ((v % 2 ^ n : Nat) : Int) := by
    unfold signExtend
    split
    · rw [Int.natCast_mod, Int.emod_emod]
    · rw [Int.sub_emod_right, Int.natCast_mod, Int.emod_emod]
  rw [sBits, hmod, Int.toNat_natCast, uBits_mod]

/-- The next `n` bits of the source are a signed field with some value (rule R113). -/
theorem exists_sBits (h : s.pos.toNat + n ≤ sourceEnd s) : ∃ v, fitsSigned n v ∧ Holds (sBits n v) s := by
  obtain ⟨v, -, hh⟩ := exists_uBits h
  exact ⟨signExtend n v, fitsSigned_signExtend n v, (sBits_signExtend n v).symm ▸ hh⟩

/-! ## CRCRST -/

/-- Settles O11: the body is the update the statement writes out. -/
theorem crcrstClearsTheMaskedChecksums : Obligations.CrcrstClearsTheMaskedChecksums := by
  intro m s hs
  show execCrcrst m s = _
  rw [execCrcrst, primitiveCommand_of_ready hs]
  rfl

/-! ## RDU and RDS -/

theorem exec_rdu (hs : s.st ≠ .fault) (n : BitVec 7) :
    exec (.rdu n) s = finish (
      if 64 < n.toNat then .raised .badCommand s
      else (readUnsigned n.toNat s).bind fun v t => endReady { t with rv := BitVec.ofNat 64 v }) := by
  show execRdu n s = _
  rw [execRdu, primitiveCommand_of_ready hs]

theorem exec_rds (hs : s.st ≠ .fault) (n : BitVec 7) :
    exec (.rds n) s = finish (
      if 64 < n.toNat then .raised .badCommand s
      else (readSigned n.toNat s).bind fun v t => endReady { t with rv := BitVec.ofInt 64 v }) := by
  show execRds n s = _
  rw [execRds, primitiveCommand_of_ready hs]

/-- Settles O12: inside the source the next bits are a field, which is read whole. -/
theorem rduReadsOneWholeField : Obligations.RduReadsOneWholeField := by
  intro n s hs
  rw [exec_rdu hs]
  refine ⟨fun hn hp => ?_, fun hn hp => ?_, fun hn => ?_⟩
  · obtain ⟨v, hv, hh⟩ := exists_uBits hp
    refine ⟨v, hv, hh, ?_⟩
    rw [if_neg hn.not_gt, readUnsigned_of_holds hv hh]
    rfl
  · rw [if_neg hn.not_gt, readUnsigned_of_short hp]
    rfl
  · rw [if_pos hn]
    rfl

/-- Settles O13: as O12, with the field as a signed one. -/
theorem rdsReadsOneWholeSignedField : Obligations.RdsReadsOneWholeSignedField := by
  intro n s hs
  rw [exec_rds hs]
  refine ⟨fun hn hp => ?_, fun hn hp => ?_, fun hn => ?_⟩
  · obtain ⟨v, hv, hh⟩ := exists_sBits hp
    refine ⟨v, hv, hh, ?_⟩
    rw [if_neg hn.not_gt, readSigned_of_holds hv hh]
    rfl
  · rw [if_neg hn.not_gt, readSigned_of_short hp]
    rfl
  · rw [if_pos hn]
    rfl

/-! ## RDUNARY -/

/-- Settles O14: a terminator in the source rules out the raise of `readUnary_cases`. -/
theorem rdunaryCountsToTheTerminator : Obligations.RdunaryCountsToTheTerminator := by
  intro b s hs
  have hexec : exec (.rdunary b) s
      = finish ((readUnary b s).bind fun k t => endReady { t with rv := BitVec.ofNat 64 k }) := by
    show execRdunary b s = _
    rw [execRdunary, primitiveCommand_of_ready hs]
  rw [hexec]
  refine ⟨fun ⟨p, hp, hlt, hb⟩ => ?_, fun hnone => ?_⟩
  · obtain ⟨k, hh, e⟩ | ⟨hnone, -⟩ := readUnary_cases b s
    · exact ⟨k, hh, by rw [e]; rfl⟩
    · exact absurd hb (hnone p hp hlt)
  · rw [readUnary_of_none hnone]
    rfl

/-! ## ALIGN -/

theorem exec_align (hs : s.st ≠ .fault) : exec .align s = finish ((alignToByte s).bind fun _ t => endReady t) := by
  show execAlign s = _
  rw [execAlign, primitiveCommand_of_ready hs]

/-- Settles O15: the byte boundary is inside the source where the cursor is. -/
theorem alignConsumesToTheByteBoundary : Obligations.AlignConsumesToTheByteBoundary := by
  intro s hs hp
  have hh := holds_nextBits (padding_le hp)
  refine ⟨nextBits (paddingBits s) s, length_nextBits _ _, hh, ?_, ?_⟩
  · rw [exec_align hs, alignToByte_of_holds hh (length_nextBits _ _)]
    rfl
  · rw [hh.pos_advance, length_nextBits, paddingBits]
    omega

/-! ## RDBYTES -/

/-- At a byte boundary the next 8 bits are the byte at the cursor (rules R23 and R61). -/
theorem nextBits_eq_sourceByte (h : s.pos.toNat % 8 = 0) :
    nextBits 8 s = uBits 8 (sourceByte (s.pos.toNat / 8) s).toNat := by
  have hbit (j : Nat) (hj : j < 8) :
      streamBit (s.pos.toNat + j) s = (sourceByte (s.pos.toNat / 8) s).toNat.testBit (7 - j) := by
    have hdiv : (s.pos.toNat + j) / 8 = s.pos.toNat / 8 := by omega
    have hmod : (s.pos.toNat + j) % 8 = j := by omega
    rw [streamBit, hdiv, hmod, BitVec.testBit_toNat]
  have hbits : nextBits 8 s
      = (List.range 8).map fun j => (sourceByte (s.pos.toNat / 8) s).toNat.testBit (7 - j) :=
    List.map_congr_left fun j hj => hbit j (List.mem_range.1 hj)
  exact hbits

/-- At a byte boundary 8 bits are gathered to the value of the byte there. -/
theorem gatherBits_of_aligned (ha : s.pos.toNat % 8 = 0) (hh : Holds (nextBits 8 s) s) :
    gatherBits 8 0 s = ((sourceByte (s.pos.toNat / 8) s).toNat, advance (nextBits 8 s) s) := by
  have hg := gatherBits_of_holds hh 0
  have hv := bitsValue_uBits 8 (sourceByte (s.pos.toNat / 8) s).toNat 0
  rw [← nextBits_eq_sourceByte ha, Nat.zero_mul, Nat.zero_add, Nat.mod_eq_of_lt (BitVec.isLt _)] at hv
  rwa [length_nextBits, hv] at hg

/-- The `n` bytes from address `a` on, the lowest address first. -/
def sourceBytes (a n : Nat) (s : State) : List Byte := (List.range n).map fun j => sourceByte (a + j) s

@[simp] theorem length_sourceBytes (a n : Nat) (s : State) : (sourceBytes a n s).length = n := by simp [sourceBytes]

theorem sourceBytes_succ (a n : Nat) (s : State) :
    sourceBytes a (n + 1) s = sourceByte a s :: sourceBytes (a + 1) n s := by
  simp [sourceBytes, List.range_succ_eq_map, Nat.add_assoc, Nat.add_comm 1]

/-- Bytes read at a byte boundary are those at the cursor, and exactly their bits are consumed (rule R116). -/
theorem gatherBytes_of_aligned (ha : s.pos.toNat % 8 = 0) (h : s.pos.toNat + 8 * n ≤ sourceEnd s) :
    ∃ bits, bits.length = 8 * n ∧ Holds bits s
      ∧ gatherBytes n s = (sourceBytes (s.pos.toNat / 8) n s, advance bits s) := by
  induction n generalizing s with
  | zero => exact ⟨[], rfl, holds_nil.2 h, by simp [gatherBytes, sourceBytes]⟩
  | succ n ih =>
    have hh := holds_nextBits (n := 8) (s := s) (by omega)
    have hpos := hh.pos_advance
    rw [length_nextBits] at hpos
    obtain ⟨bits, hl, hb, e⟩ := ih (s := advance (nextBits 8 s) s) (by omega) (by rw [sourceEnd_advance]; omega)
    refine ⟨nextBits 8 s ++ bits, by simp [hl]; omega, holds_append.2 ⟨hh, hb⟩, ?_⟩
    rw [gatherBytes, gatherBits_of_aligned ha hh, e, sourceBytes_succ, advance_append, hpos,
      Nat.add_div_right _ (by decide), BitVec.ofNat_toNat, BitVec.setWidth_eq]
    rfl

theorem exec_rdbytes (hs : s.st ≠ .fault) (n : BitVec 5) :
    exec (.rdbytes n) s = finish (
      if 16 < n.toNat then .raised .badCommand s
      else if !byteAligned s then .raised .badCommand s
      else if s.pos.toNat + 8 * n.toNat > sourceEnd s then .raised .unexpectedEnd s
      else endReady (deliverBytes (gatherBytes n.toNat s).1 (gatherBytes n.toNat s).2)) := by
  show execRdbytes n s = _
  rw [execRdbytes, primitiveCommand_of_ready hs]

/-- Settles O16, test by test of the body. -/
theorem rdbytesDeliversBytesOrNothing : Obligations.RdbytesDeliversBytesOrNothing := by
  intro n s hs
  rw [exec_rdbytes hs]
  refine ⟨fun hn ha hp => ?_, fun hn ha hp => ?_, fun h => ?_⟩
  · obtain ⟨bits, hl, hh, e⟩ := gatherBytes_of_aligned ha hp
    rw [if_neg (by omega), if_neg (by simp [byteAligned, ha]), if_neg (by omega), e]
    refine ⟨bits, _, hl, hh, rfl, fun j hj => ?_, ?_⟩
    · have hraw : j < Config.rawMax := by simp only [Config.rawMax]; omega
      simp [hraw, sourceBytes, hj]
    · simp only [deliverBytes, length_sourceBytes, BitVec.ofNat_toNat, BitVec.setWidth_eq]
  · rw [if_neg (by omega), if_neg (by simp [byteAligned, ha]), if_pos hp]
    rfl
  · by_cases hn : 16 < n.toNat
    · rw [if_pos hn]
      rfl
    · rw [if_neg hn, if_pos (by simpa [byteAligned] using h.resolve_left hn)]
      rfl

end Sys2Proof.Machine
end

section
/-! PROOFS. The statements of `40_bit_reader.md`, part 2: the checksums (O17). -/

namespace Sys2Proof.Machine

/-! ## A checksum register of any width

`step` is the update of rule R111 with a polynomial whose lowest term is 1. A bit equal to the top bit only shifts; any
other leaves the lowest bit set. So the register ends zero only when every bit was the top bit it met. -/

section Register

variable {w n v : Nat} {c poly : BitVec w} {step : BitVec w → Bool → BitVec w}

/-- The top `n` bits of the register are the low `n` bits of a number. -/
def TopBits (n v : Nat) (c : BitVec w) : Prop := ∀ i < n, c.getLsbD (w - n + i) = v.testBit i

theorem topBits_succ (h : n < w) :
    TopBits (n + 1) v c ↔ c.getLsbD (w - 1) = v.testBit n ∧ TopBits n v (c <<< 1) := by
  have htop : w - (n + 1) + n = w - 1 := by omega
  have hrest : (∀ i < n, c.getLsbD (w - (n + 1) + i) = v.testBit i) ↔ TopBits n v (c <<< 1) := by
    refine forall₂_congr fun i hi => ?_
    have hsub : w - n + i - 1 = w - (n + 1) + i := by omega
    have hlt : w - n + i < w := by omega
    have hpos : ¬ w - n + i < 1 := by omega
    simp only [BitVec.getLsbD_shiftLeft, hsub, hlt, hpos, decide_true, decide_false, Bool.not_false, Bool.true_and]
  rw [TopBits, Nat.forall_lt_succ_right, htop, hrest, and_comm]

theorem topBits_self (c : BitVec w) : TopBits w c.toNat c := fun i _ => by
  rw [Nat.sub_self, Nat.zero_add, BitVec.testBit_toNat]

variable (hstep : ∀ c b, step c b = if c.getLsbD (w - 1) ≠ b then (c <<< 1) ^^^ poly else c <<< 1)
include hstep

theorem step_top : step c (c.getLsbD (w - 1)) = c <<< 1 := by rw [hstep, if_neg (not_not.2 rfl)]

theorem foldl_step_zeros (n : Nat) : (List.replicate n false).foldl step 0 = 0 := by
  have hzero : step 0 false = 0 := by rw [hstep]; simp
  induction n with
  | zero => rfl
  | succ n ih => rw [List.replicate_succ, List.foldl_cons, hzero, ih]

/-- A field equal to the top bits of the register shifts it. -/
theorem foldl_step_of_topBits (hn : n ≤ w) (h : TopBits n v c) : (uBits n v).foldl step c = c <<< n := by
  induction n generalizing c with
  | zero => exact (BitVec.shiftLeft_zero c).symm
  | succ n ih =>
    obtain ⟨htop, hrest⟩ := (topBits_succ hn).1 h
    rw [uBits, List.foldl_cons, ← htop, step_top hstep, ih (by omega) hrest, ← BitVec.shiftLeft_add, Nat.add_comm]

/-- A field that leaves as many low bits zero was equal to the top bits of the register. -/
theorem topBits_of_foldl_step (hpoly : poly.getLsbD 0 = true) (hn : n ≤ w)
    (h : ∀ i < n, ((uBits n v).foldl step c).getLsbD i = false) : TopBits n v c := by
  induction n generalizing c with
  | zero => exact fun i hi => absurd hi (Nat.not_lt_zero i)
  | succ n ih =>
    rw [uBits, List.foldl_cons] at h
    have hrest : TopBits n v (step c (v.testBit n)) := ih (by omega) fun i hi => h i (by omega)
    have hlow : (step c (v.testBit n)).getLsbD 0 = false := by
      have := h n n.lt_succ_self
      rw [foldl_step_of_topBits hstep (by omega) hrest, BitVec.getLsbD_shiftLeft, Nat.sub_self] at this
      simpa only [show n < w from hn, lt_irrefl, decide_true, decide_false, Bool.not_false, Bool.true_and] using this
    have htop : c.getLsbD (w - 1) = v.testBit n := by
      by_contra hne
      rw [hstep, if_pos hne] at hlow
      simp [hpoly] at hlow
    rw [← htop, step_top hstep] at hrest
    exact (topBits_succ hn).2 ⟨htop, hrest⟩

/-- After a field of its own width the register is zero exactly when the field was its value (rule R117). -/
theorem foldl_step_eq_zero_iff (hpoly : poly.getLsbD 0 = true) (c v : BitVec w) :
    (uBits w v.toNat).foldl step c = 0 ↔ v = c := by
  constructor
  · intro h
    have htop : TopBits w v.toNat c :=
      topBits_of_foldl_step hstep hpoly le_rfl fun i _ => by rw [h]; exact BitVec.getLsbD_zero
    refine BitVec.eq_of_getLsbD_eq fun i hi => ?_
    have := htop i hi
    rw [Nat.sub_self, Nat.zero_add, BitVec.testBit_toNat] at this
    exact this.symm
  · rintro rfl
    rw [foldl_step_of_topBits hstep le_rfl (topBits_self v)]
    simp

end Register

theorem crc8Step_eq (c : BitVec 8) (b : Bool) :
    crc8Step c b = if c.getLsbD 7 ≠ b then (c <<< 1) ^^^ 0x07#8 else c <<< 1 :=
  if_congr bne_iff_ne rfl rfl

theorem crc16Step_eq (c : BitVec 16) (b : Bool) :
    crc16Step c b = if c.getLsbD 15 ≠ b then (c <<< 1) ^^^ 0x8005#16 else c <<< 1 :=
  if_congr bne_iff_ne rfl rfl

/-- The checksums of "123456789" (`95_test_vectors.md`, section 3). -/
theorem checksums_123456789 : (uBits 72 0x313233343536373839).foldl crc8Step 0 = 0xF4#8
    ∧ (uBits 72 0x313233343536373839).foldl crc16Step 0 = 0xFEE8#16 := by
  simp [uBits, crc8Step_eq, crc16Step_eq, Nat.testBit_eq_decide_div_mod_eq]

/-- Settles O17: both accumulators are registers of that kind. -/
theorem checksumOfItselfIsZero : Obligations.ChecksumOfItselfIsZero :=
  ⟨crc8Step_eq, crc16Step_eq, checksums_123456789,
    fun n => ⟨foldl_step_zeros crc8Step_eq n, foldl_step_zeros crc16Step_eq n⟩,
    foldl_step_eq_zero_iff crc8Step_eq rfl, foldl_step_eq_zero_iff crc16Step_eq rfl⟩

end Sys2Proof.Machine
end

section
/-! PROOFS. The statements of `40_bit_reader.md`, part 3: what the reader commands and VARINT leave unchanged (O46).

For the commands that are read whole or not at all it follows from what they do (O11 to O14, O16). VARINT may have
consumed bytes when it faults (rule R133): its frame comes from what its parts may do (Laws/Parts.lean). -/

namespace Sys2Proof.Machine

variable {i : Instr} {s t u : State} {Done : State → Prop}

/-! ## What may change -/

/-- The cursor, the checksums, `RV`, `STATE` and the fault record. -/
def FieldFrame (s t : State) : Prop :=
  t = { s with pos := t.pos, crc8 := t.crc8, crc16 := t.crc16, rv := t.rv, st := t.st, errCause := t.errCause,
               errPos := t.errPos, errFrame := t.errFrame }

/-- The cursor, the checksums and `STATE`. -/
def StreamFrame (s t : State) : Prop := t = { s with pos := t.pos, crc8 := t.crc8, crc16 := t.crc16, st := t.st }

/-! ## Commands that consume what they deliver, or nothing -/

/-- The command was ignored in FAULT, or it ended well, or it faulted where it began. -/
def EndsAtomically (Done : State → Prop) (s t : State) : Prop := t = s ∨ Done t ∨ ∃ code, t = faulted code s

/-- Bits were consumed and `RV` written. -/
def FieldRead (s t : State) : Prop := ∃ bits v, t = { advance bits s with rv := v, st := .ready }

/-- Bits were consumed, `RAW` and `RAW_LEN` written, and the model's counter of free values moved (log entry 4). -/
def BytesRead (s t : State) : Prop := ∃ bits raw len k,
  t = { advance bits s with raw := raw, rawLen := len, freeIndex := k, st := .ready }

theorem eq_of_exec_of_fault (h : exec i s = .next t) (hi : i ≠ .reset) (hs : s.st = .fault) : t = s := by
  rw [exec_of_fault hi hs] at h
  cases h
  rfl

theorem endsAtomically_of_ready (h : exec i s = .next t) (hi : i ≠ .reset)
    (hready : s.st ≠ .fault → ∃ u, exec i s = .next u ∧ (Done u ∨ ∃ code, u = faulted code s)) :
    EndsAtomically Done s t := by
  by_cases hs : s.st = .fault
  · exact .inl (eq_of_exec_of_fault h hi hs)
  · obtain ⟨u, e, hu⟩ := hready hs
    rw [e] at h
    cases h
    exact .inr hu

/-- A field of fixed width: whole, short of it, or wider than any (rules R112 and R113). -/
theorem endsAtomically_of_width {n : BitVec 7}
    (whole : n.toNat ≤ 64 → s.pos.toNat + n.toNat ≤ sourceEnd s → ∃ u, exec i s = .next u ∧ FieldRead s u)
    (short : n.toNat ≤ 64 → sourceEnd s < s.pos.toNat + n.toNat → exec i s = .next (faulted 6 s))
    (wide : 64 < n.toNat → exec i s = .next (faulted 11 s)) :
    ∃ u, exec i s = .next u ∧ (FieldRead s u ∨ ∃ code, u = faulted code s) := by
  by_cases hn : 64 < n.toNat
  · exact ⟨_, wide hn, .inr ⟨11, rfl⟩⟩
  by_cases hp : sourceEnd s < s.pos.toNat + n.toNat
  · exact ⟨_, short (by omega) hp, .inr ⟨6, rfl⟩⟩
  · obtain ⟨u, e, hu⟩ := whole (by omega) (by omega)
    exact ⟨u, e, .inl hu⟩

theorem endsAtomically_rdu {n : BitVec 7} (h : exec (.rdu n) s = .next t) : EndsAtomically (FieldRead s) s t := by
  refine endsAtomically_of_ready h nofun fun hs => ?_
  obtain ⟨whole, short, wide⟩ := rduReadsOneWholeField n s hs
  refine endsAtomically_of_width (fun hn hp => ?_) short wide
  obtain ⟨v, -, -, e⟩ := whole hn hp
  exact ⟨_, e, _, _, rfl⟩

theorem endsAtomically_rds {n : BitVec 7} (h : exec (.rds n) s = .next t) : EndsAtomically (FieldRead s) s t := by
  refine endsAtomically_of_ready h nofun fun hs => ?_
  obtain ⟨whole, short, wide⟩ := rdsReadsOneWholeSignedField n s hs
  refine endsAtomically_of_width (fun hn hp => ?_) short wide
  obtain ⟨v, -, -, e⟩ := whole hn hp
  exact ⟨_, e, _, _, rfl⟩

theorem endsAtomically_rdunary {b : Bool} (h : exec (.rdunary b) s = .next t) :
    EndsAtomically (FieldRead s) s t := by
  refine endsAtomically_of_ready h nofun fun hs => ?_
  obtain ⟨found, missing⟩ := rdunaryCountsToTheTerminator b s hs
  by_cases hb : ∃ p, s.pos.toNat ≤ p ∧ p < sourceEnd s ∧ streamBit p s = b
  · obtain ⟨k, -, e⟩ := found hb
    exact ⟨_, e, .inl ⟨_, _, rfl⟩⟩
  · exact ⟨_, missing fun p h1 h2 h3 => hb ⟨p, h1, h2, h3⟩, .inr ⟨6, rfl⟩⟩

theorem endsAtomically_rdbytes {n : BitVec 5} (h : exec (.rdbytes n) s = .next t) :
    EndsAtomically (BytesRead s) s t := by
  refine endsAtomically_of_ready h nofun fun hs => ?_
  obtain ⟨whole, short, bad⟩ := rdbytesDeliversBytesOrNothing n s hs
  by_cases hn : 16 < n.toNat ∨ s.pos.toNat % 8 ≠ 0
  · exact ⟨_, bad hn, .inr ⟨11, rfl⟩⟩
  by_cases hp : sourceEnd s < s.pos.toNat + 8 * n.toNat
  · exact ⟨_, short (by omega) (by omega) hp, .inr ⟨6, rfl⟩⟩
  · obtain ⟨bits, u, -, -, e, -, hu⟩ := whole (by omega) (by omega) (by omega)
    exact ⟨u, e, .inl ⟨_, _, _, _, hu⟩⟩

theorem EndsAtomically.field_frame (h : EndsAtomically (FieldRead s) s t) : FieldFrame s t := by
  obtain rfl | ⟨bits, v, rfl⟩ | ⟨code, rfl⟩ := h <;> rfl

theorem EndsAtomically.bytes_frame (h : EndsAtomically (BytesRead s) s t) :
    t = { s with pos := t.pos, crc8 := t.crc8, crc16 := t.crc16, raw := t.raw, rawLen := t.rawLen, st := t.st,
                 errCause := t.errCause, errPos := t.errPos, errFrame := t.errFrame, freeIndex := t.freeIndex } := by
  obtain rfl | ⟨bits, raw, len, k, rfl⟩ | ⟨code, rfl⟩ := h <;> rfl

/-- What a command has not done when it faults (rule R112: "nothing consumed"). -/
theorem EndsAtomically.registers_of_fault (h : EndsAtomically Done s t) (hd : Done t → t.st = .ready)
    (ht : t.st = .fault) : t.pos = s.pos ∧ t.crc8 = s.crc8 ∧ t.crc16 = s.crc16 ∧ t.rv = s.rv ∧ t.raw = s.raw
      ∧ t.rawLen = s.rawLen := by
  obtain rfl | hdone | ⟨code, rfl⟩ := h
  · exact ⟨rfl, rfl, rfl, rfl, rfl, rfl⟩
  · rw [hd hdone] at ht
    cases ht
  · exact ⟨rfl, rfl, rfl, rfl, rfl, rfl⟩

theorem FieldRead.st (h : FieldRead s t) : t.st = .ready := by
  obtain ⟨_, _, rfl⟩ := h
  rfl

theorem BytesRead.st (h : BytesRead s t) : t.st = .ready := by
  obtain ⟨_, _, _, _, rfl⟩ := h
  rfl

/-! ## VARINT, ALIGN and CRCRST -/

theorem exists_of_exceptStream (h : exceptStream u = exceptStream s) :
    ∃ p c d, u = { s with pos := p, crc8 := c, crc16 := d } := ⟨_, _, _, eq_of_exceptStream h⟩

theorem exec_varint_frame (h : exec .varint s = .next t) : FieldFrame s t := by
  by_cases hs : s.st = .fault
  · obtain rfl := eq_of_exec_of_fault h nofun hs
    rfl
  have hdoes := does_readVarint (fun _ => True) s
  change execVarint s = _ at h
  rw [execVarint, primitiveCommand_of_ready hs] at h
  cases hr : readVarint s with
  | ok v u =>
    rw [hr] at h hdoes
    obtain ⟨-, hkept⟩ := hdoes
    obtain ⟨p, c, d, rfl⟩ := exists_of_exceptStream hkept
    cases h
    rfl
  | raised cause u =>
    rw [hr] at h hdoes
    obtain ⟨-, -, hkept⟩ := hdoes
    obtain ⟨p, c, d, rfl⟩ := exists_of_exceptStream hkept
    cases h
    rfl
  | stopped e => rw [hr] at h; cases h

theorem exceptStream_consumeBits (n : Nat) (s : State) : exceptStream (consumeBits n s) = exceptStream s := by
  induction n generalizing s with
  | zero => rfl
  | succ n ih => exact ih (consumeBit s)

/-- The frame of ALIGN in every state, so also where the cursor is beyond the source, of which O15 says nothing. -/
theorem exec_align_frame (h : exec .align s = .next t) : StreamFrame s t := by
  by_cases hs : s.st = .fault
  · obtain rfl := eq_of_exec_of_fault h nofun hs
    rfl
  rw [exec_align hs, alignToByte] at h
  split at h
  · cases h
  · obtain ⟨p, c, d, e⟩ := exists_of_exceptStream (exceptStream_consumeBits (paddingBits s) s)
    rw [e] at h
    cases h
    rfl

theorem exec_crcrst_frame {m : BitVec 2} (h : exec (.crcrst m) s = .next t) : StreamFrame s t := by
  by_cases hs : s.st = .fault
  · obtain rfl := eq_of_exec_of_fault h nofun hs
    rfl
  · rw [crcrstClearsTheMaskedChecksums m s hs] at h
    cases h
    rfl

/-- Settles O46, command by command. -/
theorem readerCommandsFrame : Obligations.ReaderCommandsFrame := by
  intro i s t h
  refine ⟨?_, ?_, ?_, ?_⟩
  · rintro (⟨n, rfl | rfl⟩ | ⟨b, rfl⟩ | rfl)
    · exact (endsAtomically_rdu h).field_frame
    · exact (endsAtomically_rds h).field_frame
    · exact (endsAtomically_rdunary h).field_frame
    · exact exec_varint_frame h
  · rintro (rfl | ⟨m, rfl⟩)
    · exact exec_align_frame h
    · exact exec_crcrst_frame h
  · rintro ⟨n, rfl⟩
    exact (endsAtomically_rdbytes h).bytes_frame
  · rintro (⟨n, rfl | rfl⟩ | ⟨n, rfl⟩ | ⟨b, rfl⟩)
    · exact (endsAtomically_rdu h).registers_of_fault FieldRead.st
    · exact (endsAtomically_rds h).registers_of_fault FieldRead.st
    · exact (endsAtomically_rdbytes h).registers_of_fault BytesRead.st
    · exact (endsAtomically_rdunary h).registers_of_fault FieldRead.st

end Sys2Proof.Machine
end

section
/-! PROOFS. The statements of `41_frame_header.md`, part 1: VARINT, what it reads and where it stops (O18, O19).

What `readVarint` does on each form of number is said in Laws/Number.lean and Laws/Fields.lean; here it is carried to
the command. -/

namespace Sys2Proof.Machine

variable {s t : State} {n v j : Nat}

theorem exec_varint (hs : s.st ≠ .fault) :
    exec .varint s = finish ((readVarint s).bind fun v t => endReady { t with rv := BitVec.ofNat 64 v }) := by
  show execVarint s = _
  rw [execVarint, primitiveCommand_of_ready hs]

theorem exec_varint_of_raised {c : Cause} (hs : s.st ≠ .fault) (h : readVarint s = .raised c t) :
    exec .varint s = .next (faulted c.code t) := by
  rw [exec_varint hs, h]
  rfl

/-- Settles O18: the canonical number is read whole, and `RV` written after it. -/
theorem varintReadsCanonicalNumbers : Obligations.VarintReadsCanonicalNumbers := by
  intro v s hs hv hh
  rw [exec_varint hs, readVarint_of_vint hv hh]
  rfl

/-- A source that ends before byte number `j` of a number: the bytes before it are consumed (rule R133). -/
theorem readVarint_of_short (hn : n ≤ 6) (hj : j ≤ n) (hh : Holds ((numberBits n v).take (8 * j)) s)
    (hend : sourceEnd s < s.pos.toNat + 8 * j + 8) :
    readVarint s = .raised .unexpectedEnd (advance ((numberBits n v).take (8 * j)) s) := by
  have hlen := length_numberBits hn v
  have hbyte : (numberFields n v)[j]? = some { bits := ((numberBits n v).drop (8 * j)).take 8 } := by
    simp [numberFields, Nat.lt_succ_of_le hj]
  have hplain := runFields_plain (fun f hf => numberFields_plain n v f (List.mem_of_mem_take (i := j) hf)) s
  rw [fieldBits_numberFields (by omega)] at hplain
  rw [← hplain]
  refine cutBy_number hn j _ hbyte ?_ ?_
  · rwa [fieldBits_numberFields (by omega)]
  · rw [hplain, lacking_fixed, sourceEnd_advance, hh.pos_advance, List.length_take, List.length_take, List.length_drop,
      hlen]
    omega

/-- Settles O19: the three malformed forms are those of `MalformedNumber`; the fourth clause is `readVarint_of_short`. -/
theorem varintStopsAtTheOffendingByte : Obligations.VarintStopsAtTheOffendingByte := by
  intro s hs
  have malformed {bits : List Bool} (hm : MalformedNumber bits) (hh : Holds bits s) :
      exec .varint s = .next (faulted 3 (advance bits s)) :=
    exec_varint_of_raised hs (readVarint_of_malformed hm hh)
  refine ⟨fun b hb => ?noLead, fun n v hn hv => ?overlong, fun n v j c hn h1 hj hc hb => ?badByte,
    fun n v j hn hj hh hend => ?short⟩
  case noLead => exact malformed (.inl ⟨b, hb, rfl⟩)
  case overlong => exact malformed (.inr (.inl ⟨n, v, hn, hv, rfl⟩))
  case badByte => exact malformed (.inr (.inr ⟨n, v, j, c, hn, h1, hj, hc, hb, rfl⟩))
  case short => exact exec_varint_of_raised hs (readVarint_of_short hn hj hh hend)

end Sys2Proof.Machine
end

section
/-! PROOFS. The statements of `41_frame_header.md`, part 2: the header in FRAMEHDR and in FRAME (O20, O21, O22).

Both commands run `decodeFrameHeader` and differ only in what comes after it, so what stops a header is said once, for
any continuation (`exec_of_header`, `exec_of_begun_header`). -/

namespace Sys2Proof.Machine

variable {i : Instr} {s t : State}

/-! ## The header in the two commands -/

theorem Res.bind_pure {α : Type} (r : Res α) : r.bind .ok = r := by cases r <;> rfl

/-- FRAMEHDR and FRAME decode a header first; what follows it keeps DONE (rules R134, R195 and R201). -/
theorem exec_of_header (hi : i = .framehdr ∨ i = .frame) (hs : s.st ≠ .fault) :
    ∃ rest : BlockState → State → Res BlockState, (∀ t, rest .done t = .ok .done t)
      ∧ exec i s = finish (atFrameLevel ((decodeFrameHeader s).bind rest)) := by
  rcases hi with rfl | rfl
  · refine ⟨.ok, fun _ => rfl, ?_⟩
    rw [Res.bind_pure]
    exact frameCommand_of_ready hs
  · have hframe : exec .frame s = finish (atFrameLevel (decodeFrame s)) := frameCommand_of_ready hs
    refine ⟨_, ?_, hframe⟩
    exact fun _ => rfl

/-! ### The tests before the first header bit, in their order (rule R135) -/

theorem decodeFrameHeader_of_unaligned (ha : s.pos.toNat % 8 ≠ 0) :
    decodeFrameHeader s = .raised .badCommand s := by
  rw [decodeFrameHeader, if_pos (by simpa [byteAligned] using ha)]

theorem decodeFrameHeader_of_undescribed (ha : s.pos.toNat % 8 = 0) (hv : s.siValid = false) :
    decodeFrameHeader s = .raised .missingStreamInfo s := by
  rw [decodeFrameHeader, if_neg (by simp [byteAligned, ha]), if_pos (by simp [hv])]

theorem decodeFrameHeader_of_exhausted (ha : s.pos.toNat % 8 = 0) (hv : s.siValid = true)
    (hp : s.pos.toNat = sourceEnd s) : decodeFrameHeader s = .ok .done (clearFrameFlags s) := by
  rw [decodeFrameHeader, if_neg (by simp [byteAligned, ha]), if_neg (by simp [hv]), if_pos hp]

theorem decodeFrameHeader_of_begun (ha : s.pos.toNat % 8 = 0) (hv : s.siValid = true)
    (hp : s.pos.toNat ≠ sourceEnd s) :
    decodeFrameHeader s = (readHeader (clearFrameFlags s)).bind fun _ t => endReady t := by
  rw [decodeFrameHeader, if_neg (by simp [byteAligned, ha]), if_neg (by simp [hv]), if_neg hp]

/-- Settles O20: an equation of `decodeFrameHeader` for each test, carried to both commands. -/
theorem headerPreconditions : Obligations.HeaderPreconditions := by
  intro i s hi hs
  obtain ⟨rest, hdone, e⟩ := exec_of_header hi hs
  rw [e]
  refine ⟨fun ha => ?unaligned, fun ha hv => ?undescribed, fun ha hv hp => ?exhausted⟩
  case unaligned =>
    rw [decodeFrameHeader_of_unaligned ha]
    rfl
  case undescribed =>
    rw [decodeFrameHeader_of_undescribed ha hv]
    rfl
  case exhausted =>
    rw [decodeFrameHeader_of_exhausted ha hv hp, Res.bind_ok, hdone]
    rfl

/-! ### Past the tests -/

/-- A header that has begun, in either command. -/
theorem exec_of_begun_header (hi : i = .framehdr ∨ i = .frame) (hs : s.st ≠ .fault) (ha : s.pos.toNat % 8 = 0)
    (hv : s.siValid = true) (hp : s.pos.toNat ≠ sourceEnd s) :
    ∃ rest, exec i s = finish (atFrameLevel ((readHeader (clearFrameFlags s)).bind rest)) := by
  obtain ⟨rest, -, e⟩ := exec_of_header hi hs
  rw [decodeFrameHeader_of_begun ha hv hp, Res.bind_assoc] at e
  exact ⟨_, e⟩

/-- Where the source holds bits, it does not end at the cursor. -/
theorem Holds.pos_ne_sourceEnd {bits : List Bool} (h : Holds bits s) (hb : 0 < bits.length) :
    s.pos.toNat ≠ sourceEnd s := by
  have := h.1
  omega

/-! ## Whole headers -/

/-- The checksum byte of a header against the accumulator, as words (rule R143). -/
theorem checkHeaderChecksum_toNat (expect c : BitVec 8) (s : State) :
    checkHeaderChecksum expect c.toNat s =
      if c = expect then .ok () s
      else if s.strict then .raised .checksumMismatch s
      else .ok () { s with hcrcBad := true } := by
  simp only [checkHeaderChecksum, BitVec.toNat_inj]

theorem holds_clearFrameFlags {bits : List Bool} : Holds bits (clearFrameFlags s) ↔ Holds bits s :=
  holds_congr rfl rfl rfl bits

@[simp] theorem length_headerWordBits (h : HeaderFields) : (headerWordBits h).length = 32 := by
  simp [headerWordBits]

/-- Settles O21: `readHeader_of_holds`, with the checksum byte right or let pass. -/
theorem framehdrDecodesEveryLegalHeader : Obligations.FramehdrDecodesEveryLegalHeader := by
  intro h c s hs ha hv hl hh hc
  show execFramehdr s = _
  rw [execFramehdr, frameCommand_of_ready hs,
    decodeFrameHeader_of_begun ha hv (hh.pos_ne_sourceEnd (by simp)),
    readHeader_of_holds hl (holds_clearFrameFlags.2 hh), checkHeaderChecksum_toNat]
  generalize headerBits h ++ uBits 8 c.toNat = bits
  by_cases hright : c = (headerBits h).foldl crc8Step 0
  · rw [if_pos hright, decide_eq_false (not_not_intro hright)]
    rfl
  · have hlenient : s.strict = false := hc.resolve_left hright
    rw [if_neg hright, decide_eq_true hright, advance_strict, zeroChecksums_strict, clearFrameFlags_strict, hlenient]
    rfl

/-! ## What stops a header -/

/-- The sync pattern is tested first (rule R137). -/
theorem headerDefect_of_noSync {w : Nat} (hw : w < 2 ^ 32) (h : w / 2 ^ 18 ≠ Config.syncCode) :
    headerDefect w = some .syncLost := by
  have hfield : bitField w 31 18 = w / 2 ^ 18 := by simp only [bitField]; omega
  rw [headerDefect, hfield, if_pos h]

/-- After the sync pattern every reserved code has the same cause (rule R137). -/
theorem headerDefect_of_reserved {w : Nat} (hw : w < 2 ^ 32) (hsync : w / 2 ^ 18 = Config.syncCode)
    (h : w / 2 ^ 17 % 2 = 1 ∨ w / 2 ^ 12 % 16 = 0 ∨ w / 2 ^ 8 % 16 = 15 ∨ 11 ≤ w / 2 ^ 4 % 16
      ∨ w / 2 % 8 = 3 ∨ w / 2 % 8 = 7 ∨ w % 2 = 1) : headerDefect w = some .reservedCodeUsed := by
  have hfield : bitField w 31 18 = w / 2 ^ 18 := by simp only [bitField]; omega
  rw [headerDefect, hfield, if_neg (not_not_intro hsync)]
  iterate 6 refine ite_eq_left_iff.2 fun _ => ?_
  simp only [bitField] at *
  omega

section Begun

variable (hi : i = .framehdr ∨ i = .frame) (hs : s.st ≠ .fault) (ha : s.pos.toNat % 8 = 0) (hv : s.siValid = true)
include hi hs ha hv

/-- What the header raises, the command takes as a part of a frame (rule R214). -/
theorem exec_of_header_raised {c : Cause} (hp : s.pos.toNat ≠ sourceEnd s)
    (hr : readHeader (clearFrameFlags s) = .raised c t) : exec i s = .next (faulted c.atFrameLevel.code t) := by
  obtain ⟨rest, e⟩ := exec_of_begun_header hi hs ha hv hp
  rw [e, hr]
  rfl

/-- A source that ends inside the fields of the header stops the command there. -/
theorem endsInside_of_header {fs : List Field} {z : State} (hp : s.pos.toNat ≠ sourceEnd s)
    (hcut : CutBy fs z (readHeader (clearFrameFlags s))) : EndsInside fs z (exec i s) := by
  obtain ⟨rest, e⟩ := exec_of_begun_header hi hs ha hv hp
  rw [e]
  exact endsInside_of_cutBy hcut rest

end Begun

/-- The checksum byte of a whole header, wrong under the strict policy (rule R143). -/
theorem readHeader_of_wrongChecksum {h : HeaderFields} {c : BitVec 8} (hl : h.legal)
    (hh : Holds (headerBits h ++ uBits 8 c.toNat) s) (hc : c ≠ (headerBits h).foldl crc8Step 0)
    (hstrict : s.strict = true) :
    readHeader s = .raised .checksumMismatch (advance (headerBits h ++ uBits 8 c.toNat) (zeroChecksums s)) := by
  rw [readHeader_of_holds hl hh, checkHeaderChecksum_toNat, if_neg hc,
    advance_strict, zeroChecksums_strict, if_pos hstrict]
  rfl

/-- A malformed number after the header word (rules R133 and R138). -/
theorem readHeader_of_malformed {h : HeaderFields} {bits : List Bool} (hl : h.legal) (hm : MalformedNumber bits)
    (hh : Holds (headerWordBits h ++ bits) s) :
    readHeader s = .raised .malformedVarint (advance (headerWordBits h ++ bits) (zeroChecksums s)) := by
  have hzero : Holds (headerWordBits h ++ bits) (zeroChecksums s) := (holds_congr (s := s) rfl rfl rfl _).2 hh
  rw [readHeader_of_word hl hh.left, readVarint_of_malformed hm hzero.right, ← advance_append]
  rfl

/-- Settles O22: every clause is a law of `readHeader`, which both commands run. -/
theorem headerFaults : Obligations.HeaderFaults := by
  rintro i s _ hi hs ha hv rfl
  have begun {bits : List Bool} (hh : Holds bits s) (hb : 0 < bits.length) {c : Cause} {t : State}
      (hr : readHeader (clearFrameFlags s) = .raised c t) : exec i s = .next (faulted c.atFrameLevel.code t) :=
    exec_of_header_raised hi hs ha hv (hh.pos_ne_sourceEnd hb) hr
  refine ⟨fun hp hend => ?wordCut, fun w hw hh hsync => ?noSync, fun w hw hh hsync hres => ?reserved,
    fun h c hl hh hc hstrict => ?checksum, fun h bits hl hm hh => ?malformed,
    fun h n v hl hn hh => ?numberCut, fun h c hl hh => ?tailCut⟩
  case wordCut =>
    exact exec_of_header_raised hi hs ha hv hp.ne (readHeader_of_short (s := clearFrameFlags s) hend)
  case noSync =>
    exact begun hh (by simp) (readHeader_of_defect hw (headerDefect_of_noSync hw hsync) (holds_clearFrameFlags.2 hh))
  case reserved =>
    exact begun hh (by simp)
      (readHeader_of_defect hw (headerDefect_of_reserved hw hsync hres) (holds_clearFrameFlags.2 hh))
  case checksum =>
    exact begun hh (by simp) (readHeader_of_wrongChecksum hl (holds_clearFrameFlags.2 hh) hc hstrict)
  case malformed =>
    exact begun hh.left (by simp) (readHeader_of_malformed hl hm (holds_clearFrameFlags.2 hh))
  case numberCut =>
    exact endsInside_of_header hi hs ha hv (hh.pos_ne_sourceEnd (by simp))
      (cutBy_headerNumber hl hn (holds_clearFrameFlags.2 hh))
  case tailCut =>
    exact endsInside_of_header hi hs ha hv (hh.pos_ne_sourceEnd (by simp))
      (cutBy_headerTail hl (holds_clearFrameFlags.2 hh))

end Sys2Proof.Machine
end

section
/-! PROOFS. The statements of `41_frame_header.md`, part 3: what FRAMEHDR leaves unchanged (O47).

How its body ends is `all_decodeFrameHeader`; here it is carried to the command, with what may change erased. -/

namespace Sys2Proof.Machine

variable {s t : State}

/-- Everything FRAMEHDR does not write where no header is accepted. -/
def exceptFlags (s : State) : State :=
  { exceptStream s with
    hcrcBad := false, fcrcBad := false, blkv := false, st := .ready, errCause := 0, errPos := 0, errFrame := 0 }

/-- Everything FRAMEHDR does not write. -/
def exceptFramehdr (s : State) : State := exceptFlags (exceptHeader s)

theorem eq_of_exceptFlags (h : exceptFlags t = exceptFlags s) :
    t = { s with pos := t.pos, crc8 := t.crc8, crc16 := t.crc16, hcrcBad := t.hcrcBad, fcrcBad := t.fcrcBad,
                 blkv := t.blkv, st := t.st, errCause := t.errCause, errPos := t.errPos, errFrame := t.errFrame } := by
  cases s; cases t; simp only [exceptFlags, exceptStream, State.mk.injEq] at h ⊢; tauto

theorem eq_of_exceptFramehdr (h : exceptFramehdr t = exceptFramehdr s) :
    t = { s with pos := t.pos, crc8 := t.crc8, crc16 := t.crc16, hcrcBad := t.hcrcBad, fcrcBad := t.fcrcBad,
                 blkv := t.blkv, st := t.st, errCause := t.errCause, errPos := t.errPos, errFrame := t.errFrame,
                 fhStrategy := t.fhStrategy, fhBlocksize := t.fhBlocksize, fhRate := t.fhRate,
                 fhChassign := t.fhChassign, fhNch := t.fhNch, fhBps := t.fhBps, fhNumber := t.fhNumber,
                 fhCrc := t.fhCrc } := by
  cases s; cases t; simp only [exceptFramehdr, exceptFlags, exceptHeader, exceptStream, State.mk.injEq] at h ⊢; tauto

theorem exceptFramehdr_of_exceptFlags (h : exceptFlags t = exceptFlags s) : exceptFramehdr t = exceptFramehdr s := by
  have := congrArg exceptFramehdr h; exact this

/-- FRAMEHDR ends READY after an accepted header, and otherwise has written no `FH_*` register (rule R142). -/
theorem exec_framehdr_kept (h : exec .framehdr s = .next t) :
    (t.st = .ready ∧ exceptFramehdr t = exceptFramehdr s) ∨ exceptFlags t = exceptFlags s := by
  by_cases hs : s.st = .fault
  · obtain rfl := eq_of_exec_of_fault h nofun hs
    exact .inr rfl
  have hbody := all_decodeFrameHeader s
  rw [show exec .framehdr s = finish (atFrameLevel (decodeFrameHeader s)) from frameCommand_of_ready hs] at h
  cases hr : decodeFrameHeader s with
  | ok st u =>
    rw [hr] at h hbody
    cases h
    rcases hbody with ⟨rfl, -, rfl⟩ | ⟨rfl, -, hkept, -⟩
    · exact .inr rfl
    · have := congrArg exceptFramehdr hkept
      exact .inl ⟨rfl, this⟩
  | raised c u =>
    rw [hr] at h hbody
    cases h
    rcases hbody with ⟨-, rfl⟩ | ⟨-, rfl⟩ | ⟨-, -, hkept⟩
    · exact .inr rfl
    · exact .inr rfl
    · have := congrArg exceptFlags hkept
      exact .inr this
  | stopped e => rw [hr] at h; cases h

/-- Settles O47: `exec_framehdr_kept`, register by register. -/
theorem framehdrFrame : Obligations.FramehdrFrame := by
  intro s t h
  rcases exec_framehdr_kept h with ⟨hready, hkept⟩ | hkept
  · exact ⟨eq_of_exceptFramehdr hkept, fun hn => absurd hready hn⟩
  · exact ⟨eq_of_exceptFramehdr (exceptFramehdr_of_exceptFlags hkept), fun _ => eq_of_exceptFlags hkept⟩

end Sys2Proof.Machine
end

section
/-! PROOFS. The statements of `42_subframe.md`, part 1: SUBFRAME's header, the kind it runs (O8) and what stops it
(O30). -/

namespace Sys2Proof.Machine

variable {s t : State} {ch : BitVec 3} {k : SubKind} {w : Nat}

/-! ## SUBFRAME over its parts -/

/-- SUBFRAME with legal registers (rule R150). -/
theorem exec_subframe (hs : s.st ≠ .fault) (hr : SubframeRegisters s) :
    exec (.subframe ch) s
      = finish (atFrameLevel ((decodeSubframe ch { s with blkv := false }).bind fun _ t => endReady t)) := by
  show execSubframe ch s = _
  rw [execSubframe, frameCommand_of_ready hs, if_pos (subframeLegal_iff.2 hr)]
  rfl

theorem exec_subframe_of_illegal (hs : s.st ≠ .fault) (hr : ¬SubframeRegisters s) :
    exec (.subframe ch) s = .next (faulted 11 s) := by
  show execSubframe ch s = _
  rw [execSubframe, frameCommand_of_ready hs, if_neg (mt subframeLegal_iff.1 hr)]
  rfl

/-- A kind run alone with legal registers (rule R150). -/
theorem exec_kind {f : Bool} (hs : s.st ≠ .fault) (hr : SubframeRegisters s) :
    exec (k.instr ch f) s = finish (atFrameLevel ((decodeKind ch k f s).bind fun _ t => .ok s.st t)) := by
  rw [exec_subframeKind, subframeKind_of_ready hs hr]

theorem exec_kind_of_illegal {f : Bool} (hs : s.st ≠ .fault) (hr : ¬SubframeRegisters s) :
    exec (k.instr ch f) s = .next (faulted 11 s) := by
  rw [exec_subframeKind, subframeKind, streamKind_of_ready hs, if_neg (mt subframeLegal_iff.1 hr)]
  rfl

/-- What SUBFRAME's header raises, SUBFRAME takes as a part of a frame (rule R214). -/
theorem exec_subframe_of_raised {c : Cause} (hs : s.st ≠ .fault) (hr : SubframeRegisters s)
    (h : decodeSubframe ch { s with blkv := false } = .raised c t) :
    exec (.subframe ch) s = .next (faulted c.atFrameLevel.code t) := by
  rw [exec_subframe hs hr, h]
  rfl

/-- The kind keeps `STATE` and the command around it sets READY; a fault is taken alike (rules R30 and R215). -/
theorem readyUnlessFault_finish {st : BlockState} (hst : st ≠ .fault) (r : Res Unit) :
    readyUnlessFault (finish (atFrameLevel (r.bind fun _ t => .ok st t)))
      = finish (atFrameLevel (r.bind fun _ t => endReady t)) := by
  cases r with
  | ok _ u => exact congrArg Host.Outcome.next (if_neg hst)
  | raised c u => exact congrArg Host.Outcome.next (if_pos rfl)
  | stopped e => rfl

/-! ## The header bits (rules R92 and R94) -/

/-- The header byte of a kind is its three fields side by side. -/
theorem uBits_headerByte (k : SubKind) (f : Bool) :
    uBits 8 (headerByte k f) = uBits 1 0 ++ uBits 6 k.selector ++ uBits 1 f.toNat := by
  rw [uBits_append, uBits_append, headerByte]
  have := SubKind.selector_lt (k := k)
  have := f.toNat_le
  congr 1
  omega

theorem subframeHeaderBits_eq (k : SubKind) (w : Nat) :
    subframeHeaderBits k w = uBits 8 (headerByte k (decide (0 < w))) ++ wastedBits w := by
  have hflag : (if w = 0 then 0 else 1) = (decide (0 < w)).toNat := by
    obtain rfl | hw := Nat.eq_zero_or_pos w
    · rfl
    · rw [if_neg hw.ne', decide_eq_true hw]; rfl
  rw [uBits_headerByte, subframeHeaderBits, hflag]

theorem decodeSubframe_of_headerByte {f : Bool} (h : Holds (uBits 8 (headerByte k f)) s) :
    decodeSubframe ch s = decodeKind ch k f (advance (uBits 8 (headerByte k f)) s) := by
  rw [uBits_headerByte] at h ⊢
  exact decodeSubframe_of_header h

/-- Settles O8: the byte that decodes to a kind is that kind's header, and command and kind run the same part after
it. -/
theorem subframeRunsTheDecodedKind : Obligations.SubframeRunsTheDecodedKind := by
  intro ch b i s hs hr hd hh
  obtain ⟨⟨-, hb⟩, hd⟩ := guard_ok hd
  obtain ⟨k, f, rfl, rfl⟩ := decodeHeader_ok hb hd
  have hh : Holds (uBits 8 (headerByte k f)) { s with blkv := false } := (holds_congr (s := s) rfl rfl rfl _).2 hh
  rw [exec_subframe hs hr, decodeSubframe_of_headerByte hh,
    exec_kind (s := advance (uBits 8 (headerByte k f)) { s with blkv := false }) hs hr]
  exact (readyUnlessFault_finish hs _).symm

/-! ## What stops SUBFRAME before a body -/

theorem decodeSubframe_of_reservedBit (h : Holds [true] s) :
    decodeSubframe ch s = .raised .reservedCodeUsed (advance [true] s) := by
  have hbit : readUnsigned 1 s = .ok 1 (advance [true] s) := readUnsigned_of_holds (n := 1) (v := 1) (by decide) h
  rw [decodeSubframe, hbit]
  rfl

theorem decodeSubframe_of_reservedType {c : Nat} (hc : 2 ≤ c ∧ c ≤ 7 ∨ 13 ≤ c ∧ c ≤ 31)
    (h : Holds (uBits 1 0 ++ uBits 6 c) s) :
    decodeSubframe ch s = .raised .reservedCodeUsed (advance (uBits 1 0 ++ uBits 6 c) s) := by
  rw [decodeSubframe, readUnsigned_of_holds (n := 1) (by decide) h.left, Res.bind_ok, if_neg Nat.zero_ne_one,
    readUnsigned_of_holds (n := 6) (by omega) h.right, Res.bind_ok, SubKind.ofSelector_reserved hc, advance_append]

/-- A wasted-bits count that leaves no width (rule R152). -/
theorem decodeSubframe_of_narrow (hw : codedWidth ch.toNat s ≤ w) (h : Holds (subframeHeaderBits k w) s) :
    decodeSubframe ch s = .raised .reservedCodeUsed (advance (subframeHeaderBits k w) s) := by
  rw [subframeHeaderBits_eq] at h ⊢
  rw [decodeSubframe_of_headerByte h.left, decodeKind_of_narrow (s := advance _ s) hw h.right, advance_append]

/-- Settles O30: every clause is a law of `decodeSubframe`. -/
theorem subframeHeaderFaults : Obligations.SubframeHeaderFaults := by
  intro ch s hs
  have start {bits : List Bool} (hh : Holds bits s) : Holds bits { s with blkv := false } :=
    (holds_congr (s := s) rfl rfl rfl _).2 hh
  refine ⟨exec_subframe_of_illegal hs, fun hr hh => ?reservedBit, fun c hr hc hh => ?reservedType,
    fun k w hr hw hh => ?narrow, fun k w hr => ?cut⟩
  case reservedBit => exact exec_subframe_of_raised hs hr (decodeSubframe_of_reservedBit (start hh))
  case reservedType => exact exec_subframe_of_raised hs hr (decodeSubframe_of_reservedType hc (start hh))
  case narrow => exact exec_subframe_of_raised hs hr (decodeSubframe_of_narrow hw (start hh))
  case cut =>
    rw [exec_subframe hs hr]
    exact endsInside_of_cutBy cutBy_subframeHeader _

end Sys2Proof.Machine
end

section
/-! PROOFS. The statements of `42_subframe.md`, part 2: a kind whose body stores a plane, and the kinds of plain samples
(O23, O24, O29).

A body that ends well leaves a run of stores (`Collects`) and the plane filled (`Stored`); `exec_kind_of_stored` adds to
it the wasted-bits shift and the end of the kind, once for all eight kinds. -/

namespace Sys2Proof.Machine

variable {s t u z : State} {ch : BitVec 3} {k : SubKind} {w : Nat} {vs ws xs : List Int}

/-! ## Runs of stores -/

/-- From `s` to `t` sample memory has changed, `OVF` has collected these values, and nothing else has changed (rule
R33). -/
def Collects (vs : List Int) (s t : State) : Prop := t = { s with smp := t.smp, ovf := s.ovf || vs.any narrowLoses }

theorem collects_storeAll (c i : Nat) (vs : List Int) (s : State) : Collects vs s (storeAll c i vs s) :=
  storeAll_eq c i vs s

theorem Collects.eq (h : Collects vs s t) : t = { s with smp := t.smp, ovf := s.ovf || vs.any narrowLoses } := h

theorem Collects.fhBlocksize (h : Collects vs s t) : t.fhBlocksize = s.fhBlocksize := by rw [h.eq]
theorem Collects.st (h : Collects vs s t) : t.st = s.st := by rw [h.eq]

theorem Collects.trans (h : Collects vs s t) (h' : Collects ws t u) : Collects (vs ++ ws) s u := by
  rw [Collects, List.any_append, ← Bool.or_assoc, h'.eq, h.eq]

/-! ## The end of a kind -/

/-- The state in which the body of a kind begins: the wasted-bits run read, the `SF_*` registers written (rules R151 and
R152). -/
def bodyStart (ch : BitVec 3) (k : SubKind) (w : Nat) (s : State) : State :=
  advance (wastedBits w) (writeSubframe k w (codedWidth ch.toNat s - w) s)

theorem bodyStart_eq {type : BitVec 2} {order : Nat} (ht : typeCode k = type) (ho : predictorOrder k = order) :
    bodyStart ch k w s = advance (wastedBits w) { s with
      sfType := type
      sfOrder := BitVec.ofNat 6 order
      sfWasted := BitVec.ofNat 6 w
      sfWidth := BitVec.ofNat 6 (codedWidth ch.toNat s - w) } := by
  rw [bodyStart, writeSubframe, ht, ho]

theorem holds_bodyStart {bits : List Bool} (h : Holds (wastedBits w ++ bits) s) : Holds bits (bodyStart ch k w s) :=
  (holds_congr (s := advance (wastedBits w) s) rfl rfl rfl _).2 h.right

theorem pos_bodyStart (h : Holds (wastedBits w) s) :
    (bodyStart ch k w s).pos.toNat = s.pos.toNat + (wastedBits w).length := h.pos_advance

/-- A kind after its wasted-bits run: the body, then the shift (rules R150 and R157). -/
theorem exec_kind_of_wastedBits (hs : s.st ≠ .fault) (hr : SubframeRegisters s) (hw : w < codedWidth ch.toNat s)
    (hh : Holds (wastedBits w) s) :
    exec (k.instr ch (decide (0 < w))) s = finish (atFrameLevel
      ((kindBody k ch (codedWidth ch.toNat s - w) s.fhBlocksize.toNat (bodyStart ch k w s)).bind fun _ t =>
        (Res.ok () (restoreWasted ch.toNat w t.fhBlocksize.toNat t)).bind fun _ t => .ok s.st t)) := by
  rw [exec_kind hs hr, decodeKind_of_holds hw hh, Res.bind_assoc]
  rfl

/-- A kind whose body raised (rules R214 and R215). -/
theorem exec_kind_of_raised {c : Cause} (hs : s.st ≠ .fault) (hr : SubframeRegisters s)
    (hw : w < codedWidth ch.toNat s) (hh : Holds (wastedBits w) s)
    (hb : kindBody k ch (codedWidth ch.toNat s - w) s.fhBlocksize.toNat (bodyStart ch k w s) = .raised c u) :
    exec (k.instr ch (decide (0 < w))) s = .next (faulted c.atFrameLevel.code u) := by
  rw [exec_kind_of_wastedBits hs hr hw hh, hb]
  rfl

/-- A kind whose body stored the block `xs`, having narrowed the values `vs`: the shift over the block follows. -/
theorem exec_kind_of_stored (hs : s.st ≠ .fault) (hr : SubframeRegisters s) (hw : w < codedWidth ch.toNat s)
    (hh : Holds (wastedBits w) s)
    (hb : kindBody k ch (codedWidth ch.toNat s - w) s.fhBlocksize.toNat (bodyStart ch k w s) = .ok () u)
    (hn : xs.length = s.fhBlocksize.toNat) (hx : Stored ch.toNat 0 xs s u) (hu : Collects vs z u) (hst : z.st = s.st)
    (hblock : z.fhBlocksize = s.fhBlocksize) :
    ∃ t, exec (k.instr ch (decide (0 < w))) s = .next t ∧ Stored ch.toNat 0 (scaled w xs) s t
      ∧ Collects (vs ++ scaled w xs) z t := by
  obtain ⟨hplane, hrest⟩ := hx
  obtain ⟨t, he, ht, hc⟩ := finishKind (w := w) (st := s.st) (by rw [hu.fhBlocksize, hblock, hn])
    (fun j hj => by rw [← hplane j hj, Nat.zero_add]) hrest
  refine ⟨t, ?_, ht, hu.trans ?_⟩
  · rw [exec_kind_of_wastedBits hs hr hw hh, hb]
    exact he
  · rw [← hst, ← hu.st] at hc
    exact hc

/-- Where the source ends inside a kind whose body reads these fields (rules R214 to R216). -/
theorem endsInside_kind {type order width : Nat} {body : List Field} (hs : s.st ≠ .fault) (hr : SubframeRegisters s)
    (hw : w < codedWidth ch.toNat s) (hwidth : width = codedWidth ch.toNat s - w)
    (ht : typeCode k = BitVec.ofNat 2 type) (ho : predictorOrder k = order)
    (hb : ∀ t : State, t.fhBlocksize = s.fhBlocksize → CutBy body t (kindBody k ch width s.fhBlocksize.toNat t)) :
    EndsInside (wastedFields type order w width ++ body) s (exec (k.instr ch (decide (0 < w))) s) := by
  rw [exec_kind hs hr]
  exact endsInside_of_cutBy (cutBy_decodeKind hw hwidth ht ho hb) _

/-! ## CONSTANT (rule R153) -/

theorem scaled_replicate (w n : Nat) (v : Int) :
    scaled w (List.replicate n v) = List.replicate n (held v * ((2 ^ w : Nat) : Int)) := List.map_replicate

/-- Every value of a constant block narrows alike. -/
theorem any_narrowLoses_constant {n : Nat} (hn : 1 ≤ n) (w : Nat) (v : Int) :
    (List.replicate n v ++ scaled w (List.replicate n v)).any narrowLoses
      = (narrowLoses v || narrowLoses (held v * ((2 ^ w : Nat) : Int))) := by
  rw [List.any_append, scaled_replicate, List.any_replicate, List.any_replicate, if_neg (by omega), if_neg (by omega)]

/-- Settles O23: the body is one run of equal stores; the fields it reads are the count and the sample. -/
theorem constantFillsTheBlock : Obligations.ConstantFillsTheBlock := by
  intro ch w v s hs hr hw hv
  have hpos : 1 ≤ s.fhBlocksize.toNat := hr.1
  refine ⟨fun hh => ?whole, ?cut⟩
  case whole =>
    have hbody := constantBody_of_holds (ch := ch) (n := s.fhBlocksize.toNat) hv
      (holds_bodyStart (ch := ch) (k := .constant) hh)
    obtain ⟨t, he, hst, hc⟩ := exec_kind_of_stored (k := .constant) hs hr hw hh.left hbody List.length_replicate
      (stored_storeAll _ _ _ _) (collects_storeAll _ _ _ _) rfl rfl
    rw [Collects, any_narrowLoses_constant hpos, ← Bool.or_assoc] at hc
    exact ⟨t, he, hst, by rw [advance_append]; exact hc⟩
  case cut =>
    refine endsInside_kind (k := .constant) (type := 0) hs hr hw rfl rfl rfl fun t _ => ?_
    exact cutBy_cons (quiet_id _ _) (readSigned_of_holds hv) readSigned_of_lacking (cutBy_nil _ _)

/-! ## VERBATIM (rule R154) -/

/-- A source that ends at a later sample: those before it are stored. -/
theorem verbatimBody_of_short {width n : Nat} (hv : ∀ v ∈ vs, fitsSigned width v)
    (hh : Holds (vs.flatMap (sBits width)) s) (hn : vs.length < n)
    (hend : sourceEnd s < s.pos.toNat + (vs.flatMap (sBits width)).length + width) :
    verbatimBody ch width n s
      = .raised .unexpectedEnd (storeAll ch.toNat 0 vs (advance (vs.flatMap (sBits width)) s)) := by
  refine readSamples_of_short (fun v hm _ h => readSigned_of_holds (hv v hm) h) hh hn fun t hpos _ hlen => ?_
  refine readSigned_of_short ?_
  rw [hpos, hh.pos_advance, sourceEnd, hlen]
  exact hend

/-- Settles O24: the body is one run of stores, whole or up to the sample that the source ends in. -/
theorem verbatimStoresEverySample : Obligations.VerbatimStoresEverySample := by
  rintro ch w _ vs s hs hr hw rfl hv
  refine ⟨fun hh hn => ?whole, fun hh hn hend => ?short, fun hn => ?cut⟩
  case whole =>
    have hbody := verbatimBody_of_holds (ch := ch) hv (holds_bodyStart (ch := ch) (k := .verbatim) hh)
    rw [hn] at hbody
    obtain ⟨t, he, hst, hc⟩ := exec_kind_of_stored (k := .verbatim) hs hr hw hh.left hbody hn (stored_storeAll _ _ _ _)
      (collects_storeAll _ _ _ _) rfl rfl
    exact ⟨t, he, hst, by rw [advance_append]; exact hc⟩
  case short =>
    have hbody := verbatimBody_of_short (ch := ch) hv (holds_bodyStart (ch := ch) (k := .verbatim) hh) hn (by
      rw [pos_bodyStart hh.left, Nat.add_assoc s.pos.toNat, ← List.length_append]
      exact hend)
    refine ⟨_, exec_kind_of_raised (k := .verbatim) hs hr hw hh.left hbody, stored_storeAll _ _ _ _, ?_⟩
    rw [advance_append]
    exact congrArg (faulted 7) (collects_storeAll _ _ _ _)
  case cut =>
    refine endsInside_kind (k := .verbatim) (type := 1) hs hr hw rfl rfl rfl fun t _ => ?_
    rw [← hn]
    exact (reads_signedFields hv).cut

/-! ## Both through SUBFRAME -/

/-- CONSTANT and VERBATIM in one form: `ws` are the samples in the stream, `vs` those of the block (O23 and O24). -/
theorem exec_plainKind (hs : s.st ≠ .fault) (hr : SubframeRegisters s) (hw : w < codedWidth ch.toNat s)
    (hv : ∀ v ∈ ws, fitsSigned (codedWidth ch.toNat s - w) v) (hn : vs.length = s.fhBlocksize.toNat)
    (hk : k = .constant ∧ (∃ v, ws = [v] ∧ ∀ x ∈ vs, x = v) ∨ k = .verbatim ∧ ws = vs)
    (hh : Holds (wastedBits w ++ ws.flatMap (sBits (codedWidth ch.toNat s - w))) s) :
    ∃ t, exec (k.instr ch (decide (0 < w))) s = .next t ∧ Stored ch.toNat 0 (scaled w vs) s t
      ∧ t = { advance (wastedBits w ++ ws.flatMap (sBits (codedWidth ch.toNat s - w))) s with
          sfType := if k = .constant then 0 else 1
          sfOrder := 0
          sfWasted := BitVec.ofNat 6 w
          sfWidth := BitVec.ofNat 6 (codedWidth ch.toNat s - w)
          smp := t.smp
          ovf := s.ovf || (vs ++ scaled w vs).any narrowLoses } := by
  rcases hk with ⟨rfl, v, rfl, hvs⟩ | ⟨rfl, rfl⟩
  · obtain ⟨whole, -⟩ := constantFillsTheBlock ch w v s hs hr hw (hv v (by simp))
    obtain rfl : vs = List.replicate s.fhBlocksize.toNat v := List.eq_replicate_iff.2 ⟨hn, hvs⟩
    rw [any_narrowLoses_constant hr.1, ← Bool.or_assoc]
    rw [List.flatMap_singleton] at hh ⊢
    exact whole hh
  · obtain ⟨whole, -⟩ := verbatimStoresEverySample ch w _ ws s hs hr hw rfl hv
    exact whole hh hn

/-- Settles O29: by O8 the kind runs after the header byte, and it keeps `STATE`, which SUBFRAME then sets. -/
theorem subframeDecodesPlainSamples : Obligations.SubframeDecodesPlainSamples := by
  intro ch w k ws vs s hs hr hw hv hn hk hh
  rw [subframeHeaderBits_eq, List.append_assoc] at hh ⊢
  have hkind := (holds_congr (t := advance (uBits 8 (headerByte k (decide (0 < w)))) { s with blkv := false })
    rfl rfl rfl _).2 hh.right
  obtain ⟨t, he, hst, ht⟩ := exec_plainKind (s := advance (uBits 8 _) { s with blkv := false }) hs hr hw hv hn hk hkind
  refine ⟨{ t with st := .ready }, ?_, hst, ?_⟩
  · have hkept : t.st = s.st := by rw [ht]; rfl
    rw [subframeRunsTheDecodedKind ch _ _ s hs hr decode_encode_header hh.left, he]
    exact congrArg Host.Outcome.next (if_neg (hkept ▸ hs))
  · rw [advance_append]
    exact congrArg (fun t : State => { t with st := .ready }) ht

end Sys2Proof.Machine
end

section
/-! PROOFS. The statements of `42_subframe.md`, part 3: the predicted kinds (O25, O26, O27, O28).

The bodies of FIXED and LPC are two runs of stores, warm-up and residuals, and a third over the residuals
(`fixedBody_of_holds`, `lpcBody_of_holds`). That decoding is lossless follows from what is rebuilt (O28 from O25 and
O26). -/

namespace Sys2Proof.Machine

variable {s : State} {ch : BitVec 3} {w : Nat} {warm rs rb xs : List Int} {parts : List PartitionCode}

/-! ## The three runs of stores -/

/-- What the warm-up, the residuals and the samples rebuilt over them leave. -/
theorem stored_rebuilt {c : Nat} (hn : rb.length = rs.length) (s : State) :
    Stored c 0 (warm ++ rb) s (storeAll c warm.length rb (storeAll c warm.length rs (storeAll c 0 warm s))) := by
  obtain ⟨hplane, hrest⟩ := rebuilt_words (c := c) (warm := warm) (s := s) hn
  exact ⟨fun j hj => by rw [Nat.zero_add]; exact hplane j hj, hrest⟩

theorem collects_rebuilt (c : Nat) (s : State) :
    Collects (warm ++ rs ++ rb) s (storeAll c warm.length rb (storeAll c warm.length rs (storeAll c 0 warm s))) :=
  ((collects_storeAll _ _ _ _).trans (collects_storeAll _ _ _ _)).trans (collects_storeAll _ _ _ _)

/-- A legal section fills the block from the warm-up on. -/
theorem length_rebuilt {P : List Int → Int} {past : List Int} {m p n : Nat}
    (hl : sectionLegal m p n warm.length parts) :
    (warm ++ rebuild P past ((sectionValues parts).map held)).length = n := by
  have hrs := length_sectionValues hl
  have ho : warm.length ≤ n := by
    obtain ⟨-, -, -, ho, -⟩ := hl
    exact ho.trans (Nat.div_le_self _ _)
  rw [List.length_append, length_rebuild, List.length_map, hrs]
  omega

/-! ## FIXED (rules R155 and R161 to R165) -/

/-- The instructions FIXED0 to FIXED4 with their orders. -/
def fixedKinds (ch : BitVec 3) (f : Bool) : List (Instr × Nat) :=
  [(.fixed0 ch f, 0), (.fixed1 ch f, 1), (.fixed2 ch f, 2), (.fixed3 ch f, 3), (.fixed4 ch f, 4)]

/-- Each is a kind whose body is `fixedBody` with the fixed prediction of its order. -/
theorem exists_kind_of_fixed {i : Instr} {o : Nat} {f : Bool} (h : (i, o) ∈ fixedKinds ch f) :
    ∃ (k : SubKind) (predict : Nat → Nat → State → Int), i = k.instr ch f ∧ kindBody k = fixedBody predict o
      ∧ typeCode k = 2 ∧ predictorOrder k = o
      ∧ ∀ c j t, o ≤ j → predict c j t = fixedPrediction o (history c j t) := by
  simp only [fixedKinds, List.mem_cons, Prod.mk.injEq, List.not_mem_nil, or_false] at h
  rcases h with ⟨rfl, rfl⟩ | ⟨rfl, rfl⟩ | ⟨rfl, rfl⟩ | ⟨rfl, rfl⟩ | ⟨rfl, rfl⟩
  · exact ⟨.fixed0, predictFixed0, rfl, rfl, rfl, rfl, fun c j t _ => predictFixed0_eq c j t⟩
  · exact ⟨.fixed1, predictFixed1, rfl, rfl, rfl, rfl, fun _ _ => predictFixed1_eq⟩
  · exact ⟨.fixed2, predictFixed2, rfl, rfl, rfl, rfl, fun _ _ => predictFixed2_eq⟩
  · exact ⟨.fixed3, predictFixed3, rfl, rfl, rfl, rfl, fun _ _ => predictFixed3_eq⟩
  · exact ⟨.fixed4, predictFixed4, rfl, rfl, rfl, rfl, fun _ _ => predictFixed4_eq⟩

/-- Settles O25: the three runs of stores of `fixedBody_of_holds`, then the shift; `cutBy_fixedBody` where the source
ends. -/
theorem fixedReconstructsTheBlock : Obligations.FixedReconstructsTheBlock := by
  rintro ch _ w _ m p i warm parts s hs hr hw rfl hi rfl hwarm
  obtain ⟨k, predict, rfl, hkind, htype, horder, hpredict⟩ := exists_kind_of_fixed hi
  refine ⟨fun hl hh => ?whole, fun hm hp hl => ?cut⟩
  case whole =>
    have hbody := fixedBody_of_holds (s := bodyStart ch k w s) (hpredict ch.toNat) hwarm hl (holds_bodyStart hh)
    rw [← hkind] at hbody
    obtain ⟨t, he, hst, hc⟩ := exec_kind_of_stored (k := k) hs hr hw hh.left hbody (length_rebuilt hl)
      (stored_rebuilt (by rw [length_rebuild, List.length_map]) _) (collects_rebuilt _ _) rfl rfl
    refine ⟨t, he, hst, ?_⟩
    rw [bodyStart_eq htype horder] at hc
    rw [advance_append]
    exact hc
  case cut =>
    rw [List.append_assoc]
    refine endsInside_kind hs hr hw rfl htype horder fun t ht => ?_
    rw [hkind]
    exact cutBy_fixedBody _ hwarm hm hp (by rwa [ht])

/-! ## LPC (rules R158 to R160) -/

theorem kindBody_lpc {o : BitVec 5} {n : Nat} (h : n = o.toNat + 1) : kindBody (.lpc o) = lpcBody n := h ▸ rfl

/-- Settles O26: the three runs of stores of `lpcBody_of_holds`, then the shift; `cutBy_lpcBody` where the source
ends. -/
theorem lpcReconstructsTheBlock : Obligations.LpcReconstructsTheBlock := by
  rintro ch o w _ m p prec shift warm coefs parts s hs hr hw rfl hlen hwarm h1 h2 h3 hcoefs hfits
  rw [← hlen]
  rw [← hlen] at hcoefs
  have horder : coefs.length ≤ 32 := by omega
  refine ⟨fun hl hh => ?whole, fun hm hp hl => ?cut⟩
  case whole =>
    have hbody := lpcBody_of_holds (s := bodyStart ch (.lpc o) w s) (ch := ch) hcoefs.symm horder hwarm h1 h2 h3 hfits
      hl (holds_bodyStart hh)
    rw [← kindBody_lpc hlen] at hbody
    obtain ⟨t, he, hst, hc⟩ := exec_kind_of_stored (k := .lpc o) hs hr hw hh.left hbody (length_rebuilt hl)
      (stored_rebuilt (by rw [length_rebuild, List.length_map]) _) (collects_rebuilt _ _) rfl rfl
    refine ⟨t, he, hst, ?_⟩
    rw [bodyStart_eq (k := .lpc o) rfl hlen.symm] at hc
    rw [advance_append, ← BitVec.ofInt_natCast 5 shift]
    exact hc
  case cut =>
    rw [List.append_assoc, List.append_assoc, ← List.append_assoc (signedFields _ _ _ _)]
    refine endsInside_kind (k := .lpc o) hs hr hw rfl rfl hlen.symm fun t ht => ?_
    rw [kindBody_lpc hlen]
    exact cutBy_lpcBody _ hcoefs.symm hwarm h1 h2 h3 hfits hm hp (by rwa [ht])

/-- The two registers that stand written when the shift is checked (rule R158). -/
def writeShift (prec : Nat) (shift : Int) (s : State) : State :=
  { s with lpcPrec := BitVec.ofNat 5 prec, lpcShift := BitVec.ofInt 5 shift }

/-- A negative shift stops the body after the warm-up (rule R158). -/
theorem lpcBody_of_negative {width n prec : Nat} {shift : Int} (hwarm : ∀ v ∈ warm, fitsSigned width v) (h1 : 1 ≤ prec)
    (h2 : prec ≤ 16) (h3 : -16 ≤ shift) (h4 : shift < 0)
    (h : Holds (warm.flatMap (sBits width) ++ (uBits 4 (prec - 1) ++ sBits 5 shift)) s) :
    lpcBody warm.length ch width n s = .raised .invalidShift (storeAll ch.toNat 0 warm (writeShift prec shift
      (advance (warm.flatMap (sBits width) ++ (uBits 4 (prec - 1) ++ sBits 5 shift)) s))) := by
  rw [lpcBody, readSamples_of_holds (fun v hm _ h => readSigned_of_holds (hwarm v hm) h) h.left, Res.bind_ok,
    readLpcParams_of_negative h1 h2 h3 h4 (holds_storeAll.2 h.right), advance_append (warm.flatMap _),
    advance_storeAll]
  exact congrArg (Res.raised _) (storeAll_comm (f := writeShift prec shift) (fun _ _ _ => rfl) 0 warm _)

/-- Settles O27: the shift is checked before a coefficient or a residual is read. -/
theorem lpcNegativeShiftFaults : Obligations.LpcNegativeShiftFaults := by
  intro ch o w prec shift warm s hs hr hw hlen hwarm h1 h2 h3 h4 hh
  have hbody := lpcBody_of_negative (n := s.fhBlocksize.toNat) (s := bodyStart ch (.lpc o) w s) (ch := ch)
    hwarm h1 h2 h3 h4 (holds_bodyStart hh)
  rw [← kindBody_lpc hlen] at hbody
  refine ⟨_, exec_kind_of_raised (k := .lpc o) hs hr hw hh.left hbody, stored_storeAll _ _ _ _, ?_⟩
  rw [advance_append (wastedBits w)]
  exact congrArg (faulted 5) (collects_storeAll _ _ _ _)

/-! ## Lossless decoding -/

theorem map_held_of_fits {width : Nat} (hwidth : width ≤ 32) (hx : ∀ x ∈ xs, fitsSigned width x) : xs.map held = xs :=
  (List.map_congr_left fun x h => held_of_fits hwidth (hx x h)).trans (List.map_id' xs)

/-- What the decoder rebuilds from the differences of samples is the samples, as sample memory holds them; the shift
then acts on each. -/
theorem scaled_rebuilt {P : List Int → Int} {width o : Nat} (w : Nat) (hwidth : width ≤ 32)
    (hx : ∀ x ∈ xs, fitsSigned width x) (hv : sectionValues parts = differences P (xs.take o).reverse (xs.drop o)) :
    scaled w (xs.take o ++ rebuild P ((xs.take o).map held).reverse ((sectionValues parts).map held))
      = xs.map fun x => x * ((2 ^ w : Nat) : Int) := by
  have hwarm : (xs.take o).map held = xs.take o :=
    map_held_of_fits hwidth fun x h => hx x (List.mem_of_mem_take h)
  have hrest : (rebuild P (xs.take o).reverse ((sectionValues parts).map held)).map held = xs.drop o := by
    rw [hv]
    exact rebuild_differences fun x h => fits_bounds hwidth (hx x (List.mem_of_mem_drop h))
  have hblock : (xs.take o ++ rebuild P (xs.take o).reverse ((sectionValues parts).map held)).map held = xs := by
    rw [List.map_append, hwarm, hrest, List.take_append_drop]
  calc scaled w (xs.take o ++ rebuild P ((xs.take o).map held).reverse ((sectionValues parts).map held))
      = ((xs.take o ++ rebuild P (xs.take o).reverse ((sectionValues parts).map held)).map held).map
          fun x => x * ((2 ^ w : Nat) : Int) := by rw [hwarm, List.map_map]; rfl
    _ = xs.map fun x => x * ((2 ^ w : Nat) : Int) := by rw [hblock]

/-- Settles O28: O25 and O26 say what is stored, `scaled_rebuilt` that it is the samples. -/
theorem predictedSubframesAreLossless : Obligations.PredictedSubframesAreLossless := by
  rintro ch w _ m p xs parts s hs hr hw rfl hwidth hn hx
  have htake (o : Nat) : ∀ v ∈ xs.take o, fitsSigned (codedWidth ch.toNat s - w) v := fun v hv =>
    hx v (List.mem_of_mem_take hv)
  refine ⟨fun o i hi ho hl hv hh => ?fixed, fun o prec shift coefs ho h1 h2 h3 hcoefs hfits hl hv hh => ?lpc⟩
  case fixed =>
    obtain ⟨whole, -⟩ := fixedReconstructsTheBlock ch o w _ m p i (xs.take o) parts s hs hr hw rfl hi
      (List.length_take_of_le ho) (htake o)
    obtain ⟨t, he, hst, ht⟩ := whole hl hh
    rw [scaled_rebuilt w hwidth hx hv] at hst
    exact ⟨t, he, by rw [ht]; rfl, hst⟩
  case lpc =>
    obtain ⟨whole, -⟩ := lpcReconstructsTheBlock ch o w _ m p prec shift (xs.take (o.toNat + 1)) coefs parts s hs
      hr hw rfl (List.length_take_of_le ho) (htake _) h1 h2 h3 hcoefs hfits
    obtain ⟨t, he, hst, ht⟩ := whole hl hh
    rw [scaled_rebuilt w hwidth hx hv] at hst
    exact ⟨t, he, by rw [ht]; rfl, hst⟩

end Sys2Proof.Machine
end

section
/-! PROOFS. The statements of `42_subframe.md`, part 4: what SUBFRAME and the subframe kinds leave unchanged (O48).

What their bodies may do is said in Laws/SubframeParts.lean (`does_decodeKind`, `does_decodeSubframe`); here it is
carried to the instruction, whose end writes `STATE` and the fault record beside it. -/

namespace Sys2Proof.Machine

variable {W : Nat → Prop} {E : State → State} {i : Instr} {s t : State} {ch : BitVec 3} {k : SubKind}

/-- From `s` to `t` a part has moved within `W` and kept what `E` keeps; beside it only `STATE` and the fault record
have changed. -/
def Leaves (W : Nat → Prop) (E : State → State) (s t : State) : Prop :=
  ∃ u st c p f, Moves W s u ∧ E u = E s ∧ t = { u with st := st, errCause := c, errPos := p, errFrame := f }

theorem Leaves.refl (W : Nat → Prop) (E : State → State) (s : State) : Leaves W E s s :=
  ⟨s, _, _, _, _, .refl _ s, rfl, rfl⟩

theorem leaves_faulted (W : Nat → Prop) (E : State → State) (c : BitVec 8) (s : State) : Leaves W E s (faulted c s) :=
  ⟨s, _, _, _, _, .refl _ s, rfl, rfl⟩

/-- The end of an instruction over one part (rules R30 and R215). -/
theorem leaves_of_does {C : List Cause} {r : Res Unit} {st : BlockState} (hd : Does W E C s r)
    (h : finish (atFrameLevel (r.bind fun _ t => .ok st t)) = .next t) : Leaves W E s t := by
  cases r with
  | ok _ u =>
    obtain ⟨hm, he⟩ := hd
    cases h
    exact ⟨u, _, _, _, _, hm, he, rfl⟩
  | raised c u =>
    obtain ⟨-, hm, he⟩ := hd
    cases h
    exact ⟨u, _, _, _, _, hm, he, rfl⟩
  | stopped e => cases h

/-- An instruction in a header slot is a kind run alone. -/
theorem exists_kind_of_slot (h : i.slot = .header ch) : ∃ k f, i = SubKind.instr ch f k := by
  cases i <;> cases h
  case constant f => exact ⟨.constant, f, rfl⟩
  case verbatim f => exact ⟨.verbatim, f, rfl⟩
  case fixed0 f => exact ⟨.fixed0, f, rfl⟩
  case fixed1 f => exact ⟨.fixed1, f, rfl⟩
  case fixed2 f => exact ⟨.fixed2, f, rfl⟩
  case fixed3 f => exact ⟨.fixed3, f, rfl⟩
  case fixed4 f => exact ⟨.fixed4, f, rfl⟩
  case lpc o f => exact ⟨.lpc o, f, rfl⟩

theorem exec_kind_leaves {f : Bool} (h : exec (k.instr ch f) s = .next t) :
    Leaves (Span ch.toNat 0 (max s.fhBlocksize.toNat 32)) (exceptKind k) s t := by
  by_cases hs : s.st = .fault
  · obtain rfl := eq_of_exec_of_fault h (by cases k <;> nofun) hs
    exact .refl _ _ _
  by_cases hr : SubframeRegisters s
  · rw [exec_kind hs hr] at h
    obtain ⟨-, hn, -, hb, -⟩ := hr
    exact leaves_of_does (does_decodeKind ch k f hn hb) h
  · rw [exec_kind_of_illegal hs hr] at h
    cases h
    exact leaves_faulted _ _ _ _

/-- SUBFRAME has cleared `BLKV` before its part, unless it stopped at its register check (rules R32 and R150). -/
theorem exec_subframe_leaves (h : exec (.subframe ch) s = .next t) :
    ∃ b, Leaves (Span ch.toNat 0 (max s.fhBlocksize.toNat 32)) exceptSubframe { s with blkv := b } t := by
  by_cases hs : s.st = .fault
  · obtain rfl := eq_of_exec_of_fault h nofun hs
    exact ⟨t.blkv, .refl _ _ _⟩
  by_cases hr : SubframeRegisters s
  · rw [exec_subframe hs hr] at h
    obtain ⟨-, hn, -, hb, -⟩ := hr
    exact ⟨false, leaves_of_does (does_decodeSubframe (s := { s with blkv := false }) ch hn hb) h⟩
  · rw [exec_subframe_of_illegal hs hr] at h
    cases h
    exact ⟨s.blkv, leaves_faulted _ _ _ _⟩

/-! ## What that says of the registers and of sample memory -/

theorem Leaves.words (h : Leaves W E s t) {a : Nat} (ha : ¬W a) : sampleWord a t = sampleWord a s := by
  obtain ⟨u, st, c, p, f, hm, -, rfl⟩ := h
  exact hm.words a ha

theorem Leaves.mono {E' : State → State} (h : Leaves W E s t) (he : ∀ u, E u = E s → E' u = E' s) :
    Leaves W E' s t := by
  obtain ⟨u, st, c, p, f, hm, hu, rfl⟩ := h
  exact ⟨u, st, c, p, f, hm, he u hu, rfl⟩

theorem not_span {c n a : Nat} (h : ∀ j, j < n → a ≠ sampleAddress c j) : ¬Span c 0 n a := by
  rintro ⟨j, -, hj, rfl⟩
  exact h j hj rfl

theorem Leaves.subframe_registers {b : Bool} (h : Leaves W exceptSubframe { s with blkv := b } t) :
    t = { s with pos := t.pos, crc8 := t.crc8, crc16 := t.crc16, smp := t.smp, ovf := t.ovf, blkv := t.blkv,
                 st := t.st, errCause := t.errCause, errPos := t.errPos, errFrame := t.errFrame, sfType := t.sfType,
                 sfOrder := t.sfOrder, sfWasted := t.sfWasted, sfWidth := t.sfWidth, lpcPrec := t.lpcPrec,
                 lpcShift := t.lpcShift, resMethod := t.resMethod, resPorder := t.resPorder, coef := t.coef } := by
  obtain ⟨u, st, c, p, f, -, hu, rfl⟩ := h
  rw [eq_of_exceptSubframe hu]

/-- Every kind leaves `BLKV`. -/
theorem Leaves.blkv (h : Leaves W exceptSubframe s t) : t.blkv = s.blkv := by
  obtain ⟨u, st, c, p, f, -, hu, rfl⟩ := h
  have := congrArg State.blkv hu
  exact this

/-- No kind but LPC writes the predictor registers (rule R158). -/
theorem Leaves.predictor (h : Leaves W (exceptKind k) s t) (hk : ∀ o, k ≠ .lpc o) :
    t.lpcPrec = s.lpcPrec ∧ t.lpcShift = s.lpcShift ∧ t.coef = s.coef := by
  obtain ⟨u, st, c, p, f, -, hu, rfl⟩ := h
  have hprec := congrArg State.lpcPrec hu
  have hshift := congrArg State.lpcShift hu
  have hcoef := congrArg State.coef hu
  cases k
  case lpc o => exact absurd rfl (hk o)
  all_goals exact ⟨hprec, hshift, hcoef⟩

/-- CONSTANT and VERBATIM read no residual section. -/
theorem Leaves.section_registers (h : Leaves W (exceptKind k) s t) (hk : k = .constant ∨ k = .verbatim) :
    t.resMethod = s.resMethod ∧ t.resPorder = s.resPorder := by
  obtain ⟨u, st, c, p, f, -, hu, rfl⟩ := h
  have hmethod := congrArg State.resMethod hu
  have horder := congrArg State.resPorder hu
  rcases hk with rfl | rfl
  · exact ⟨hmethod, horder⟩
  · exact ⟨hmethod, horder⟩

/-- Settles O48: SUBFRAME by `exec_subframe_leaves`, the kinds by `exec_kind_leaves`. -/
theorem subframeFrame : Obligations.SubframeFrame := by
  intro i ch s t hi h
  rcases hi with rfl | hslot
  case inl =>
    obtain ⟨b, hl⟩ := exec_subframe_leaves h
    refine ⟨hl.subframe_registers, fun hn => absurd rfl hn, fun _ hn => absurd rfl hn, ?_, fun a ha =>
      hl.words (not_span ha)⟩
    rintro ⟨w, hw | hw⟩ <;> cases hw
  case inr =>
    obtain ⟨k, f, rfl⟩ := exists_kind_of_slot hslot
    have hl := exec_kind_leaves h
    have hsub : Leaves _ exceptSubframe s t := hl.mono fun u => except_subframe_of_kind
    refine ⟨hsub.subframe_registers (b := s.blkv), fun _ => hsub.blkv, fun hk _ => hl.predictor fun o => ?_, fun hk =>
      hl.section_registers ?_, fun a ha => hl.words (not_span ha)⟩
    · rintro rfl
      exact hk o f rfl
    · obtain ⟨w, hw | hw⟩ := hk
      · cases k <;> cases hw
        exact .inl rfl
      · cases k <;> cases hw
        exact .inr rfl

end Sys2Proof.Machine
end

section
/-! PROOFS. The statements of `43_residual.md`, part 1: RESID and the partition kinds over a source that holds what they
read (O33, O31, O32), and the kinds that RESID and DECORR run (O9). -/

namespace Sys2Proof.Machine

variable {i : Instr} {p : Part} {body : State → Res Unit} {s t : State} {ch : BitVec 3} {ord : BitVec 6}

/-! ## RESID over its part -/

/-- The operand and the register RESID checks are legal (rules R82 and R170). -/
def ResidOperands (ord : BitVec 6) (s : State) : Prop :=
  ord.toNat ≤ 32 ∧ 1 ≤ s.fhBlocksize.toNat ∧ s.fhBlocksize.toNat ≤ 65536

/-- RESID with legal operands (rules R32 and R170). -/
theorem exec_resid (hs : s.st ≠ .fault) (h : ResidOperands ord s) :
    exec (.resid ch ord) s = finish (atFrameLevel
      ((decodeResidual ch ord.toNat { s with blkv := false }).bind fun _ t => endReady t)) := by
  obtain ⟨ho, hn⟩ := h
  show execResid ch ord s = _
  rw [execResid, frameCommand_of_ready hs, if_neg (show ¬ord.toNat > Config.maxOrder from Nat.not_lt.2 ho),
    blocksizeLegal_iff.2 hn]
  rfl

theorem exec_resid_of_illegal (hs : s.st ≠ .fault) (h : ¬ResidOperands ord s) :
    exec (.resid ch ord) s = .next (faulted 11 s) := by
  show execResid ch ord s = _
  rw [execResid, frameCommand_of_ready hs]
  by_cases ho : ord.toNat > Config.maxOrder
  · rw [if_pos ho]
    rfl
  · have hn : blocksizeLegal s = false :=
      Bool.eq_false_iff.2 fun hb => h ⟨Nat.not_lt.1 ho, blocksizeLegal_iff.1 hb⟩
    rw [if_neg ho, hn]
    rfl

/-- Settles O33: the section is one run of stores (`decodeResidual_of_holds`), after which RESID sets READY. -/
theorem residDecodesEverySection : Obligations.ResidDecodesEverySection := by
  intro ch ord m p parts s hs ho h1 h2 hl hh
  have hsection := decodeResidual_of_holds (s := { s with blkv := false }) (ch := ch) hl
    ((holds_congr (s := s) rfl rfl rfl _).2 hh)
  refine ⟨{ storeAll ch.toNat ord.toNat (sectionValues parts)
      (advance (sectionBits m p parts) (sectionRegisters m p { s with blkv := false })) with st := .ready }, ?_,
    stored_storeAll _ _ _ _, congrArg (fun t : State => { t with st := .ready }) (collects_storeAll _ _ _ _)⟩
  rw [exec_resid hs ⟨ho, h1, h2⟩, hsection]
  rfl

/-! ## A partition kind is the reader of its residuals, inside its plane -/

/-- The instruction is the stream kind that reads the residuals of this partition by this part. -/
def RunsPartition (i : Instr) (p : Part) (body : State → Res Unit) : Prop :=
  ∀ s, exec i s = streamKind (inPlane p body) s

theorem runsPartition_rice4 {k : BitVec 4} {n : Nat} (hk : k.toNat = n) :
    RunsPartition (.rice4 p k) p (ricePartition p n) := fun _ => hk ▸ rfl

theorem runsPartition_rice5 {k : BitVec 5} {n : Nat} (hk : k.toNat = n) :
    RunsPartition (.rice5 p k) p (ricePartition p n) := fun _ => hk ▸ rfl

theorem runsPartition_esc4 {w : BitVec 5} {n : Nat} (hw : w.toNat = n) :
    RunsPartition (.esc4 p w) p (escapePartition p n) := fun _ => hw ▸ rfl

theorem runsPartition_esc5 {w : BitVec 5} {n : Nat} (hw : w.toNat = n) :
    RunsPartition (.esc5 p w) p (escapePartition p n) := fun _ => hw ▸ rfl

theorem RunsPartition.exec_eq (h : RunsPartition i p body) (hs : s.st ≠ .fault) (hp : p.wellFormed = true) :
    exec i s = finish (atFrameLevel ((body s).bind fun _ t => .ok s.st t)) := by
  rw [h, partitionKind_of_ready hs hp]

/-- A kind whose part consumed these bits and stored these values changes nothing else (rules R30 and R33). -/
theorem RunsPartition.exec_of_stored {vs : List Int} {bits : List Bool} (h : RunsPartition i p body)
    (hs : s.st ≠ .fault) (hp : p.wellFormed = true)
    (hb : body s = .ok () (storeAll p.ch.toNat p.first vs (advance bits s))) :
    ∃ t, exec i s = .next t ∧ Stored p.ch.toNat p.first vs s t
      ∧ t = { advance bits s with smp := t.smp, ovf := s.ovf || vs.any narrowLoses } := by
  refine ⟨storeAll p.ch.toNat p.first vs (advance bits s), ?_, stored_storeAll _ _ _ _, collects_storeAll _ _ _ _⟩
  have hst : (storeAll p.ch.toNat p.first vs (advance bits s)).st = s.st := (collects_storeAll _ _ _ _).st
  rw [h.exec_eq hs hp, hb, ← hst]
  rfl

/-- RICE4 and RICE5 alike (rules R173 and R174). -/
theorem runsPartition_of_rice {k : Nat} (hw : i.wellFormed = true)
    (hi : (∃ k4, i = .rice4 p k4 ∧ k = k4.toNat) ∨ (∃ k5, i = .rice5 p k5 ∧ k = k5.toNat)) :
    p.wellFormed = true ∧ RunsPartition i p (ricePartition p k) := by
  rcases hi with ⟨k, rfl, rfl⟩ | ⟨k, rfl, rfl⟩
  · exact ⟨(Bool.and_eq_true_iff.1 hw).1, runsPartition_rice4 rfl⟩
  · exact ⟨(Bool.and_eq_true_iff.1 hw).1, runsPartition_rice5 rfl⟩

/-- ESC4 and ESC5 alike (rules R176 and R177). -/
theorem runsPartition_of_escape {w : BitVec 5} (hw : i.wellFormed = true) (hi : i = .esc4 p w ∨ i = .esc5 p w) :
    p.wellFormed = true ∧ RunsPartition i p (escapePartition p w.toNat) := by
  rcases hi with rfl | rfl
  · exact ⟨hw, runsPartition_esc4 rfl⟩
  · exact ⟨hw, runsPartition_esc5 rfl⟩

/-- Settles O31: the partition is one run of stores, or is cut where a field is. -/
theorem ricePartitionsStoreTheirSymbols : Obligations.RicePartitionsStoreTheirSymbols := by
  intro i p k vs s hs hw hi hn
  obtain ⟨hp, hrun⟩ := runsPartition_of_rice hw hi
  refine ⟨fun hh => hrun.exec_of_stored hs hp (ricePartition_of_holds hn hh), ?_⟩
  rw [hrun.exec_eq hs hp, ricePartition, ← hn]
  exact endsInside_of_cutBy reads_riceFields.cut _

/-- What a field of at most 32 bits holds is stored as it is. -/
theorem any_narrowLoses_of_fits {w : Nat} {vs : List Int} (hw : w ≤ 32) (hv : ∀ v ∈ vs, fitsSigned w v) :
    vs.any narrowLoses = false :=
  List.any_eq_false.2 fun v h => by simp [narrowLoses_eq_false.2 (held_of_fits hw (hv v h))]

/-- Settles O32: as O31, and a raw width below 32 leaves nothing to narrow. -/
theorem escapedPartitionsStoreTheirFields : Obligations.EscapedPartitionsStoreTheirFields := by
  intro i p w vs s hs hw hi hn hv
  obtain ⟨hp, hrun⟩ := runsPartition_of_escape hw hi
  refine ⟨fun hh => ?whole, ?cut⟩
  case whole =>
    obtain ⟨t, he, hst, ht⟩ := hrun.exec_of_stored hs hp (escapePartition_of_holds hn hv hh)
    rw [any_narrowLoses_of_fits (by omega) hv, Bool.or_false] at ht
    exact ⟨t, he, hst, ht⟩
  case cut =>
    rw [hrun.exec_eq hs hp, escapePartition, ← hn]
    exact endsInside_of_cutBy (reads_signedFields hv).cut _

/-! ## The kind a parameter decodes to -/

/-- A parameter that decodes is a Rice parameter below the escape value, or the escape value and a raw width (rule
R98). -/
theorem runsPartition_of_decode {m nbits v : Nat} (hm : m < 2)
    (h : decode (if m = 0 then .param0 p else .param1 p) nbits v = .ok i) :
    (nbits = paramWidth m ∧ v < escapeValue m ∧ RunsPartition i p (ricePartition p v))
      ∨ (nbits = paramWidth m + 5 ∧ v / 32 = escapeValue m ∧ RunsPartition i p (escapePartition p (v % 2 ^ 5))) := by
  have hraw : (BitVec.ofNat 5 (v % 2 ^ 5)).toNat = v % 2 ^ 5 := by rw [BitVec.toNat_ofNat]; omega
  obtain rfl | rfl : m = 0 ∨ m = 1 := by omega
  · rcases ite_ok (h : decodeParam0 p nbits v = .ok i) with ⟨⟨hn, hv⟩, hd⟩ | h
    · cases hd
      have hk : (BitVec.ofNat 4 v).toNat = v := Nat.mod_eq_of_lt (lt_trans hv (by decide))
      exact .inl ⟨hn, hv, runsPartition_rice4 hk⟩
    · obtain ⟨⟨hn, hv⟩, hd⟩ := guard_ok h
      cases hd
      exact .inr ⟨hn, hv, runsPartition_esc4 hraw⟩
  · rcases ite_ok (h : decodeParam1 p nbits v = .ok i) with ⟨⟨hn, hv⟩, hd⟩ | h
    · cases hd
      have hk : (BitVec.ofNat 5 v).toNat = v := Nat.mod_eq_of_lt (lt_trans hv (by decide))
      exact .inl ⟨hn, hv, runsPartition_rice5 hk⟩
    · obtain ⟨⟨hn, hv⟩, hd⟩ := guard_ok h
      cases hd
      exact .inr ⟨hn, hv, runsPartition_esc5 hraw⟩

/-- A partition of RESID is the kind its parameter decodes to, with the cursor after the parameter (rule R170). -/
theorem decodePartition_of_decode {m nbits v : Nat} (hm : m < 2)
    (h : decode (if m = 0 then .param0 p else .param1 p) nbits v = .ok i) (hh : Holds (uBits nbits v) s) :
    ∃ body, RunsPartition i p body ∧ decodePartition m p s = body (advance (uBits nbits v) s) := by
  rcases runsPartition_of_decode hm h with ⟨rfl, hv, hrun⟩ | ⟨rfl, hv, hrun⟩
  · refine ⟨_, hrun, ?_⟩
    rw [decodePartition, readUnsigned_of_holds (lt_trans hv (escapeValue_lt m)) hh, Res.bind_ok, if_neg hv.ne]
  · refine ⟨_, hrun, ?_⟩
    have hbits : uBits (paramWidth m + 5) v = uBits (paramWidth m) (escapeValue m) ++ uBits 5 (v % 2 ^ 5) := by
      rw [uBits_append, ← hv]
      congr 1
      omega
    rw [hbits] at hh ⊢
    rw [decodePartition, readUnsigned_of_holds (escapeValue_lt m) hh.left, Res.bind_ok, if_pos rfl,
      readUnsigned_of_holds (n := 5) (Nat.mod_lt _ (by decide)) hh.right, Res.bind_ok, ← advance_append]

theorem decodePartitions_one (m len i n : Nat) (ch : BitVec 3) (s : State) :
    decodePartitions m ch len 1 i n s = decodePartition m { ch := ch, first := i, count := n } s := by
  rw [decodePartitions]
  cases decodePartition m { ch := ch, first := i, count := n } s <;> rfl

/-- A section of one partition: all the block from the order on (rule R172). -/
theorem decodeResidual_of_onePartition {m o : Nat} (hm : m < 2) (ho : o ≤ s.fhBlocksize.toNat)
    (h : Holds (uBits 1 m ++ uBits 4 0) s) :
    decodeResidual ch o s = decodePartition m { ch := ch, first := o, count := s.fhBlocksize.toNat - o }
      (advance (uBits 1 m ++ uBits 4 0) (sectionRegisters m 0 s)) := by
  rw [decodeResidual_of_head hm (by decide) h, Nat.pow_zero, Nat.mod_one, Nat.div_one, if_neg (by omega),
    decodePartitions_one]

/-- RESID over one partition and the kind its parameter decodes to. -/
theorem exec_resid_eq_kind {m nbits v : Nat} (hs : s.st ≠ .fault) (hops : ResidOperands ord s)
    (ho : ord.toNat ≤ s.fhBlocksize.toNat) (hm : m < 2)
    (hp : p = { ch := ch, first := ord.toNat, count := s.fhBlocksize.toNat - ord.toNat })
    (hd : decode (if m = 0 then .param0 p else .param1 p) nbits v = .ok i)
    (hh : Holds (uBits 1 m ++ uBits 4 0 ++ uBits nbits v) s) :
    exec (.resid ch ord) s = readyUnlessFault (exec i (advance (uBits 1 m ++ uBits 4 0 ++ uBits nbits v)
      { s with blkv := false, resMethod := BitVec.ofNat 1 m, resPorder := 0 })) := by
  have hwf : p.wellFormed = true := by
    obtain ⟨-, -, hn⟩ := hops
    subst hp
    simp only [Part.wellFormed, Config.maxBlock, decide_eq_true_eq]
    omega
  have hhead : Holds (uBits 1 m ++ uBits 4 0) { s with blkv := false } := (holds_congr (s := s) rfl rfl rfl _).2 hh.left
  have hparam : Holds (uBits nbits v) (advance (uBits 1 m ++ uBits 4 0) (sectionRegisters m 0 { s with blkv := false })) :=
    (holds_congr (s := advance (uBits 1 m ++ uBits 4 0) s) rfl rfl rfl _).2 hh.right
  obtain ⟨body, hrun, hbody⟩ := decodePartition_of_decode hm hd hparam
  rw [exec_resid hs hops, decodeResidual_of_onePartition (s := { s with blkv := false }) hm ho hhead, ← hp, hbody,
    ← advance_append]
  have hkind := hrun.exec_eq (s := advance (uBits 1 m ++ uBits 4 0 ++ uBits nbits v)
    { s with blkv := false, resMethod := BitVec.ofNat 1 m, resPorder := 0 }) hs hwf
  rw [hkind]
  exact (readyUnlessFault_finish hs _).symm

/-! ## The kind a channel code decodes to -/

/-- DECORR with legal registers (rule R185). -/
theorem exec_decorr (hs : s.st ≠ .fault) (hb : blocksizeLegal s = true) (hc : s.fhChassign.toNat ≤ 10) :
    exec .decorr s = .next { reconstructChannels { s with blkv := false } with st := .ready } := by
  have hc : chassignLegal s = true := decide_eq_true hc
  show execDecorr s = _
  rw [execDecorr, frameCommand_of_ready hs, hb, hc]
  rfl

theorem exec_decorr_of_illegal (hs : s.st ≠ .fault) (h : ¬(blocksizeLegal s = true ∧ s.fhChassign.toNat ≤ 10)) :
    exec .decorr s = .next (faulted 11 s) := by
  have hl : ¬(blocksizeLegal s && chassignLegal s) = true := fun hl => by
    obtain ⟨hb, hc⟩ := Bool.and_eq_true_iff.1 hl
    exact h ⟨hb, of_decide_eq_true hc⟩
  show execDecorr s = _
  rw [execDecorr, frameCommand_of_ready hs, if_neg hl]
  rfl

/-- The codes of INDEP have no arm of their own in rule R185. -/
theorem reconstructChannels_of_indep (h : s.fhChassign.toNat ≤ 7) : reconstructChannels s = indepChannels s := by
  unfold reconstructChannels
  split
  · omega
  · omega
  · omega
  · rfl

/-- The kind a code decodes to runs what DECORR reconstructs under that code (rule R185). -/
theorem channelKind_of_decode {a : Nat} (h : decodeChannels a = .ok i) :
    a ≤ 10 ∧ ∃ body, (∀ s, exec i s = channelKind body s) ∧
      ∀ s : State, s.fhChassign.toNat = a → reconstructChannels s = body s := by
  unfold decodeChannels at h
  rcases ite_ok h with ⟨ha, h⟩ | h
  · cases h
    exact ⟨by omega, indepChannels, fun _ => rfl, fun s hs => reconstructChannels_of_indep (hs ▸ ha)⟩
  rcases ite_ok h with ⟨rfl, h⟩ | h
  · cases h
    exact ⟨by decide, lsideChannels, fun _ => rfl, fun s hs => by rw [reconstructChannels, hs]; rfl⟩
  rcases ite_ok h with ⟨rfl, h⟩ | h
  · cases h
    exact ⟨by decide, rsideChannels, fun _ => rfl, fun s hs => by rw [reconstructChannels, hs]; rfl⟩
  obtain ⟨rfl, h⟩ := guard_ok h
  cases h
  exact ⟨by decide, msideChannels, fun _ => rfl, fun s hs => by rw [reconstructChannels, hs]; rfl⟩

/-- Settles O9: command and kind run the same part, after which the command sets READY. -/
theorem residAndDecorrRunTheDecodedKinds : Obligations.ResidAndDecorrRunTheDecodedKinds := by
  intro s hs
  refine ⟨fun ch ord m nbits v p i h1 h2 ho hle hm hp hd hh => ?resid, fun i h1 h2 hd => ?decorr, fun h => ?illegal⟩
  case resid => exact exec_resid_eq_kind hs ⟨ho, h1, h2⟩ hle hm hp hd hh
  case decorr =>
    have hb : blocksizeLegal s = true := blocksizeLegal_iff.2 ⟨h1, h2⟩
    obtain ⟨-, hd⟩ := guard_ok hd
    obtain ⟨hc, body, hrun, hbody⟩ := channelKind_of_decode hd
    rw [exec_decorr hs hb hc, hrun, channelKind_of_ready (s := { s with blkv := false }) hs hb,
      hbody { s with blkv := false } rfl]
    exact (congrArg Host.Outcome.next (if_neg hs)).symm
  case illegal =>
    refine exec_decorr_of_illegal hs fun hl => h ?_
    obtain ⟨hb, hc⟩ := hl
    obtain ⟨h1, h2⟩ := blocksizeLegal_iff.1 hb
    exact ⟨h1, h2, hc⟩

end Sys2Proof.Machine
end

section
/-! PROOFS. The statements of `43_residual.md`, part 2: what stops a residual section, in RESID and in the predicted
kinds (O34).

`StopsAfter` says of a part that it reads these fields whole and then raises; it composes with the parts before it as
`CutBy` does. -/

namespace Sys2Proof.Machine

variable {α β : Type} {fs gs : List Field} {s t : State} {ch : BitVec 3} {ord : BitVec 6} {k : SubKind} {w : Nat}
  {warm coefs : List Int} {c : Cause}

/-! ## Parts that read fields and then raise -/

/-- On a source that holds these fields the part reads them and raises this cause. -/
def StopsAfter (fs : List Field) (c : Cause) (s : State) (r : Res α) : Prop :=
  Holds (fieldBits fs) s → r = .raised c (runFields fs s)

/-- No later part runs (rule R215). -/
theorem StopsAfter.bind {r : Res α} (h : StopsAfter fs c s r) (g : α → State → Res β) : StopsAfter fs c s (r.bind g) :=
  fun hh => by rw [h hh, Res.bind_raised]

/-- One part after another. -/
theorem Reads.bindStop {r : Res α} {a : α} {g : α → State → Res β} (hr : Reads fs s r a)
    (hg : StopsAfter gs c (runFields fs s) (g a (runFields fs s))) : StopsAfter (fs ++ gs) c s (r.bind g) := by
  intro hh
  rw [fieldBits_append, holds_runFields hr.quiet] at hh
  rw [hr.whole hh.1, Res.bind_ok, hg hh.2, runFields_append]

/-- A field of no bits before a part. -/
theorem StopsAfter.effect {e : State → State} {r : Res α} (hq : ({ bits := [], effect := e } : Field).Quiet)
    (h : StopsAfter gs c (e s) r) : StopsAfter ({ bits := [], effect := e } :: gs) c s r := by
  have he : Field.run { bits := [], effect := e } s = e s := congrArg e (advance_nil s)
  intro hh
  rw [runFields_cons, he]
  exact h (by rw [← he, hq.holds, advance_nil]; exact hh)

/-! ## The partition order in RESID and in the predicted kinds (rules R171 and R155) -/

/-- The partition order does not divide the block, or leaves the first partition negative (rule R171). -/
def BadOrder (n p o : Nat) : Prop := n % 2 ^ p ≠ 0 ∨ n / 2 ^ p < o

theorem stopsAfter_section {m p o : Nat} (hm : m < 2) (hp : p < 16) (hb : BadOrder s.fhBlocksize.toNat p o) :
    StopsAfter (sectionFields m p ch.toNat o []) .invalidPartitionOrder s (decodeResidual ch o s) :=
  sectionHead_bad hm hp hb

/-- FIXED after its warm-up (rule R155). -/
theorem stopsAfter_fixedBody {predict : Nat → Nat → State → Int} {m p width n : Nat}
    (hwarm : ∀ v ∈ warm, fitsSigned width v) (hm : m < 2) (hp : p < 16)
    (hb : BadOrder s.fhBlocksize.toNat p warm.length) :
    StopsAfter (signedFields width ch.toNat 0 warm ++ sectionFields m p ch.toNat warm.length []) .invalidPartitionOrder s
      (fixedBody predict warm.length ch width n s) := by
  refine (reads_signedFields hwarm).bindStop ((stopsAfter_section hm hp ?_).bind _)
  rwa [runFields_signedFields, storeAll_eq]

/-- LPC after its warm-up and its parameters (rule R160). -/
theorem stopsAfter_lpcBody {m p width n prec shift : Nat} (hlen : warm.length = coefs.length)
    (hwarm : ∀ v ∈ warm, fitsSigned width v) (h1 : 1 ≤ prec) (h2 : prec ≤ 16) (h3 : shift < 16)
    (hcoefs : ∀ v ∈ coefs, fitsSigned prec v) (hm : m < 2) (hp : p < 16)
    (hb : BadOrder s.fhBlocksize.toNat p warm.length) :
    StopsAfter (signedFields width ch.toNat 0 warm ++ (lpcFields prec shift coefs
      ++ sectionFields m p ch.toNat warm.length [])) .invalidPartitionOrder s (lpcBody warm.length ch width n s) := by
  refine (reads_signedFields hwarm).bindStop ?_
  rw [hlen] at hb ⊢
  refine (reads_lpcParams h1 h2 h3 hcoefs).bindStop ((stopsAfter_section hm hp ?_).bind _)
  rwa [runFields_lpcFields, runFields_signedFields, storeAll_eq]

/-- A kind whose body stops so: the wasted-bits run and the `SF_*` registers before it (rules R151 and R152). -/
theorem stopsAfter_decodeKind {type order width : Nat} {body : List Field} (hw : w < codedWidth ch.toNat s)
    (hwidth : width = codedWidth ch.toNat s - w) (ht : typeCode k = BitVec.ofNat 2 type) (ho : predictorOrder k = order)
    (hb : ∀ t : State, t.fhBlocksize = s.fhBlocksize →
      StopsAfter body c t (kindBody k ch width s.fhBlocksize.toNat t)) :
    StopsAfter (wastedFields type order w width ++ body) c s (decodeKind ch k (decide (0 < w)) s) := by
  rw [wastedFields, List.append_assoc]
  refine reads_wastedRun.bindStop ?_
  rw [runFields_wastedRun]
  have hfull : fullWidth ch (advance (wastedBits w) s) = codedWidth ch.toNat s := fullWidth_eq _ _
  rw [hfull, if_neg (by omega), ← hwidth]
  have hregs : writeSubframe k w width (advance (wastedBits w) s)
      = (subframeField type order w width).effect (advance (wastedBits w) s) := by
    rw [writeSubframe, ht, ho]
    rfl
  rw [hregs]
  have hbody := hb ((subframeField type order w width).effect (advance (wastedBits w) s)) rfl
  exact StopsAfter.effect (quiet_subframeField type order w width) (hbody.bind _)

/-- The end of a kind that stops so (rules R214 and R215). -/
theorem exec_kind_of_stopsAfter {f : Bool} (hs : s.st ≠ .fault) (hr : SubframeRegisters s)
    (h : StopsAfter fs c s (decodeKind ch k f s)) (hh : Holds (fieldBits fs) s) :
    exec (k.instr ch f) s = .next (faulted c.atFrameLevel.code (runFields fs s)) := by
  rw [exec_kind hs hr, h hh]
  rfl

/-- What the section raises, RESID takes as a part of a frame (rule R214). -/
theorem exec_resid_of_raised (hs : s.st ≠ .fault) (hops : ResidOperands ord s)
    (h : decodeResidual ch ord.toNat { s with blkv := false } = .raised c t) :
    exec (.resid ch ord) s = .next (faulted c.atFrameLevel.code t) := by
  rw [exec_resid hs hops, h]
  rfl

/-- Settles O34: every clause is a law of `decodeResidual`, in RESID or after what stands before it in a kind. -/
theorem residHeaderFaults : Obligations.ResidHeaderFaults := by
  intro ch ord s hs
  refine ⟨fun h => ?operands, fun m p h1 h2 ho hm hp hb hh => ?order, fun m p parts h1 h2 ho hm hp hl => ?cut,
    fun w width m p warm hr hw hwidth hwarm hm hp hb => ⟨fun o i fs hi ho hfs hh => ?fixed,
      fun o prec shift coefs fs hlen h1 h2 h3 hcoefs hfits hfs hh => ?lpc⟩⟩
  case operands =>
    refine exec_resid_of_illegal hs ?_
    rintro ⟨ho, h1, h2⟩
    omega
  case order =>
    have hh : Holds (uBits 1 m ++ uBits 4 p) { s with blkv := false } := (holds_congr (s := s) rfl rfl rfl _).2 hh
    exact exec_resid_of_raised hs ⟨ho, h1, h2⟩ (decodeResidual_of_bad (s := { s with blkv := false }) hm hp hb hh)
  case cut =>
    rw [exec_resid hs ⟨ho, h1, h2⟩]
    exact endsInside_of_cutBy (cutBy_section (s := { s with blkv := false }) hm hp hl) _
  case fixed =>
    subst ho hfs
    obtain ⟨k, predict, rfl, hkind, htype, horder, -⟩ := exists_kind_of_fixed hi
    refine exec_kind_of_stopsAfter (c := .invalidPartitionOrder) hs hr ?_ hh
    rw [List.append_assoc]
    refine stopsAfter_decodeKind hw hwidth htype horder fun t ht => ?_
    rw [hkind]
    exact stopsAfter_fixedBody hwarm hm hp (by rwa [ht])
  case lpc =>
    subst hfs
    refine exec_kind_of_stopsAfter (k := .lpc o) (c := .invalidPartitionOrder) hs hr ?_ hh
    rw [List.append_assoc, List.append_assoc, ← hlen]
    refine stopsAfter_decodeKind (k := .lpc o) hw hwidth rfl hlen.symm fun t ht => ?_
    rw [kindBody_lpc hlen]
    exact stopsAfter_lpcBody (hlen.trans hcoefs.symm) hwarm h1 h2 h3 hfits hm hp (by rwa [ht])

end Sys2Proof.Machine
end

section
/-! PROOFS. The statements of `43_residual.md`, part 3: what RESID and the partition kinds leave unchanged (O49). -/

namespace Sys2Proof.Machine

variable {W : Nat → Prop} {i : Instr} {p : Part} {s t : State} {ch : BitVec 3} {ord : BitVec 6}

/-- An instruction in a parameter slot reads residuals by a part that stays inside its partition (rules R173 to
R177). -/
theorem exists_body_of_slot (h : i.slot = .param0 p ∨ i.slot = .param1 p) :
    ∃ body, RunsPartition i p body ∧ ∀ s, p.first + p.count ≤ Config.maxBlock →
      Does (Span p.ch.toNat p.first (p.first + p.count)) exceptSamples [.unexpectedEnd] s (body s) := by
  rcases h with h | h
  · cases i <;> cases h
    · exact ⟨_, runsPartition_rice4 rfl, fun s hp => does_ricePartition _ hp s⟩
    · exact ⟨_, runsPartition_esc4 rfl, fun s hp => does_escapePartition _ hp s⟩
  · cases i <;> cases h
    · exact ⟨_, runsPartition_rice5 rfl, fun s hp => does_ricePartition _ hp s⟩
    · exact ⟨_, runsPartition_esc5 rfl, fun s hp => does_escapePartition _ hp s⟩

/-- A partition outside its plane has no next state, so a kind that answers one stayed inside (log entry 16). -/
theorem exec_partition_leaves (hi : i.slot = .param0 p ∨ i.slot = .param1 p) (h : exec i s = .next t) :
    Leaves (Span p.ch.toNat p.first (p.first + p.count)) exceptSamples s t := by
  by_cases hs : s.st = .fault
  · obtain rfl := eq_of_exec_of_fault h (by rintro rfl; simp [Instr.slot] at hi) hs
    exact .refl _ _ _
  obtain ⟨body, hrun, hdoes⟩ := exists_body_of_slot hi
  by_cases hp : p.wellFormed = true
  · rw [hrun.exec_eq hs hp] at h
    exact leaves_of_does (hdoes s (of_decide_eq_true hp)) h
  · rw [hrun, streamKind_of_ready hs, inPlane, if_neg hp] at h
    cases h

/-- RESID has cleared `BLKV` before its part, unless it stopped at its checks (rules R32 and R170). -/
theorem exec_resid_leaves (h : exec (.resid ch ord) s = .next t) :
    ∃ b, Leaves (Span ch.toNat ord.toNat s.fhBlocksize.toNat) exceptSection { s with blkv := b } t := by
  by_cases hs : s.st = .fault
  · obtain rfl := eq_of_exec_of_fault h nofun hs
    exact ⟨t.blkv, .refl _ _ _⟩
  by_cases hops : ResidOperands ord s
  · rw [exec_resid hs hops] at h
    obtain ⟨-, -, hn⟩ := hops
    exact ⟨false, leaves_of_does (does_decodeResidual (s := { s with blkv := false }) ch hn) h⟩
  · rw [exec_resid_of_illegal hs hops] at h
    cases h
    exact ⟨s.blkv, leaves_faulted _ _ _ _⟩

theorem Leaves.residual_registers {b : Bool} (h : Leaves W exceptSection { s with blkv := b } t) :
    t = { s with pos := t.pos, crc8 := t.crc8, crc16 := t.crc16, smp := t.smp, ovf := t.ovf, blkv := t.blkv,
                 st := t.st, errCause := t.errCause, errPos := t.errPos, errFrame := t.errFrame,
                 resMethod := t.resMethod, resPorder := t.resPorder } := by
  obtain ⟨u, st, c, p, f, -, hu, rfl⟩ := h
  rw [eq_of_exceptSection hu]

theorem Leaves.sample_registers (h : Leaves W exceptSamples s t) :
    t = { s with pos := t.pos, crc8 := t.crc8, crc16 := t.crc16, smp := t.smp, ovf := t.ovf, st := t.st,
                 errCause := t.errCause, errPos := t.errPos, errFrame := t.errFrame } := by
  obtain ⟨u, st, c, p, f, -, hu, rfl⟩ := h
  rw [eq_of_exceptSamples hu]

theorem not_span_from {c lo hi a : Nat} (h : ∀ j, lo ≤ j → j < hi → a ≠ sampleAddress c j) : ¬Span c lo hi a := by
  rintro ⟨j, hl, hh, rfl⟩
  exact h j hl hh rfl

/-- Settles O49: RESID by `exec_resid_leaves`, the kinds by `exec_partition_leaves`. -/
theorem residFrame : Obligations.ResidFrame := by
  intro i s t h
  refine ⟨?resid, fun p hi => ?kinds⟩
  case resid =>
    rintro ch ord rfl
    obtain ⟨b, hl⟩ := exec_resid_leaves h
    exact ⟨hl.residual_registers, fun a ha => hl.words (not_span_from ha)⟩
  case kinds =>
    have hl := exec_partition_leaves hi h
    exact ⟨hl.sample_registers, fun a ha => hl.words (not_span_from ha)⟩

end Sys2Proof.Machine
end

section
/-! PROOFS. The statements of `44_channel_reconstruct.md`, part 1: what INDEP, LSIDE, RSIDE and MSIDE do, and that
DECORR inverts the forward transforms (O35 to O39).

LSIDE and RSIDE write one plane, so they are one run of stores (Laws/Samples.lean). MSIDE writes two planes in turn:
`MidSideDecoded` says what its loop has done after so many samples. -/

namespace Sys2Proof.Machine

variable {s t : State} {n c : Nat}

/-! ## Channel kinds run alone -/

/-- A channel kind whose loop keeps `STATE`, under a legal block size (rule R185). -/
theorem channelKind_of_legal {body : State → State} (hs : s.st ≠ .fault) (h1 : 1 ≤ s.fhBlocksize.toNat)
    (h2 : s.fhBlocksize.toNat ≤ 65536) (hb : (body s).st = s.st) : channelKind body s = .next (body s) := by
  rw [channelKind_of_ready hs (blocksizeLegal_iff.2 ⟨h1, h2⟩), ← hb]

/-- Settles O35: INDEP's loop is empty. -/
theorem indepChangesNothing : Obligations.IndepChangesNothing :=
  fun _ _ hs h1 h2 => channelKind_of_legal (body := indepChannels) hs h1 h2 rfl

/-! ## LSIDE and RSIDE as one run of stores (rules R187 and R188) -/

/-- Storing the samples before sample `i` of one plane leaves sample `i` of every plane. -/
theorem readSample_storeAll_of_le {d i : Nat} {vs : List Int} (hv : vs.length ≤ i) (hi : i < 65536) :
    readSample d i (storeAll c 0 vs s) = readSample d i s := by
  rw [readSample, sampleWord_storeAll_of_outside, readSample]
  simp only [sampleAddress, Config.maxBlock]
  omega

/-- A loop over a block whose every step stores in one plane a value of planes 0 and 1 at its own index. -/
theorem forSamples_eq_storeAll_map (value : Int → Int → Int) (hn : n ≤ 65536) :
    forSamples (fun i s => writeSample c i (value (readSample 0 i s) (readSample 1 i s)) s) n 0 s
      = storeAll c 0 ((List.range n).map fun i => value (readSample 0 i s) (readSample 1 i s)) s := by
  have h := forSamples_eq_storeAll (c := c) (i := 0) (s := s)
    (value := fun i s => value (readSample 0 i s) (readSample 1 i s))
    (vs := (List.range n).map fun i => value (readSample 0 i s) (readSample 1 i s)) fun j hj => ?_
  · rwa [List.length_map, List.length_range] at h
  · rw [List.length_map, List.length_range] at hj
    have hlen : (((List.range n).map fun i => value (readSample 0 i s) (readSample 1 i s)).take j).length ≤ j :=
      List.length_take_le _ _
    rw [Nat.zero_add, readSample_storeAll_of_le hlen (by omega), readSample_storeAll_of_le hlen (by omega),
      List.getElem_map, List.getElem_range]

theorem lsideChannels_eq (hn : s.fhBlocksize.toNat ≤ 65536) :
    lsideChannels s
      = storeAll 1 0 ((List.range s.fhBlocksize.toNat).map fun i => readSample 0 i s - readSample 1 i s) s :=
  forSamples_eq_storeAll_map (fun left side => left - side) hn

theorem rsideChannels_eq (hn : s.fhBlocksize.toNat ≤ 65536) :
    rsideChannels s
      = storeAll 0 0 ((List.range s.fhBlocksize.toNat).map fun i => readSample 1 i s + readSample 0 i s) s :=
  forSamples_eq_storeAll_map (fun side right => right + side) hn

/-- A kind that is one run of stores. -/
theorem channelKind_of_storeAll {body : State → State} {vs : List Int} (hs : s.st ≠ .fault)
    (h1 : 1 ≤ s.fhBlocksize.toNat) (h2 : s.fhBlocksize.toNat ≤ 65536) (hb : body s = storeAll c 0 vs s) :
    ∃ t, channelKind body s = .next t ∧ Stored c 0 vs s t ∧ Collects vs s t := by
  have hst : (storeAll c 0 vs s).st = s.st := (collects_storeAll c 0 vs s).st
  exact ⟨storeAll c 0 vs s, by rw [channelKind_of_legal hs h1 h2 (by rw [hb, hst]), hb], stored_storeAll _ _ _ _,
    collects_storeAll _ _ _ _⟩

/-- Settles O36: the loop is one run of stores into plane 1. -/
theorem lsideRecoversTheRightChannel : Obligations.LsideRecoversTheRightChannel :=
  fun _ hs h1 h2 => channelKind_of_storeAll hs h1 h2 (lsideChannels_eq h2)

/-- Settles O37: the loop is one run of stores into plane 0. -/
theorem rsideRecoversTheLeftChannel : Obligations.RsideRecoversTheLeftChannel :=
  fun _ hs h1 h2 => channelKind_of_storeAll hs h1 h2 (rsideChannels_eq h2)

/-! ## MSIDE (rule R189) -/

/-- The last step of a loop split off. -/
theorem forSamples_succ_last (step : Nat → State → State) (n i : Nat) (s : State) :
    forSamples step (n + 1) i s = step (i + n) (forSamples step n i s) := by
  induction n generalizing i s with
  | zero => rfl
  | succ n ih => rw [forSamples, ih, forSamples, Nat.add_right_comm, Nat.add_assoc]

/-- The left sample that mid and side of sample `i` give. -/
def leftAt (i : Nat) (s : State) : Int := midSideLeft (readSample 0 i s) (readSample 1 i s)

/-- The right sample that mid and side of sample `i` give. -/
def rightAt (i : Nat) (s : State) : Int := leftAt i s - readSample 1 i s

theorem msideStep_eq (i : Nat) (s : State) :
    msideStep i s = writeSample 1 i (rightAt i s) (writeSample 0 i (leftAt i s) s) := rfl

/-- From `s` to `t` MSIDE has done its first `n` samples: they are left and right in `t`, and every other word is as in
`s`. -/
structure MidSideDecoded (n : Nat) (s t : State) : Prop where
  samples : ∀ i, i < n → sampleWord (sampleAddress 0 i) t = narrow (leftAt i s)
    ∧ sampleWord (sampleAddress 1 i) t = narrow (rightAt i s)
  rest : ∀ a, (∀ i, i < n → a ≠ sampleAddress 0 i ∧ a ≠ sampleAddress 1 i) → sampleWord a t = sampleWord a s
  registers : t = { s with
    smp := t.smp
    ovf := s.ovf || (List.range n).any fun i => narrowLoses (leftAt i s) || narrowLoses (rightAt i s) }

/-- The samples not yet done read as before. -/
theorem MidSideDecoded.readSample_of_lt {d : Nat} (h : MidSideDecoded n s t) (hn : n < 65536) :
    readSample d n t = readSample d n s := by
  rw [readSample, h.rest, readSample]
  intro i hi
  simp only [sampleAddress, Config.maxBlock]
  omega

theorem MidSideDecoded.step (h : MidSideDecoded n s t) (hn : n < 65536) :
    MidSideDecoded (n + 1) s (msideStep n t) := by
  have hleft : leftAt n t = leftAt n s := by rw [leftAt, h.readSample_of_lt hn, h.readSample_of_lt hn, leftAt]
  have hright : rightAt n t = rightAt n s := by rw [rightAt, hleft, h.readSample_of_lt hn, rightAt]
  rw [msideStep_eq, hleft, hright]
  have hword (a : Nat) : sampleWord a (writeSample 1 n (rightAt n s) (writeSample 0 n (leftAt n s) t))
      = if sampleAddress 1 n = a then narrow (rightAt n s)
        else if sampleAddress 0 n = a then narrow (leftAt n s) else sampleWord a t := by
    rw [sampleWord_writeSample, sampleWord_writeSample]
  refine ⟨fun i hi => ?samples, fun a ha => ?rest, ?registers⟩
  case samples =>
    have hi' : i < Config.maxBlock := lt_of_lt_of_le hi hn
    simp only [hword, sampleAddress_inj (show n < Config.maxBlock from hn) hi']
    rcases Nat.lt_succ_iff_lt_or_eq.1 hi with hlt | rfl
    · simpa [hlt.ne'] using h.samples i hlt
    · simp
  case rest =>
    obtain ⟨h0, h1⟩ := ha n (Nat.lt_succ_self n)
    rw [hword, if_neg h1.symm, if_neg h0.symm]
    exact h.rest a fun i hi => ha i (Nat.lt_succ_of_lt hi)
  case registers =>
    rw [h.registers]
    simp only [writeSample, storeSample, List.range_succ, List.any_append, List.any_cons, List.any_nil, Bool.or_false,
      Bool.or_assoc]

theorem midSideDecoded_forSamples (hn : n ≤ 65536) (s : State) : MidSideDecoded n s (forSamples msideStep n 0 s) := by
  induction n with
  | zero => exact ⟨nofun, fun _ _ => rfl, by simp [forSamples]⟩
  | succ n ih =>
    rw [forSamples_succ_last, Nat.zero_add]
    exact (ih (by omega)).step hn

theorem MidSideDecoded.st (h : MidSideDecoded n s t) : t.st = s.st := by rw [h.registers]

theorem exec_mside (hs : s.st ≠ .fault) (h1 : 1 ≤ s.fhBlocksize.toNat) (h2 : s.fhBlocksize.toNat ≤ 65536) :
    ∃ t, exec .mside s = .next t ∧ MidSideDecoded s.fhBlocksize.toNat s t := by
  have h : MidSideDecoded s.fhBlocksize.toNat s (msideChannels s) := midSideDecoded_forSamples h2 s
  exact ⟨msideChannels s, channelKind_of_legal hs h1 h2 h.st, h⟩

/-- Settles O38: `MidSideDecoded` at the end of the block. -/
theorem msideRecoversBothChannels : Obligations.MsideRecoversBothChannels := by
  intro s hs h1 h2
  obtain ⟨t, he, ht⟩ := exec_mside hs h1 h2
  exact ⟨t, he, ht.samples, ht.rest, ht.registers⟩

/-! ## The forward transforms inverted (rules R190 and R192) -/

section Inverse

variable {left right x : Nat → Int} {bits : Nat} {i : Instr}

/-- From `s` to `t`, planes 0 and 1 have become these channels, and no value was cut. -/
structure Recovered (left right : Nat → Int) (s t : State) : Prop where
  st : t.st = s.st
  ovf : t.ovf = s.ovf
  planes : ∀ i, i < s.fhBlocksize.toNat → readSample 0 i t = left i ∧ readSample 1 i t = right i

/-- A word that holds a channel's sample reads as it. -/
theorem readSample_of_narrow {v : Int} {j : Nat} (hbits : bits ≤ 32) (hv : fitsSigned bits v)
    (h : sampleWord (sampleAddress c j) t = narrow v) : readSample c j t = v := by
  rw [readSample, h]
  exact held_of_fits hbits hv

/-- No value of a block that fits its width is cut. -/
theorem narrowLoses_of_fits {v : Int} (hbits : bits ≤ 32) (hv : fitsSigned bits v) : narrowLoses v = false :=
  narrowLoses_eq_false.2 (held_of_fits hbits hv)

/-- A run of stores over the block whose values are a channel: its plane reads as the channel, the others as before,
and no value was cut. -/
theorem channel_of_stored {value : Nat → Int} (hn : n ≤ 65536) (hbits : bits ≤ 32)
    (hx : ∀ j, j < n → value j = x j ∧ fitsSigned bits (x j)) (hstored : Stored c 0 ((List.range n).map value) s t)
    (hc : Collects ((List.range n).map value) s t) :
    t.ovf = s.ovf ∧ ∀ j, j < n → readSample c j t = x j ∧ ∀ d, d ≠ c → readSample d j t = readSample d j s := by
  obtain ⟨hplane, hrest⟩ := hstored
  refine ⟨?ovf, fun j hj => ⟨?plane, fun d hd => ?other⟩⟩
  case ovf =>
    have hany : ((List.range n).map value).any narrowLoses = false := by
      rw [List.any_map, List.any_eq_false]
      intro j hj
      obtain ⟨hval, hfits⟩ := hx j (List.mem_range.1 hj)
      simp [hval, narrowLoses_of_fits hbits hfits]
    rw [hc.eq, hany, Bool.or_false]
  case plane =>
    obtain ⟨hval, hfits⟩ := hx j hj
    have hword := hplane j (by simpa using hj)
    rw [Nat.zero_add, List.getElem_map, List.getElem_range, hval] at hword
    exact readSample_of_narrow hbits hfits hword
  case other =>
    rw [readSample, hrest, readSample]
    simp only [sampleAddress, Config.maxBlock, List.length_map, List.length_range]
    omega

theorem lside_recovers (hs : s.st ≠ .fault) (h1 : 1 ≤ s.fhBlocksize.toNat) (h2 : s.fhBlocksize.toNat ≤ 65536)
    (hbits : bits ≤ 32) (hright : ∀ i, i < s.fhBlocksize.toNat → fitsSigned bits (right i))
    (hx : ∀ i, i < s.fhBlocksize.toNat → readSample 0 i s = left i ∧ readSample 1 i s = left i - right i) :
    ∃ t, exec .lside s = .next t ∧ Recovered left right s t := by
  obtain ⟨t, he, hst, hc⟩ := lsideRecoversTheRightChannel s hs h1 h2
  have hvalue (j : Nat) (hj : j < s.fhBlocksize.toNat) : readSample 0 j s - readSample 1 j s = right j := by
    obtain ⟨hzero, hone⟩ := hx j hj
    rw [hzero, hone, sub_sub_cancel]
  obtain ⟨hovf, hplanes⟩ := channel_of_stored h2 hbits (fun j hj => ⟨hvalue j hj, hright j hj⟩) hst hc
  refine ⟨t, he, Collects.st hc, hovf, fun j hj => ?_⟩
  obtain ⟨hr, hother⟩ := hplanes j hj
  exact ⟨by rw [hother 0 (by decide), (hx j hj).1], hr⟩

theorem rside_recovers (hs : s.st ≠ .fault) (h1 : 1 ≤ s.fhBlocksize.toNat) (h2 : s.fhBlocksize.toNat ≤ 65536)
    (hbits : bits ≤ 32) (hleft : ∀ i, i < s.fhBlocksize.toNat → fitsSigned bits (left i))
    (hx : ∀ i, i < s.fhBlocksize.toNat → readSample 0 i s = left i - right i ∧ readSample 1 i s = right i) :
    ∃ t, exec .rside s = .next t ∧ Recovered left right s t := by
  obtain ⟨t, he, hst, hc⟩ := rsideRecoversTheLeftChannel s hs h1 h2
  have hvalue (j : Nat) (hj : j < s.fhBlocksize.toNat) : readSample 1 j s + readSample 0 j s = left j := by
    obtain ⟨hzero, hone⟩ := hx j hj
    rw [hzero, hone, add_sub_cancel]
  obtain ⟨hovf, hplanes⟩ := channel_of_stored h2 hbits (fun j hj => ⟨hvalue j hj, hleft j hj⟩) hst hc
  refine ⟨t, he, Collects.st hc, hovf, fun j hj => ?_⟩
  obtain ⟨hl, hother⟩ := hplanes j hj
  exact ⟨hl, by rw [hother 1 (by decide), (hx j hj).2]⟩

/-- Mid loses the parity of the sum, and side has it (rule R189). -/
theorem midSideLeft_forward (l r : Int) : midSideLeft ((l + r) / 2) (l - r) = l := by
  unfold midSideLeft
  omega

theorem mside_recovers (hs : s.st ≠ .fault) (h1 : 1 ≤ s.fhBlocksize.toNat) (h2 : s.fhBlocksize.toNat ≤ 65536)
    (hbits : bits ≤ 32)
    (hfits : ∀ i, i < s.fhBlocksize.toNat → fitsSigned bits (left i) ∧ fitsSigned bits (right i))
    (hx : ∀ i, i < s.fhBlocksize.toNat →
      readSample 0 i s = (left i + right i) / 2 ∧ readSample 1 i s = left i - right i) :
    ∃ t, exec .mside s = .next t ∧ Recovered left right s t := by
  obtain ⟨t, he, ht⟩ := exec_mside hs h1 h2
  have hat (j : Nat) (hj : j < s.fhBlocksize.toNat) : leftAt j s = left j ∧ rightAt j s = right j := by
    obtain ⟨hmid, hside⟩ := hx j hj
    have hl : leftAt j s = left j := by rw [leftAt, hmid, hside, midSideLeft_forward]
    exact ⟨hl, by rw [rightAt, hl, hside, sub_sub_cancel]⟩
  have hany : ((List.range s.fhBlocksize.toNat).any fun i => narrowLoses (leftAt i s) || narrowLoses (rightAt i s))
      = false := by
    rw [List.any_eq_false]
    intro j hj
    have hj := List.mem_range.1 hj
    obtain ⟨hl, hr⟩ := hat j hj
    obtain ⟨hfl, hfr⟩ := hfits j hj
    simp [hl, hr, narrowLoses_of_fits hbits hfl, narrowLoses_of_fits hbits hfr]
  refine ⟨t, he, ht.st, by rw [ht.registers, hany, Bool.or_false], fun j hj => ?_⟩
  obtain ⟨hleft, hright⟩ := ht.samples j hj
  obtain ⟨hl, hr⟩ := hat j hj
  obtain ⟨hfl, hfr⟩ := hfits j hj
  rw [hl] at hleft
  rw [hr] at hright
  exact ⟨readSample_of_narrow hbits hfl hleft, readSample_of_narrow hbits hfr hright⟩

/-- DECORR is the kind its code names and then READY (O9). -/
theorem exec_decorr_recovers (hs : s.st ≠ .fault) (h1 : 1 ≤ s.fhBlocksize.toNat) (h2 : s.fhBlocksize.toNat ≤ 65536)
    (hi : decode .channels 4 s.fhChassign.toNat = .ok i)
    (h : ∃ t, exec i { s with blkv := false } = .next t ∧ Recovered left right { s with blkv := false } t) :
    ∃ t, exec .decorr s = .next t ∧ t.st = .ready ∧ t.ovf = s.ovf
      ∧ ∀ i, i < s.fhBlocksize.toNat → readSample 0 i t = left i ∧ readSample 1 i t = right i := by
  obtain ⟨t, he, ht⟩ := h
  obtain ⟨-, hkind, -⟩ := residAndDecorrRunTheDecodedKinds s hs
  have hst : ¬t.st = .fault := by rw [ht.st]; exact hs
  refine ⟨{ t with st := .ready }, ?_, rfl, ht.ovf, ht.planes⟩
  rw [hkind i h1 h2 hi, he, readyUnlessFault, if_neg hst]

/-- Settles O39: DECORR runs LSIDE, RSIDE or MSIDE, and each inverts its forward transform. -/
theorem decorrInvertsTheForwardTransform : Obligations.DecorrInvertsTheForwardTransform := by
  intro left right bits s hs h1 h2 hbits hfits hforward
  have hbits' : bits ≤ 32 := hbits.trans (by decide)
  rcases hforward with ⟨ha, hx⟩ | ⟨ha, hx⟩ | ⟨ha, hx⟩
  · exact exec_decorr_recovers (i := .lside) hs h1 h2 (by rw [ha]; rfl)
      (lside_recovers (s := { s with blkv := false }) hs h1 h2 hbits' (fun j hj => (hfits j hj).2) hx)
  · exact exec_decorr_recovers (i := .rside) hs h1 h2 (by rw [ha]; rfl)
      (rside_recovers (s := { s with blkv := false }) hs h1 h2 hbits' (fun j hj => (hfits j hj).1) hx)
  · exact exec_decorr_recovers (i := .mside) hs h1 h2 (by rw [ha]; rfl)
      (mside_recovers (s := { s with blkv := false }) hs h1 h2 hbits' hfits hx)

end Inverse

end Sys2Proof.Machine
end

section
/-! PROOFS. The statements of `44_channel_reconstruct.md`, part 2: what DECORR and the channel kinds leave unchanged
(O50).

Which words a kind may write is said in Laws/FrameParts.lean (`moves_lsideChannels` to `moves_reconstructChannels`);
that no step touches anything beside sample memory and `OVF` is said here once for all of them. -/

namespace Sys2Proof.Machine

variable {W : Nat → Prop} {i : Instr} {s t : State}

/-! ## What the loops keep -/

/-- Everything but sample memory and `OVF`. -/
def exceptMemory (s : State) : State := { s with smp := [], ovf := false }

theorem eq_of_exceptMemory (h : exceptMemory t = exceptMemory s) : t = { s with smp := t.smp, ovf := t.ovf } := by
  cases s; cases t; simp only [exceptMemory, State.mk.injEq] at h ⊢; tauto

theorem exceptMemory_writeSample (c i : Nat) (v : Int) (s : State) :
    exceptMemory (writeSample c i v s) = exceptMemory s := rfl

theorem exceptMemory_forSamples {step : Nat → State → State} (hs : ∀ j s, exceptMemory (step j s) = exceptMemory s)
    (n i : Nat) (s : State) : exceptMemory (forSamples step n i s) = exceptMemory s := by
  induction n generalizing i s with
  | zero => rfl
  | succ n ih => rw [forSamples, ih, hs]

theorem exceptMemory_lsideChannels (s : State) : exceptMemory (lsideChannels s) = exceptMemory s :=
  exceptMemory_forSamples (step := lsideStep) (fun _ _ => rfl) _ _ s

theorem exceptMemory_rsideChannels (s : State) : exceptMemory (rsideChannels s) = exceptMemory s :=
  exceptMemory_forSamples (step := rsideStep) (fun _ _ => rfl) _ _ s

theorem exceptMemory_msideChannels (s : State) : exceptMemory (msideChannels s) = exceptMemory s :=
  exceptMemory_forSamples (step := msideStep)
    (fun _ _ => by rw [msideStep_eq, exceptMemory_writeSample, exceptMemory_writeSample]) _ _ s

theorem exceptMemory_reconstructChannels (s : State) : exceptMemory (reconstructChannels s) = exceptMemory s := by
  unfold reconstructChannels
  split
  · exact exceptMemory_lsideChannels s
  · exact exceptMemory_rsideChannels s
  · exact exceptMemory_msideChannels s
  · rfl

/-! ## What the instructions leave -/

/-- The instruction writes plane 0 (rules R185, R188 and R189). -/
def WritesLeft (i : Instr) (s : State) : Prop :=
  i = .rside ∨ i = .mside ∨ (i = .decorr ∧ (s.fhChassign = 9 ∨ s.fhChassign = 10))

/-- The instruction writes plane 1 (rules R185, R187 and R189). -/
def WritesRight (i : Instr) (s : State) : Prop :=
  i = .lside ∨ i = .mside ∨ (i = .decorr ∧ (s.fhChassign = 8 ∨ s.fhChassign = 10))

/-- The words a channel instruction may write: the planes it writes, below the block size (rule R234). -/
def ChannelWords (i : Instr) (s : State) (a : Nat) : Prop :=
  (WritesLeft i s ∧ Span 0 0 s.fhBlocksize.toNat a) ∨ (WritesRight i s ∧ Span 1 0 s.fhBlocksize.toNat a)

theorem channelKind_leaves {body : State → State} (hi : ∀ s, exec i s = channelKind body s)
    (hk : exceptMemory (body s) = exceptMemory s)
    (hm : s.fhBlocksize.toNat ≤ Config.maxBlock → Moves W s (body s)) (h : exec i s = .next t) :
    Leaves W exceptMemory s t := by
  rw [hi] at h
  by_cases hs : s.st = .fault
  · rw [channelKind, streamKind_of_fault hs] at h
    cases h
    exact .refl _ _ _
  rw [channelKind, streamKind_of_ready hs] at h
  refine leaves_of_does (C := [.badCommand]) ?_ h
  by_cases hb : blocksizeLegal s = true
  · rw [if_pos hb]
    exact .ok _ (hm (blocksizeLegal_iff.1 hb).2) hk
  · rw [if_neg hb]
    exact .raised _ (by simp) (.refl _ _) rfl

/-- Every channel kind, by the law of its loop. -/
theorem exec_channels_leaves (hi : i.slot = .channels) (h : exec i s = .next t) :
    Leaves (ChannelWords i s) exceptMemory s t := by
  cases i <;> cases hi
  case indep c => exact channelKind_leaves (body := indepChannels) (fun _ => rfl) rfl (fun _ => .refl _ _) h
  case lside =>
    refine channelKind_leaves (fun _ => rfl) (exceptMemory_lsideChannels s) (fun hn => ?_) h
    exact (moves_lsideChannels hn).1.mono fun a ha => .inr ⟨.inl rfl, ha⟩
  case rside =>
    refine channelKind_leaves (fun _ => rfl) (exceptMemory_rsideChannels s) (fun hn => ?_) h
    exact (moves_rsideChannels hn).1.mono fun a ha => .inl ⟨.inl rfl, ha⟩
  case mside =>
    refine channelKind_leaves (fun _ => rfl) (exceptMemory_msideChannels s) (fun hn => ?_) h
    exact (moves_msideChannels hn).1.mono fun a ha =>
      ha.imp (fun h0 => ⟨.inr (.inl rfl), h0⟩) fun h1 => ⟨.inr (.inl rfl), h1⟩

/-- The planes of a code are those DECORR writes under it. -/
theorem channelWords_of_span {a : Nat} (h : ChannelSpan s.fhChassign.toNat s.fhBlocksize.toNat a) :
    ChannelWords .decorr s a := by
  have hcode (c : BitVec 4) (hc : s.fhChassign.toNat = c.toNat) : s.fhChassign = c := BitVec.eq_of_toNat_eq hc
  rcases h with ⟨ha, h0⟩ | ⟨ha, h1⟩
  · exact .inl ⟨.inr (.inr ⟨rfl, ha.imp (hcode 9) (hcode 10)⟩), h0⟩
  · exact .inr ⟨.inr (.inr ⟨rfl, ha.imp (hcode 8) (hcode 10)⟩), h1⟩

/-- DECORR has cleared `BLKV` before its part, unless it stopped at its checks (rules R32 and R185). -/
theorem exec_decorr_leaves (h : exec .decorr s = .next t) :
    ∃ b, Leaves (ChannelWords .decorr s) exceptMemory { s with blkv := b } t := by
  by_cases hs : s.st = .fault
  · obtain rfl := eq_of_exec_of_fault h nofun hs
    exact ⟨t.blkv, .refl _ _ _⟩
  by_cases hl : blocksizeLegal s = true ∧ s.fhChassign.toNat ≤ 10
  · obtain ⟨hb, hc⟩ := hl
    rw [exec_decorr hs hb hc] at h
    cases h
    have hm := (moves_reconstructChannels (s := { s with blkv := false }) (blocksizeLegal_iff.1 hb).2).1
    exact ⟨false, reconstructChannels { s with blkv := false }, _, _, _, _, hm.mono fun _ => channelWords_of_span,
      exceptMemory_reconstructChannels _, rfl⟩
  · rw [exec_decorr_of_illegal hs hl] at h
    cases h
    exact ⟨s.blkv, leaves_faulted _ _ _ _⟩

/-! ## What that says of the registers and of sample memory -/

theorem Leaves.channel_registers {b : Bool} (h : Leaves W exceptMemory { s with blkv := b } t) :
    t = { s with smp := t.smp, ovf := t.ovf, blkv := t.blkv, st := t.st, errCause := t.errCause, errPos := t.errPos,
                 errFrame := t.errFrame } := by
  obtain ⟨u, st, c, p, f, -, hu, rfl⟩ := h
  rw [eq_of_exceptMemory hu]

/-- A channel kind alone leaves `BLKV`. -/
theorem Leaves.channel_blkv (h : Leaves W exceptMemory s t) : t.blkv = s.blkv := by
  obtain ⟨u, st, c, p, f, -, hu, rfl⟩ := h
  rw [eq_of_exceptMemory hu]

theorem not_channelWords {a : Nat} (h : ∀ j, j < s.fhBlocksize.toNat →
    (WritesLeft i s → a ≠ sampleAddress 0 j) ∧ (WritesRight i s → a ≠ sampleAddress 1 j)) : ¬ChannelWords i s a := by
  rintro (⟨hw, hspan⟩ | ⟨hw, hspan⟩)
  · exact not_span (fun j hj => (h j hj).1 hw) hspan
  · exact not_span (fun j hj => (h j hj).2 hw) hspan

/-- Settles O50: DECORR by `exec_decorr_leaves`, the kinds by `exec_channels_leaves`. -/
theorem decorrFrame : Obligations.DecorrFrame := by
  intro i s t hi h
  rcases hi with rfl | hslot
  case inl =>
    obtain ⟨b, hl⟩ := exec_decorr_leaves h
    exact ⟨hl.channel_registers, fun hn => absurd rfl hn, fun a ha => hl.words (not_channelWords ha)⟩
  case inr =>
    have hl := exec_channels_leaves hslot h
    exact ⟨hl.channel_registers (b := s.blkv), fun _ => hl.channel_blkv, fun a ha => hl.words (not_channelWords ha)⟩

end Sys2Proof.Machine
end

section
/-! PROOFS. The statements of `45_frame_assembler.md`, part 1: FRAME is its parts (O41).

The commands of rule R196 from SUBFRAME to ALIGN, issued one after another, end as one command over one part would
(`runAll_frameParts`); FRAME runs that part between its header and its footer (`decodeFrameBody_eq`). -/

namespace Sys2Proof.Machine

variable {i : Instr} {is : List Instr} {ch : BitVec 3} {s t h a r : State} {f g : State → Res Unit}

/-! ## Commands in sequence end as one command -/

/-- The end of a frame-level command over one part (rules R30 and R214). -/
def commandEnd (r : Res Unit) : Host.Outcome State Fault Refusal := finish (atFrameLevel (r.bind fun _ t => endReady t))

/-- How a body that does not read `STATE` ends does not depend on it. -/
theorem finish_uniform {body : State → Res BlockState} (hb : Uniform body) (x : BlockState) (s : State) :
    finish (atFrameLevel (body { s with st := x })) = finish (atFrameLevel (body s)) := by
  rw [hb, atFrameLevel_withSt, finish_withSt]

theorem commandEnd_uniform (hf : Uniform f) (x : BlockState) (s : State) :
    commandEnd (f { s with st := x }) = commandEnd (f s) :=
  finish_uniform (hf.bind fun _ => uniform_endReady uniform_id) x s

theorem runAll_singleton (hi : exec i s = commandEnd (f s)) : runAll [i] s = commandEnd (f s) := by
  rw [runAll, hi]
  cases f s <;> rfl

/-- A command and those after it end as one command over both parts: the next starts in READY, which no part reads. -/
theorem runAll_cons (hg : Uniform g) (hi : exec i s = commandEnd (f s))
    (his : ∀ t, f s = .ok () t → runAll is { t with st := .ready } = commandEnd (g { t with st := .ready })) :
    runAll (i :: is) s = commandEnd ((f s).bind fun _ t => g t) := by
  rw [runAll, hi]
  cases hr : f s with
  | ok _ t => exact (his t hr).trans (commandEnd_uniform hg .ready t)
  | raised c t => rfl
  | stopped e => rfl

/-! ## The parts between header and footer -/

/-- The registers are legal and the output view is not valid, as a frame's header leaves them. -/
def InFrame (s : State) : Prop := SubframeRegisters s ∧ s.blkv = false

theorem InFrame.of_kept (hs : InFrame s) (he : exceptSubframe t = exceptSubframe s) : InFrame t := by
  rw [eq_of_exceptSubframe he]
  exact hs

theorem InFrame.withBlkv (hs : InFrame s) : { s with blkv := false } = s := by
  obtain ⟨-, hb⟩ := hs
  rw [← hb]

theorem exec_subframe_inFrame (hst : s.st ≠ .fault) (hs : InFrame s) :
    exec (.subframe ch) s = commandEnd (decodeSubframe ch s) := by
  rw [exec_subframe hst hs.1, hs.withBlkv]
  rfl

theorem exec_decorr_inFrame (hst : s.st ≠ .fault) (hs : InFrame s) :
    exec .decorr s = commandEnd (.ok () (reconstructChannels s)) := by
  obtain ⟨h1, h2, -, -, hc⟩ := hs.1
  rw [exec_decorr hst (blocksizeLegal_iff.2 ⟨h1, h2⟩) hc, hs.withBlkv]
  rfl

/-- ALIGN raises nothing that a frame-level command would report otherwise (rule R115). -/
theorem exec_align_eq_commandEnd (hst : s.st ≠ .fault) : exec .align s = commandEnd (alignToByte s) := by
  rw [exec_align hst, alignToByte]
  split <;> rfl

/-- What FRAME runs between its header and its footer, from a number of subframes on (rule R195). -/
def subframesOn (left c : Nat) (s : State) : Res Unit :=
  (decodeSubframes left c s).bind fun _ t => alignToByte (reconstructChannels t)

theorem uniform_align_reconstruct : Uniform fun s => alignToByte (reconstructChannels s) :=
  uniform_alignToByte.comp uniform_reconstructChannels

theorem uniform_subframesOn (left c : Nat) : Uniform (subframesOn left c) :=
  (uniform_decodeSubframes left c).bind fun _ => uniform_align_reconstruct

/-- The commands of those parts (rule R196). -/
def partCommands (left c : Nat) : List Instr :=
  (List.range' c left).map (fun c => .subframe (BitVec.ofNat 3 c)) ++ [.decorr, .align]

theorem runAll_partCommands (left c : Nat) (hst : s.st ≠ .fault) (hs : InFrame s) :
    runAll (partCommands left c) s = commandEnd (subframesOn left c s) := by
  induction left generalizing c s with
  | zero =>
    exact runAll_cons (f := fun s => .ok () (reconstructChannels s)) uniform_alignToByte (exec_decorr_inFrame hst hs)
      fun t _ => runAll_singleton (exec_align_eq_commandEnd nofun)
  | succ left ih =>
    obtain ⟨-, hn, -, hb, -⟩ := hs.1
    have hcons := runAll_cons (uniform_subframesOn left (c + 1)) (exec_subframe_inFrame (ch := BitVec.ofNat 3 c) hst hs)
      (is := partCommands left (c + 1)) fun t ht => ih (c + 1) nofun ?_
    · rw [subframesOn, decodeSubframes, Res.bind_assoc]
      exact hcons
    · have hd := does_decodeSubframe (BitVec.ofNat 3 c) hn hb
      rw [ht] at hd
      exact (hs.of_kept hd.2 : InFrame t)

/-- The parts of a frame after its header and before its footer. -/
def frameParts (s : State) : Res Unit := subframesOn s.fhNch.toNat 0 s

theorem runAll_frameParts (hst : s.st ≠ .fault) (hs : InFrame s) :
    runAll ((List.range s.fhNch.toNat).map (fun c => .subframe (BitVec.ofNat 3 c)) ++ [.decorr, .align]) s
      = commandEnd (frameParts s) := by
  rw [List.range_eq_range']
  exact runAll_partCommands _ 0 hst hs

/-- The parts keep what subframes keep (rules R150 to R166, R185 and R198). -/
theorem frameParts_kept (hh : HeaderAccepted s) (hb : s.fhBps.toNat ≤ 32) (hp : s.pos.toNat ≤ sourceEnd s)
    (ht : frameParts s = .ok () t) : exceptSubframe t = exceptSubframe s := by
  obtain ⟨-, hn, -, hnch⟩ := hh
  have hch : 0 + s.fhNch.toNat ≤ Config.maxCh := by
    rw [hnch, channelCount]
    show _ ≤ 8
    split <;> omega
  obtain ⟨_, u, hu, halign⟩ := Res.bind_eq_ok.1 ht
  have hsub := does_decodeSubframes s.fhNch.toNat 0 hn hb hch
  rw [hu] at hsub
  obtain ⟨hm, hku⟩ := hsub
  obtain ⟨hmr, hkr⟩ := moves_reconstructChannels (s := u) (kept_blocksize hku ▸ hn)
  have hd := does_alignToByte (s := reconstructChannels u)
    (by rw [hmr.length]; exact (hmr.forward (by rw [hm.length]; exact (hm.forward hp).2)).2) fun _ => True
  rw [halign] at hd
  have hk : exceptSamples t = exceptSamples u := (except_samples_of_stream hd.2).trans hkr
  exact (except_subframe_of_section (except_section_of_samples hk)).trans hku

theorem footer_registers_of_kept (he : exceptSubframe t = exceptSubframe s) :
    t.fcrcBad = s.fcrcBad ∧ t.strict = s.strict ∧ t.rv = s.rv ∧ t.frameIdx = s.frameIdx := by
  rw [eq_of_exceptSubframe he]
  exact ⟨rfl, rfl, rfl, rfl⟩

/-! ## The footer (rules R199 and R200) -/

/-- What FRAME runs after its parts. -/
def endFrame (s : State) : Res BlockState :=
  (readUnsigned 16 s).bind fun f t => (checkFooter s.crc16 f t).bind fun _ t => endReady (yieldBlock t)

theorem uniform_endFrame : Uniform endFrame := by
  intro x s
  rw [endFrame, uniform_readUnsigned 16 x s, endFrame]
  cases readUnsigned 16 s with
  | ok f t => exact (uniform_checkFooter s.crc16 f).bind (fun _ => uniform_endReady (g := yieldBlock) fun _ _ => rfl) x t
  | raised c t => rfl
  | stopped e => rfl

theorem endFrame_of_short (hend : sourceEnd a < a.pos.toNat + 16) :
    finish (atFrameLevel (endFrame a)) = .next (faulted 7 a) := by
  rw [endFrame, readUnsigned_of_short hend]
  rfl

/-- A footer delivered in `RV` is the checksum exactly when the numbers are equal. -/
theorem footer_eq_iff {v : Nat} (hv : v < 2 ^ 16) (c : BitVec 16) : BitVec.ofNat 64 v = c.setWidth 64 ↔ v = c.toNat := by
  have := c.isLt
  rw [← BitVec.toNat_inj, BitVec.toNat_ofNat, BitVec.toNat_setWidth]
  omega

/-- The end of a frame over the footer as RDU 16 reads it, under the policy (rules R196 and R199). -/
theorem endFrame_of_rdu (hst : a.st ≠ .fault) (hf : a.fcrcBad = false) (hr : exec (.rdu 16) a = .next r)
    (hready : r.st = .ready) :
    finish (atFrameLevel (endFrame a)) = .next (
      if r.rv = a.crc16.setWidth 64 ∨ a.strict = false then
        { r with
          rv := a.rv
          fcrcBad := decide (r.rv ≠ a.crc16.setWidth 64)
          frameIdx := a.frameIdx + 1
          blkv := true }
      else faulted 8 { r with rv := a.rv }) := by
  rw [exec_rdu hst, if_neg (by decide)] at hr
  change finish ((readUnsigned 16 a).bind _) = _ at hr
  rw [endFrame]
  rcases readUnsigned_cases 16 a with ⟨-, -, e⟩ | ⟨-, e⟩
  · have hv : bitsValue 0 (nextBits 16 a) < 2 ^ 16 := by simpa using bitsValue_lt (nextBits 16 a)
    rw [e] at hr ⊢
    cases hr
    simp only [Res.bind_ok, checkFooter, footer_eq_iff hv, ne_eq]
    by_cases hmatch : bitsValue 0 (nextBits 16 a) = a.crc16.toNat
    · rw [if_pos hmatch, if_pos (.inl hmatch), decide_eq_false (not_not_intro hmatch), ← hf]
      rfl
    rw [if_neg hmatch, decide_eq_true hmatch, advance_strict]
    by_cases hstrict : a.strict = true
    · rw [if_pos hstrict, if_neg (by simp [hmatch, hstrict])]
      rfl
    · rw [if_neg hstrict, if_pos (.inr (Bool.eq_false_iff.2 hstrict))]
      rfl
  · rw [e] at hr
    cases hr
    cases hready

/-! ## FRAME over its parts -/

theorem exec_framehdr (hs : s.st ≠ .fault) : exec .framehdr s = finish (atFrameLevel (decodeFrameHeader s)) :=
  frameCommand_of_ready hs

theorem exec_frame (hs : s.st ≠ .fault) : exec .frame s = finish (atFrameLevel (decodeFrame s)) :=
  frameCommand_of_ready hs

/-- A header that did not end READY is the whole frame (rules R195 and R201). -/
theorem exec_frame_of_headerEnd (hs : s.st ≠ .fault) (hh : exec .framehdr s = .next h) (hst : h.st ≠ .ready) :
    exec .frame s = .next h := by
  rw [exec_framehdr hs] at hh
  rw [exec_frame hs, decodeFrame, ← hh]
  cases hr : decodeFrameHeader s with
  | ok st u =>
    rw [hr] at hh
    cases hh
    cases st with
    | ready => exact absurd rfl hst
    | done => rfl
    | fault => rfl
  | raised c u => rfl
  | stopped e => rfl

/-- A header that ended READY: what it kept of the state, and what it accepted. -/
structure HeaderRead (s h : State) : Prop where
  kept : exceptHeader h = exceptHeader { clearFrameFlags s with st := .ready }
  accepted : HeaderAccepted h
  cursor : h.pos.toNat ≤ sourceEnd h

/-- After a header that ended READY, FRAME goes on from where it ended. -/
theorem exec_frame_of_headerRead (hs : s.st ≠ .fault) (hh : exec .framehdr s = .next h) (hst : h.st = .ready) :
    exec .frame s = finish (atFrameLevel (decodeFrameBody h)) ∧ HeaderRead s h := by
  have hheader := all_decodeFrameHeader s
  rw [exec_framehdr hs] at hh
  rw [exec_frame hs, decodeFrame]
  cases hr : decodeFrameHeader s with
  | ok st u =>
    rw [hr] at hh hheader
    cases hh
    obtain rfl : st = .ready := hst
    obtain ⟨hdone, -⟩ | ⟨-, -, hk, hacc, hp⟩ := hheader
    · cases hdone
    · exact ⟨(finish_uniform uniform_decodeFrameBody .ready u).symm,
        congrArg (fun t : State => { t with st := .ready }) hk, hacc, hp⟩
  | raised c u =>
    rw [hr] at hh
    cases hh
    cases hst
  | stopped e =>
    rw [hr] at hh
    cases hh

theorem HeaderRead.registers (h' : HeaderRead s h) :
    h.blkv = false ∧ h.fcrcBad = false ∧ h.strict = s.strict ∧ h.rv = s.rv ∧ h.frameIdx = s.frameIdx := by
  rw [eq_of_exceptHeader h'.kept]
  exact ⟨rfl, rfl, rfl, rfl, rfl⟩

/-- FRAME after its header: the parts, then the footer (rule R195). -/
theorem decodeFrameBody_eq (hb : bpsLegal s = true) : decodeFrameBody s = (frameParts s).bind fun _ t => endFrame t := by
  rw [decodeFrameBody, if_neg (by simp [hb]), frameParts, subframesOn, Res.bind_assoc]
  simp only [readFooter, endFrame, Res.bind_assoc]

theorem bpsLegal_iff : bpsLegal s = true ↔ 4 ≤ s.fhBps.toNat ∧ s.fhBps.toNat ≤ 32 := by
  simp only [bpsLegal, Bool.and_eq_true, decide_eq_true_eq]

theorem decodeFrameBody_of_illegal (hb : s.fhBps.toNat < 4 ∨ 32 < s.fhBps.toNat) :
    decodeFrameBody s = .raised .badCommand s := by
  have hb : bpsLegal s = false := Bool.eq_false_iff.2 fun h => by have := bpsLegal_iff.1 h; omega
  rw [decodeFrameBody, hb]
  rfl

theorem HeaderRead.inFrame (h' : HeaderRead s h) (h1 : 4 ≤ h.fhBps.toNat) (h2 : h.fhBps.toNat ≤ 32) : InFrame h := by
  obtain ⟨hn1, hn2, hc, -⟩ := h'.accepted
  exact ⟨⟨hn1, hn2, h1, h2, hc⟩, h'.registers.1⟩

/-- Settles O41: the commands of the parts end as the part FRAME runs after its header, before its footer. -/
theorem frameIsItsParts : Obligations.FrameIsItsParts := by
  intro s h hs hh
  refine ⟨exec_frame_of_headerEnd hs hh, fun hst hb => ?illegal, fun a hst h1 h2 hrun => ?parts⟩
  all_goals obtain ⟨hframe, hread⟩ := exec_frame_of_headerRead hs hh hst
  case illegal =>
    rw [hframe, decodeFrameBody_of_illegal hb]
    rfl
  case parts =>
    obtain ⟨-, hf, hstrict, hrv, hidx⟩ := hread.registers
    rw [runAll_frameParts (by rw [hst]; nofun) (hread.inFrame h1 h2)] at hrun
    rw [hframe, decodeFrameBody_eq (bpsLegal_iff.2 ⟨h1, h2⟩)]
    cases hparts : frameParts h with
    | ok _ u =>
      have hkept := frameParts_kept hread.accepted h2 hread.cursor hparts
      have hend := finish_uniform uniform_endFrame .ready u
      rw [hparts] at hrun
      cases hrun
      obtain ⟨hf', hstrict', hrv', hidx'⟩ := footer_registers_of_kept hkept
      rw [Res.bind_ok, ← hend]
      refine ⟨fun hready => absurd rfl hready, fun _ => endFrame_of_short, fun r _ hr hready => ?_⟩
      rw [endFrame_of_rdu (a := { u with st := .ready }) nofun (hf'.trans hf) hr hready]
      simp only [hstrict'.trans hstrict, hrv'.trans hrv, hidx'.trans hidx]
    | raised c u =>
      rw [hparts] at hrun
      cases hrun
      exact ⟨fun _ => rfl, nofun, fun _ => nofun⟩
    | stopped e =>
      rw [hparts] at hrun
      cases hrun

end Sys2Proof.Machine
end

section
/-! PROOFS. The statements of `45_frame_assembler.md`, part 2: FRAME over a whole frame of VERBATIM channels (O40).

A VERBATIM subframe leaves its plane filled and beside it only the `SF_*` registers; one after another they fill the
planes (`decodeSubframes_of_planes`). The header before them and the padding and footer after them are those of part 1. -/

namespace Sys2Proof.Machine

variable {ch : BitVec 3} {s t u z : State} {xs : List Int} {planes : List (List Int)} {pad bits : List Bool} {width : Nat}

/-! ## One plane (rule R154) -/

/-- A VERBATIM subframe without wasted bits. -/
def planeBits (width : Nat) (xs : List Int) : List Bool := subframeHeaderBits .verbatim 0 ++ xs.flatMap (sBits width)

/-- Everything but sample memory and the `SF_*` registers. -/
def exceptPlanes (s : State) : State := { s with smp := [], sfType := 0, sfOrder := 0, sfWasted := 0, sfWidth := 0 }

theorem eq_of_exceptPlanes (h : exceptPlanes t = exceptPlanes s) :
    t = { s with smp := t.smp, sfType := t.sfType, sfOrder := t.sfOrder, sfWasted := t.sfWasted, sfWidth := t.sfWidth } := by
  cases s; cases t; simp only [exceptPlanes, State.mk.injEq] at h ⊢; tauto

theorem exceptPlanes_advance (h : exceptPlanes t = exceptPlanes s) :
    exceptPlanes (advance bits t) = exceptPlanes (advance bits s) := congrArg (advance bits) h

theorem exceptPlanes_storeAll {c i : Nat} (h : ∀ x ∈ xs, narrowLoses x = false) (s : State) :
    exceptPlanes (storeAll c i xs s) = exceptPlanes s := by
  have hany : xs.any narrowLoses = false := List.any_eq_false.2 fun x hx => by simp [h x hx]
  rw [storeAll_eq, hany, Bool.or_false]
  rfl

theorem holds_of_exceptPlanes (h : exceptPlanes t = exceptPlanes s) : Holds bits t ↔ Holds bits s := by
  rw [eq_of_exceptPlanes h]
  exact holds_congr rfl rfl rfl bits

/-- A frame of independent channels of this width and block size. -/
structure PlainFrame (width n : Nat) (s : State) : Prop where
  channels : s.fhChassign.toNat ≤ 7
  bps : s.fhBps.toNat = width
  blocksize : s.fhBlocksize.toNat = n

theorem PlainFrame.of_kept {n : Nat} (hs : PlainFrame width n s) (h : exceptPlanes t = exceptPlanes (advance bits s)) :
    PlainFrame width n t := by
  rw [eq_of_exceptPlanes h]
  exact ⟨hs.channels, hs.bps, hs.blocksize⟩

/-- No independent channel is a side channel (rule R152). -/
theorem PlainFrame.codedWidth_eq {n : Nat} (hs : PlainFrame width n s) (c : Nat) : codedWidth c s = width := by
  have := hs.channels
  rw [codedWidth, hs.bps, if_neg (by simp; omega), Nat.add_zero]

/-- The samples of one channel: a block of them, each of this width. -/
def PlaneFits (width n : Nat) (xs : List Int) : Prop := xs.length = n ∧ ∀ x ∈ xs, fitsSigned width x

/-- VERBATIM after its header byte: the samples, and no shift (rules R154 and R157). -/
theorem decodeKind_of_plane {n : Nat} (hs : PlainFrame width n s) (h1 : 0 < width) (hx : PlaneFits width n xs)
    (hh : Holds (xs.flatMap (sBits width)) s) :
    decodeKind ch .verbatim (decide (0 < 0)) s
      = .ok () (storeAll ch.toNat 0 xs (advance (xs.flatMap (sBits width)) (writeSubframe .verbatim 0 width s))) := by
  obtain ⟨hlen, hfits⟩ := hx
  have hw := hs.codedWidth_eq ch.toNat
  have hbody := verbatimBody_of_holds (ch := ch) (s := writeSubframe .verbatim 0 width s) hfits
    ((holds_congr (s := s) rfl rfl rfl _).2 hh)
  have hnone : Holds (wastedBits 0) s := holds_nil.2 (by have := hh.1; omega)
  rw [decodeKind_of_holds (hw.symm ▸ h1) hnone, hw, hs.blocksize, ← hlen, Nat.sub_zero, wastedBits, if_pos rfl,
    advance_nil, kindBody, hbody]
  rfl

/-- SUBFRAME's part over a VERBATIM subframe: its plane is filled, and no value is cut (rules R150 to R154). -/
theorem decodeSubframe_of_plane {n : Nat} (hs : PlainFrame width n s) (h1 : 0 < width) (h2 : width ≤ 32)
    (hx : PlaneFits width n xs) (hh : Holds (planeBits width xs) s) :
    ∃ t, decodeSubframe ch s = .ok () t ∧ Stored ch.toNat 0 xs s t
      ∧ exceptPlanes t = exceptPlanes (advance (planeBits width xs) s) := by
  have hbits : planeBits width xs = uBits 8 (headerByte .verbatim (decide (0 < 0))) ++ xs.flatMap (sBits width) := by
    rw [planeBits, subframeHeaderBits_eq, List.append_assoc]
    rfl
  rw [hbits] at hh ⊢
  have hkind := decodeKind_of_plane (ch := ch) (s := advance _ s) ⟨hs.channels, hs.bps, hs.blocksize⟩ h1 hx hh.right
  refine ⟨_, (decodeSubframe_of_headerByte hh.left).trans hkind, stored_storeAll _ _ _ _, ?_⟩
  rw [exceptPlanes_storeAll fun x hx' => narrowLoses_of_fits h2 (hx.2 x hx'), advance_append]
  rfl

/-! ## The planes one after another (rule R196) -/

/-- From `s` to `t` these planes are filled, from plane `c` on, and the planes before it read as before. -/
structure PlanesStored (width c : Nat) (planes : List (List Int)) (s t : State) : Prop where
  filled : ∀ (d i : Nat) (hd : d < planes.length) (hi : i < planes[d].length),
    sampleWord (sampleAddress (c + d) i) t = narrow planes[d][i]
  below : ∀ d i, d < c → i < 65536 → sampleWord (sampleAddress d i) t = sampleWord (sampleAddress d i) s
  kept : exceptPlanes t = exceptPlanes (advance (planes.flatMap (planeBits width)) s)

theorem decodeSubframes_of_planes {n c : Nat} (hs : PlainFrame width n s) (h1 : 0 < width) (h2 : width ≤ 32)
    (hn : n ≤ 65536) (hc : c + planes.length ≤ 8) (hx : ∀ xs ∈ planes, PlaneFits width n xs)
    (hh : Holds (planes.flatMap (planeBits width)) s) :
    ∃ t, decodeSubframes planes.length c s = .ok () t ∧ PlanesStored width c planes s t := by
  induction planes generalizing c s with
  | nil => exact ⟨s, rfl, nofun, fun _ _ _ _ => rfl, by simp⟩
  | cons xs planes ih =>
    rw [List.flatMap_cons] at hh
    rw [List.length_cons] at hc
    have hplane : (BitVec.ofNat 3 c).toNat = c := by rw [BitVec.toNat_ofNat]; omega
    have hxs := hx xs List.mem_cons_self
    obtain ⟨t, ht, ⟨hfill, hrest⟩, hkept⟩ := decodeSubframe_of_plane (ch := BitVec.ofNat 3 c) hs h1 h2 hxs hh.left
    rw [hplane] at hfill hrest
    obtain ⟨u, hu, hus⟩ := ih (c := c + 1) (hs.of_kept hkept) (by omega) (fun ys hys => hx ys (List.mem_cons_of_mem _ hys))
      ((holds_of_exceptPlanes hkept).2 hh.right)
    refine ⟨u, ?_, ?filled, ?below, ?kept⟩
    · rw [List.length_cons, decodeSubframes, ht]
      exact hu
    case filled =>
      intro d i hd hi
      cases d with
      | zero =>
        have hi' : i < xs.length := hi
        have hword := hfill i hi'
        rw [Nat.zero_add] at hword
        exact (hus.below c i (Nat.lt_succ_self c) (by have := hxs.1; omega)).trans hword
      | succ d =>
        rw [show c + (d + 1) = c + 1 + d by omega]
        exact hus.filled d i (Nat.lt_of_succ_lt_succ hd) hi
    case below =>
      intro d i hd hi
      rw [hus.below d i (by omega) hi]
      refine hrest _ ?_
      simp only [sampleAddress, Config.maxBlock]
      omega
    case kept =>
      rw [hus.kept, exceptPlanes_advance hkept, List.flatMap_cons, advance_append]

/-! ## Padding and footer (rules R198 to R200) -/

theorem paddingBits_of_aligned {n : Nat} (hn : n < 8) (ha : (s.pos.toNat + n) % 8 = 0) : n = paddingBits s := by
  rw [paddingBits]
  omega

/-- A footer that is the checksum before it yields the block. -/
theorem endFrame_of_holds (hh : Holds (uBits 16 s.crc16.toNat) s) :
    endFrame s = endReady (yieldBlock (advance (uBits 16 s.crc16.toNat) s)) := by
  rw [endFrame, readUnsigned_of_holds s.crc16.isLt hh, Res.bind_ok, checkFooter, if_pos rfl]
  rfl

/-- FRAME after a header: the planes, the padding and the footer. -/
theorem decodeFrameBody_of_planes {n : Nat} (hs : PlainFrame width n z) (h1 : 4 ≤ width) (h2 : width ≤ 32)
    (hn : n ≤ 65536) (hnch : z.fhNch.toNat = planes.length) (hc : planes.length ≤ 8)
    (hx : ∀ xs ∈ planes, PlaneFits width n xs) (hpad : pad.length < 8)
    (hbits : bits = planes.flatMap (planeBits width) ++ pad) (ha : (z.pos.toNat + bits.length) % 8 = 0)
    (hh : Holds (bits ++ uBits 16 (bits.foldl crc16Step z.crc16).toNat) z) :
    ∃ u, PlanesStored width 0 planes z u ∧ decodeFrameBody z
      = endReady (yieldBlock (advance (uBits 16 (bits.foldl crc16Step z.crc16).toNat) (advance pad u))) := by
  subst hbits
  obtain ⟨u, hu, hstored⟩ := decodeSubframes_of_planes (c := 0) hs (by omega) h2 hn (by omega) hx hh.left.left
  have hpadding : Holds pad u := (holds_of_exceptPlanes hstored.kept).2 hh.left.right
  have hpos : u.pos = (advance (planes.flatMap (planeBits width)) z).pos := by rw [eq_of_exceptPlanes hstored.kept]
  have hchannels : u.fhChassign = z.fhChassign := by rw [eq_of_exceptPlanes hstored.kept]; rfl
  have hcrc : (advance pad u).crc16 = (planes.flatMap (planeBits width) ++ pad).foldl crc16Step z.crc16 := by
    rw [eq_of_exceptPlanes hstored.kept, List.foldl_append]
    rfl
  have halign := alignToByte_of_holds hpadding (paddingBits_of_aligned hpad (by
    rw [hpos, hh.left.left.pos_advance, Nat.add_assoc, ← List.length_append]
    exact ha))
  have hfooter := hh.right
  rw [advance_append, ← hcrc] at hfooter
  refine ⟨u, hstored, ?_⟩
  rw [decodeFrameBody_eq (bpsLegal_iff.2 (hs.bps ▸ ⟨h1, h2⟩)), frameParts, subframesOn, hnch, hu, Res.bind_ok,
    reconstructChannels_of_indep (hchannels ▸ hs.channels), indepChannels, halign, Res.bind_ok, ← hcrc]
  exact endFrame_of_holds ((holds_of_exceptPlanes (exceptPlanes_advance hstored.kept)).2 hfooter)

/-! ## The header (rules R134 to R143) -/

theorem blockSizeOf_le {b x : Nat} (hb : b < 16) (hx : x < 2 ^ 16) : blockSizeOf b x ≤ 65536 := by
  unfold blockSizeOf
  split
  · decide
  split
  · have : 2 ^ (b - 2) ≤ 2 ^ 3 := Nat.pow_le_pow_right (by decide) (by omega)
    omega
  split
  · omega
  · have : 2 ^ (b - 8) ≤ 2 ^ 7 := Nat.pow_le_pow_right (by decide) (by omega)
    omega

theorem HeaderFields.legal.blockSize_le {h : HeaderFields} (hl : h.legal) : blockSizeOf h.block h.blockExt ≤ 65536 := by
  obtain ⟨-, -, hb, -, -, -, -, -, hx, -⟩ := hl
  refine blockSizeOf_le hb ?_
  split at hx <;> omega

/-- A header with its checksum. -/
def checkedHeaderBits (h : HeaderFields) : List Bool := headerBits h ++ uBits 8 ((headerBits h).foldl crc8Step 0).toNat

theorem holds_registers (h : HeaderFields) (c : BitVec 8) : Holds bits (h.registers c s) ↔ Holds bits s :=
  holds_congr rfl rfl rfl bits

/-- The state after such a header. -/
def afterHeader (h : HeaderFields) (s : State) : State :=
  h.registers ((headerBits h).foldl crc8Step 0) (advance (checkedHeaderBits h) (zeroChecksums (clearFrameFlags s)))

theorem Holds.afterHeader {h : HeaderFields} (hh : Holds (checkedHeaderBits h ++ bits) s) : Holds bits (afterHeader h s) :=
  (holds_registers h _).2 ((holds_congr (s := s) (t := zeroChecksums (clearFrameFlags s)) rfl rfl rfl _).2 hh).right

/-- The cursor, the checksum and the flags after the header. -/
theorem afterHeader_fields (h : HeaderFields) (s : State) :
    (afterHeader h s).pos = (advance (checkedHeaderBits h) s).pos
      ∧ (afterHeader h s).crc16 = (checkedHeaderBits h).foldl crc16Step 0
      ∧ (afterHeader h s).hcrcBad = false ∧ (afterHeader h s).fcrcBad = false ∧ (afterHeader h s).ovf = s.ovf
      ∧ (afterHeader h s).frameIdx = s.frameIdx := by
  rw [afterHeader]
  generalize checkedHeaderBits h = header
  generalize (headerBits h).foldl crc8Step 0 = c
  exact ⟨rfl, rfl, rfl, rfl, rfl, rfl⟩

theorem decodeFrameHeader_of_checked {h : HeaderFields} (ha : s.pos.toNat % 8 = 0) (hv : s.siValid = true) (hl : h.legal)
    (hh : Holds (checkedHeaderBits h) s) : decodeFrameHeader s = .ok .ready (afterHeader h s) := by
  rw [decodeFrameHeader_of_begun ha hv (hh.pos_ne_sourceEnd (by simp [checkedHeaderBits])),
    readHeader_of_holds hl (holds_clearFrameFlags.2 hh), checkHeaderChecksum_toNat, if_pos rfl, Res.bind_ok, Res.bind_ok,
    endReady, afterHeader, checkedHeaderBits]

/-- The registers of a header of independent channels, as numbers (rule R142). -/
theorem afterHeader_registers {h : HeaderFields} (hl : h.legal) (hc : h.channels ≤ 7)
    (hz : sampleSizeOf h.size s.siBps.toNat ≤ 32) :
    PlainFrame (sampleSizeOf h.size s.siBps.toNat) (blockSizeOf h.block h.blockExt) (afterHeader h s)
      ∧ (afterHeader h s).fhNch.toNat = h.channels + 1 ∧ (afterHeader h s).fhNumber.toNat = h.number := by
  have hn := hl.blockSize_le
  obtain ⟨-, -, -, -, -, -, -, hnum, -, -⟩ := hl
  have hch : h.channels < 8 := by omega
  have hsize : (clearFrameFlags s).siBps = s.siBps := rfl
  simp only [afterHeader, HeaderFields.registers, advance_siBps, zeroChecksums_siBps, hsize, if_pos hch]
  refine ⟨⟨?_, ?_, ?_⟩, ?_, ?_⟩ <;> simp only [BitVec.toNat_ofNat] <;> omega

/-! ## The output view (rule R44) -/

theorem outputSample_interleaved {n c i : Nat} (hv : t.blkv = true) (hnch : t.fhNch.toNat = n) (hn : n ≤ 8) (hc : c < n)
    (hi : i < t.fhBlocksize.toNat) (hb : t.fhBlocksize.toNat ≤ 65536) :
    outputSample (i * n + c) t = some (sampleWord (sampleAddress c i) t) := by
  have hmod : (i * n + c) % n = c := by rw [Nat.mul_add_mod', Nat.mod_eq_of_lt hc]
  have hdiv : (i * n + c) / n = i := by
    rw [Nat.add_comm, Nat.add_mul_div_right _ _ (by omega), Nat.div_eq_of_lt hc, Nat.zero_add]
  have hlt : i * n + c < t.fhBlocksize.toNat * n := calc
    i * n + c < (i + 1) * n := by rw [Nat.succ_mul]; omega
    _ ≤ t.fhBlocksize.toNat * n := Nat.mul_le_mul_right n hi
  rw [outputSample, hnch, hmod, hdiv, hv, if_pos]
  simp only [Bool.true_and, Bool.and_eq_true, decide_eq_true_eq]
  exact ⟨⟨hlt, by show c < 8; omega⟩, by show i < 65536; omega⟩

/-! ## The whole frame -/

/-- A frame before its footer. -/
def frameBits (h : HeaderFields) (width : Nat) (planes : List (List Int)) (pad : List Bool) : List Bool :=
  checkedHeaderBits h ++ (planes.flatMap (planeBits width) ++ pad)

/-- The state FRAME ends in after the planes: padding and footer consumed, the block yielded (rule R200). -/
def afterFrame (pad footer : List Bool) (u : State) : State :=
  { yieldBlock (advance footer (advance pad u)) with st := .ready }

theorem finish_endReady (s : State) : finish (atFrameLevel (endReady s)) = .next { s with st := .ready } := rfl

/-- FRAME over a header of independent channels, the planes, padding and the footer. -/
theorem exec_frame_of_planes {h : HeaderFields} {crc : BitVec 16} (hs : s.st ≠ .fault) (ha : s.pos.toNat % 8 = 0)
    (hv : s.siValid = true) (hl : h.legal) (hplain : PlainFrame width (blockSizeOf h.block h.blockExt) (afterHeader h s))
    (hnch : (afterHeader h s).fhNch.toNat = planes.length) (hc : planes.length ≤ 8) (h1 : 4 ≤ width) (h2 : width ≤ 32)
    (hx : ∀ xs ∈ planes, PlaneFits width (blockSizeOf h.block h.blockExt) xs) (hpad : pad.length < 8)
    (hlen : (frameBits h width planes pad).length % 8 = 0) (hcrc : crc = (frameBits h width planes pad).foldl crc16Step 0)
    (hh : Holds (frameBits h width planes pad ++ uBits 16 crc.toNat) s) :
    ∃ u, PlanesStored width 0 planes (afterHeader h s) u
      ∧ exec .frame s = .next (afterFrame pad (uBits 16 crc.toNat) u) := by
  obtain ⟨hpos, hcrc16, -⟩ := afterHeader_fields h s
  rw [frameBits, List.foldl_append, ← hcrc16] at hcrc
  rw [frameBits, List.append_assoc, hcrc] at hh
  rw [frameBits, List.length_append] at hlen
  obtain ⟨u, hu, hframe⟩ := decodeFrameBody_of_planes hplain h1 h2 hl.blockSize_le hnch hc hx hpad rfl
    (by rw [hpos, hh.left.pos_advance, Nat.add_assoc, Nat.add_mod, ha, hlen]) hh.afterHeader
  refine ⟨u, hu, ?_⟩
  rw [exec_frame hs, decodeFrame, decodeFrameHeader_of_checked ha hv hl hh.left, Res.bind_ok, hcrc]
  dsimp only
  rw [hframe, finish_endReady, afterFrame]

/-- The flags and the frame index at the end of the frame; the header's registers stay (rules R33, R142 and R200). -/
theorem PlanesStored.afterFrame_registers {h : HeaderFields} (hu : PlanesStored width 0 planes (afterHeader h s) u)
    (pad footer : List Bool) :
    (afterFrame pad footer u).hcrcBad = false ∧ (afterFrame pad footer u).fcrcBad = false
      ∧ (afterFrame pad footer u).ovf = s.ovf ∧ (afterFrame pad footer u).frameIdx = s.frameIdx + 1
      ∧ (afterFrame pad footer u).fhBlocksize = (afterHeader h s).fhBlocksize
      ∧ (afterFrame pad footer u).fhNch = (afterHeader h s).fhNch ∧ (afterFrame pad footer u).fhBps = (afterHeader h s).fhBps
      ∧ (afterFrame pad footer u).fhNumber = (afterHeader h s).fhNumber := by
  obtain ⟨-, -, hhcrc, hfcrc, hovf, hidx⟩ := afterHeader_fields h s
  generalize afterHeader h s = z at *
  rw [eq_of_exceptPlanes hu.kept]
  exact ⟨hhcrc, hfcrc, hovf, congrArg (· + 1) hidx, rfl, rfl, rfl, rfl⟩

/-- The cursor and the checksum at the end of the frame have taken in all its bits (rule R111). -/
theorem PlanesStored.afterFrame_stream {h : HeaderFields} (hu : PlanesStored width 0 planes (afterHeader h s) u)
    (pad footer : List Bool) :
    (afterFrame pad footer u).pos = (advance (frameBits h width planes pad ++ footer) s).pos
      ∧ (afterFrame pad footer u).crc16 = (frameBits h width planes pad ++ footer).foldl crc16Step 0 := by
  obtain ⟨hpos, hcrc, -⟩ := afterHeader_fields h s
  rw [frameBits, List.append_assoc, advance_append, List.foldl_append, advance_pos, ← hpos, ← hcrc]
  generalize afterHeader h s = z at *
  rw [eq_of_exceptPlanes hu.kept, ← advance_pos, advance_append, advance_append, List.foldl_append, List.foldl_append]
  exact ⟨rfl, rfl⟩

/-- Settles O40: the header leaves the registers, the parts fill the planes, and the footer is the checksum. -/
theorem frameYieldsItsBlock : Obligations.FrameYieldsItsBlock := by
  intro h planes pad s hs ha hv hl hc hplanes hz4 hz32 hx header body hpad hlen hh
  have hbody : body = frameBits h (sampleSizeOf h.size s.siBps.toNat) planes pad := List.append_assoc _ _ _
  clear_value body
  subst hbody
  obtain ⟨hplain, hnch, hnum⟩ := afterHeader_registers (s := s) hl hc hz32
  obtain ⟨u, hu, hexec⟩ := exec_frame_of_planes hs ha hv hl hplain (hnch.trans hplanes.symm) (by omega) hz4 hz32 hx hpad hlen
    rfl hh
  generalize hfooter : uBits 16 (List.foldl crc16Step 0 (frameBits h _ planes pad)).toNat = footer at hh hexec
  obtain ⟨hhcrc, hfcrc, hovf, hidx, hblock, hchannels, hbps, hnumber⟩ := hu.afterFrame_registers pad footer
  obtain ⟨hpos, hcrc⟩ := hu.afterFrame_stream pad footer
  have hblock := (congrArg BitVec.toNat hblock).trans hplain.blocksize
  have hchannels := (congrArg BitVec.toNat hchannels).trans hnch
  refine ⟨_, hexec, rfl, rfl, hhcrc, hfcrc, hovf, hidx, ?pos, ?crc, hblock, hchannels,
    (congrArg BitVec.toNat hbps).trans hplain.bps, (congrArg BitVec.toNat hnumber).trans hnum, fun c i hc' hi => ?sample⟩
  case pos => rw [hpos, hh.pos_advance, List.length_append, ← hfooter, length_uBits, Nat.add_assoc]
  case crc =>
    rw [hcrc, List.foldl_append, ← hfooter]
    exact (foldl_step_eq_zero_iff crc16Step_eq rfl _ _).2 rfl
  case sample =>
    have hlength : planes[c].length = blockSizeOf h.block h.blockExt := (hx _ (List.getElem_mem hc')).1
    have hword := hu.filled c i hc' hi
    rw [Nat.zero_add] at hword
    rw [outputSample_interleaved rfl hchannels (by omega) (hplanes ▸ hc') (by omega) (hblock ▸ hl.blockSize_le)]
    exact congrArg some hword

end Sys2Proof.Machine
end

section
/-! PROOFS. The statements of `60_exceptions.md`: what a raise records (O43), and that FAULT is sticky (O42).

How an instruction ends is said once in Laws/Commands.lean (`exec_ends` outside FAULT, `exec_of_fault` in it); here the
raise is told from the other ends by `STATE`, and the host's ways to the block are gone through one by one. -/

namespace Sys2Proof.Machine

variable {i : Instr} {s t u : State}

/-! ## What a raise records -/

/-- A body that ended well leaves `STATE` out of FAULT (rule R30). -/
theorem BodyEnds.st_ne_fault {st : BlockState} (h : BodyEnds i s (.ok st u)) (hs : s.st ≠ .fault) : st ≠ .fault := by
  obtain ⟨-, hcommand, hkind⟩ := h
  by_cases hslot : i.slot = .command
  · rcases hcommand hslot with rfl | ⟨rfl, -⟩ <;> decide
  · rw [hkind hslot]; exact hs

/-- An instruction that enters FAULT raised: its body stood at the raise in a state `u` with the frame index as before,
and the fault was taken there (rule R215). -/
theorem exec_enters_fault (hs : s.st ≠ .fault) (he : exec i s = .next t) (ht : t.st = .fault) :
    ∃ c u, t = takeFault c u ∧ (i.wellFormed = true → c ∈ allowedCauses i) ∧ u.frameIdx = s.frameIdx := by
  by_cases hi : i = .reset
  · subst hi; cases he; cases ht
  obtain ⟨r, e, hr⟩ := exec_ends i hi s hs
  rw [e] at he
  cases r with
  | ok st u => cases he; exact absurd ht (hr.st_ne_fault hs)
  | raised c u =>
    obtain ⟨hc, -, hidx⟩ := hr
    cases he
    exact ⟨c, u, rfl, hc, hidx⟩
  | stopped e => cases he

/-- Settles O43: the record is the one `takeFault` writes, and FAULT is entered by no other end. -/
theorem raiseRecordsAnAllowedCause : Obligations.RaiseRecordsAnAllowedCause := by
  intro i s t hw hs he ht
  obtain ⟨c, u, rfl, hc, hidx⟩ := exec_enters_fault hs he ht
  exact ⟨⟨c, hc hw, rfl⟩, rfl, rfl, hidx⟩

/-! ## FAULT is sticky (rule R217) -/

theorem malformedCommand_of_fault (hs : s.st = .fault) : malformedCommand s = s := if_pos hs

theorem hostWriteRegister_of_fault (hs : s.st = .fault) (num : Nat) (v : HostWord) : hostWriteRegister num v s = s :=
  if_pos hs

/-- In FAULT a command word other than RESET changes nothing, whether or not it decodes (rules R83 and R217). -/
theorem runCommand_of_fault {w : CommandWord} (hs : s.st = .fault) (hw : decode .command 32 w.toNat ≠ .ok .reset) :
    runCommand w s = .next s := by
  cases hd : decode .command 32 w.toNat with
  | ok i =>
    rw [runCommand_of_decode hd]
    exact exec_of_fault (fun hi => hw (hi ▸ hd)) hs
  | error e =>
    unfold runCommand
    rw [hd]
    exact congrArg Host.Outcome.next (malformedCommand_of_fault hs)

/-- Settles O42: each way to the block by the lemma about it, a write of `CMD` as the command word of its low bits. -/
theorem faultIsSticky : Obligations.FaultIsSticky := by
  intro s hs
  refine ⟨fun w hw => runCommand_of_fault hs hw, fun i hi => exec_of_fault hi hs, fun num v hn => ?register,
    fun v hv => ?commandPort, fun a v => ⟨?sample, rfl⟩, fun num hn => act_readReg hn s, fun a => rfl⟩
  case register => rw [act_writeReg hn, hostWriteRegister_of_fault hs]
  case commandPort => exact runCommand_of_fault (w := v.setWidth 32) hs (by rwa [BitVec.toNat_setWidth])
  case sample =>
    obtain ⟨-, -, hignored⟩ := hostWriteSample_spec s a.toNat v
    exact congrArg Host.Outcome.next (hignored hs)

end Sys2Proof.Machine
end
